-- ==== Sys2Proof/Word.lean ====
section
/-! DEFINITION. The two widths of the PSCE (R9, R13, R22): a byte of buffer memory and a 32-bit register. -/

namespace Sys2Proof

/-- A byte of buffer memory, or a byte operand (R62, R91). -/
abbrev Byte := BitVec 8

/-- A 32-bit register, command word, address or length (R22, R80, R91). -/
abbrev Word := BitVec 32

end Sys2Proof
end

