-- ==== Sys2Proof/Config.lean ====
section
/-! DEFINITION. What the spec leaves open: the parameters of R10 and the draws of R16.
The three constants have no body a proof can see: a statement that mentions them holds whatever their values are. -/

namespace Sys2Proof

namespace Config

/-- R16, R209: the draw that a host read of a register of a running command returns, one word per draw. -/
opaque drawWord : Nat → Word

/-- R16, R74, R202: the draw that a byte of a running or aborted command's written region holds, one byte per draw. -/
opaque drawByte : Nat → Byte

/-- R6, R10, R213: the parameter CRC32, some total and pure function of the bytes alone. -/
opaque crc32 : List Byte → Word

end Config

/-- R10, R11: which function the parameter CRC32 of a launch is: the uninterpreted one, or the standard CRC-32 of R11. -/
inductive CrcChoice where
  | parameter
  | standard
  deriving DecidableEq, Repr

end Sys2Proof
end

