-- ==== Sys2Proof/Machine/State.lean ====
section
/-! DEFINITION. The state of the model (R20, R22, R57, R58, R62, R216): the register file, the buffer memory, the
launch's parameters, and the host's side of a run; and the reset state. -/

namespace Sys2Proof.Machine

/-- A region `(addr, n)`: the byte addresses `[addr, addr+n)` (R19). -/
structure Region where
  base : Nat
  len : Nat
  deriving DecidableEq, Repr

/-- The parameters of a launch (R10, R216) that are fixed for the whole run.
`present` is BUFFER_PRESENT as a list of address ranges: every predicate on the 2^32 addresses is a finite union of ranges, so the list loses none. -/
structure Platform where
  engineBase : Nat
  present : List Region
  crc : CrcChoice
  deriving DecidableEq, Repr

/-- CTRL (R25). SOFT_RESET always reads 0 and the reserved bits read 0 (R23), so neither is stored. -/
structure Ctrl where
  crcSkip : Bool
  ancReduced : Bool
  irqEn : Bool
  profGate : Bool
  deriving DecidableEq, Repr

/-- STATUS (R31). The reserved bits read 0 (R23) and are not stored.
`busy` says that a command is outstanding (R32); its word is the CMD register (R57), so no second copy of it is kept. -/
structure Status where
  busy : Bool
  done : Bool
  error : Bool
  iend : Bool
  exhausted : Bool
  corruptSeen : Bool
  profValid : Bool
  overrun : Bool
  deriving DecidableEq, Repr

/-- The register file (R22), one field per register, in the order of the map.
The registers whose upper 24 bits read 0 (R41, R54, R55, R56) hold their byte. -/
structure Regs where
  ctrl : Ctrl
  status : Status
  cmd : Word
  errCode : Byte
  errInfo : Word
  srcAddr : Word
  srcLen : Word
  dstAddr : Word
  dstLen : Word
  auxAddr : Word
  auxLen : Word
  imgWidth : Word
  imgHeight : Word
  outLen : Word
  parseOff : Word
  idatLen : Word
  chunkCount : Word
  corruptCount : Word
  corruptType : Word
  chOff : Word
  chLen : Word
  chType : Word
  chCrc : Word
  hdrFields : Word
  hdrInterlace : Byte
  byteA : Byte
  byteB : Byte
  byteC : Byte
  byteX : Byte
  result : Byte
  deriving DecidableEq, Repr

/-- The error codes the PSCE raises (R180). Codes 7 and 8 are the host's and the others are reserved: the PSCE never raises them (R192). -/
inductive ErrCode where
  | invalidSignature
  | streamTruncated
  | corruptedChunk
  | malformedHeader
  | unsupportedFormat
  | unknownFilterType
  | illegalCommand
  | badArgument
  | capacity
  | payloadSize
  | noProfile
  | noIdat
  deriving DecidableEq, Repr

/-- Buffer memory (R62): address and byte pairs, addresses strictly rising, no pair holding the byte an unlisted address reads as. -/
abbrev Memory := List Host.Cell

/-- The two agents (R20). -/
inductive Agent where
  | host
  | engine
  deriving DecidableEq, Repr

/-- The two calls of the host's Codec Bridge (R94). -/
inductive CodecCall where
  | inflate
  | deflate
  deriving DecidableEq, Repr

/-- One statement of the host program (R94), and the two host actions that R20 and R200 name beside them.
Register accesses carry the host address and the access's size in bytes, so that the accesses R61 refuses can be written down. -/
inductive HostOp where
  /-- `WR`: a register write (R61). -/
  | write (addr size : Nat) (v : Word)
  /-- `RD`: a register read (R61). -/
  | read (addr size : Nat)
  /-- `WAIT`: repeat `RD STATUS` until BUSY reads 0. -/
  | wait
  /-- `MEM`: host stores of the bytes at `addr`, `addr+1`, ... -/
  | store (addr : Nat) (bytes : List Byte)
  /-- A host load of one byte of buffer memory (R20). -/
  | load (addr : Nat)
  /-- `INFLATE` or `DEFLATE (src, n) -> (dst, m)`: `out` is the m bytes that CODEC gives for the statement (R216). -/
  | codec (call : CodecCall) (src n dst : Nat) (out : List Byte)
  /-- The platform's reset input (R200). -/
  | powerOnReset
  deriving DecidableEq, Repr

/-- The whole state. `regs` and `mem` are the PSCE's registers and the buffer memory (R20).
`platform` and `program` are the launch's parameters and the rest of its host program (R216).
The other four fields are the model's own: `schedule` says which agent moves next while a command is outstanding (R191, R214),
`draws` counts the draws taken (R16), `readData` and `loadData` are what the last host register read and memory load returned. -/
structure State where
  regs : Regs
  mem : Memory
  platform : Platform
  program : List HostOp
  schedule : List Agent
  draws : Nat
  readData : Word
  loadData : Byte
  deriving DecidableEq, Repr

/-- Why the machine stops without a next state. -/
inductive Fault where
  /-- An Engine access to an address where BUFFER_PRESENT is false: the Engine is stuck on its command and has no step (R63).
  Raised by every command that reads or writes buffer memory. Safe: the model stops where a real bus does something. -/
  | absentMemory
  /-- HOST_RACE (R16, R75): the host writes a byte of a region of the running command. Raised by the host's stores. Safe: the state is never final. -/
  | hostRace
  deriving DecidableEq, Repr

/-- Why the model gives an access or an instruction no meaning. -/
inductive Refusal where
  /-- An instruction whose meaning is not written; raised by `exec` alone. Safe. -/
  | notModelled (mnemonic : String)
  /-- A register access that is not an aligned 32-bit word inside the register block (R61); raised by the host's register accesses. Safe. -/
  | registerAccess
  /-- A host load or store at an address that holds no memory: the spec does not say what a bus returns there (R216); raised by the host's loads, stores and Codec Bridge calls. Safe. -/
  | absentHostMemory
  deriving DecidableEq, Repr

/-- R25: CTRL resets to 0x00000010. -/
def Ctrl.reset : Ctrl := ⟨false, false, false, true⟩

/-- R31: every STATUS bit resets to 0. -/
def Status.reset : Status := ⟨false, false, false, false, false, false, false, false⟩

/-- R22, R58, R201: CTRL resets to 0x10, PARSE_OFF to 8, every other register to 0. -/
def Regs.reset : Regs where
  ctrl := Ctrl.reset
  status := Status.reset
  cmd := 0
  errCode := 0
  errInfo := 0
  srcAddr := 0
  srcLen := 0
  dstAddr := 0
  dstLen := 0
  auxAddr := 0
  auxLen := 0
  imgWidth := 0
  imgHeight := 0
  outLen := 0
  parseOff := 8
  idatLen := 0
  chunkCount := 0
  corruptCount := 0
  corruptType := 0
  chOff := 0
  chLen := 0
  chType := 0
  chCrc := 0
  hdrFields := 0
  hdrInterlace := 0
  byteA := 0
  byteB := 0
  byteC := 0
  byteX := 0
  result := 0

/-- The launch parameters of the reset state, the model's choice (assumptions 2, 3 and 4): memory at every 32-bit address, the standard CRC-32, register block at 0. -/
def Platform.reset : Platform where
  engineBase := 0
  present := [⟨0, 2 ^ 32⟩]
  crc := .standard

/-- The machine right after reset (R58, R201): the registers at their reset values, no command outstanding, nothing listed in memory, and a launch whose host program is empty. -/
def State.reset : State where
  regs := Regs.reset
  mem := []
  platform := Platform.reset
  program := []
  schedule := []
  draws := 0
  readData := 0
  loadData := 0

end Sys2Proof.Machine
end

