-- ==== Sys2Proof/Syntax.lean ====
section
/-! DEFINITION. The thirteen commands of the PSCE (R2, R87), one constructor per row of the opcode map. -/

namespace Sys2Proof

/-- A command with the fields its row uses (R80, R87).
`ft` is the field FT of bits [10:8] (R82), `first` the field FIRST of bit 11 (R84), `ch` the field CH of bits [13:12] (R85).
FT and CH are kept as the command word holds them, so that the values R89 restricts can be written down; `Instr.wellFormed` refuses them. -/
inductive Instr where
  | checkSig
  | parseInit
  | parseNext
  | parseAll
  | hdrCheck
  | paeth
  | reconByte (ft : BitVec 3)
  | filtByte (ft : BitVec 3)
  | reconRow (first : Bool)
  | filtRow (ft : BitVec 3) (first : Bool)
  | decodeImage
  | isolate (ch : BitVec 2)
  | assemble
  deriving DecidableEq, Repr

end Sys2Proof
end

