-- ==== Sys2Proof/Machine/Flags.lean ====
section
/-! DEFINITION. The bits of CTRL and STATUS as words (R23, R25, R31), the write-1-to-clear rule (R24), the interrupt
output (R189), and the STATUS bits a running command may write (R209). -/

namespace Sys2Proof.Machine

/-- `b * 2^i`: the word whose bit `i` is `b`. -/
def flagAt (i : Nat) (b : Bool) : Word := BitVec.ofNat 32 (b.toNat * 2 ^ i)

/-- R25: what a read of CTRL returns. Bit 0 and the reserved bits read 0. -/
def Ctrl.toWord (c : Ctrl) : Word :=
  flagAt 1 c.crcSkip ||| flagAt 2 c.ancReduced ||| flagAt 3 c.irqEn ||| flagAt 4 c.profGate

/-- R24, R25: what a write of `v` with bit 0 clear stores in CTRL. -/
def Ctrl.ofWord (v : Word) : Ctrl where
  crcSkip := v.getLsbD 1
  ancReduced := v.getLsbD 2
  irqEn := v.getLsbD 3
  profGate := v.getLsbD 4

/-- R31: what a read of STATUS returns while no command is outstanding. -/
def Status.toWord (t : Status) : Word :=
  flagAt 0 t.busy ||| flagAt 1 t.done ||| flagAt 2 t.error ||| flagAt 3 t.iend ||| flagAt 4 t.exhausted
    ||| flagAt 5 t.corruptSeen ||| flagAt 6 t.profValid ||| flagAt 7 t.overrun

/-- R24, R31: a write of `v` to STATUS clears those of DONE, ERROR, CORRUPT_SEEN and OVERRUN whose bit of `v` is 1; the other bits are read-only. -/
def Status.writeOneToClear (t : Status) (v : Word) : Status :=
  { t with
    done := t.done && !v.getLsbD 1
    error := t.error && !v.getLsbD 2
    corruptSeen := t.corruptSeen && !v.getLsbD 5
    overrun := t.overrun && !v.getLsbD 7 }

/-- R189: the interrupt output, IRQ_EN and (DONE or ERROR). -/
def State.irq (s : State) : Bool :=
  s.regs.ctrl.irqEn && (s.regs.status.done || s.regs.status.error)

/-- R57: the outstanding command's word, present exactly while BUSY is 1. -/
def State.outstanding (s : State) : Option Word :=
  if s.regs.status.busy then some s.regs.cmd else none

/-- R209: the bits among IEND, EXHAUSTED, CORRUPT_SEEN and PROF_VALID that a command's rule may write, as a mask of STATUS. -/
def statusBitsWritten : Instr → Word
  | .checkSig => 0
  | .parseInit => 0x38
  | .parseNext => 0x38
  | .parseAll => 0x38
  | .hdrCheck => 0x60
  | .paeth => 0
  | .reconByte _ => 0
  | .filtByte _ => 0
  | .reconRow _ => 0
  | .filtRow _ _ => 0
  | .decodeImage => 0
  | .isolate _ => 0
  | .assemble => 0x20

end Sys2Proof.Machine
end

