-- ==== Sys2Proof/Machine/Ops.lean ====
section
/-! DEFINITION. The named operations: the buffer memory (R62, R63), byte order (R64, R65), the Engine's way of running a
command with its two ends (R15, R184, R185), regions (R19, R67, R68), and reset (R200 to R203). -/

namespace Sys2Proof.Machine

/-! ## Buffer memory -/

/-- What an address that memory does not list reads as (assumption 1: DESIGN CHOICE). -/
def Memory.unlisted : Byte := 0

/-- The byte at an address. -/
def Memory.read : Memory → Nat → Byte
  | [], _ => Memory.unlisted
  | c :: rest, a => if c.1 = a then c.2 else Memory.read rest a

/-- Drop what memory lists for an address. -/
def Memory.erase : Memory → Nat → Memory
  | [], _ => []
  | c :: rest, a => if c.1 = a then Memory.erase rest a else c :: Memory.erase rest a

/-- Put a pair in front of the first pair with a larger address. -/
def Memory.insert : Memory → Nat → Byte → Memory
  | [], a, b => [(a, b)]
  | c :: rest, a, b => if a < c.1 then (a, b) :: c :: rest else c :: Memory.insert rest a b

/-- One byte written (R62); writing what an unlisted address reads as leaves the address unlisted. -/
def Memory.write (m : Memory) (a : Nat) (b : Byte) : Memory :=
  if b = Memory.unlisted then m.erase a else (m.erase a).insert a b

/-- The n bytes at addresses a, a+1, ... in that order (R62, MemRead). -/
def Memory.readN (m : Memory) (a n : Nat) : List Byte :=
  (List.range n).map (fun i => m.read (a + i))

/-- The bytes written at a, a+1, ... in increasing address order (R62, MemWrite). -/
def Memory.writeN : Memory → Nat → List Byte → Memory
  | m, _, [] => m
  | m, a, b :: bs => Memory.writeN (m.write a b) (a + 1) bs

/-- The canonical form: addresses strictly rising, and no pair holding the byte an unlisted address reads as. -/
def Memory.wf : Memory → Bool
  | [] => true
  | [c] => decide (c.2 ≠ Memory.unlisted)
  | c :: d :: rest => decide (c.2 ≠ Memory.unlisted) && decide (c.1 < d.1) && Memory.wf (d :: rest)

/-- R62: the addresses are 0 .. 2^32 - 1. -/
def addressSpace : Nat := 2 ^ 32

/-- R19: an address of a region. -/
def Region.contains (r : Region) (a : Nat) : Bool := decide (r.base ≤ a) && decide (a < r.base + r.len)

/-- R10, R62: BUFFER_PRESENT. -/
def Platform.holds (p : Platform) (a : Nat) : Bool :=
  decide (a < addressSpace) && p.present.any (fun r => Region.contains r a)

/-- Every address of `[a, a+n)` holds memory. -/
def Platform.holdsAll (p : Platform) (a n : Nat) : Bool :=
  (List.range n).all (fun i => p.holds (a + i))

/-! ## Byte order -/

/-- R14, R64: `BE32(s, i)`, the bytes s[i] to s[i+3] with s[i] the most significant. -/
def be32 (bs : List Byte) (i : Nat) : Nat :=
  (bs.getD i 0 ++ bs.getD (i + 1) 0 ++ bs.getD (i + 2) 0 ++ bs.getD (i + 3) 0).toNat

/-- R14: `BE32bytes(v)`, the four bytes of v most significant first. -/
def be32bytes (v : Word) : List Byte :=
  [v.extractLsb' 24 8, v.extractLsb' 16 8, v.extractLsb' 8 8, v.extractLsb' 0 8]

/-- R65: a four-byte type code in a register, first byte in bits [31:24]. -/
def packType (typ : List Byte) : Word := BitVec.ofNat 32 (be32 typ 0)

/-- R181: `min(n, 2^32 - 1)`. -/
def clamp32 (n : Nat) : Word := BitVec.ofNat 32 (min n (2 ^ 32 - 1))

/-! ## Running a command -/

/-- Why a command's pseudocode ends before its last line. -/
inductive Stop where
  /-- `raise E(info)` (R15). -/
  | raised (code : ErrCode) (info : Word)
  /-- An access to an address that holds no memory (R63). -/
  | absent
  deriving DecidableEq, Repr

/-- A piece of a command's pseudocode: it reads and changes the state and ends with a value or a `Stop`.
The state at a `Stop` is the state reached: nothing is rolled back (R186). -/
abbrev Engine := EStateM Stop State

/-- R15: `raise E(info)`. -/
def raise {α : Type} (code : ErrCode) (info : Word) : Engine α := throw (.raised code info)

/-- Go on when a check holds, else raise (R182). -/
def require (ok : Bool) (code : ErrCode) (info : Word) : Engine Unit :=
  if ok then pure () else raise code info

/-- The state with other registers. -/
def State.setRegs (s : State) (r : Regs) : State := { s with regs := r }

/-- The state with another buffer memory. -/
def State.setMem (s : State) (m : Memory) : State := { s with mem := m }

/-- Change registers only. -/
def modifyRegs (f : Regs → Regs) : Engine Unit := modify (fun s => s.setRegs (f s.regs))

/-- Run a piece only when the condition holds. -/
def onlyIf (c : Bool) (x : Engine Unit) : Engine Unit := if c then x else pure ()

/-- R62, R63: MemRead; stuck when a byte of it is absent. -/
def memRead (a n : Nat) : Engine (List Byte) := do
  let s ← get
  if s.platform.holdsAll a n then pure (s.mem.readN a n) else throw .absent

/-- R62, R63: MemWrite; stuck when a byte of it is absent. -/
def memWrite (a : Nat) (bytes : List Byte) : Engine Unit := do
  let s ← get
  if s.platform.holdsAll a bytes.length then set (s.setMem (s.mem.writeN a bytes)) else throw .absent

/-- R180: the number of an error code. -/
def ErrCode.number : ErrCode → Byte
  | .invalidSignature => 1
  | .streamTruncated => 2
  | .corruptedChunk => 3
  | .malformedHeader => 4
  | .unsupportedFormat => 5
  | .unknownFilterType => 6
  | .illegalCommand => 16
  | .badArgument => 17
  | .capacity => 18
  | .payloadSize => 19
  | .noProfile => 20
  | .noIdat => 21

/-- R184: what error completion leaves in the registers. -/
def Regs.raised (r : Regs) (code : ErrCode) (info : Word) : Regs :=
  { r with
    errCode := code.number
    errInfo := info
    status := { r.status with error := true, done := false, busy := false } }

/-- R185: what successful completion leaves in the registers. -/
def Regs.completed (r : Regs) : Regs :=
  { r with status := { r.status with done := true, error := false, busy := false } }

/-- R184: error completion, the PSCE's whole exception entry (R187: no pc is saved, no mode changes, control goes nowhere). -/
def raiseError (code : ErrCode) (info : Word) (s : State) : State :=
  s.setRegs (s.regs.raised code info)

/-- R185: successful completion. There is no return from an error (R188): the host's W1C write or the next issue acknowledges it. -/
def complete (s : State) : State := s.setRegs s.regs.completed

/-- R15, R63, R184, R185: one Engine step, a command's pseudocode run to its end. -/
def runCommand (body : Engine Unit) (s : State) : Host.Outcome State Fault Refusal :=
  match body s with
  | .ok _ t => .next (complete t)
  | .error (.raised code info) t => .next (raiseError code info t)
  | .error .absent _ => .fault .absentMemory

/-! ## Regions -/

/-- R67: a region fits when `addr + n <= 2^32`. -/
def Region.fits (r : Region) : Bool := decide (r.base + r.len ≤ addressSpace)

/-- R68: two regions have an address in common. -/
def Region.overlaps (r q : Region) : Bool :=
  decide (0 < r.len) && decide (0 < q.len) && decide (r.base < q.base + q.len) && decide (q.base < r.base + r.len)

/-- The regions a command uses (R69). -/
structure Regions where
  reads : List Region
  written : Option Region
  deriving DecidableEq, Repr

/-- The address lies in some region of the command (R75). -/
def Regions.contains (rs : Regions) (a : Nat) : Bool :=
  rs.reads.any (fun r => Region.contains r a) || rs.written.any (fun r => Region.contains r a)

/-- R182 step 4: every used region fits. -/
def checkFits (rs : Regions) : Engine Unit :=
  require (rs.reads.all Region.fits && rs.written.all Region.fits) .badArgument 2

/-- R182 step 5: the written region overlaps no used read region. -/
def checkOverlap (rs : Regions) : Engine Unit :=
  require (rs.written.all (fun w => rs.reads.all (fun r => !Region.overlaps w r))) .badArgument 3

/-! ## Reset -/

/-- R202: the bytes of `[a, a+n)` that hold memory, each holding its own draw, counted from `d`. -/
def drawRegion (p : Platform) : Memory → Nat → Nat → Nat → Memory
  | m, _, 0, _ => m
  | m, a, n + 1, d =>
    drawRegion p (if p.holds a then m.write a (Config.drawByte d) else m) (a + 1) n (d + 1)

end Sys2Proof.Machine
end

