-- ==== Sys2Proof/Machine/Crc.lean ====
section
/-! DEFINITION. The parameter CRC32 (R10, R11, R213) of a launch. -/

namespace Sys2Proof.Machine

/-- One bit of the reflected CRC-32 division, polynomial 0xEDB88320 (R11). -/
def crcBit (c : Word) : Word := if c.getLsbD 0 then (c >>> 1) ^^^ 0xEDB88320 else c >>> 1

/-- Eight bits of the division. -/
def crcByte (c : Word) (b : Byte) : Word :=
  crcBit (crcBit (crcBit (crcBit (crcBit (crcBit (crcBit (crcBit (c ^^^ b.setWidth 32))))))))

/-- R11: the standard CRC-32, initial value and final XOR 0xFFFFFFFF. -/
def standardCrc32 (bytes : List Byte) : Word := bytes.foldl crcByte 0xFFFFFFFF ^^^ 0xFFFFFFFF

/-- R10: the function CRC32 of the launch; one total, pure function of the bytes (R213). -/
def crc32 (c : CrcChoice) (bytes : List Byte) : Word :=
  match c with
  | .parameter => Config.crc32 bytes
  | .standard => standardCrc32 bytes

end Sys2Proof.Machine
end

