-- ==== Sys2Proof/WellFormed.lean ====
section
/-! DEFINITION. The field values a command admits (R89). -/

namespace Sys2Proof

/-- R82, R89: a filter type field holds 0 to 4. -/
def legalFilterField (ft : BitVec 3) : Bool := decide (ft.toNat ≤ 4)

/-- R85, R89: a channel field holds 0 to 2. -/
def legalChannelField (ch : BitVec 2) : Bool := decide (ch.toNat ≤ 2)

/-- R89: the field restrictions of each command; FIRST has none. -/
def Instr.wellFormed : Instr → Bool
  | .checkSig => true
  | .parseInit => true
  | .parseNext => true
  | .parseAll => true
  | .hdrCheck => true
  | .paeth => true
  | .reconByte ft => legalFilterField ft
  | .filtByte ft => legalFilterField ft
  | .reconRow _ => true
  | .filtRow ft _ => legalFilterField ft
  | .decodeImage => true
  | .isolate ch => legalChannelField ch
  | .assemble => true

end Sys2Proof
end

