-- ==== Sys2Proof/Decode.lean ====
section
/-! DEFINITION. The command word (R80 to R93): its fields, the opcode map, `decodeWord` (R83) and `encode` (R93).
A command word is never fetched from memory (R77): the bits the decoder reads are the value a CMD write latched. -/

namespace Sys2Proof

/-- R80, R81: OP, bits [7:0]. -/
def opField (w : Word) : BitVec 8 := w.extractLsb' 0 8
/-- R80, R82: FT, bits [10:8]. -/
def ftField (w : Word) : BitVec 3 := w.extractLsb' 8 3
/-- R80, R84: FIRST, bit 11. -/
def firstField (w : Word) : Bool := w.getLsbD 11
/-- R80, R85: CH, bits [13:12]. -/
def chField (w : Word) : BitVec 2 := w.extractLsb' 12 2

/-- One row of the opcode map (R87): the command word's fixed bits, and which restricted fields (R89) the command uses. -/
structure OpcodeRow where
  op : BitVec 8
  pattern : Word
  mask : Word
  usesFT : Bool
  usesCH : Bool
  build : BitVec 3 → Bool → BitVec 2 → Instr

/-- R87, the opcode map, in its order. -/
def opcodeMap : List OpcodeRow :=
  [ ⟨0x01, 0x00000001, 0xFFFFFFFF, false, false, fun _ _ _ => .checkSig⟩,
    ⟨0x02, 0x00000002, 0xFFFFFFFF, false, false, fun _ _ _ => .parseInit⟩,
    ⟨0x03, 0x00000003, 0xFFFFFFFF, false, false, fun _ _ _ => .parseNext⟩,
    ⟨0x04, 0x00000004, 0xFFFFFFFF, false, false, fun _ _ _ => .parseAll⟩,
    ⟨0x08, 0x00000008, 0xFFFFFFFF, false, false, fun _ _ _ => .hdrCheck⟩,
    ⟨0x10, 0x00000010, 0xFFFFFFFF, false, false, fun _ _ _ => .paeth⟩,
    ⟨0x11, 0x00000011, 0xFFFFF8FF, true,  false, fun ft _ _ => .reconByte ft⟩,
    ⟨0x12, 0x00000012, 0xFFFFF8FF, true,  false, fun ft _ _ => .filtByte ft⟩,
    ⟨0x13, 0x00000013, 0xFFFFF7FF, false, false, fun _ first _ => .reconRow first⟩,
    ⟨0x14, 0x00000014, 0xFFFFF0FF, true,  false, fun ft first _ => .filtRow ft first⟩,
    ⟨0x15, 0x00000015, 0xFFFFFFFF, false, false, fun _ _ _ => .decodeImage⟩,
    ⟨0x18, 0x00000018, 0xFFFFCFFF, false, true,  fun _ _ ch => .isolate ch⟩,
    ⟨0x20, 0x00000020, 0xFFFFFFFF, false, false, fun _ _ _ => .assemble⟩ ]

/-- R83, `Decode(v)`: the command of the word, `none` where the spec says ILLEGAL.
Total on every word; a word with a reserved or unused bit set (R86), an unassigned OP (R88) or a restricted field value (R89) is `none`. -/
def decodeWord (w : Word) : Option Instr :=
  match opcodeMap.find? (fun r => r.op == opField w) with
  | none => none
  | some r =>
    if w &&& r.mask ≠ r.pattern then none
    else if r.usesFT && !legalFilterField (ftField w) then none
    else if r.usesCH && !legalChannelField (chField w) then none
    else some (r.build (ftField w) (firstField w) (chField w))

/-- The command in the lowest `nbits` bits of `w`; every bit above them is 0, and no command is longer than one word (R80). -/
def decodeTableWord (nbits w : Nat) : Option Instr :=
  if w % 2 ^ nbits < 2 ^ 32 then decodeWord (BitVec.ofNat 32 (w % 2 ^ nbits)) else none

/-- R93: `word = OP + FT*2^8 + FIRST*2^11 + CH*2^12`. -/
def wordOf (op : Nat) (ft : BitVec 3) (first : Bool) (ch : BitVec 2) : Word :=
  BitVec.ofNat 32 (op + ft.toNat * 2 ^ 8 + first.toNat * 2 ^ 11 + ch.toNat * 2 ^ 12)

/-- R93 with the OP of R87: the command word of a command, every unused field 0. -/
def encode : Instr → Word
  | .checkSig => wordOf 0x01 0 false 0
  | .parseInit => wordOf 0x02 0 false 0
  | .parseNext => wordOf 0x03 0 false 0
  | .parseAll => wordOf 0x04 0 false 0
  | .hdrCheck => wordOf 0x08 0 false 0
  | .paeth => wordOf 0x10 0 false 0
  | .reconByte ft => wordOf 0x11 ft false 0
  | .filtByte ft => wordOf 0x12 ft false 0
  | .reconRow first => wordOf 0x13 0 first 0
  | .filtRow ft first => wordOf 0x14 ft first 0
  | .decodeImage => wordOf 0x15 0 false 0
  | .isolate ch => wordOf 0x18 0 false ch
  | .assemble => wordOf 0x20 0 false 0

/-! ## The written form of a command (R92) -/

/-- One field of the assembler syntax (R92): `ft=<n>`, `ft=<name>`, `first`, `ch=<R|G|B>`. -/
inductive AsmField where
  | ft (n : Nat)
  | ftName (name : String)
  | first
  | ch (name : String)
  deriving DecidableEq, Repr

/-- R82, R92: the names of the filter types. -/
def filterName (name : String) : Option (BitVec 3) :=
  if name = "None" then some 0
  else if name = "Sub" then some 1
  else if name = "Up" then some 2
  else if name = "Average" then some 3
  else if name = "Paeth" then some 4
  else none

/-- R85, R92: the names of the channels. -/
def channelName (name : String) : Option (BitVec 2) :=
  if name = "R" then some 0 else if name = "G" then some 1 else if name = "B" then some 2 else none

/-- R92: FT of a written command: given by number or name, 0 where absent, at most once. -/
def asmFilter : List AsmField → Option (BitVec 3)
  | [] => some 0
  | [.ft n] => if n ≤ 4 then some (BitVec.ofNat 3 n) else none
  | [.ftName name] => filterName name
  | _ => none

/-- R92: the command a mnemonic and its comma-separated fields stand for. An absent field is 0; a field the command does not use, or a field twice, is no command. -/
def assembleText (mnemonic : String) (fields : List AsmField) : Option Instr :=
  let plain (i : Instr) : Option Instr := if fields = [] then some i else none
  if mnemonic = "CHECK_SIG" then plain .checkSig
  else if mnemonic = "PARSE_INIT" then plain .parseInit
  else if mnemonic = "PARSE_NEXT" then plain .parseNext
  else if mnemonic = "PARSE_ALL" then plain .parseAll
  else if mnemonic = "HDR_CHECK" then plain .hdrCheck
  else if mnemonic = "PAETH" then plain .paeth
  else if mnemonic = "RECON_BYTE" then (asmFilter fields).map .reconByte
  else if mnemonic = "FILT_BYTE" then (asmFilter fields).map .filtByte
  else if mnemonic = "RECON_ROW" then
    (if fields = [] then some (.reconRow false) else if fields = [.first] then some (.reconRow true) else none)
  else if mnemonic = "FILT_ROW" then
    (if (fields.filter (· = .first)).length ≤ 1 then
      (asmFilter (fields.filter (· ≠ .first))).map (fun ft => .filtRow ft (decide (.first ∈ fields)))
    else none)
  else if mnemonic = "DECODE_IMAGE" then plain .decodeImage
  else if mnemonic = "ISOLATE" then
    (match fields with
    | [] => some (.isolate 0)
    | [.ch name] => (channelName name).map .isolate
    | _ => none)
  else if mnemonic = "ASSEMBLE" then plain .assemble
  else none

end Sys2Proof
end

