-- ==== Sys2Proof/Machine/Operands.lean ====
section
/-! DEFINITION. The operands of the commands: the register map (R22 to R24), the regions (R69), the geometry (R9), the
filter types and channels (R82, R85), the fixed byte sequences (R10, R12), and the checks of R182 over them. -/

namespace Sys2Proof.Machine

/-! ## Fixed values -/

/-- R10: `SIG`. -/
def pngSignature : List Byte := [0x89, 0x50, 0x4E, 0x47, 0x0D, 0x0A, 0x1A, 0x0A]
/-- R12: "IHDR". -/
def typeIHDR : List Byte := [0x49, 0x48, 0x44, 0x52]
/-- R12: "IDAT". -/
def typeIDAT : List Byte := [0x49, 0x44, 0x41, 0x54]
/-- R12: "IEND". -/
def typeIEND : List Byte := [0x49, 0x45, 0x4E, 0x44]
/-- R8: bytes per pixel. -/
def bpp : Nat := 3
/-- R10: `IHDR_LEN`. -/
def ihdrLen : Nat := 13

/-! ## The register map -/

/-- The registers of the map (R22). -/
inductive RegName where
  | ctrl | status | cmd | errCode | errInfo | srcAddr | srcLen | dstAddr | dstLen | auxAddr | auxLen
  | imgWidth | imgHeight | outLen | parseOff | idatLen | chunkCount | corruptCount | corruptType
  | chOff | chLen | chType | chCrc | hdrFields | hdrInterlace | byteA | byteB | byteC | byteX | result
  deriving DecidableEq, Repr

/-- R22: the registers in the order of their offsets, 0x00, 0x04, ... 0x74. -/
def registerMap : List RegName :=
  [.ctrl, .status, .cmd, .errCode, .errInfo, .srcAddr, .srcLen, .dstAddr, .dstLen, .auxAddr, .auxLen,
   .imgWidth, .imgHeight, .outLen, .parseOff, .idatLen, .chunkCount, .corruptCount, .corruptType,
   .chOff, .chLen, .chType, .chCrc, .hdrFields, .hdrInterlace, .byteA, .byteB, .byteC, .byteX, .result]

/-- R22: the offset of a register. -/
def RegName.offset (r : RegName) : Nat := 4 * registerMap.idxOf r

/-- R22, R23: the register at an aligned offset of the block; none at the reserved offsets. -/
def registerAt (offset : Nat) : Option RegName := registerMap[offset / 4]?

/-- R22: the 32-bit value a register holds; the bits a narrow register does not store read 0 (R23, R41, R54, R55, R56). -/
def Regs.value (r : Regs) : RegName → Word
  | .ctrl => r.ctrl.toWord
  | .status => r.status.toWord
  | .cmd => r.cmd
  | .errCode => r.errCode.setWidth 32
  | .errInfo => r.errInfo
  | .srcAddr => r.srcAddr
  | .srcLen => r.srcLen
  | .dstAddr => r.dstAddr
  | .dstLen => r.dstLen
  | .auxAddr => r.auxAddr
  | .auxLen => r.auxLen
  | .imgWidth => r.imgWidth
  | .imgHeight => r.imgHeight
  | .outLen => r.outLen
  | .parseOff => r.parseOff
  | .idatLen => r.idatLen
  | .chunkCount => r.chunkCount
  | .corruptCount => r.corruptCount
  | .corruptType => r.corruptType
  | .chOff => r.chOff
  | .chLen => r.chLen
  | .chType => r.chType
  | .chCrc => r.chCrc
  | .hdrFields => r.hdrFields
  | .hdrInterlace => r.hdrInterlace.setWidth 32
  | .byteA => r.byteA.setWidth 32
  | .byteB => r.byteB.setWidth 32
  | .byteC => r.byteC.setWidth 32
  | .byteX => r.byteX.setWidth 32
  | .result => r.result.setWidth 32

/-- The value a read of an offset of the block returns while no command is outstanding; a reserved offset reads 0 (R23). -/
def Regs.valueAt (r : Regs) (offset : Nat) : Word :=
  match registerAt offset with
  | none => 0
  | some name => r.value name

/-- What a host write of `v` to a register stores while no command is outstanding, by the register's access class (R24).
A write to IMG_WIDTH or IMG_HEIGHT also clears PROF_VALID (R38).
The two writes that do more, CMD (R40) and CTRL with bit 0 set (R26), are the host access's own. -/
def Regs.store (r : Regs) (name : RegName) (v : Word) : Regs :=
  match name with
  | .ctrl => { r with ctrl := Ctrl.ofWord v }
  | .status => { r with status := r.status.writeOneToClear v }
  | .cmd => r
  | .errCode => r
  | .errInfo => r
  | .srcAddr => { r with srcAddr := v }
  | .srcLen => { r with srcLen := v }
  | .dstAddr => { r with dstAddr := v }
  | .dstLen => { r with dstLen := v }
  | .auxAddr => { r with auxAddr := v }
  | .auxLen => { r with auxLen := v }
  | .imgWidth => { r with imgWidth := v, status := { r.status with profValid := false } }
  | .imgHeight => { r with imgHeight := v, status := { r.status with profValid := false } }
  | .outLen => r
  | .parseOff => { r with parseOff := v }
  | .idatLen => r
  | .chunkCount => r
  | .corruptCount => r
  | .corruptType => r
  | .chOff => r
  | .chLen => r
  | .chType => r
  | .chCrc => r
  | .hdrFields => r
  | .hdrInterlace => r
  | .byteA => { r with byteA := v.setWidth 8 }
  | .byteB => { r with byteB := v.setWidth 8 }
  | .byteC => { r with byteC := v.setWidth 8 }
  | .byteX => { r with byteX := v.setWidth 8 }
  | .result => r

/-! ## Regions -/

/-- R43: the SRC region. -/
def Regs.src (r : Regs) : Region := ⟨r.srcAddr.toNat, r.srcLen.toNat⟩
/-- R44: the DST region. -/
def Regs.dst (r : Regs) : Region := ⟨r.dstAddr.toNat, r.dstLen.toNat⟩
/-- R45: the AUX region. -/
def Regs.aux (r : Regs) : Region := ⟨r.auxAddr.toNat, r.auxLen.toNat⟩

/-- R69: the regions each command uses. -/
def regionsOf (r : Regs) : Instr → Regions
  | .checkSig => ⟨[r.src], none⟩
  | .parseInit => ⟨[], none⟩
  | .parseNext => ⟨[r.src], some r.dst⟩
  | .parseAll => ⟨[r.src], some r.dst⟩
  | .hdrCheck => ⟨[r.src], none⟩
  | .paeth => ⟨[], none⟩
  | .reconByte _ => ⟨[], none⟩
  | .filtByte _ => ⟨[], none⟩
  | .reconRow first => ⟨if first then [r.src] else [r.src, r.aux], some r.dst⟩
  | .filtRow _ first => ⟨if first then [r.src] else [r.src, r.aux], some r.dst⟩
  | .decodeImage => ⟨[r.src], some r.dst⟩
  | .isolate _ => ⟨[r.src], some r.dst⟩
  | .assemble => ⟨[r.src, r.aux], some r.dst⟩

/-- R69 for the command a word decodes to; an illegal word uses no region. -/
def regionsOfWord (r : Regs) (w : Word) : Regions :=
  match decodeWord w with
  | none => ⟨[], none⟩
  | some i => regionsOf r i

/-- The regions of the running command (R73 to R75, R202); none while no command is outstanding. -/
def State.runningRegions (s : State) : Regions :=
  match s.outstanding with
  | none => ⟨[], none⟩
  | some w => regionsOfWord s.regs w

/-! ## Geometry (R9) -/

/-- R9: `ROWLEN(W) = 3*W`, an exact integer. -/
def Regs.rowLen (r : Regs) : Nat := 3 * r.imgWidth.toNat
/-- R9: `STRIDE(W) = 1 + 3*W`, an exact integer. -/
def Regs.stride (r : Regs) : Nat := 1 + 3 * r.imgWidth.toNat

/-! ## Filter types and channels -/

/-- R18, R82: the filter types. -/
inductive FilterType where
  | none | sub | up | average | paeth
  deriving DecidableEq, Repr

/-- R82: None = 0, Sub = 1, Up = 2, Average = 3, Paeth = 4; no other value is a filter type. -/
def FilterType.ofCode (n : Nat) : Option FilterType :=
  if n = 0 then some .none
  else if n = 1 then some .sub
  else if n = 2 then some .up
  else if n = 3 then some .average
  else if n = 4 then some .paeth
  else Option.none

/-- R82: the number of a filter type, as a byte of a row record. -/
def FilterType.code : FilterType → Byte
  | .none => 0
  | .sub => 1
  | .up => 2
  | .average => 3
  | .paeth => 4

/-- R182 step 1 for the field FT (R89): the filter type the command applies. -/
def filterOperand (ft : BitVec 3) : Engine FilterType := do
  let s ← get
  match FilterType.ofCode ft.toNat with
  | some f => pure f
  | Option.none => raise .illegalCommand s.regs.cmd

/-- R182 step 1 for the field CH (R85, R89): the channel's offset in a pixel, R = 0, G = 1, B = 2. -/
def channelOperand (ch : BitVec 2) : Engine Nat := do
  let s ← get
  if ch.toNat ≤ 2 then pure ch.toNat else raise .illegalCommand s.regs.cmd

/-! ## The checks of R182 -/

/-- R182 step 2: the profile gate (R30). -/
def checkGate : Engine Unit := do
  let s ← get
  require (!(s.regs.ctrl.profGate && !s.regs.status.profValid)) .noProfile 0

/-- R182 step 3 for the row commands: the width is not 0. -/
def checkWidth : Engine Unit := do
  let s ← get
  require (decide (s.regs.imgWidth ≠ 0)) .badArgument 1

/-- R182 step 3 for the image commands: neither dimension is 0. -/
def checkDimensions : Engine Unit := do
  let s ← get
  require (decide (s.regs.imgWidth ≠ 0) && decide (s.regs.imgHeight ≠ 0)) .badArgument 1

/-- R182 steps 4 and 5 over the regions of a command (R69). -/
def checkRegions (i : Instr) : Engine Unit := do
  let s ← get
  checkFits (regionsOf s.regs i)
  checkOverlap (regionsOf s.regs i)

/-- R182 step 6 for the parser: `PARSE_OFF <= SRC_LEN`. -/
def checkCursor : Engine Unit := do
  let s ← get
  require (decide (s.regs.parseOff.toNat ≤ s.regs.srcLen.toNat)) .badArgument 4

/-- R182 step 6 for HDR_CHECK and ASSEMBLE: `SRC_LEN >= 8`. -/
def checkStream : Engine Unit := do
  let s ← get
  require (decide (8 ≤ s.regs.srcLen.toNat)) .badArgument 4

/-- R182 step 7: an input region has exactly the length the geometry needs. -/
def checkLength (have_ need : Nat) : Engine Unit := require (decide (have_ = need)) .payloadSize (clamp32 need)

/-- R182 step 8: the output region is large enough. -/
def checkCapacity (have_ need : Nat) : Engine Unit := require (decide (need ≤ have_)) .capacity (clamp32 need)

/-! ## Reset -/

/-- R200 to R203: the effect of either reset. The registers take their reset values and an outstanding command is discarded;
each byte of the aborted command's written region holds a draw, and the rest of memory is unchanged. -/
def resetEngine (s : State) : State :=
  match s.runningRegions.written with
  | none => s.setRegs Regs.reset
  | some r =>
    { s with
      regs := Regs.reset
      mem := drawRegion s.platform s.mem r.base r.len s.draws
      draws := s.draws + r.len }

end Sys2Proof.Machine
end

