-- ==== Sys2Proof/Machine/ChunkStream.lean ====
section
/-! DEFINITION. The chunk stream parser (R100 to R109): ReadChunk, OnMismatch, ParseStep, and CHECK_SIG, PARSE_INIT,
PARSE_NEXT, PARSE_ALL. -/

namespace Sys2Proof.Machine

/-- What ReadChunk returns (R100): the declared length, the four type bytes, the data, and whether the CRC is good (R101). -/
structure Chunk where
  len : Nat
  typ : List Byte
  data : List Byte
  good : Bool
  deriving DecidableEq, Repr

/-- R53, R100: the descriptor of a chunk read whole. -/
def Regs.setDescriptor (r : Regs) (off len : Nat) (typ : List Byte) (stored : Word) : Regs :=
  { r with
    chOff := BitVec.ofNat 32 off
    chLen := BitVec.ofNat 32 len
    chType := packType typ
    chCrc := stored }

/-- R100, R101: read the whole chunk at offset `off` of the stream. -/
def readChunk (off : Nat) : Engine Chunk := do
  let s ← get
  let rem := s.regs.srcLen.toNat - off
  require (decide (12 ≤ rem)) .streamTruncated (BitVec.ofNat 32 off)
  let hdr ← memRead (s.regs.srcAddr.toNat + off) 8
  let len := be32 hdr 0
  let typ := hdr.drop 4
  require (decide (12 + len ≤ rem)) .streamTruncated (BitVec.ofNat 32 off)
  let data ← memRead (s.regs.srcAddr.toNat + off + 8) len
  let crcBytes ← memRead (s.regs.srcAddr.toNat + off + 8 + len) 4
  let stored : Word := BitVec.ofNat 32 (be32 crcBytes 0)
  modifyRegs (fun r => r.setDescriptor off len typ stored)
  pure ⟨len, typ, data, crc32 s.platform.crc (typ ++ data) == stored⟩

/-- R102: the record of a CRC mismatch. -/
def Regs.recordMismatch (r : Regs) (typ : List Byte) : Regs :=
  { r with
    status := { r.status with corruptSeen := true }
    corruptCount := r.corruptCount + 1
    corruptType := packType typ }

/-- R102: OnMismatch; it returns only under the skip policy (R27). -/
def onMismatch (typ : List Byte) : Engine Unit := do
  modifyRegs (fun r => r.recordMismatch typ)
  let s ← get
  require s.regs.ctrl.crcSkip .corruptedChunk (packType typ)

/-- R48: the next chunk's offset. -/
def Regs.setCursor (r : Regs) (off : Nat) : Regs := { r with parseOff := BitVec.ofNat 32 off }

/-- R105: PARSE_OFF advances over the chunk at `off`. -/
def advanceCursor (off len : Nat) : Engine Unit := modifyRegs (fun r => r.setCursor (off + 12 + len))

/-- R49: the payload bytes collected. -/
def Regs.setPayloadLen (r : Regs) (n : Nat) : Regs := { r with idatLen := BitVec.ofNat 32 n }

/-- R50: one more chunk accepted. -/
def Regs.countChunk (r : Regs) : Regs := { r with chunkCount := r.chunkCount + 1 }

/-- R35: a good "IEND" has been accepted. -/
def Regs.setIend (r : Regs) : Regs := { r with status := { r.status with iend := true } }

/-- R36: the end of the stream has been reached without "IEND". -/
def Regs.setExhausted (r : Regs) : Regs := { r with status := { r.status with exhausted := true } }

/-- R105: an IDAT's data is put behind the payload collected so far. -/
def appendPayload (c : Chunk) : Engine Unit := do
  let s ← get
  let need := s.regs.idatLen.toNat + c.len
  checkCapacity s.regs.dstLen.toNat need
  memWrite (s.regs.dstAddr.toNat + s.regs.idatLen.toNat) c.data
  modifyRegs (fun r => r.setPayloadLen need)

/-- R105, R106: a good chunk is accepted; its type matters only when it is "IDAT" or "IEND". -/
def acceptChunk (off : Nat) (c : Chunk) : Engine Unit := do
  onlyIf (c.typ == typeIDAT) (appendPayload c)
  modifyRegs Regs.countChunk
  advanceCursor off c.len
  onlyIf (c.typ == typeIEND) (modifyRegs Regs.setIend)

/-- R105: what ParseStep does with the chunk it has read. -/
def handleChunk (off : Nat) (c : Chunk) : Engine Unit := do
  if c.good then acceptChunk off c
  else do
    onMismatch c.typ
    advanceCursor off c.len

/-- R105: ParseStep. -/
def parseStep : Engine Unit := do
  let s ← get
  if s.regs.parseOff.toNat = s.regs.srcLen.toNat then
    modifyRegs Regs.setExhausted
  else do
    let c ← readChunk s.regs.parseOff.toNat
    handleChunk s.regs.parseOff.toNat c

/-- R35, R36: the chunk sequence has ended. -/
def Regs.sequenceEnded (r : Regs) : Bool := r.status.iend || r.status.exhausted

/-- The checks of PARSE_NEXT and PARSE_ALL (R105, R107): R182 steps 4, 5 and 6. -/
def parserChecks (i : Instr) : Engine Unit := do
  checkRegions i
  checkCursor

/-- R107: the walk of PARSE_ALL. `fuel` bounds the iterations; `parseFuel` of them are enough (R108). -/
def parseLoop : Nat → Engine Unit
  | 0 => pure ()
  | fuel + 1 => do
    let s ← get
    if s.regs.sequenceEnded then pure ()
    else do
      parseStep
      parseLoop fuel

/-- R108: one iteration for each ParseStep there can be, and one that finds the sequence ended. -/
def parseFuel (r : Regs) : Nat := (r.srcLen.toNat - r.parseOff.toNat) / 12 + 2

/-- R103: the index of the first byte of SIG that the stream's first bytes miss. -/
def firstBadSignatureByte (s : List Byte) : Option Nat :=
  (List.range 8).find? (fun i => decide (s.length ≤ i) || s.getD i 0 != pngSignature.getD i 0)

/-- R103: the pseudocode of CHECK_SIG. -/
def checkSigBody : Engine Unit := do
  checkRegions .checkSig
  let s ← get
  let bytes ← memRead s.regs.srcAddr.toNat (min s.regs.srcLen.toNat 8)
  match firstBadSignatureByte bytes with
  | some i => raise .invalidSignature (BitVec.ofNat 32 i)
  | none => pure ()

/-- R104: what PARSE_INIT leaves in the registers. -/
def Regs.parseInit (r : Regs) : Regs :=
  { r with
    parseOff := 8
    idatLen := 0
    chunkCount := 0
    corruptCount := 0
    corruptType := 0
    chOff := 0
    chLen := 0
    chType := 0
    chCrc := 0
    status := { r.status with iend := false, exhausted := false, corruptSeen := false } }

/-- R105: the pseudocode of PARSE_NEXT. -/
def parseNextBody : Engine Unit := do
  parserChecks .parseNext
  let s ← get
  if s.regs.sequenceEnded then pure () else parseStep

/-- R107: the pseudocode of PARSE_ALL. -/
def parseAllBody : Engine Unit := do
  parserChecks .parseAll
  let s ← get
  parseLoop (parseFuel s.regs)

/-- CHECK_SIG (R103). -/
def execCheckSig (s : State) : Host.Outcome State Fault Refusal := runCommand checkSigBody s

/-- PARSE_INIT (R104). -/
def execParseInit (s : State) : Host.Outcome State Fault Refusal := runCommand (modifyRegs Regs.parseInit) s

/-- PARSE_NEXT (R105). -/
def execParseNext (s : State) : Host.Outcome State Fault Refusal := runCommand parseNextBody s

/-- PARSE_ALL (R107). -/
def execParseAll (s : State) : Host.Outcome State Fault Refusal := runCommand parseAllBody s

end Sys2Proof.Machine
end

