-- ==== Sys2Proof/Machine/Scanline.lean ====
section
/-! DEFINITION. The scanline codec (R130 to R145): the predictor, reconstruction and filtering of bytes and rows, and PAETH,
RECON_BYTE, FILT_BYTE, RECON_ROW, FILT_ROW, DECODE_IMAGE. -/

namespace Sys2Proof.Machine

/-! ## Pure functions -/

/-- R131: the Paeth predictor on exact integers, ties to a, then b, then c. -/
def paethPredictor (a b c : Byte) : Byte :=
  let p : Int := (a.toNat : Int) + b.toNat - c.toNat
  let pa := (p - a.toNat).natAbs
  let pb := (p - b.toNat).natAbs
  let pc := (p - c.toNat).natAbs
  if pa ≤ pb ∧ pa ≤ pc then a else if pb ≤ pc then b else c

/-- R130: the predictor of a filter type. -/
def predictor (ft : FilterType) (a b c : Byte) : Byte :=
  match ft with
  | .none => 0
  | .sub => a
  | .up => b
  | .average => BitVec.ofNat 8 ((a.toNat + b.toNat) / 2)
  | .paeth => paethPredictor a b c

/-- R132: `(f + Pred) mod 256`. -/
def recon (ft : FilterType) (f a b c : Byte) : Byte :=
  BitVec.ofNat 8 ((f.toNat + (predictor ft a b c).toNat) % 256)

/-- R133: `(r - Pred) mod 256`. -/
def filt (ft : FilterType) (r a b c : Byte) : Byte :=
  BitVec.ofInt 8 (((r.toNat : Int) - (predictor ft a b c).toNat) % 256)

/-- R17, R134: the byte BPP positions to the left of position x, 0 when out of bounds. -/
def leftOf (row : List Byte) (x : Nat) : Byte := if bpp ≤ x then row.getD (x - bpp) 0 else 0

/-- R135: row reconstruction, left to right; `raw` holds the bytes reconstructed so far. -/
def reconRowFrom (ft : FilterType) (prior : List Byte) : List Byte → List Byte → List Byte
  | raw, [] => raw
  | raw, f :: fs =>
    reconRowFrom ft prior
      (raw ++ [recon ft f (leftOf raw raw.length) (prior.getD raw.length 0) (leftOf prior raw.length)]) fs

/-- R135: `ReconRow(ft, f, prior)`. -/
def reconRow (ft : FilterType) (f prior : List Byte) : List Byte := reconRowFrom ft prior [] f

/-- R136: `FilterRow(ft, raw, prior)`, every neighbour a raw byte. -/
def filterRow (ft : FilterType) (raw prior : List Byte) : List Byte :=
  (List.range raw.length).map (fun x =>
    filt ft (raw.getD x 0) (leftOf raw x) (prior.getD x 0) (leftOf prior x))

/-! ## Byte commands -/

/-- R56: a byte result. -/
def Regs.setResult (r : Regs) (b : Byte) : Regs := { r with result := b }

/-- R137: the pseudocode of PAETH. -/
def paethBody : Engine Unit :=
  modifyRegs (fun r => r.setResult (paethPredictor r.byteA r.byteB r.byteC))

/-- R138: the pseudocode of RECON_BYTE. -/
def reconByteBody (ft : BitVec 3) : Engine Unit := do
  let f ← filterOperand ft
  modifyRegs (fun r => r.setResult (recon f r.byteX r.byteA r.byteB r.byteC))

/-- R139: the pseudocode of FILT_BYTE. -/
def filtByteBody (ft : BitVec 3) : Engine Unit := do
  let f ← filterOperand ft
  modifyRegs (fun r => r.setResult (filt f r.byteX r.byteA r.byteB r.byteC))

/-! ## Row commands -/

/-- R47: the bytes written to DST. -/
def Regs.setOutLen (r : Regs) (n : Nat) : Regs := { r with outLen := BitVec.ofNat 32 n }

/-- R47: OUT_LEN after what has been written. -/
def setOutLen (n : Nat) : Engine Unit := modifyRegs (fun r => r.setOutLen n)

/-- R84, R140, R141: the previous raw row, n zero bytes with FIRST = 1, else the AUX region. -/
def priorRow (first : Bool) (n : Nat) : Engine (List Byte) := do
  let s ← get
  if first then pure (List.replicate n 0) else memRead s.regs.auxAddr.toNat n

/-- R140, R141: R182 step 7 for the AUX region, used with FIRST = 0 only. -/
def checkAuxLength (first : Bool) (n : Nat) : Engine Unit := do
  let s ← get
  if first then pure () else checkLength s.regs.auxLen.toNat n

/-- R140: the pseudocode of RECON_ROW. -/
def reconRowBody (first : Bool) : Engine Unit := do
  let s ← get
  let n := s.regs.rowLen
  checkGate
  checkWidth
  checkRegions (.reconRow first)
  checkLength s.regs.srcLen.toNat (1 + n)
  checkAuxLength first n
  checkCapacity s.regs.dstLen.toNat n
  let record ← memRead s.regs.srcAddr.toNat (1 + n)
  match FilterType.ofCode (record.headD 0).toNat with
  | Option.none => raise .unknownFilterType 0
  | some ft => do
    let prior ← priorRow first n
    memWrite s.regs.dstAddr.toNat (reconRow ft (record.drop 1) prior)
    setOutLen n

/-- R141: the pseudocode of FILT_ROW. -/
def filtRowBody (ft : BitVec 3) (first : Bool) : Engine Unit := do
  let f ← filterOperand ft
  let s ← get
  let n := s.regs.rowLen
  checkGate
  checkWidth
  checkRegions (.filtRow ft first)
  checkLength s.regs.srcLen.toNat n
  checkAuxLength first n
  checkCapacity s.regs.dstLen.toNat (1 + n)
  let raw ← memRead s.regs.srcAddr.toNat n
  let prior ← priorRow first n
  memWrite s.regs.dstAddr.toNat (f.code :: filterRow f raw prior)
  setOutLen (1 + n)

/-! ## Image decode -/

/-- R142: the raw row before row y, read back from the grid; zeros for row 0. -/
def gridPriorRow (y : Nat) : Engine (List Byte) := do
  let s ← get
  if y = 0 then pure (List.replicate s.regs.rowLen 0)
  else memRead (s.regs.dstAddr.toNat + (y - 1) * s.regs.rowLen) s.regs.rowLen

/-- R142: one row of DECODE_IMAGE. -/
def decodeImageRow (y : Nat) : Engine Unit := do
  let s ← get
  let n := s.regs.rowLen
  let record ← memRead (s.regs.srcAddr.toNat + y * s.regs.stride) s.regs.stride
  match FilterType.ofCode (record.headD 0).toNat with
  | Option.none => raise .unknownFilterType (BitVec.ofNat 32 y)
  | some ft => do
    let prior ← gridPriorRow y
    memWrite (s.regs.dstAddr.toNat + y * n) (reconRow ft (record.drop 1) prior)
    setOutLen ((y + 1) * n)

/-- R142: rows y, y+1, ... in increasing order, `count` of them. -/
def decodeImageRows (y : Nat) : Nat → Engine Unit
  | 0 => pure ()
  | count + 1 => do
    decodeImageRow y
    decodeImageRows (y + 1) count

/-- R142: the pseudocode of DECODE_IMAGE. -/
def decodeImageBody : Engine Unit := do
  let s ← get
  let h := s.regs.imgHeight.toNat
  checkGate
  checkDimensions
  checkRegions .decodeImage
  checkLength s.regs.srcLen.toNat (h * s.regs.stride)
  checkCapacity s.regs.dstLen.toNat (h * s.regs.rowLen)
  decodeImageRows 0 h

/-- PAETH (R137). -/
def execPaeth (s : State) : Host.Outcome State Fault Refusal := runCommand paethBody s

/-- RECON_BYTE (R138). -/
def execReconByte (ft : BitVec 3) (s : State) : Host.Outcome State Fault Refusal := runCommand (reconByteBody ft) s

/-- FILT_BYTE (R139). -/
def execFiltByte (ft : BitVec 3) (s : State) : Host.Outcome State Fault Refusal := runCommand (filtByteBody ft) s

/-- RECON_ROW (R140). -/
def execReconRow (first : Bool) (s : State) : Host.Outcome State Fault Refusal := runCommand (reconRowBody first) s

/-- FILT_ROW (R141). -/
def execFiltRow (ft : BitVec 3) (first : Bool) (s : State) : Host.Outcome State Fault Refusal :=
  runCommand (filtRowBody ft first) s

/-- DECODE_IMAGE (R142). -/
def execDecodeImage (s : State) : Host.Outcome State Fault Refusal := runCommand decodeImageBody s

end Sys2Proof.Machine
end

