-- ==== Sys2Proof/Machine/Assemble.lean ====
section
/-! DEFINITION. The container assembler (R165 to R171): ASSEMBLE. -/

namespace Sys2Proof.Machine

/-- R167: a chunk of the original stream that the walk keeps. -/
structure KeptChunk where
  off : Nat
  len : Nat
  typ : List Byte
  deriving DecidableEq, Repr

/-- R165: `NewIdat(p)`. It carries the CRC32 of its own type and data, so it reads back as a good chunk (R171). -/
def newIdat (c : CrcChoice) (p : List Byte) : List Byte :=
  be32bytes (BitVec.ofNat 32 p.length) ++ typeIDAT ++ p ++ be32bytes (crc32 c (typeIDAT ++ p))

/-- R166, R170: `Emit` at `o` bytes emitted so far; it answers the new count.
Before a CAPACITY error that follows an emission, the signature's eight bytes are zeroed. -/
def emit (o : Nat) (bytes : List Byte) : Engine Nat := do
  let s ← get
  if s.regs.dstLen.toNat < o + bytes.length then do
    onlyIf (decide (0 < o)) (memWrite s.regs.dstAddr.toNat (List.replicate 8 0))
    raise .capacity (clamp32 (o + bytes.length))
  else do
    memWrite (s.regs.dstAddr.toNat + o) bytes
    pure (o + bytes.length)

/-- R166: `Verbatim(off, len)`, the original chunk's bytes. -/
def verbatim (c : KeptChunk) : Engine (List Byte) := do
  let s ← get
  memRead (s.regs.srcAddr.toNat + c.off) (12 + c.len)

/-- R167 phase 1: the walk from `off`. Only chunks that were good when read are kept (R171). `fuel` bounds the chunks; `walkFuel` of them are enough (R215). -/
def walkChunks (off : Nat) : Nat → Engine (List KeptChunk)
  | 0 => raise .streamTruncated (BitVec.ofNat 32 off)
  | fuel + 1 => do
    let s ← get
    if off = s.regs.srcLen.toNat then raise .streamTruncated (BitVec.ofNat 32 off)
    else do
      let c ← readChunk off
      if c.good then
        if c.typ = typeIEND then pure [⟨off, c.len, c.typ⟩]
        else do
          let rest ← walkChunks (off + 12 + c.len) fuel
          pure (⟨off, c.len, c.typ⟩ :: rest)
      else do
        onMismatch c.typ
        walkChunks (off + 12 + c.len) fuel

/-- R215: one iteration for each chunk there can be, and one that finds the end of the stream. -/
def walkFuel (r : Regs) : Nat := (r.srcLen.toNat - 8) / 12 + 2

/-- R168: the chunks of variant (a) in stream order; the first IDAT is replaced and the others are dropped. -/
def emitVariantA (p : List Byte) : Nat → Bool → List KeptChunk → Engine Nat
  | o, _, [] => pure o
  | o, replaced, c :: rest => do
    if c.typ = typeIDAT then
      if replaced then emitVariantA p o true rest
      else do
        let s ← get
        let o' ← emit o (newIdat s.platform.crc p)
        emitVariantA p o' true rest
    else do
      let bytes ← verbatim c
      let o' ← emit o bytes
      emitVariantA p o' replaced rest

/-- R168: variant (a). -/
def variantA (chunks : List KeptChunk) (p : List Byte) : Engine Nat := do
  require (chunks.any (fun c => c.typ == typeIDAT)) .noIdat 0
  let o ← emit 0 pngSignature
  emitVariantA p o false chunks

/-- R169: variant (b). -/
def variantB (chunks : List KeptChunk) (p : List Byte) : Engine Nat := do
  match chunks.find? (fun c => c.typ == typeIHDR), chunks.getLast? with
  | some ih, some ie => do
    let o ← emit 0 pngSignature
    let ihBytes ← verbatim ih
    let o ← emit o ihBytes
    let s ← get
    let o ← emit o (newIdat s.platform.crc p)
    let ieBytes ← verbatim ie
    emit o ieBytes
  | _, _ => raise .malformedHeader 5

/-- R28, R167: the variant that ANC_REDUCED selects. -/
def emitVariant (reduced : Bool) (chunks : List KeptChunk) (p : List Byte) : Engine Nat :=
  if reduced then variantB chunks p else variantA chunks p

/-- R167: the pseudocode of ASSEMBLE. -/
def assembleBody : Engine Unit := do
  checkRegions .assemble
  checkStream
  let s ← get
  let chunks ← walkChunks 8 (walkFuel s.regs)
  let p ← memRead s.regs.auxAddr.toNat s.regs.auxLen.toNat
  let o ← emitVariant s.regs.ctrl.ancReduced chunks p
  setOutLen o

/-- ASSEMBLE (R167). The re-parse law that the spec derives of it (R171) is `Obligations.AssembledStreamsParseBack`. -/
def execAssemble (s : State) : Host.Outcome State Fault Refusal := runCommand assembleBody s

end Sys2Proof.Machine
end

