-- ==== Sys2Proof/Machine/Header.lean ====
section
/-! DEFINITION. The header validator (R120 to R123): HDR_CHECK. -/

namespace Sys2Proof.Machine

/-- R38, R121: the first effect of HDR_CHECK. -/
def Regs.dropProfile (r : Regs) : Regs := { r with status := { r.status with profValid := false } }

/-- R54: bit depth, color type, compression and filter method of the IHDR data, the first in bits [7:0]. -/
def headerFields (data : List Byte) : Word :=
  data.getD 11 0 ++ data.getD 10 0 ++ data.getD 9 0 ++ data.getD 8 0

/-- R54, R120, R121: the five single-byte fields of the 13 bytes of IHDR data. -/
def Regs.captureHeader (r : Regs) (data : List Byte) : Regs :=
  { r with
    hdrFields := headerFields data
    hdrInterlace := data.getD 12 0 }

/-- R121: the ImageProfile is loaded. -/
def Regs.loadProfile (r : Regs) (width height : Nat) : Regs :=
  { r with
    imgWidth := BitVec.ofNat 32 width
    imgHeight := BitVec.ofNat 32 height
    status := { r.status with profValid := true } }

/-- R121, R122: the field values of a good 13-byte IHDR, in the fixed order. -/
def checkHeaderFields (data : List Byte) : Engine Unit := do
  require (decide (be32 data 0 ≠ 0) && decide (be32 data 4 ≠ 0)) .malformedHeader 2
  require (data.getD 8 0 == 8) .unsupportedFormat 1
  require (data.getD 9 0 == 2) .unsupportedFormat 2
  require (data.getD 10 0 == 0) .unsupportedFormat 3
  require (data.getD 11 0 == 0) .unsupportedFormat 4
  require (data.getD 12 0 == 0) .unsupportedFormat 5

/-- R121: the first chunk, good, is the header. -/
def acceptHeader (c : Chunk) : Engine Unit := do
  require (c.typ == typeIHDR) .malformedHeader 0
  require (c.len == ihdrLen) .malformedHeader 1
  modifyRegs (fun r => r.captureHeader c.data)
  checkHeaderFields c.data
  modifyRegs (fun r => r.loadProfile (be32 c.data 0) (be32 c.data 4))

/-- R121: the pseudocode of HDR_CHECK. -/
def hdrCheckBody : Engine Unit := do
  modifyRegs Regs.dropProfile
  checkRegions .hdrCheck
  checkStream
  let s ← get
  require (decide (s.regs.srcLen.toNat ≠ 8)) .malformedHeader 3
  let c ← readChunk 8
  if c.good then acceptHeader c
  else do
    onMismatch c.typ
    raise .malformedHeader 4

/-- HDR_CHECK (R121). -/
def execHdrCheck (s : State) : Host.Outcome State Fault Refusal := runCommand hdrCheckBody s

end Sys2Proof.Machine
end

