-- ==== Sys2Proof/Machine/Isolate.lean ====
section
/-! DEFINITION. The channel isolator (R160 to R162): ISOLATE. -/

namespace Sys2Proof.Machine

/-- R160: the record of a grid row: filter type None, the selected channel kept, the other two 0. -/
def isolateRecord (ch : Nat) (row : List Byte) : List Byte :=
  0 :: (List.range row.length).map (fun i => if i % 3 = ch then row.getD i 0 else 0)

/-- R160: one row of ISOLATE. -/
def isolateRow (ch y : Nat) : Engine Unit := do
  let s ← get
  let row ← memRead (s.regs.srcAddr.toNat + y * s.regs.rowLen) s.regs.rowLen
  memWrite (s.regs.dstAddr.toNat + y * s.regs.stride) (isolateRecord ch row)

/-- R160: rows y, y+1, ... in increasing order, `count` of them. -/
def isolateRows (ch y : Nat) : Nat → Engine Unit
  | 0 => pure ()
  | count + 1 => do
    isolateRow ch y
    isolateRows ch (y + 1) count

/-- R160: the pseudocode of ISOLATE. -/
def isolateBody (ch : BitVec 2) : Engine Unit := do
  let channel ← channelOperand ch
  let s ← get
  let h := s.regs.imgHeight.toNat
  checkGate
  checkDimensions
  checkRegions (.isolate ch)
  checkLength s.regs.srcLen.toNat (h * s.regs.rowLen)
  checkCapacity s.regs.dstLen.toNat (h * s.regs.stride)
  isolateRows channel 0 h
  setOutLen (h * s.regs.stride)

/-- ISOLATE (R160). -/
def execIsolate (ch : BitVec 2) (s : State) : Host.Outcome State Fault Refusal := runCommand (isolateBody ch) s

end Sys2Proof.Machine
end

