-- ==== Sys2Proof/Machine/Dispatch.lean ====
section
/-! DEFINITION. One arm per command: the Engine step of each (R20, R71). -/

namespace Sys2Proof.Machine

def exec (i : Instr) (s : State) : Host.Outcome State Fault Refusal :=
  match i with
  | .checkSig => Sys2Proof.Machine.execCheckSig s
  | .parseInit => Sys2Proof.Machine.execParseInit s
  | .parseNext => Sys2Proof.Machine.execParseNext s
  | .parseAll => Sys2Proof.Machine.execParseAll s
  | .hdrCheck => Sys2Proof.Machine.execHdrCheck s
  | .paeth => Sys2Proof.Machine.execPaeth s
  | .reconByte ft => Sys2Proof.Machine.execReconByte ft s
  | .filtByte ft => Sys2Proof.Machine.execFiltByte ft s
  | .reconRow first => Sys2Proof.Machine.execReconRow first s
  | .filtRow ft first => Sys2Proof.Machine.execFiltRow ft first s
  | .decodeImage => Sys2Proof.Machine.execDecodeImage s
  | .isolate ch => Sys2Proof.Machine.execIsolate ch s
  | .assemble => Sys2Proof.Machine.execAssemble s

end Sys2Proof.Machine
end

