-- ==== Sys2Proof/Machine/HostAccess.lean ====
section
/-! DEFINITION. The host's side of a run (R20, R60, R61, R70 to R75, R94, R208 to R210): register reads and writes, the issue
of a command (R183), loads and stores of buffer memory, and one statement of the host program. -/

namespace Sys2Proof.Machine

/-! ## Register accesses -/

/-- R61: the offset an access reaches, for an aligned 32-bit access inside the register block; none for any other access. -/
def registerOffset (p : Platform) (addr size : Nat) : Option Nat :=
  if size = 4 ∧ p.engineBase ≤ addr ∧ addr - p.engineBase < 0x100 ∧ (addr - p.engineBase) % 4 = 0 then
    some (addr - p.engineBase)
  else none

/-- R183: the commands whose issue clears OUT_LEN. -/
def clearsOutLen : Instr → Bool
  | .checkSig => false
  | .parseInit => false
  | .parseNext => false
  | .parseAll => false
  | .hdrCheck => false
  | .paeth => false
  | .reconByte _ => false
  | .filtByte _ => false
  | .reconRow _ => true
  | .filtRow _ _ => true
  | .decodeImage => true
  | .isolate _ => true
  | .assemble => true

/-- R40, R183: the start effects of a command with word `v`. -/
def Regs.issue (r : Regs) (v : Word) : Regs :=
  { r with
    cmd := v
    status := { r.status with busy := true, done := false, error := false }
    errCode := 0
    errInfo := 0
    outLen := if (decodeWord v).any clearsOutLen then 0 else r.outLen }

/-- R39: a write dropped while a command is outstanding. -/
def Regs.overrun (r : Regs) : Regs := { r with status := { r.status with overrun := true } }

/-- R24, R26, R39, R40: an aligned 32-bit host write of `v` at an offset of the block. -/
def registerWrite (offset : Nat) (v : Word) (s : State) : State :=
  if registerAt offset = some .ctrl ∧ v.getLsbD 0 = true then resetEngine s
  else if s.regs.status.busy then s.setRegs s.regs.overrun
  else
    match registerAt offset with
    | none => s
    | some .cmd => s.setRegs (s.regs.issue v)
    | some name => s.setRegs (s.regs.store name v)

/-- R209: the registers a command's rule may write, other than STATUS, ERR_CODE and ERR_INFO. -/
def registersWritten : Instr → List RegName
  | .checkSig => []
  | .parseInit =>
    [.parseOff, .idatLen, .chunkCount, .corruptCount, .corruptType, .chOff, .chLen, .chType, .chCrc]
  | .parseNext =>
    [.parseOff, .idatLen, .chunkCount, .corruptCount, .corruptType, .chOff, .chLen, .chType, .chCrc]
  | .parseAll =>
    [.parseOff, .idatLen, .chunkCount, .corruptCount, .corruptType, .chOff, .chLen, .chType, .chCrc]
  | .hdrCheck =>
    [.imgWidth, .imgHeight, .corruptCount, .corruptType, .chOff, .chLen, .chType, .chCrc, .hdrFields, .hdrInterlace]
  | .paeth => [.result]
  | .reconByte _ => [.result]
  | .filtByte _ => [.result]
  | .reconRow _ => [.outLen]
  | .filtRow _ _ => [.outLen]
  | .decodeImage => [.outLen]
  | .isolate _ => [.outLen]
  | .assemble => [.outLen, .corruptCount, .corruptType, .chOff, .chLen, .chType, .chCrc]

/-- The bits a register stores: a byte register's upper 24 bits read 0 whatever is drawn (R23, R54, R56; assumption 13). -/
def storedBits : RegName → Word
  | .hdrInterlace => 0xFF
  | .result => 0xFF
  | _ => 0xFFFFFFFF

/-- R209: the bits of a register whose read returns a draw while command `i` is outstanding. -/
def drawnBits (i : Instr) (name : RegName) : Word :=
  if name = .status then statusBitsWritten i
  else if name ∈ registersWritten i then storedBits name
  else 0

/-- R209 for the running command; an illegal word's rule writes none of these registers, and nothing is drawn while no command is outstanding. -/
def State.drawnBitsAt (s : State) (offset : Nat) : Word :=
  match s.outstanding, registerAt offset with
  | some w, some name =>
    match decodeWord w with
    | some i => drawnBits i name
    | none => 0
  | _, _ => 0

/-- `v` with the bits of `mask` taken from `d`. -/
def mixBits (v d mask : Word) : Word := (v &&& ~~~mask) ||| (d &&& mask)

/-- R61, R209: an aligned 32-bit host read at an offset of the block. What it returns stands in `readData`; a register read has no other effect (R23). -/
def registerRead (offset : Nat) (s : State) : State :=
  if s.drawnBitsAt offset = 0 then { s with readData := s.regs.valueAt offset }
  else
    { s with
      readData := mixBits (s.regs.valueAt offset) (Config.drawWord s.draws) (s.drawnBitsAt offset)
      draws := s.draws + 1 }

/-! ## Buffer memory -/

/-- R72 to R74: a host load of one byte; a draw in the running command's written region.
DESIGN CHOICE (assumption 23, safe): an absent address is refused even inside that region, where R74 read alone gives a draw. -/
def hostLoad (addr : Nat) (s : State) : Host.Outcome State Fault Refusal :=
  if !s.platform.holds addr then .refused .absentHostMemory
  else if s.runningRegions.written.any (fun r => Region.contains r addr) then
    .next { s with loadData := Config.drawByte s.draws, draws := s.draws + 1 }
  else .next { s with loadData := s.mem.read addr }

/-- R72, R73, R75: a host store of one byte; HOST_RACE in any region of the running command.
DESIGN CHOICE (assumption 23, safe): an absent address is refused even inside a region, where R75 read alone gives HOST_RACE. -/
def hostStore (addr : Nat) (b : Byte) (s : State) : Host.Outcome State Fault Refusal :=
  if !s.platform.holds addr then .refused .absentHostMemory
  else if s.runningRegions.contains addr then .fault .hostRace
  else .next { s with mem := s.mem.write addr b }

/-! ## One statement of the host program (R94) -/

/-- One host step: `op` is the statement and `rest` what follows it.
`WAIT` stays in the program while BUSY reads 1; `MEM` stores one byte a step, so that the Engine may move between two of them. -/
def hostStep (op : HostOp) (rest : List HostOp) (s : State) : Host.Outcome State Fault Refusal :=
  match op with
  | .write addr size v =>
    match registerOffset s.platform addr size with
    | none => .refused .registerAccess
    | some offset => .next { registerWrite offset v s with program := rest }
  | .read addr size =>
    match registerOffset s.platform addr size with
    | none => .refused .registerAccess
    | some offset => .next { registerRead offset s with program := rest }
  | .wait =>
    if s.regs.status.busy then .next (registerRead 0x04 s)
    else .next { registerRead 0x04 s with program := rest }
  | .store _ [] => .next { s with program := rest }
  | .store addr (b :: bs) => hostStore addr b { s with program := .store (addr + 1) bs :: rest }
  | .load addr => hostLoad addr { s with program := rest }
  | .codec _ src n dst out =>
    if s.platform.holdsAll src n then .next { s with program := .store dst out :: rest }
    else .refused .absentHostMemory
  | .powerOnReset => .next { resetEngine s with program := rest }

/-! ## The pseudo-statements (R95) and the canonical flows (R96), for a register block at `base` -/

/-- R94: `WR <REG>, v`. -/
def opWR (base : Nat) (name : RegName) (v : Word) : HostOp := .write (base + name.offset) 4 v
/-- R94: `RD <REG>`. -/
def opRD (base : Nat) (name : RegName) : HostOp := .read (base + name.offset) 4
/-- R94: `CMD <command>`. -/
def opCMD (base : Nat) (i : Instr) : HostOp := opWR base .cmd (encode i)
/-- R95: `RUN <command>`. -/
def opRUN (base : Nat) (i : Instr) : List HostOp := [opCMD base i, .wait]
/-- R95: `SRC a, n`. -/
def opSRC (base : Nat) (a n : Word) : List HostOp := [opWR base .srcAddr a, opWR base .srcLen n]
/-- R95: `DST a, n`. -/
def opDST (base : Nat) (a n : Word) : List HostOp := [opWR base .dstAddr a, opWR base .dstLen n]
/-- R95: `AUX a, n`. -/
def opAUX (base : Nat) (a n : Word) : List HostOp := [opWR base .auxAddr a, opWR base .auxLen n]
/-- R95: `GEOM w, h`. -/
def opGEOM (base : Nat) (w h : Word) : List HostOp := [opWR base .imgWidth w, opWR base .imgHeight h]
/-- R95: `BYTES a, b, c, x`. -/
def opBYTES (base : Nat) (a b c x : Word) : List HostOp :=
  [opWR base .byteA a, opWR base .byteB b, opWR base .byteC c, opWR base .byteX x]
/-- R95: `ACK` clears DONE, ERROR and OVERRUN. -/
def opACK (base : Nat) : HostOp := opWR base .status 0x00000086
/-- R95: `ACKALL` clears CORRUPT_SEEN too. -/
def opACKALL (base : Nat) : HostOp := opWR base .status 0x000000A6

/-- A region as the host writes it to a pair of argument registers. -/
structure HostRegion where
  addr : Word
  len : Word
  deriving DecidableEq, Repr

/-- R96, R206: the canonical decode of `stream`: its payload to `payload`, the launch's inflated bytes `inflated` to `raw`, the pixels to `grid`. -/
def decodeFlow (base : Nat) (stream payload raw grid : HostRegion) (payloadLen : Nat) (inflated : List Byte) : List HostOp :=
  opSRC base stream.addr stream.len ++ opRUN base .checkSig ++ opRUN base .hdrCheck
    ++ opDST base payload.addr payload.len ++ opRUN base .parseInit ++ opRUN base .parseAll
    ++ [.codec .inflate payload.addr.toNat payloadLen raw.addr.toNat inflated]
    ++ opSRC base raw.addr raw.len ++ opDST base grid.addr grid.len ++ opRUN base .decodeImage

/-- R96, R206: the canonical encode of one channel of `grid`: the isolated stream to `isolated`, the launch's deflated bytes to `payload`, the new PNG stream to `out`. -/
def encodeFlow (base : Nat) (ch : BitVec 2) (grid isolated payload stream out : HostRegion) (deflated : List Byte) : List HostOp :=
  opSRC base grid.addr grid.len ++ opDST base isolated.addr isolated.len ++ opRUN base (.isolate ch)
    ++ [.codec .deflate isolated.addr.toNat isolated.len.toNat payload.addr.toNat deflated]
    ++ opSRC base stream.addr stream.len ++ opAUX base payload.addr payload.len ++ opDST base out.addr out.len
    ++ opRUN base .assemble

end Sys2Proof.Machine
end

