-- ==== Sys2Proof/Machine/Step.lean ====
section
/-! DEFINITION. One step of the model: one Engine step, or one host statement (R20, R71, R191, R214). -/

namespace Sys2Proof.Machine

/-- The Engine performs the outstanding command `w` (R40, R83): an illegal word ends with ILLEGAL_COMMAND (R182 step 1). -/
def engineStep (w : Word) (s : State) : Host.Outcome State Fault Refusal :=
  match decodeWord w with
  | some i => exec i s
  | none => runCommand (raise .illegalCommand w) s

/-- One step. With no command outstanding only the host can move, and at the end of its program nothing moves (R199, R204).
With a command outstanding `schedule` says which agent moves; the Engine moves where it names none, or where the host has no statement left (R214). -/
def step (s : State) : Host.Outcome State Fault Refusal :=
  match s.outstanding with
  | none =>
    match s.program with
    | [] => .next s
    | op :: rest => hostStep op rest s
  | some w =>
    match s.schedule, s.program with
    | .host :: later, op :: rest => hostStep op rest { s with schedule := later }
    | _, _ => engineStep w { s with schedule := s.schedule.tail }

/-- `s` with the command in the lowest `nbits` bits of `w` issued (R183) and the Engine to move next. -/
def State.withFetchWord (s : State) (nbits w : Nat) : State :=
  { s with
    regs := s.regs.issue (BitVec.ofNat 32 (w % 2 ^ nbits))
    schedule := .engine :: s.schedule }

end Sys2Proof.Machine
end

