-- ==== Sys2Proof/Safety.lean ====
section
/-! DEFINITION. The terms the claims use: the invariant of every reachable state, a platform that holds the regions of a
command, the end of a run (R216), and the pure readings of the spec's sequences (rows, chunks, output streams) over memory. -/

namespace Sys2Proof.Machine

/-! ## The invariant -/

/-- R180, R192: the codes that ERR_CODE ever holds. -/
def errorNumbers : List Byte := [0, 1, 2, 3, 4, 5, 6, 16, 17, 18, 19, 20, 21]

/-- What every step keeps and the reset state has. -/
structure State.Inv (s : State) : Prop where
  /-- Buffer memory keeps its canonical form. -/
  memory : s.mem.wf = true
  /-- R34: DONE and ERROR are never both 1. -/
  outcome : ¬ (s.regs.status.done = true ∧ s.regs.status.error = true)
  /-- R36: IEND and EXHAUSTED are never both 1. -/
  ending : ¬ (s.regs.status.iend = true ∧ s.regs.status.exhausted = true)
  /-- R183: while a command is outstanding DONE, ERROR, ERR_CODE and ERR_INFO are 0. -/
  quiet : s.regs.status.busy = true →
    s.regs.status.done = false ∧ s.regs.status.error = false ∧ s.regs.errCode = 0 ∧ s.regs.errInfo = 0
  /-- R180, R192: ERR_CODE holds no reserved code and none of the host's. -/
  code : s.regs.errCode ∈ errorNumbers
  /-- R34, R41, R42: after a success ERR_CODE and ERR_INFO are 0, after an error ERR_CODE is not. -/
  verdict : (s.regs.status.done = true → s.regs.errCode = 0 ∧ s.regs.errInfo = 0) ∧
    (s.regs.status.error = true → s.regs.errCode ≠ 0)
  /-- R123: while PROF_VALID is 1 the geometry is not zero and the header fields are those of the supported profile. -/
  profile : s.regs.status.profValid = true →
    s.regs.imgWidth ≠ 0 ∧ s.regs.imgHeight ≠ 0 ∧ s.regs.hdrFields = 0x00000208 ∧ s.regs.hdrInterlace = 0

/-- R216: the run has ended, the host program executed and no command outstanding. -/
def State.ended (s : State) : Prop := s.program = [] ∧ s.outstanding = none

/-! ## Where memory is -/

/-- BUFFER_PRESENT holds at every address of a region (R63, R205). -/
def Platform.holdsRegion (p : Platform) (r : Region) : Prop := ∀ a, r.contains a = true → p.holds a = true

/-- BUFFER_PRESENT holds at every address of every region the command uses (R69, R205). -/
def State.holdsRegionsOf (s : State) (i : Instr) : Prop :=
  ∀ a, (regionsOf s.regs i).contains a = true → s.platform.holds a = true

/-- R67, R68: the command's regions fit the address space and its written region overlaps no read region. -/
def State.regionsLegal (s : State) (i : Instr) : Prop :=
  (∀ r ∈ (regionsOf s.regs i).reads, r.base + r.len ≤ 2 ^ 32) ∧
  (∀ w ∈ (regionsOf s.regs i).written, w.base + w.len ≤ 2 ^ 32) ∧
  (∀ w ∈ (regionsOf s.regs i).written, ∀ r ∈ (regionsOf s.regs i).reads,
    ∀ a, ¬ (w.contains a = true ∧ r.contains a = true))

/-- R30, R182 step 2: the profile gate lets a scanline command pass. -/
def State.gateOpen (s : State) : Prop := s.regs.ctrl.profGate = false ∨ s.regs.status.profValid = true

/-! ## Neighbours in memory (R17, R134) -/

/-- The byte of a row of memory three positions to the left of `x`, 0 when out of bounds. -/
def leftInMemory (m : Memory) (row x : Nat) : Byte := if 3 ≤ x then m.read (row + x - 3) else 0

/-- R130 on the field values 0 to 4 and on integers, the Paeth case aside. -/
def predictorValue (ft : Nat) (a b c : Byte) : Nat :=
  if ft = 0 then 0
  else if ft = 1 then a.toNat
  else if ft = 2 then b.toNat
  else if ft = 3 then (a.toNat + b.toNat) / 2
  else (paethPredictor a b c).toNat

/-! ## Chunks in memory (R100, R101) -/

/-- The chunk at offset `off` of the stream at `base`, as R100 reads it. -/
def chunkAt (c : CrcChoice) (m : Memory) (base off : Nat) : Chunk :=
  let len := be32 (m.readN (base + off) 4) 0
  let typ := m.readN (base + off + 4) 4
  let data := m.readN (base + off + 8) len
  ⟨len, typ, data, crc32 c (typ ++ data) == BitVec.ofNat 32 (be32 (m.readN (base + off + 8 + len) 4) 0)⟩

/-- R100: the CRC stored behind the data of the chunk at `off`. -/
def storedCrcAt (m : Memory) (base off : Nat) : Word :=
  BitVec.ofNat 32 (be32 (m.readN (base + off + 8 + be32 (m.readN (base + off) 4) 0) 4) 0)

/-- The chunks `cs` stand one behind the other in the stream at `base`, the first at `off`. -/
def chunksAt (c : CrcChoice) (m : Memory) (base : Nat) : Nat → List Chunk → Prop
  | _, [] => True
  | off, k :: ks => k = chunkAt c m base off ∧ chunksAt c m base (off + 12 + k.len) ks

/-- The bytes that chunks occupy, `12 + length` each (R18). -/
def chunksSize : List Chunk → Nat
  | [] => 0
  | k :: ks => 12 + k.len + chunksSize ks

/-- R109: the data of the good "IDAT" chunks, in stream order. -/
def payloadOf : List Chunk → List Byte
  | [] => []
  | k :: ks => if k.good = true ∧ k.typ = typeIDAT then k.data ++ payloadOf ks else payloadOf ks

/-- R109: no good "IEND" stands among the chunks before the last. -/
def noEarlyEnd (ks : List Chunk) : Prop := ∀ k ∈ ks.dropLast, ¬ (k.good = true ∧ k.typ = typeIEND)

/-- The walk over the chunks ends at a good "IEND". -/
def endsAtIend (ks : List Chunk) : Prop := ∃ k, ks.getLast? = some k ∧ k.good = true ∧ k.typ = typeIEND

/-! ## The assembled stream (R165 to R169) -/

/-- R167: the good chunks with their offsets. -/
def keptChunks : Nat → List Chunk → List KeptChunk
  | _, [] => []
  | off, k :: ks =>
    if k.good = true then ⟨off, k.len, k.typ⟩ :: keptChunks (off + 12 + k.len) ks else keptChunks (off + 12 + k.len) ks

/-- R166: the original bytes of a kept chunk. -/
def verbatimBytes (m : Memory) (base : Nat) (k : KeptChunk) : List Byte := m.readN (base + k.off) (12 + k.len)

/-- R168: what variant (a) emits behind the signature; `new` stands in the place of the first "IDAT", the others are dropped. -/
def variantABytes (m : Memory) (base : Nat) (new : List Byte) : Bool → List KeptChunk → List Byte
  | _, [] => []
  | replaced, k :: ks =>
    if k.typ = typeIDAT then
      if replaced then variantABytes m base new true ks else new ++ variantABytes m base new true ks
    else verbatimBytes m base k ++ variantABytes m base new replaced ks

/-- R168: the pieces that variant (a) emits one by one behind the signature; together they are `variantABytes`. -/
def variantAPieces (m : Memory) (base : Nat) (new : List Byte) : Bool → List KeptChunk → List (List Byte)
  | _, [] => []
  | replaced, k :: ks =>
    if k.typ = typeIDAT then
      if replaced then variantAPieces m base new true ks else new :: variantAPieces m base new true ks
    else verbatimBytes m base k :: variantAPieces m base new replaced ks

end Sys2Proof.Machine
end

