-- ==== Sys2Proof/Certificates/Slice0/Obligations.lean ====
section
/-! DEFINITION. The statements about the PSCE, one per obligation of OBLIGATIONS.json. Each says which rule of the spec it
formalises; where a clause rests on a choice of the model, it names the assumption. -/

open Sys2Proof Sys2Proof.Machine

/-! ## Encoding -/

/-- R83, R93, R97: a word decodes to a command exactly when it is the command's word, and the command's fields are legal. -/
def Obligations.DecodeEncodeAgree : Prop :=
  ∀ (w : Word) (i : Instr), decodeWord w = some i ↔ i.wellFormed = true ∧ encode i = w

/-- R83, R86 to R89: `Decode` selects the row whose match and mask fit the word, and restricts FT and CH. -/
def Obligations.DecodeSelectsRowsOfTheMap : Prop :=
  ∀ w : Word,
    (decodeWord w = some .checkSig ↔ w = 0x00000001) ∧
    (decodeWord w = some .parseInit ↔ w = 0x00000002) ∧
    (decodeWord w = some .parseNext ↔ w = 0x00000003) ∧
    (decodeWord w = some .parseAll ↔ w = 0x00000004) ∧
    (decodeWord w = some .hdrCheck ↔ w = 0x00000008) ∧
    (decodeWord w = some .paeth ↔ w = 0x00000010) ∧
    (∀ ft, decodeWord w = some (.reconByte ft) ↔
      w &&& 0xFFFFF8FF = 0x00000011 ∧ w.extractLsb' 8 3 = ft ∧ ft.toNat ≤ 4) ∧
    (∀ ft, decodeWord w = some (.filtByte ft) ↔
      w &&& 0xFFFFF8FF = 0x00000012 ∧ w.extractLsb' 8 3 = ft ∧ ft.toNat ≤ 4) ∧
    (∀ first, decodeWord w = some (.reconRow first) ↔
      w &&& 0xFFFFF7FF = 0x00000013 ∧ w.getLsbD 11 = first) ∧
    (∀ ft first, decodeWord w = some (.filtRow ft first) ↔
      w &&& 0xFFFFF0FF = 0x00000014 ∧ w.extractLsb' 8 3 = ft ∧ ft.toNat ≤ 4 ∧ w.getLsbD 11 = first) ∧
    (decodeWord w = some .decodeImage ↔ w = 0x00000015) ∧
    (∀ ch, decodeWord w = some (.isolate ch) ↔
      w &&& 0xFFFFCFFF = 0x00000018 ∧ w.extractLsb' 12 2 = ch ∧ ch.toNat ≤ 2) ∧
    (decodeWord w = some .assemble ↔ w = 0x00000020)

/-- R92: the words the spec writes out for its example commands, and some words it lists as illegal (95_test_vectors.md 3.1). -/
def Obligations.ExampleWordsDecode : Prop :=
  decodeWord 0x00000004 = some .parseAll ∧ decodeWord 0x00000411 = some (.reconByte 4) ∧
  decodeWord 0x00000914 = some (.filtRow 1 true) ∧ decodeWord 0x00000813 = some (.reconRow true) ∧
  decodeWord 0x00001018 = some (.isolate 1) ∧ decodeWord 0x00002018 = some (.isolate 2) ∧
  decodeWord 0x00000000 = none ∧ decodeWord 0x00000511 = none ∧ decodeWord 0x00003018 = none ∧
  decodeWord 0x00000913 = none ∧ decodeWord 0x00004010 = none ∧ decodeWord 0x80000001 = none

/-! ## Reset -/

/-- R58: what reset leaves. The clause on memory says that an idle PSCE's reset changes no buffer byte. -/
def Obligations.ResetStateHoldsTheResetValues : Prop :=
  (∀ offset, offset < 0x100 → offset % 4 = 0 →
    State.reset.regs.valueAt offset =
      if offset = 0x00 then 0x00000010 else if offset = 0x38 then 0x00000008 else 0x00000000) ∧
  State.reset.outstanding = none ∧ State.reset.irq = false ∧
  ∀ s : State, s.outstanding = none → (resetEngine s).mem = s.mem

/-- R26: a write to CTRL with bit 0 set resets the PSCE, idle or busy, whatever its other bits, and the bit reads 0. -/
def Obligations.SoftResetActsIdleOrBusy : Prop :=
  (∀ (s : State) (v : Word), v.getLsbD 0 = true →
    registerWrite 0x00 v s = resetEngine s ∧ (registerWrite 0x00 v s).regs = Regs.reset ∧
    (registerWrite 0x00 v s).regs.valueAt 0x00 = 0x00000010 ∧
    (registerWrite 0x00 v s).outstanding = none ∧ (registerWrite 0x00 v s).irq = false) ∧
  ∀ r : Regs, (r.valueAt 0x00).getLsbD 0 = false

/-- R200, R202: the platform's reset input is the same reset, idle or busy, and the host's program goes on (its place in that program is
assumption 12). A reset while a command is outstanding: no effect of the command, no completion, and a draw of its own in every byte of the
written region that holds memory (that bytes without memory take no draw, and the form of a draw, are assumptions 19 and 7). -/
def Obligations.AbortedCommandLeavesDraws : Prop :=
  (∀ (s : State) (rest : List HostOp), hostStep .powerOnReset rest s = .next { resetEngine s with program := rest }) ∧
  ∀ (s : State) (w : Word), s.outstanding = some w →
    (resetEngine s).regs = Regs.reset ∧ (resetEngine s).outstanding = none ∧
    (∀ r, (regionsOfWord s.regs w).written = some r →
      (∀ a, r.contains a = true → s.platform.holds a = true →
        (resetEngine s).mem.read a = Config.drawByte (s.draws + (a - r.base))) ∧
      (∀ a, r.contains a = false → (resetEngine s).mem.read a = s.mem.read a) ∧
      (resetEngine s).draws = s.draws + r.len) ∧
    ((regionsOfWord s.regs w).written = none → (resetEngine s).mem = s.mem)

/-! ## Host register accesses -/

/-- R23: reserved offsets and bits read 0 and ignore writes (while BUSY is 1 a write still sets OVERRUN), and no read changes a register or a byte.
A host read of a reserved offset returns 0, idle or busy. -/
def Obligations.ReservedOffsetsAndBitsAreInert : Prop :=
  (∀ offset, 0x78 ≤ offset → offset < 0x100 → offset % 4 = 0 →
    (∀ r : Regs, r.valueAt offset = 0) ∧
    (∀ s : State, (registerRead offset s).readData = 0) ∧
    ∀ (s : State) (v : Word), registerWrite offset v s =
      if s.regs.status.busy = true then
        { s with regs := { s.regs with status := { s.regs.status with overrun := true } } }
      else s) ∧
  (∀ (r : Regs) (k : Nat),
    (5 ≤ k → (r.value .ctrl).getLsbD k = false) ∧ (8 ≤ k → (r.value .status).getLsbD k = false) ∧
    ∀ name ∈ [RegName.errCode, .hdrInterlace, .byteA, .byteB, .byteC, .byteX, .result],
      8 ≤ k → (r.value name).getLsbD k = false) ∧
  (∀ (s : State) (v v' : Word),
    ((∀ k, k < 5 → v.getLsbD k = v'.getLsbD k) → registerWrite 0x00 v s = registerWrite 0x00 v' s) ∧
    ((∀ k, k < 8 → v.getLsbD k = v'.getLsbD k) → registerWrite 0x04 v s = registerWrite 0x04 v' s) ∧
    ∀ name ∈ [RegName.byteA, .byteB, .byteC, .byteX],
      (∀ k, k < 8 → v.getLsbD k = v'.getLsbD k) → registerWrite name.offset v s = registerWrite name.offset v' s) ∧
  ∀ (s : State) (offset : Nat),
    (registerRead offset s).regs = s.regs ∧ (registerRead offset s).mem = s.mem

/-- R39: a register write while BUSY is 1 changes nothing but OVERRUN, unless it writes CTRL with bit 0 set. -/
def Obligations.BusyWritesAreDropped : Prop :=
  ∀ (s : State) (offset : Nat) (v : Word), s.regs.status.busy = true → offset < 0x100 → offset % 4 = 0 →
    ¬ (offset = 0x00 ∧ v.getLsbD 0 = true) →
    registerWrite offset v s =
      { s with regs := { s.regs with status := { s.regs.status with overrun := true } } }

/-- R22, R24, R25, R31, R38, R55: the register map by number. Each register has its offset, an access there reaches it, its value is the
field of its name, and each flag of CTRL and STATUS has its bit. An idle write to a read-write register stores the bits the register has, and changes no other register;
a write to IMG_WIDTH or IMG_HEIGHT also clears PROF_VALID. -/
def Obligations.WritableRegistersStoreTheValue : Prop :=
  (∀ name : RegName,
    name.offset = (match name with
      | .ctrl => 0x00
      | .status => 0x04
      | .cmd => 0x08
      | .errCode => 0x0C
      | .errInfo => 0x10
      | .srcAddr => 0x14
      | .srcLen => 0x18
      | .dstAddr => 0x1C
      | .dstLen => 0x20
      | .auxAddr => 0x24
      | .auxLen => 0x28
      | .imgWidth => 0x2C
      | .imgHeight => 0x30
      | .outLen => 0x34
      | .parseOff => 0x38
      | .idatLen => 0x3C
      | .chunkCount => 0x40
      | .corruptCount => 0x44
      | .corruptType => 0x48
      | .chOff => 0x4C
      | .chLen => 0x50
      | .chType => 0x54
      | .chCrc => 0x58
      | .hdrFields => 0x5C
      | .hdrInterlace => 0x60
      | .byteA => 0x64
      | .byteB => 0x68
      | .byteC => 0x6C
      | .byteX => 0x70
      | .result => 0x74) ∧
    registerAt name.offset = some name ∧
    ∀ r : Regs, r.valueAt name.offset = r.value name ∧
      (name ≠ .ctrl → name ≠ .status →
        r.value name = (match name with
          | .ctrl => 0
          | .status => 0
          | .cmd => r.cmd
          | .errCode => r.errCode.setWidth 32
          | .errInfo => r.errInfo
          | .srcAddr => r.srcAddr
          | .srcLen => r.srcLen
          | .dstAddr => r.dstAddr
          | .dstLen => r.dstLen
          | .auxAddr => r.auxAddr
          | .auxLen => r.auxLen
          | .imgWidth => r.imgWidth
          | .imgHeight => r.imgHeight
          | .outLen => r.outLen
          | .parseOff => r.parseOff
          | .idatLen => r.idatLen
          | .chunkCount => r.chunkCount
          | .corruptCount => r.corruptCount
          | .corruptType => r.corruptType
          | .chOff => r.chOff
          | .chLen => r.chLen
          | .chType => r.chType
          | .chCrc => r.chCrc
          | .hdrFields => r.hdrFields
          | .hdrInterlace => r.hdrInterlace.setWidth 32
          | .byteA => r.byteA.setWidth 32
          | .byteB => r.byteB.setWidth 32
          | .byteC => r.byteC.setWidth 32
          | .byteX => r.byteX.setWidth 32
          | .result => r.result.setWidth 32))) ∧
  (∀ (r : Regs) (k : Nat), k < 32 →
    (r.value .ctrl).getLsbD k = (match k with
      | 1 => r.ctrl.crcSkip
      | 2 => r.ctrl.ancReduced
      | 3 => r.ctrl.irqEn
      | 4 => r.ctrl.profGate
      | _ => false) ∧
    (r.value .status).getLsbD k = (match k with
      | 0 => r.status.busy
      | 1 => r.status.done
      | 2 => r.status.error
      | 3 => r.status.iend
      | 4 => r.status.exhausted
      | 5 => r.status.corruptSeen
      | 6 => r.status.profValid
      | 7 => r.status.overrun
      | _ => false)) ∧
  ∀ (s : State) (v : Word), s.regs.status.busy = false →
    (∀ name ∈ [RegName.srcAddr, .srcLen, .dstAddr, .dstLen, .auxAddr, .auxLen, .imgWidth, .imgHeight, .parseOff],
      (registerWrite name.offset v s).regs.value name = v) ∧
    (∀ name ∈ [RegName.byteA, .byteB, .byteC, .byteX],
      (registerWrite name.offset v s).regs.value name = v &&& 0x000000FF) ∧
    (v.getLsbD 0 = false → (registerWrite 0x00 v s).regs.value .ctrl = v &&& 0x0000001E) ∧
    (∀ name ∈ [RegName.srcAddr, .srcLen, .dstAddr, .dstLen, .auxAddr, .auxLen, .imgWidth, .imgHeight, .parseOff,
        .byteA, .byteB, .byteC, .byteX, .ctrl], (name = .ctrl → v.getLsbD 0 = false) →
      (∀ other, other ≠ name → other ≠ .status →
        (registerWrite name.offset v s).regs.value other = s.regs.value other) ∧
      (registerWrite name.offset v s).regs.value .status =
        (if name = .imgWidth ∨ name = .imgHeight then s.regs.value .status &&& 0xFFFFFFBF
          else s.regs.value .status) ∧
      (registerWrite name.offset v s).mem = s.mem)

/-- R24: an idle write to a read-only register has no effect. -/
def Obligations.ReadOnlyRegistersIgnoreWrites : Prop :=
  ∀ (s : State) (v : Word), s.regs.status.busy = false →
    ∀ name ∈ [RegName.errCode, .errInfo, .outLen, .idatLen, .chunkCount, .corruptCount, .corruptType,
      .chOff, .chLen, .chType, .chCrc, .hdrFields, .hdrInterlace, .result],
      registerWrite name.offset v s = s

/-- R24, R31, R188: an idle write to STATUS clears those of DONE, ERROR, CORRUPT_SEEN and OVERRUN whose bit is written 1, and changes
nothing else; ERR_CODE and ERR_INFO keep the last error. -/
def Obligations.StatusWritesClearOnlyTheirBits : Prop :=
  ∀ (s : State) (v : Word), s.regs.status.busy = false →
    (registerWrite 0x04 v s).regs.value .status = s.regs.value .status &&& ~~~(v &&& 0x000000A6) ∧
    (∀ other, other ≠ .status → (registerWrite 0x04 v s).regs.value other = s.regs.value other) ∧
    (registerWrite 0x04 v s).mem = s.mem

/-- R183: the start effects of an idle CMD write of `v`, and nothing else. -/
def Obligations.IssueHasTheStartEffects : Prop :=
  ∀ (s : State) (v : Word), s.regs.status.busy = false →
    (registerWrite 0x08 v s).outstanding = some v ∧
    (registerWrite 0x08 v s).regs.value .cmd = v ∧
    (registerWrite 0x08 v s).regs.value .status = (s.regs.value .status &&& 0xFFFFFFF9) ||| 0x00000001 ∧
    (registerWrite 0x08 v s).regs.value .errCode = 0 ∧ (registerWrite 0x08 v s).regs.value .errInfo = 0 ∧
    (registerWrite 0x08 v s).regs.value .outLen =
      (if (∃ first, decodeWord v = some (.reconRow first)) ∨ (∃ ft first, decodeWord v = some (.filtRow ft first)) ∨
          decodeWord v = some .decodeImage ∨ (∃ ch, decodeWord v = some (.isolate ch)) ∨
          decodeWord v = some .assemble then 0
        else s.regs.value .outLen) ∧
    (∀ name, name ∉ [RegName.cmd, .status, .errCode, .errInfo, .outLen] →
      (registerWrite 0x08 v s).regs.value name = s.regs.value name) ∧
    (registerWrite 0x08 v s).mem = s.mem

/-- R61: the host reaches a register by an aligned 32-bit access inside the block; every other access is Refused. -/
def Obligations.OnlyAlignedWordAccessesAreAccepted : Prop :=
  ∀ (s : State) (rest : List HostOp) (addr size : Nat) (v : Word),
    ((size = 4 ∧ s.platform.engineBase ≤ addr ∧ addr < s.platform.engineBase + 0x100 ∧
        (addr - s.platform.engineBase) % 4 = 0) →
      hostStep (.write addr size v) rest s =
        .next { registerWrite (addr - s.platform.engineBase) v s with program := rest } ∧
      hostStep (.read addr size) rest s =
        .next { registerRead (addr - s.platform.engineBase) s with program := rest }) ∧
    (¬ (size = 4 ∧ s.platform.engineBase ≤ addr ∧ addr < s.platform.engineBase + 0x100 ∧
        (addr - s.platform.engineBase) % 4 = 0) →
      hostStep (.write addr size v) rest s = .refused .registerAccess ∧
      hostStep (.read addr size) rest s = .refused .registerAccess)

/-- R61, R209: what a register read returns. Idle, or while an illegal word is outstanding, the register's value; while a command runs, a draw
for the registers and STATUS bits its rule may write, listed here for each command, and the value for every other register and bit: BUSY,
DONE, ERROR, OVERRUN, CMD, ERR_CODE and ERR_INFO among them. (A byte register's upper bits read 0 even then: assumption 13.) -/
def Obligations.RegisterReadsReturnValuesOrDraws : Prop :=
  ∀ (s : State) (name : RegName),
    (s.outstanding = none → (registerRead name.offset s).readData = s.regs.value name) ∧
    ∀ w, s.outstanding = some w →
      (decodeWord w = none → (registerRead name.offset s).readData = s.regs.value name) ∧
      ∀ i (drawn : List RegName) (bits : List Nat), decodeWord w = some i →
        drawn = (match i with
          | .checkSig => []
          | .parseInit => [.parseOff, .idatLen, .chunkCount, .corruptCount, .corruptType, .chOff, .chLen, .chType, .chCrc]
          | .parseNext => [.parseOff, .idatLen, .chunkCount, .corruptCount, .corruptType, .chOff, .chLen, .chType, .chCrc]
          | .parseAll => [.parseOff, .idatLen, .chunkCount, .corruptCount, .corruptType, .chOff, .chLen, .chType, .chCrc]
          | .hdrCheck =>
            [.imgWidth, .imgHeight, .corruptCount, .corruptType, .chOff, .chLen, .chType, .chCrc, .hdrFields, .hdrInterlace]
          | .paeth => [.result]
          | .reconByte _ => [.result]
          | .filtByte _ => [.result]
          | .reconRow _ => [.outLen]
          | .filtRow _ _ => [.outLen]
          | .decodeImage => [.outLen]
          | .isolate _ => [.outLen]
          | .assemble => [.outLen, .corruptCount, .corruptType, .chOff, .chLen, .chType, .chCrc]) →
        bits = (match i with
          | .checkSig => []
          | .parseInit => [3, 4, 5]
          | .parseNext => [3, 4, 5]
          | .parseAll => [3, 4, 5]
          | .hdrCheck => [5, 6]
          | .paeth => []
          | .reconByte _ => []
          | .filtByte _ => []
          | .reconRow _ => []
          | .filtRow _ _ => []
          | .decodeImage => []
          | .isolate _ => []
          | .assemble => [5]) →
        (name ≠ .status → name ∉ drawn → (registerRead name.offset s).readData = s.regs.value name) ∧
        (name ∈ drawn →
          (registerRead name.offset s).readData =
            Config.drawWord s.draws &&& (if name = .result ∨ name = .hdrInterlace then 0x000000FF else 0xFFFFFFFF)) ∧
        (name = .status → ∀ k, k < 32 →
          ((registerRead name.offset s).readData).getLsbD k =
            if k ∈ bits then (Config.drawWord s.draws).getLsbD k else (s.regs.value .status).getLsbD k)

/-- R189, R190: IRQ is IRQ_EN and (DONE or ERROR), read off the registers. -/
def Obligations.InterruptFollowsTheRegisters : Prop :=
  ∀ s : State, s.irq = true ↔
    (s.regs.value .ctrl).getLsbD 3 = true ∧
    ((s.regs.value .status).getLsbD 1 = true ∨ (s.regs.value .status).getLsbD 2 = true)

/-! ## Host memory accesses -/

/-- R73, R75: a host store lands when it meets no region of the running command, and is HOST_RACE when it meets one. -/
def Obligations.HostStoresRaceOnlyInRegions : Prop :=
  ∀ (s : State) (a : Nat) (b : Byte), s.platform.holds a = true →
    (∀ w i, s.outstanding = some w → decodeWord w = some i → (regionsOf s.regs i).contains a = true →
      hostStore a b s = .fault .hostRace) ∧
    ((∀ w i, s.outstanding = some w → decodeWord w = some i → (regionsOf s.regs i).contains a = false) →
      ∃ t, hostStore a b s = .next t ∧ t.regs = s.regs ∧ t.mem.read a = b ∧
        ∀ a', a' ≠ a → t.mem.read a' = s.mem.read a')

/-- R73, R74: a host load returns a draw inside the running command's written region, and the byte everywhere else; it changes no register and no byte. -/
def Obligations.HostLoadsDrawOnlyInTheWrittenRegion : Prop :=
  ∀ (s : State) (a : Nat), s.platform.holds a = true →
    (∀ w i r, s.outstanding = some w → decodeWord w = some i → (regionsOf s.regs i).written = some r →
      r.contains a = true →
      ∃ t, hostLoad a s = .next t ∧ t.loadData = Config.drawByte s.draws ∧ t.regs = s.regs ∧ t.mem = s.mem) ∧
    ((∀ w i r, s.outstanding = some w → decodeWord w = some i → (regionsOf s.regs i).written = some r →
        r.contains a = false) →
      ∃ t, hostLoad a s = .next t ∧ t.loadData = s.mem.read a ∧ t.regs = s.regs ∧ t.mem = s.mem)

/-! ## A step -/

/-- R20, R40, R83: when the Engine is to move, a step is the command that the outstanding word decodes to. The schedule's entry for the
move is spent (assumption 5). -/
def Obligations.StepRunsTheDecodedCommand : Prop :=
  ∀ (s : State) (w : Word) (i : Instr), s.outstanding = some w → decodeWord w = some i →
    (s.schedule.head? ≠ some .host ∨ s.program = []) →
    step s = exec i { s with schedule := s.schedule.tail }

/-- R83, R88, R97, R182 step 1: an outstanding word that is illegal ends with ILLEGAL_COMMAND carrying the word; no other register and no
byte changes. (When the Engine is to move, and that the schedule's entry for the move is spent, are assumption 5.) -/
def Obligations.IllegalWordEndsWithIllegalCommand : Prop :=
  ∀ (s : State) (w : Word), s.outstanding = some w → decodeWord w = none →
    (s.schedule.head? ≠ some .host ∨ s.program = []) →
    step s = .next { s with
      schedule := s.schedule.tail
      regs := { s.regs with
        errCode := 16
        errInfo := w
        status := { s.regs.status with busy := false, done := false, error := true } } }

/-- R20, R199, R204: with no command outstanding only the host moves, one statement a step, and at the end of its program nothing does.
With one outstanding the host moves where the schedule says so. (The host program, the schedule and the idle step are assumptions 6, 5 and 8.)
R94, R216: `MEM` is a host store of each byte, one a move; a Codec Bridge call needs its source present (assumption 10) and then stores the
bytes CODEC gives; a load is a host load (assumptions 16, 17). So an idle machine's `MEM` statement ends with its bytes stored and nothing
else changed. -/
def Obligations.HostMovesOneStatementAStep : Prop :=
  ∀ s : State,
    (s.outstanding = none → s.program = [] → step s = .next s) ∧
    (∀ op rest, s.outstanding = none → s.program = op :: rest → step s = hostStep op rest s) ∧
    (∀ w op rest later, s.outstanding = some w → s.program = op :: rest → s.schedule = .host :: later →
      step s = hostStep op rest { s with schedule := later }) ∧
    (∀ addr rest, hostStep (.store addr []) rest s = .next { s with program := rest }) ∧
    (∀ addr b bs rest,
      hostStep (.store addr (b :: bs)) rest s = hostStore addr b { s with program := .store (addr + 1) bs :: rest }) ∧
    (∀ addr rest, hostStep (.load addr) rest s = hostLoad addr { s with program := rest }) ∧
    (∀ call src n dst out rest,
      ((∀ i, i < n → s.platform.holds (src + i) = true) →
        hostStep (.codec call src n dst out) rest s = .next { s with program := .store dst out :: rest }) ∧
      ((∃ i, i < n ∧ s.platform.holds (src + i) = false) →
        hostStep (.codec call src n dst out) rest s = .refused .absentHostMemory)) ∧
    ∀ addr bs rest, s.outstanding = none → s.program = .store addr bs :: rest →
      (∀ i, i < bs.length → s.platform.holds (addr + i) = true) →
      ∃ m : Memory, Host.Core.run core (bs.length + 1) s = .next { s with program := rest, mem := m } ∧
        ∀ a, m.read a = if addr ≤ a ∧ a < addr + bs.length then bs.getD (a - addr) 0 else s.mem.read a

/-- R94, R214: `WAIT` repeats while BUSY is 1, for as many host moves as the schedule grants before the Engine's, and goes on when BUSY is 0
(one STATUS read a host move is assumption 18, the schedule assumption 5). -/
def Obligations.WaitRepeatsUntilTheEngineMoves : Prop :=
  (∀ (k : Nat) (s : State) (w : Word) (rest : List HostOp) (later : List Agent),
    s.outstanding = some w → s.program = .wait :: rest → s.schedule = List.replicate k .host ++ .engine :: later →
    ∃ t, Host.Core.run core k s = .next t ∧ t.regs = s.regs ∧ t.mem = s.mem ∧ t.program = s.program ∧
      t.schedule = .engine :: later) ∧
  ∀ (s : State) (rest : List HostOp), s.outstanding = none → s.program = .wait :: rest →
    step s = .next { s with readData := s.regs.value .status, program := rest }

/-! ## Every command -/

/-- R32, R34, R184, R185: every command that completes leaves BUSY 0 and exactly one of DONE and ERROR 1; an error writes its code and a
success leaves ERR_CODE and ERR_INFO as they were. -/
def Obligations.CompletionSetsExactlyOneOutcome : Prop :=
  ∀ (i : Instr) (s t : State), exec i s = .next t →
    t.regs.status.busy = false ∧ t.regs.status.done ≠ t.regs.status.error ∧
    (t.regs.status.error = true →
      t.regs.errCode ∈ ([1, 2, 3, 4, 5, 6, 16, 17, 18, 19, 20, 21] : List Byte)) ∧
    (t.regs.status.done = true → t.regs.errCode = s.regs.errCode ∧ t.regs.errInfo = s.regs.errInfo)

/-- R69, R185, R215: where BUFFER_PRESENT holds on the command's regions, the command ends in a next state, whatever the registers and the
data are: no loop fails to end and no access leaves the regions. -/
def Obligations.EveryCommandCompletesOnPresentMemory : Prop :=
  ∀ (i : Instr) (s : State), s.holdsRegionsOf i → ∃ t, exec i s = .next t

/-- R63: the only stop of a command is an access to an address of its own regions that holds no memory (that R63's missing step is the fault
`absentMemory` is assumption 11). -/
def Obligations.CommandsStopOnlyOnAbsentMemory : Prop :=
  ∀ (i : Instr) (s : State),
    (∀ r, exec i s ≠ .refused r) ∧
    (∀ f, exec i s = .fault f →
      f = .absentMemory ∧ ∃ a, (regionsOf s.regs i).contains a = true ∧ s.platform.holds a = false) ∧
    (∀ a, s.regs.srcLen ≠ 0 → s.regs.srcAddr.toNat + s.regs.srcLen.toNat ≤ 2 ^ 32 → a = s.regs.srcAddr.toNat →
      s.platform.holds a = false → exec .checkSig s = .fault .absentMemory)

/-- R59, R68, R162: no command changes a byte of buffer memory outside its written region; the commands without one change no byte at all. -/
def Obligations.CommandsWriteOnlyTheirRegion : Prop :=
  ∀ (i : Instr) (s t : State), exec i s = .next t →
    (∀ a, (∀ r, (regionsOf s.regs i).written = some r → r.contains a = false) → t.mem.read a = s.mem.read a)

/-- R43 to R56, R59: the register frame of every command, beside STATUS, ERR_CODE and ERR_INFO, and the STATUS bits of each. -/
def Obligations.CommandsKeepTheOtherRegisters : Prop :=
  ∀ (i : Instr) (s t : State), exec i s = .next t →
    (∀ name, name ∉ [RegName.status, .errCode, .errInfo] →
      name ∉ (match i with
        | .checkSig => ([] : List RegName)
        | .parseInit => [.parseOff, .idatLen, .chunkCount, .corruptCount, .corruptType, .chOff, .chLen, .chType, .chCrc]
        | .parseNext => [.parseOff, .idatLen, .chunkCount, .corruptCount, .corruptType, .chOff, .chLen, .chType, .chCrc]
        | .parseAll => [.parseOff, .idatLen, .chunkCount, .corruptCount, .corruptType, .chOff, .chLen, .chType, .chCrc]
        | .hdrCheck =>
          [.imgWidth, .imgHeight, .corruptCount, .corruptType, .chOff, .chLen, .chType, .chCrc, .hdrFields, .hdrInterlace]
        | .paeth => [.result]
        | .reconByte _ => [.result]
        | .filtByte _ => [.result]
        | .reconRow _ => [.outLen]
        | .filtRow _ _ => [.outLen]
        | .decodeImage => [.outLen]
        | .isolate _ => [.outLen]
        | .assemble => [.outLen, .corruptCount, .corruptType, .chOff, .chLen, .chType, .chCrc]) →
      t.regs.value name = s.regs.value name) ∧
    t.regs.status.overrun = s.regs.status.overrun ∧
    (i ≠ .hdrCheck → t.regs.status.profValid = s.regs.status.profValid) ∧
    (i ∉ [Instr.parseInit, .parseNext, .parseAll] →
      t.regs.status.iend = s.regs.status.iend ∧ t.regs.status.exhausted = s.regs.status.exhausted) ∧
    (i ∉ [Instr.parseInit, .parseNext, .parseAll, .hdrCheck, .assemble] →
      t.regs.status.corruptSeen = s.regs.status.corruptSeen) ∧
    t.platform = s.platform ∧ t.program = s.program

/-- R180, R182 step 1, R89: a command whose FT is 5 to 7, or whose CH is 3, ends with ILLEGAL_COMMAND carrying the command word. No word
decodes to such a command; that `exec` answers so for one is assumption 22. -/
def Obligations.RestrictedFieldValuesAreIllegal : Prop :=
  ∀ s : State,
    (∀ ft : BitVec 3, 4 < ft.toNat →
      exec (.reconByte ft) s = .next (raiseError .illegalCommand s.regs.cmd s) ∧
      exec (.filtByte ft) s = .next (raiseError .illegalCommand s.regs.cmd s) ∧
      ∀ first, exec (.filtRow ft first) s = .next (raiseError .illegalCommand s.regs.cmd s)) ∧
    exec (.isolate 3) s = .next (raiseError .illegalCommand s.regs.cmd s)

/-- R67, R68, R69, R182 steps 4 and 5: the regions each command uses; of CHECK_SIG, the parser and the assembler, a region beyond the address
space is BAD_ARGUMENT(2), then an overlap BAD_ARGUMENT(3), with no other effect; HDR_CHECK, which uses no second region, has cleared PROF_VALID
before (R121). The scanline commands check more before their regions: `ScanlineArgumentErrorsInOrder`. -/
def Obligations.RegionErrorsAreReportedInOrder : Prop :=
  ∀ s : State,
    (∀ (i : Instr) (src aux dst : Region), src = ⟨s.regs.srcAddr.toNat, s.regs.srcLen.toNat⟩ →
      aux = ⟨s.regs.auxAddr.toNat, s.regs.auxLen.toNat⟩ → dst = ⟨s.regs.dstAddr.toNat, s.regs.dstLen.toNat⟩ →
      regionsOf s.regs i = (match i with
        | .checkSig => ⟨[src], none⟩
        | .parseInit => ⟨[], none⟩
        | .parseNext => ⟨[src], some dst⟩
        | .parseAll => ⟨[src], some dst⟩
        | .hdrCheck => ⟨[src], none⟩
        | .paeth => ⟨[], none⟩
        | .reconByte _ => ⟨[], none⟩
        | .filtByte _ => ⟨[], none⟩
        | .reconRow first => ⟨if first = true then [src] else [src, aux], some dst⟩
        | .filtRow _ first => ⟨if first = true then [src] else [src, aux], some dst⟩
        | .decodeImage => ⟨[src], some dst⟩
        | .isolate _ => ⟨[src], some dst⟩
        | .assemble => ⟨[src, aux], some dst⟩)) ∧
    (∀ i ∈ [Instr.checkSig, .parseNext, .parseAll, .assemble],
      ((∃ r, (r ∈ (regionsOf s.regs i).reads ∨ (regionsOf s.regs i).written = some r) ∧ 2 ^ 32 < r.base + r.len) →
        exec i s = .next (raiseError .badArgument 2 s)) ∧
      ((∀ r, (r ∈ (regionsOf s.regs i).reads ∨ (regionsOf s.regs i).written = some r) → r.base + r.len ≤ 2 ^ 32) →
        (∃ w r a, (regionsOf s.regs i).written = some w ∧ r ∈ (regionsOf s.regs i).reads ∧
          w.contains a = true ∧ r.contains a = true) →
        exec i s = .next (raiseError .badArgument 3 s))) ∧
    (2 ^ 32 < s.regs.srcAddr.toNat + s.regs.srcLen.toNat →
      exec .hdrCheck s = .next (raiseError .badArgument 2
        { s with regs := { s.regs with status := { s.regs.status with profValid := false } } }))

/-! ## Chunk stream parser -/

/-- R103: CHECK_SIG succeeds on a stream that begins with the eight bytes of SIG, and otherwise reports the first byte that differs or is
missing; nothing else changes. -/
def Obligations.CheckSigComparesTheSignature : Prop :=
  ∀ s : State, s.regs.srcAddr.toNat + s.regs.srcLen.toNat ≤ 2 ^ 32 →
    s.platform.holdsRegion ⟨s.regs.srcAddr.toNat, min s.regs.srcLen.toNat 8⟩ →
    (8 ≤ s.regs.srcLen.toNat →
      (s.mem.readN s.regs.srcAddr.toNat 8 = [0x89, 0x50, 0x4E, 0x47, 0x0D, 0x0A, 0x1A, 0x0A]) →
      exec .checkSig s = .next (complete s)) ∧
    ∀ k, k < 8 →
      (∀ j, j < k → j < s.regs.srcLen.toNat ∧
        s.mem.read (s.regs.srcAddr.toNat + j) = ([0x89, 0x50, 0x4E, 0x47, 0x0D, 0x0A, 0x1A, 0x0A] : List Byte).getD j 0) →
      (s.regs.srcLen.toNat ≤ k ∨
        s.mem.read (s.regs.srcAddr.toNat + k) ≠ ([0x89, 0x50, 0x4E, 0x47, 0x0D, 0x0A, 0x1A, 0x0A] : List Byte).getD k 0) →
      exec .checkSig s = .next (raiseError .invalidSignature (BitVec.ofNat 32 k) s)

/-- R104: PARSE_INIT puts the parser at offset 8 and clears its counters, its descriptor, its CORRUPT registers and its three flags. -/
def Obligations.ParseInitRestartsTheParser : Prop :=
  ∀ s : State, exec .parseInit s = .next { s with regs := { s.regs with
    parseOff := 8, idatLen := 0, chunkCount := 0, corruptCount := 0, corruptType := 0
    chOff := 0, chLen := 0, chType := 0, chCrc := 0
    status := { s.regs.status with
      iend := false, exhausted := false, corruptSeen := false, busy := false, done := true, error := false } } }

/-- R35, R36, R105: once IEND or EXHAUSTED is 1 PARSE_NEXT and PARSE_ALL only complete; at the end of the stream they set EXHAUSTED and
read nothing; a cursor beyond the stream is BAD_ARGUMENT(4). -/
def Obligations.ParserAtTheEndOfTheStream : Prop :=
  ∀ (s : State) (i : Instr), i = .parseNext ∨ i = .parseAll → s.regionsLegal i →
    (s.regs.srcLen.toNat < s.regs.parseOff.toNat → exec i s = .next (raiseError .badArgument 4 s)) ∧
    (s.regs.parseOff.toNat ≤ s.regs.srcLen.toNat →
      s.regs.status.iend = true ∨ s.regs.status.exhausted = true → exec i s = .next (complete s)) ∧
    (s.regs.parseOff = s.regs.srcLen → s.regs.status.iend = false → s.regs.status.exhausted = false →
      exec i s = .next (complete { s with regs := { s.regs with status := { s.regs.status with exhausted := true } } }))

/-- R100, R101, R105, R106: PARSE_NEXT on a good chunk: the descriptor, the count and the cursor; an "IDAT" that fits is put behind the
payload and counted in IDAT_LEN, an "IEND" sets IEND, and any other type is only counted and stepped over. -/
def Obligations.ParseNextAcceptsAGoodChunk : Prop :=
  ∀ (s : State) (k : Chunk), s.regionsLegal .parseNext → s.holdsRegionsOf .parseNext →
    s.regs.status.iend = false → s.regs.status.exhausted = false →
    k = chunkAt s.platform.crc s.mem s.regs.srcAddr.toNat s.regs.parseOff.toNat → k.good = true →
    s.regs.parseOff.toNat + 12 + k.len ≤ s.regs.srcLen.toNat →
    (k.typ = [0x49, 0x44, 0x41, 0x54] → s.regs.idatLen.toNat + k.len ≤ s.regs.dstLen.toNat) →
    exec .parseNext s = .next { s with
      mem := if k.typ = [0x49, 0x44, 0x41, 0x54] then s.mem.writeN (s.regs.dstAddr.toNat + s.regs.idatLen.toNat) k.data
        else s.mem
      regs := { s.regs with
        chOff := s.regs.parseOff
        chLen := BitVec.ofNat 32 k.len
        chType := BitVec.ofNat 32 (be32 k.typ 0)
        chCrc := storedCrcAt s.mem s.regs.srcAddr.toNat s.regs.parseOff.toNat
        idatLen := if k.typ = [0x49, 0x44, 0x41, 0x54] then BitVec.ofNat 32 (s.regs.idatLen.toNat + k.len) else s.regs.idatLen
        chunkCount := s.regs.chunkCount + 1
        parseOff := BitVec.ofNat 32 (s.regs.parseOff.toNat + 12 + k.len)
        status := { s.regs.status with
          iend := decide (k.typ = [0x49, 0x45, 0x4E, 0x44]), busy := false, done := true, error := false } } }

/-- R27, R102, R105: PARSE_NEXT on a chunk that is not good: the mismatch is recorded; strict, the command ends with CORRUPTED_CHUNK and the
cursor stays; under the skip policy the chunk is stepped over and contributes nothing. -/
def Obligations.ParseNextRecordsAMismatch : Prop :=
  ∀ (s : State) (k : Chunk), s.regionsLegal .parseNext → s.holdsRegionsOf .parseNext →
    s.regs.status.iend = false → s.regs.status.exhausted = false →
    k = chunkAt s.platform.crc s.mem s.regs.srcAddr.toNat s.regs.parseOff.toNat → k.good = false →
    s.regs.parseOff.toNat + 12 + k.len ≤ s.regs.srcLen.toNat →
    ∃ t, exec .parseNext s = .next t ∧ t.mem = s.mem ∧
      t.regs.status.corruptSeen = true ∧ t.regs.corruptCount = s.regs.corruptCount + 1 ∧
      t.regs.corruptType = BitVec.ofNat 32 (be32 k.typ 0) ∧
      t.regs.chOff = s.regs.parseOff ∧ t.regs.chLen = BitVec.ofNat 32 k.len ∧
      t.regs.chType = BitVec.ofNat 32 (be32 k.typ 0) ∧
      t.regs.chCrc = storedCrcAt s.mem s.regs.srcAddr.toNat s.regs.parseOff.toNat ∧
      t.regs.idatLen = s.regs.idatLen ∧ t.regs.chunkCount = s.regs.chunkCount ∧
      t.regs.status.iend = false ∧ t.regs.status.exhausted = false ∧
      (s.regs.ctrl.crcSkip = false →
        t.regs.status.error = true ∧ t.regs.errCode = 3 ∧ t.regs.errInfo = BitVec.ofNat 32 (be32 k.typ 0) ∧
        t.regs.parseOff = s.regs.parseOff) ∧
      (s.regs.ctrl.crcSkip = true →
        t.regs.status.done = true ∧ t.regs.parseOff = BitVec.ofNat 32 (s.regs.parseOff.toNat + 12 + k.len))

/-- R100, R105, R186: PARSE_NEXT on a truncated chunk changes nothing but the outcome; on an "IDAT" that does not fit it has read the chunk
(the descriptor) and keeps the payload and the cursor. -/
def Obligations.ParseNextErrorsKeepTheCursor : Prop :=
  ∀ (s : State) (k : Chunk), s.regionsLegal .parseNext → s.holdsRegionsOf .parseNext →
    s.regs.status.iend = false → s.regs.status.exhausted = false →
    s.regs.parseOff.toNat < s.regs.srcLen.toNat →
    k = chunkAt s.platform.crc s.mem s.regs.srcAddr.toNat s.regs.parseOff.toNat →
    (s.regs.srcLen.toNat - s.regs.parseOff.toNat < 12 ∨ s.regs.srcLen.toNat < s.regs.parseOff.toNat + 12 + k.len →
      exec .parseNext s = .next (raiseError .streamTruncated s.regs.parseOff s)) ∧
    (s.regs.parseOff.toNat + 12 + k.len ≤ s.regs.srcLen.toNat → k.good = true → k.typ = [0x49, 0x44, 0x41, 0x54] →
      s.regs.dstLen.toNat < s.regs.idatLen.toNat + k.len →
      exec .parseNext s = .next (raiseError .capacity
        (BitVec.ofNat 32 (min (s.regs.idatLen.toNat + k.len) 0xFFFFFFFF))
        { s with regs := { s.regs with
          chOff := s.regs.parseOff
          chLen := BitVec.ofNat 32 k.len
          chType := 0x49444154
          chCrc := storedCrcAt s.mem s.regs.srcAddr.toNat s.regs.parseOff.toNat } }))

/-- R107: PARSE_ALL is PARSE_NEXT issued repeatedly until IEND or EXHAUSTED is 1 or an error occurs: one PARSE_NEXT and then PARSE_ALL is PARSE_ALL. -/
def Obligations.ParseAllIsRepeatedParseNext : Prop :=
  ∀ s t : State, exec .parseNext s = .next t →
    (t.regs.status.error = true → exec .parseAll s = .next t) ∧
    (t.regs.status.done = true → (t.regs.status.iend = true ∨ t.regs.status.exhausted = true) →
      exec .parseAll s = .next t) ∧
    (t.regs.status.done = true → t.regs.status.iend = false → t.regs.status.exhausted = false →
      exec .parseAll s = exec .parseAll t)

/-- R107, R108: PARSE_ALL that ends with DONE has reached IEND or the end of the stream, and its cursor lies inside the stream. -/
def Obligations.ParseAllEndsOnlyAtTheEnd : Prop :=
  ∀ s t : State, exec .parseAll s = .next t → t.regs.status.done = true →
    (t.regs.status.iend = true ∨ t.regs.status.exhausted = true) ∧
    s.regs.parseOff.toNat ≤ t.regs.parseOff.toNat ∧ t.regs.parseOff.toNat ≤ s.regs.srcLen.toNat

/-- R107, R109: PARSE_ALL over chunks that stand one behind the other from the cursor up to the first good "IEND" or the end of the stream,
each good or the policy skip, appends the data of the good "IDAT" chunks, in stream order, to the payload, changes no other byte, and
counts the chunks. -/
def Obligations.ParseAllConcatenatesThePayload : Prop :=
  ∀ (s : State) (ks : List Chunk), s.regionsLegal .parseAll → s.holdsRegionsOf .parseAll →
    s.regs.status.iend = false → s.regs.status.exhausted = false →
    chunksAt s.platform.crc s.mem s.regs.srcAddr.toNat s.regs.parseOff.toNat ks →
    (s.regs.ctrl.crcSkip = true ∨ ∀ k ∈ ks, k.good = true) → noEarlyEnd ks →
    s.regs.parseOff.toNat + chunksSize ks ≤ s.regs.srcLen.toNat →
    (endsAtIend ks ∨ s.regs.parseOff.toNat + chunksSize ks = s.regs.srcLen.toNat) →
    s.regs.idatLen.toNat + (payloadOf ks).length ≤ s.regs.dstLen.toNat →
    ∃ t, exec .parseAll s = .next t ∧ t.regs.status.done = true ∧
      t.regs.parseOff = BitVec.ofNat 32 (s.regs.parseOff.toNat + chunksSize ks) ∧
      t.regs.idatLen = BitVec.ofNat 32 (s.regs.idatLen.toNat + (payloadOf ks).length) ∧
      t.mem.readN (s.regs.dstAddr.toNat + s.regs.idatLen.toNat) (payloadOf ks).length = payloadOf ks ∧
      (∀ a, a < s.regs.dstAddr.toNat + s.regs.idatLen.toNat ∨
        s.regs.dstAddr.toNat + s.regs.idatLen.toNat + (payloadOf ks).length ≤ a → t.mem.read a = s.mem.read a) ∧
      t.regs.chunkCount = s.regs.chunkCount + BitVec.ofNat 32 (ks.filter (fun k => k.good)).length ∧
      t.regs.corruptCount = s.regs.corruptCount + BitVec.ofNat 32 (ks.filter (fun k => !k.good)).length ∧
      (endsAtIend ks → t.regs.status.iend = true ∧ t.regs.status.exhausted = false) ∧
      (¬ endsAtIend ks → t.regs.status.iend = false ∧ t.regs.status.exhausted = true)

/-! ## Header validator -/

/-- R120, R121: HDR_CHECK on a good 13-byte "IHDR" of the supported profile loads the ImageProfile, and changes nothing else. -/
def Obligations.HdrCheckLoadsTheSupportedProfile : Prop :=
  ∀ (s : State) (k : Chunk), s.regs.srcAddr.toNat + s.regs.srcLen.toNat ≤ 2 ^ 32 → s.holdsRegionsOf .hdrCheck →
    k = chunkAt s.platform.crc s.mem s.regs.srcAddr.toNat 8 → k.good = true →
    20 + k.len ≤ s.regs.srcLen.toNat → k.typ = [0x49, 0x48, 0x44, 0x52] → k.len = 13 →
    be32 k.data 0 ≠ 0 → be32 k.data 4 ≠ 0 → k.data.drop 8 = [8, 2, 0, 0, 0] →
    exec .hdrCheck s = .next { s with regs := { s.regs with
      chOff := 8
      chLen := 13
      chType := 0x49484452
      chCrc := storedCrcAt s.mem s.regs.srcAddr.toNat 8
      hdrFields := 0x00000208
      hdrInterlace := 0
      imgWidth := BitVec.ofNat 32 (be32 k.data 0)
      imgHeight := BitVec.ofNat 32 (be32 k.data 4)
      status := { s.regs.status with profValid := true, busy := false, done := true, error := false } } }

/-- R121, R122: HDR_CHECK on a first chunk that is good but no such header: the first check that fails, in the fixed order, names the
error; the header registers are captured once type and length are right; PROF_VALID is 0 and the geometry is kept. -/
def Obligations.HdrCheckReportsTheFirstBadField : Prop :=
  ∀ (s : State) (k : Chunk), s.regs.srcAddr.toNat + s.regs.srcLen.toNat ≤ 2 ^ 32 → s.holdsRegionsOf .hdrCheck →
    k = chunkAt s.platform.crc s.mem s.regs.srcAddr.toNat 8 → k.good = true → 20 + k.len ≤ s.regs.srcLen.toNat →
    ∀ verdict : Byte × Word,
      verdict =
        (if k.typ ≠ [0x49, 0x48, 0x44, 0x52] then (4, 0)
        else if k.len ≠ 13 then (4, 1)
        else if be32 k.data 0 = 0 ∨ be32 k.data 4 = 0 then (4, 2)
        else if k.data.getD 8 0 ≠ 8 then (5, 1)
        else if k.data.getD 9 0 ≠ 2 then (5, 2)
        else if k.data.getD 10 0 ≠ 0 then (5, 3)
        else if k.data.getD 11 0 ≠ 0 then (5, 4)
        else if k.data.getD 12 0 ≠ 0 then (5, 5)
        else (0, 0)) →
      verdict.1 ≠ 0 →
      ∃ t, exec .hdrCheck s = .next t ∧ t.regs.status.error = true ∧
        t.regs.errCode = verdict.1 ∧ t.regs.errInfo = verdict.2 ∧ t.regs.status.profValid = false ∧
        t.regs.imgWidth = s.regs.imgWidth ∧ t.regs.imgHeight = s.regs.imgHeight ∧ t.mem = s.mem ∧
        t.regs.chOff = 8 ∧ t.regs.chLen = BitVec.ofNat 32 k.len ∧ t.regs.chType = BitVec.ofNat 32 (be32 k.typ 0) ∧
        (k.typ = [0x49, 0x48, 0x44, 0x52] ∧ k.len = 13 →
          t.regs.hdrFields.toNat = (k.data.getD 8 0).toNat + (k.data.getD 9 0).toNat * 2 ^ 8 +
            (k.data.getD 10 0).toNat * 2 ^ 16 + (k.data.getD 11 0).toNat * 2 ^ 24 ∧
          t.regs.hdrInterlace = k.data.getD 12 0) ∧
        (¬ (k.typ = [0x49, 0x48, 0x44, 0x52] ∧ k.len = 13) →
          t.regs.hdrFields = s.regs.hdrFields ∧ t.regs.hdrInterlace = s.regs.hdrInterlace)

/-- R121: HDR_CHECK without a whole good first chunk: a stream shorter than the signature, no chunk, a truncated one, or a CRC mismatch
under either policy. PROF_VALID is 0, the geometry and the header registers are kept. -/
def Obligations.HdrCheckWithoutAGoodFirstChunk : Prop :=
  ∀ (s : State) (k : Chunk), s.regs.srcAddr.toNat + s.regs.srcLen.toNat ≤ 2 ^ 32 → s.holdsRegionsOf .hdrCheck →
    k = chunkAt s.platform.crc s.mem s.regs.srcAddr.toNat 8 →
    ∀ verdict : Byte × Word,
      verdict =
        (if s.regs.srcLen.toNat < 8 then (17, 4)
        else if s.regs.srcLen.toNat = 8 then (4, 3)
        else if s.regs.srcLen.toNat < 20 ∨ s.regs.srcLen.toNat < 20 + k.len then (2, 8)
        else if k.good = true then (0, 0)
        else if s.regs.ctrl.crcSkip = true then (4, 4)
        else (3, BitVec.ofNat 32 (be32 k.typ 0))) →
      verdict.1 ≠ 0 →
      ∃ t, exec .hdrCheck s = .next t ∧ t.regs.status.error = true ∧
        t.regs.errCode = verdict.1 ∧ t.regs.errInfo = verdict.2 ∧ t.regs.status.profValid = false ∧
        t.regs.imgWidth = s.regs.imgWidth ∧ t.regs.imgHeight = s.regs.imgHeight ∧ t.mem = s.mem ∧
        t.regs.hdrFields = s.regs.hdrFields ∧ t.regs.hdrInterlace = s.regs.hdrInterlace ∧
        (20 + k.len ≤ s.regs.srcLen.toNat →
          t.regs.status.corruptSeen = true ∧ t.regs.corruptCount = s.regs.corruptCount + 1 ∧
          t.regs.corruptType = BitVec.ofNat 32 (be32 k.typ 0))

/-! ## Scanline codec -/

/-- R131, R137: PAETH writes the predictor of the three operand bytes, computed on exact integers, and nothing else. -/
def Obligations.PaethWritesTheExactPredictor : Prop :=
  ∀ (s : State) (a b c : Int), a = s.regs.byteA.toNat → b = s.regs.byteB.toNat → c = s.regs.byteC.toNat →
    exec .paeth s = .next { s with regs := { s.regs with
      result :=
        if |b - c| ≤ |a - c| ∧ |b - c| ≤ |a + b - 2 * c| then s.regs.byteA
        else if |a - c| ≤ |a + b - 2 * c| then s.regs.byteB
        else s.regs.byteC
      status := { s.regs.status with busy := false, done := true, error := false } } }

/-- R131: the predictor is one of its operands, none is nearer to a + b - c, and a tie prefers a, then b, then c. -/
def Obligations.PaethIsNearestWithTieOrder : Prop :=
  ∀ (a b c : Byte) (p : Int), p = (a.toNat : Int) + b.toNat - c.toNat →
    (paethPredictor a b c = a ∨ paethPredictor a b c = b ∨ paethPredictor a b c = c) ∧
    (∀ q, q = a ∨ q = b ∨ q = c → |p - (paethPredictor a b c).toNat| ≤ |p - q.toNat|) ∧
    (|p - a.toNat| ≤ |p - b.toNat| → |p - a.toNat| ≤ |p - c.toNat| → paethPredictor a b c = a) ∧
    (|p - b.toNat| < |p - a.toNat| → |p - b.toNat| ≤ |p - c.toNat| → paethPredictor a b c = b)

/-- R130, R132, R133, R138, R139: RECON_BYTE writes (x + Pred) mod 256 and FILT_BYTE (x - Pred) mod 256 to RESULT, and nothing else. -/
def Obligations.ByteCommandsAddAndSubtractThePredictor : Prop :=
  ∀ (s : State) (ft : BitVec 3), ft.toNat ≤ 4 →
    exec (.reconByte ft) s = .next { s with regs := { s.regs with
      result := BitVec.ofNat 8
        (s.regs.byteX.toNat + predictorValue ft.toNat s.regs.byteA s.regs.byteB s.regs.byteC)
      status := { s.regs.status with busy := false, done := true, error := false } } } ∧
    exec (.filtByte ft) s = .next { s with regs := { s.regs with
      result := BitVec.ofNat 8
        (s.regs.byteX.toNat + 256 - predictorValue ft.toNat s.regs.byteA s.regs.byteB s.regs.byteC)
      status := { s.regs.status with busy := false, done := true, error := false } } }

/-- R144: for every filter type and rows of equal length, reconstruction inverts filtering and filtering inverts reconstruction. -/
def Obligations.FilteringAndReconstructionAreInverse : Prop :=
  ∀ (ft : FilterType) (row prior : List Byte), row.length = prior.length →
    reconRow ft (filterRow ft row prior) prior = row ∧ filterRow ft (reconRow ft row prior) prior = row

/-- R30, R67, R68, R182 steps 2, 3, 4, 5, 7 and 8: the argument errors of RECON_ROW, FILT_ROW, DECODE_IMAGE and ISOLATE in the common check
order, each reported where every step before it passes, with no other effect: NO_PROFILE, a zero dimension, a region beyond the address space,
an overlap of the written region with a read region, a wrong input length (SRC, then AUX), and an output region too small. -/
def Obligations.ScanlineArgumentErrorsInOrder : Prop :=
  ∀ (s : State) (i : Instr) (image : Bool) (input output : Nat),
    ((∃ first, i = .reconRow first ∧ image = false ∧ input = 1 + 3 * s.regs.imgWidth.toNat ∧
        output = 3 * s.regs.imgWidth.toNat) ∨
      (∃ ft first, i = .filtRow ft first ∧ i.wellFormed = true ∧ image = false ∧
        input = 3 * s.regs.imgWidth.toNat ∧ output = 1 + 3 * s.regs.imgWidth.toNat) ∨
      (i = .decodeImage ∧ image = true ∧ input = s.regs.imgHeight.toNat * (1 + 3 * s.regs.imgWidth.toNat) ∧
        output = s.regs.imgHeight.toNat * (3 * s.regs.imgWidth.toNat)) ∨
      (∃ ch, i = .isolate ch ∧ i.wellFormed = true ∧ image = true ∧
        input = s.regs.imgHeight.toNat * (3 * s.regs.imgWidth.toNat) ∧
        output = s.regs.imgHeight.toNat * (1 + 3 * s.regs.imgWidth.toNat))) →
    (¬ s.gateOpen → exec i s = .next (raiseError .noProfile 0 s)) ∧
    (s.gateOpen → (s.regs.imgWidth = 0 ∨ image = true ∧ s.regs.imgHeight = 0) →
      exec i s = .next (raiseError .badArgument 1 s)) ∧
    (s.gateOpen → s.regs.imgWidth ≠ 0 → (image = true → s.regs.imgHeight ≠ 0) →
      ((∃ r, (r ∈ (regionsOf s.regs i).reads ∨ (regionsOf s.regs i).written = some r) ∧ 2 ^ 32 < r.base + r.len) →
        exec i s = .next (raiseError .badArgument 2 s)) ∧
      ((∀ r, (r ∈ (regionsOf s.regs i).reads ∨ (regionsOf s.regs i).written = some r) → r.base + r.len ≤ 2 ^ 32) →
        (∃ w r a, (regionsOf s.regs i).written = some w ∧ r ∈ (regionsOf s.regs i).reads ∧
          w.contains a = true ∧ r.contains a = true) →
        exec i s = .next (raiseError .badArgument 3 s))) ∧
    (s.gateOpen → s.regs.imgWidth ≠ 0 → (image = true → s.regs.imgHeight ≠ 0) → s.regionsLegal i →
      (s.regs.srcLen.toNat ≠ input →
        exec i s = .next (raiseError .payloadSize (BitVec.ofNat 32 (min input 0xFFFFFFFF)) s)) ∧
      (s.regs.srcLen.toNat = input →
        (i = .reconRow false ∨ ∃ ft, i = .filtRow ft false) → s.regs.auxLen.toNat ≠ 3 * s.regs.imgWidth.toNat →
        exec i s = .next (raiseError .payloadSize (BitVec.ofNat 32 (min (3 * s.regs.imgWidth.toNat) 0xFFFFFFFF)) s)) ∧
      (s.regs.srcLen.toNat = input →
        ((i = .reconRow false ∨ ∃ ft, i = .filtRow ft false) → s.regs.auxLen.toNat = 3 * s.regs.imgWidth.toNat) →
        s.regs.dstLen.toNat < output →
        exec i s = .next (raiseError .capacity (BitVec.ofNat 32 (min output 0xFFFFFFFF)) s)))

/-- R134, R135, R140: RECON_ROW writes n = 3*W raw bytes at DST_ADDR, each the filtered byte plus the predictor of its raw neighbours in the
row just written and in the previous row (zeros with FIRST = 1); OUT_LEN is n; nothing else changes. -/
def Obligations.ReconRowReconstructsTheRow : Prop :=
  ∀ (s : State) (first : Bool) (n src dst aux : Nat), n = 3 * s.regs.imgWidth.toNat →
    src = s.regs.srcAddr.toNat → dst = s.regs.dstAddr.toNat → aux = s.regs.auxAddr.toNat →
    s.gateOpen → s.regs.imgWidth ≠ 0 → s.regionsLegal (.reconRow first) → s.holdsRegionsOf (.reconRow first) →
    s.regs.srcLen.toNat = 1 + n → (first = false → s.regs.auxLen.toNat = n) → n ≤ s.regs.dstLen.toNat →
    (s.mem.read src).toNat ≤ 4 →
    ∃ t, exec (.reconRow first) s = .next t ∧
      t.regs = { s.regs with
        outLen := BitVec.ofNat 32 n
        status := { s.regs.status with busy := false, done := true, error := false } } ∧
      (∀ x, x < n → t.mem.read (dst + x) = BitVec.ofNat 8 ((s.mem.read (src + 1 + x)).toNat +
        predictorValue (s.mem.read src).toNat (leftInMemory t.mem dst x)
          (if first = true then 0 else s.mem.read (aux + x)) (if first = true then 0 else leftInMemory s.mem aux x))) ∧
      ∀ a, a < dst ∨ dst + n ≤ a → t.mem.read a = s.mem.read a

/-- R134, R136, R141: FILT_ROW writes the filter type and n = 3*W filtered bytes at DST_ADDR, each the raw byte minus the predictor of its raw
neighbours; OUT_LEN is 1 + n; nothing else changes. -/
def Obligations.FiltRowFiltersTheRow : Prop :=
  ∀ (s : State) (ft : BitVec 3) (first : Bool) (n src dst aux : Nat), n = 3 * s.regs.imgWidth.toNat →
    src = s.regs.srcAddr.toNat → dst = s.regs.dstAddr.toNat → aux = s.regs.auxAddr.toNat →
    ft.toNat ≤ 4 → s.gateOpen → s.regs.imgWidth ≠ 0 →
    s.regionsLegal (.filtRow ft first) → s.holdsRegionsOf (.filtRow ft first) →
    s.regs.srcLen.toNat = n → (first = false → s.regs.auxLen.toNat = n) → 1 + n ≤ s.regs.dstLen.toNat →
    ∃ t, exec (.filtRow ft first) s = .next t ∧
      t.regs = { s.regs with
        outLen := BitVec.ofNat 32 (1 + n)
        status := { s.regs.status with busy := false, done := true, error := false } } ∧
      (t.mem.read dst).toNat = ft.toNat ∧
      (∀ x, x < n → t.mem.read (dst + 1 + x) = BitVec.ofNat 8 ((s.mem.read (src + x)).toNat + 256 -
        predictorValue ft.toNat (leftInMemory s.mem src x)
          (if first = true then 0 else s.mem.read (aux + x)) (if first = true then 0 else leftInMemory s.mem aux x))) ∧
      ∀ a, a < dst ∨ dst + 1 + n ≤ a → t.mem.read a = s.mem.read a

/-- R79, R134, R142, R143: DECODE_IMAGE writes the H rows of the PixelGrid, each byte the filtered byte plus the predictor of its raw
neighbours in the grid, row by row with each row's own filter type; OUT_LEN is H*3W; nothing else changes. -/
def Obligations.DecodeImageReconstructsTheGrid : Prop :=
  ∀ (s : State) (n h src dst : Nat), n = 3 * s.regs.imgWidth.toNat → h = s.regs.imgHeight.toNat →
    src = s.regs.srcAddr.toNat → dst = s.regs.dstAddr.toNat →
    s.gateOpen → s.regs.imgWidth ≠ 0 → s.regs.imgHeight ≠ 0 →
    s.regionsLegal .decodeImage → s.holdsRegionsOf .decodeImage →
    s.regs.srcLen.toNat = h * (1 + n) → h * n ≤ s.regs.dstLen.toNat →
    (∀ y, y < h → (s.mem.read (src + y * (1 + n))).toNat ≤ 4) →
    ∃ t, exec .decodeImage s = .next t ∧
      t.regs = { s.regs with
        outLen := BitVec.ofNat 32 (h * n)
        status := { s.regs.status with busy := false, done := true, error := false } } ∧
      (∀ y x, y < h → x < n → t.mem.read (dst + y * n + x) =
        BitVec.ofNat 8 ((s.mem.read (src + y * (1 + n) + 1 + x)).toNat +
          predictorValue (s.mem.read (src + y * (1 + n))).toNat (leftInMemory t.mem (dst + y * n) x)
            (if y = 0 then 0 else t.mem.read (dst + (y - 1) * n + x))
            (if y = 0 then 0 else leftInMemory t.mem (dst + (y - 1) * n) x))) ∧
      ∀ a, a < dst ∨ dst + h * n ≤ a → t.mem.read a = s.mem.read a

/-- R82, R140, R142, R186: a filter byte of 5 to 255 ends RECON_ROW with nothing written, and DECODE_IMAGE at the first such row y, with rows
0 .. y-1 written (OUT_LEN = y*3W) and every byte from row y on unchanged. -/
def Obligations.UnknownFilterTypeStopsTheCommand : Prop :=
  ∀ (s : State) (n src dst : Nat), n = 3 * s.regs.imgWidth.toNat →
    src = s.regs.srcAddr.toNat → dst = s.regs.dstAddr.toNat → s.gateOpen → s.regs.imgWidth ≠ 0 →
    (∀ first, s.regionsLegal (.reconRow first) → s.holdsRegionsOf (.reconRow first) →
      s.regs.srcLen.toNat = 1 + n → (first = false → s.regs.auxLen.toNat = n) → n ≤ s.regs.dstLen.toNat →
      4 < (s.mem.read src).toNat →
      exec (.reconRow first) s = .next (raiseError .unknownFilterType 0 s)) ∧
    (∀ y, s.regionsLegal .decodeImage → s.holdsRegionsOf .decodeImage → y < s.regs.imgHeight.toNat →
      s.regs.srcLen.toNat = s.regs.imgHeight.toNat * (1 + n) → s.regs.imgHeight.toNat * n ≤ s.regs.dstLen.toNat →
      (∀ z, z < y → (s.mem.read (src + z * (1 + n))).toNat ≤ 4) → 4 < (s.mem.read (src + y * (1 + n))).toNat →
      ∃ t, exec .decodeImage s = .next t ∧
        t.regs = { s.regs with
          outLen := if y = 0 then s.regs.outLen else BitVec.ofNat 32 (y * n)
          errCode := 6
          errInfo := BitVec.ofNat 32 y
          status := { s.regs.status with busy := false, done := false, error := true } } ∧
        (∀ z x, z < y → x < n → t.mem.read (dst + z * n + x) =
          BitVec.ofNat 8 ((s.mem.read (src + z * (1 + n) + 1 + x)).toNat +
            predictorValue (s.mem.read (src + z * (1 + n))).toNat (leftInMemory t.mem (dst + z * n) x)
              (if z = 0 then 0 else t.mem.read (dst + (z - 1) * n + x))
              (if z = 0 then 0 else leftInMemory t.mem (dst + (z - 1) * n) x))) ∧
        ∀ a, a < dst ∨ dst + y * n ≤ a → t.mem.read a = s.mem.read a)

/-! ## Channel isolator -/

/-- R79, R160, R162: ISOLATE writes, for each grid row, a 00 byte and the row with the selected channel kept and the other two 0;
OUT_LEN is H*(1 + 3W); nothing else changes. -/
def Obligations.IsolateKeepsOneChannel : Prop :=
  ∀ (s : State) (ch : BitVec 2) (n h src dst : Nat), n = 3 * s.regs.imgWidth.toNat → h = s.regs.imgHeight.toNat →
    src = s.regs.srcAddr.toNat → dst = s.regs.dstAddr.toNat → ch.toNat ≤ 2 →
    s.gateOpen → s.regs.imgWidth ≠ 0 → s.regs.imgHeight ≠ 0 →
    s.regionsLegal (.isolate ch) → s.holdsRegionsOf (.isolate ch) →
    s.regs.srcLen.toNat = h * n → h * (1 + n) ≤ s.regs.dstLen.toNat →
    ∃ t, exec (.isolate ch) s = .next t ∧
      t.regs = { s.regs with
        outLen := BitVec.ofNat 32 (h * (1 + n))
        status := { s.regs.status with busy := false, done := true, error := false } } ∧
      (∀ y, y < h → t.mem.read (dst + y * (1 + n)) = 0) ∧
      (∀ y x k, y < h → x < s.regs.imgWidth.toNat → k < 3 → t.mem.read (dst + y * (1 + n) + 1 + (3 * x + k)) =
        if k = ch.toNat then s.mem.read (src + (y * s.regs.imgWidth.toNat + x) * 3 + k) else 0) ∧
      ∀ a, a < dst ∨ dst + h * (1 + n) ≤ a → t.mem.read a = s.mem.read a

/-- R161: decoding what ISOLATE emits for a row gives the selected channel and zeros, whatever the previous row is. -/
def Obligations.DecodingAnIsolatedRowKeepsTheChannel : Prop :=
  ∀ (ch : Nat) (row prior : List Byte), ch ≤ 2 →
    FilterType.ofCode ((isolateRecord ch row).headD 1).toNat = some .none ∧
    (reconRow .none ((isolateRecord ch row).drop 1) prior).length = row.length ∧
    ∀ x, x < row.length →
      (reconRow .none ((isolateRecord ch row).drop 1) prior).getD x 0 = if x % 3 = ch then row.getD x 0 else 0

/-! ## Container assembler -/

/-- R165 to R168: ASSEMBLE variant (a) emits SIG and the good chunks of the original stream up to "IEND", verbatim, the first "IDAT" replaced by
the new chunk and the others dropped; OUT_LEN is the number of bytes emitted. -/
def Obligations.AssembleReplacesTheImageData : Prop :=
  ∀ (s : State) (ks : List Chunk) (p new out : List Byte), s.regionsLegal .assemble → s.holdsRegionsOf .assemble →
    s.regs.ctrl.ancReduced = false → 8 ≤ s.regs.srcLen.toNat →
    chunksAt s.platform.crc s.mem s.regs.srcAddr.toNat 8 ks →
    (s.regs.ctrl.crcSkip = true ∨ ∀ k ∈ ks, k.good = true) → noEarlyEnd ks → endsAtIend ks →
    8 + chunksSize ks ≤ s.regs.srcLen.toNat → (∃ k ∈ ks, k.good = true ∧ k.typ = [0x49, 0x44, 0x41, 0x54]) →
    p = s.mem.readN s.regs.auxAddr.toNat s.regs.auxLen.toNat →
    new = be32bytes s.regs.auxLen ++ [0x49, 0x44, 0x41, 0x54] ++ p ++
      be32bytes (crc32 s.platform.crc ([0x49, 0x44, 0x41, 0x54] ++ p)) →
    out = [0x89, 0x50, 0x4E, 0x47, 0x0D, 0x0A, 0x1A, 0x0A] ++
      variantABytes s.mem s.regs.srcAddr.toNat new false (keptChunks 8 ks) →
    out.length ≤ s.regs.dstLen.toNat →
    ∃ t, exec .assemble s = .next t ∧ t.regs.status.done = true ∧ t.regs.outLen = BitVec.ofNat 32 out.length ∧
      t.mem.readN s.regs.dstAddr.toNat out.length = out ∧
      ∀ a, a < s.regs.dstAddr.toNat ∨ s.regs.dstAddr.toNat + out.length ≤ a → t.mem.read a = s.mem.read a

/-- R165, R166, R167, R169: ASSEMBLE variant (b) emits SIG, the first good "IHDR", the new "IDAT" and the "IEND", in this order. -/
def Obligations.AssembleReducedKeepsHeaderAndEnd : Prop :=
  ∀ (s : State) (ks : List Chunk) (ih ie : KeptChunk) (p new out : List Byte),
    s.regionsLegal .assemble → s.holdsRegionsOf .assemble →
    s.regs.ctrl.ancReduced = true → 8 ≤ s.regs.srcLen.toNat →
    chunksAt s.platform.crc s.mem s.regs.srcAddr.toNat 8 ks →
    (s.regs.ctrl.crcSkip = true ∨ ∀ k ∈ ks, k.good = true) → noEarlyEnd ks → endsAtIend ks →
    8 + chunksSize ks ≤ s.regs.srcLen.toNat →
    (keptChunks 8 ks).find? (fun k => k.typ == [0x49, 0x48, 0x44, 0x52]) = some ih →
    (keptChunks 8 ks).getLast? = some ie →
    p = s.mem.readN s.regs.auxAddr.toNat s.regs.auxLen.toNat →
    new = be32bytes s.regs.auxLen ++ [0x49, 0x44, 0x41, 0x54] ++ p ++
      be32bytes (crc32 s.platform.crc ([0x49, 0x44, 0x41, 0x54] ++ p)) →
    out = [0x89, 0x50, 0x4E, 0x47, 0x0D, 0x0A, 0x1A, 0x0A] ++ verbatimBytes s.mem s.regs.srcAddr.toNat ih ++ new ++
      verbatimBytes s.mem s.regs.srcAddr.toNat ie →
    out.length ≤ s.regs.dstLen.toNat →
    ∃ t, exec .assemble s = .next t ∧ t.regs.status.done = true ∧ t.regs.outLen = BitVec.ofNat 32 out.length ∧
      t.mem.readN s.regs.dstAddr.toNat out.length = out ∧
      ∀ a, a < s.regs.dstAddr.toNat ∨ s.regs.dstAddr.toNat + out.length ≤ a → t.mem.read a = s.mem.read a

/-- R170: an ASSEMBLE that ends with an error leaves OUT_LEN alone (0 from issue) and either no byte of memory changed, or, after CAPACITY,
eight zero bytes where the signature would stand. -/
def Obligations.FailedAssembleLeavesNoSignature : Prop :=
  ∀ s t : State, exec .assemble s = .next t → t.regs.status.error = true →
    t.regs.outLen = s.regs.outLen ∧
    ((∀ a, t.mem.read a = s.mem.read a) ∨
      t.regs.errCode = 18 ∧ t.mem.readN s.regs.dstAddr.toNat 8 = [0, 0, 0, 0, 0, 0, 0, 0])

/-- R167 to R169, R182 step 6: ASSEMBLE of a stream with no "IEND" is STREAM_TRUNCATED at its end, variant (a) without a good "IDAT" is
NO_IDAT, variant (b) without a good "IHDR" is MALFORMED_HEADER(5), and a stream shorter than the signature is BAD_ARGUMENT(4). On the way (R100, R102, R186)
a chunk cut off by the end of the stream is STREAM_TRUNCATED at its offset, with the mismatches before it counted, and under the strict policy
a chunk that is not good is CORRUPTED_CHUNK with its type, described and recorded. No byte changes. -/
def Obligations.AssembleNeedsItsChunks : Prop :=
  ∀ (s : State) (ks : List Chunk), s.regionsLegal .assemble → s.holdsRegionsOf .assemble →
    (s.regs.srcLen.toNat < 8 → exec .assemble s = .next (raiseError .badArgument 4 s)) ∧
    (8 ≤ s.regs.srcLen.toNat → chunksAt s.platform.crc s.mem s.regs.srcAddr.toNat 8 ks →
      (s.regs.ctrl.crcSkip = true ∨ ∀ k ∈ ks, k.good = true) → noEarlyEnd ks →
      8 + chunksSize ks ≤ s.regs.srcLen.toNat →
      ∀ verdict : Byte × Word,
        ((¬ endsAtIend ks ∧ 8 + chunksSize ks = s.regs.srcLen.toNat ∧ verdict = (2, s.regs.srcLen)) ∨
          (endsAtIend ks ∧ s.regs.ctrl.ancReduced = false ∧
            (∀ k ∈ ks, ¬ (k.good = true ∧ k.typ = [0x49, 0x44, 0x41, 0x54])) ∧ verdict = (21, 0)) ∨
          (endsAtIend ks ∧ s.regs.ctrl.ancReduced = true ∧
            (∀ k ∈ ks, ¬ (k.good = true ∧ k.typ = [0x49, 0x48, 0x44, 0x52])) ∧ verdict = (4, 5))) →
        ∃ t, exec .assemble s = .next t ∧ t.regs.status.error = true ∧ t.regs.errCode = verdict.1 ∧
          t.regs.errInfo = verdict.2 ∧ t.mem = s.mem) ∧
    (8 ≤ s.regs.srcLen.toNat → chunksAt s.platform.crc s.mem s.regs.srcAddr.toNat 8 ks →
      (s.regs.ctrl.crcSkip = true ∨ ∀ k ∈ ks, k.good = true) → noEarlyEnd ks → ¬ endsAtIend ks →
      ∀ (off : Nat) (k : Chunk), off = 8 + chunksSize ks → off < s.regs.srcLen.toNat →
        k = chunkAt s.platform.crc s.mem s.regs.srcAddr.toNat off →
        (s.regs.srcLen.toNat - off < 12 ∨ s.regs.srcLen.toNat < off + 12 + k.len →
          ∃ t, exec .assemble s = .next t ∧ t.regs.status.error = true ∧ t.regs.errCode = 2 ∧
            t.regs.errInfo = BitVec.ofNat 32 off ∧
            t.regs.corruptCount = s.regs.corruptCount + BitVec.ofNat 32 (ks.filter (fun k => !k.good)).length ∧
            t.mem = s.mem) ∧
        (off + 12 + k.len ≤ s.regs.srcLen.toNat → k.good = false → s.regs.ctrl.crcSkip = false →
          ∃ t, exec .assemble s = .next t ∧ t.regs.status.error = true ∧ t.regs.errCode = 3 ∧
            t.regs.errInfo = BitVec.ofNat 32 (be32 k.typ 0) ∧ t.regs.status.corruptSeen = true ∧
            t.regs.corruptCount = s.regs.corruptCount + 1 ∧ t.regs.corruptType = BitVec.ofNat 32 (be32 k.typ 0) ∧
            t.regs.chOff = BitVec.ofNat 32 off ∧ t.regs.chLen = BitVec.ofNat 32 k.len ∧
            t.regs.chType = BitVec.ofNat 32 (be32 k.typ 0) ∧
            t.regs.chCrc = storedCrcAt s.mem s.regs.srcAddr.toNat off ∧ t.mem = s.mem))

/-- R166, R170, R181: ASSEMBLE raises CAPACITY at the first piece that does not fit behind the pieces before it; ERR_INFO is the length the
output would have with that piece (at most 2^32 - 1). If it is the first piece no byte changes; otherwise eight zero bytes stand at DST, then what
was emitted up to that piece, and every byte from there on, and before DST, is unchanged. OUT_LEN keeps the 0 of the issue. -/
def Obligations.AssembleCapacityKeepsWhatWasEmitted : Prop :=
  ∀ (s : State) (ks : List Chunk) (ih ie : KeptChunk) (p new piece : List Byte) (before after : List (List Byte)) (o dst : Nat),
    s.regionsLegal .assemble → s.holdsRegionsOf .assemble → 8 ≤ s.regs.srcLen.toNat →
    chunksAt s.platform.crc s.mem s.regs.srcAddr.toNat 8 ks →
    (s.regs.ctrl.crcSkip = true ∨ ∀ k ∈ ks, k.good = true) → noEarlyEnd ks → endsAtIend ks →
    8 + chunksSize ks ≤ s.regs.srcLen.toNat →
    (s.regs.ctrl.ancReduced = false → ∃ k ∈ ks, k.good = true ∧ k.typ = [0x49, 0x44, 0x41, 0x54]) →
    (s.regs.ctrl.ancReduced = true →
      (keptChunks 8 ks).find? (fun k => k.typ == [0x49, 0x48, 0x44, 0x52]) = some ih ∧
      (keptChunks 8 ks).getLast? = some ie) →
    p = s.mem.readN s.regs.auxAddr.toNat s.regs.auxLen.toNat →
    new = be32bytes s.regs.auxLen ++ [0x49, 0x44, 0x41, 0x54] ++ p ++
      be32bytes (crc32 s.platform.crc ([0x49, 0x44, 0x41, 0x54] ++ p)) →
    [0x89, 0x50, 0x4E, 0x47, 0x0D, 0x0A, 0x1A, 0x0A] ::
        (if s.regs.ctrl.ancReduced = true then
          [verbatimBytes s.mem s.regs.srcAddr.toNat ih, new, verbatimBytes s.mem s.regs.srcAddr.toNat ie]
        else variantAPieces s.mem s.regs.srcAddr.toNat new false (keptChunks 8 ks)) = before ++ piece :: after →
    o = before.flatten.length → o ≤ s.regs.dstLen.toNat → s.regs.dstLen.toNat < o + piece.length →
    dst = s.regs.dstAddr.toNat →
    ∃ t, exec .assemble s = .next t ∧ t.regs.status.error = true ∧ t.regs.errCode = 18 ∧
      t.regs.errInfo = BitVec.ofNat 32 (min (o + piece.length) 0xFFFFFFFF) ∧ t.regs.outLen = s.regs.outLen ∧
      (before = [] → ∀ a, t.mem.read a = s.mem.read a) ∧
      (before ≠ [] → ∀ a, t.mem.read a =
        if dst ≤ a ∧ a < dst + 8 then 0
        else if dst ≤ a ∧ a < dst + o then before.flatten.getD (a - dst) 0
        else s.mem.read a)

/-- R171: the output of an ASSEMBLE that completed, taken as a stream, passes CHECK_SIG, and PARSE_INIT and PARSE_ALL over it complete at "IEND"
at its end, find no CRC mismatch, and collect the replacement payload, whatever the function CRC32 and the policy are. -/
def Obligations.AssembledStreamsParseBack : Prop :=
  ∀ s t u : State, exec .assemble s = .next t → t.regs.status.done = true →
    u.platform = t.platform → u.regs.srcAddr = t.regs.dstAddr → u.regs.srcLen = t.regs.outLen →
    (∀ a, u.regs.src.contains a = true → u.mem.read a = t.mem.read a) →
    u.regionsLegal .parseAll → u.holdsRegionsOf .parseAll → s.regs.auxLen.toNat ≤ u.regs.dstLen.toNat →
    exec .checkSig u = .next (complete u) ∧
    ∃ v w, exec .parseInit u = .next v ∧ v.regs.status.done = true ∧ exec .parseAll v = .next w ∧ w.regs.status.done = true ∧
      w.regs.status.iend = true ∧ w.regs.parseOff = u.regs.srcLen ∧ w.regs.corruptCount = 0 ∧
      w.regs.idatLen = s.regs.auxLen ∧
      w.mem.readN u.regs.dstAddr.toNat s.regs.auxLen.toNat = s.mem.readN s.regs.auxAddr.toNat s.regs.auxLen.toNat

/-! ## Invariants of every step -/

/-- The reset state has the invariant of `State.Inv`. -/
def Obligations.ResetStateHasTheInvariant : Prop := State.reset.Inv

/-- R34, R36, R123, R180, R183, R192: every step keeps the invariant: memory's canonical form, the flags that are never 1 together, the quiet
registers of a running command, the error codes, and the profile law. -/
def Obligations.EveryStepKeepsTheInvariant : Prop :=
  ∀ s t : State, s.Inv → step s = .next t → t.Inv

/-- R213, R216: no step changes the parameters of the launch, BUFFER_PRESENT and the function CRC32 among them. -/
def Obligations.LaunchParametersNeverChange : Prop :=
  ∀ s t : State, step s = .next t → t.platform = s.platform
end

