-- ==== Sys2Proof/Laws/Memory.lean ====
section
/-! SUPPORT. The laws of buffer memory: read after write, what a write leaves alone, and the canonical form every operation keeps. -/

namespace Sys2Proof.Machine

@[simp] theorem Memory.read_nil (a : Nat) : Memory.read [] a = Memory.unlisted := rfl

theorem Memory.read_cons (c : Host.Cell) (m : Memory) (a : Nat) :
    Memory.read (c :: m) a = if c.1 = a then c.2 else m.read a := rfl

theorem Memory.read_erase_same (m : Memory) (a : Nat) : (m.erase a).read a = Memory.unlisted := by
  induction m with
  | nil => rfl
  | cons c m ih =>
    by_cases h : c.1 = a
    · simpa [Memory.erase, h] using ih
    · simpa [Memory.erase, h, Memory.read_cons] using ih

theorem Memory.read_erase_other (m : Memory) {a a' : Nat} (h : a' ≠ a) : (m.erase a).read a' = m.read a' := by
  induction m with
  | nil => rfl
  | cons c m ih =>
    by_cases hc : c.1 = a
    · have : c.1 ≠ a' := fun e => h (e ▸ hc)
      rw [Memory.erase, if_pos hc, ih, Memory.read_cons, if_neg this]
    · simp [Memory.erase, hc, Memory.read_cons, ih]

theorem Memory.read_insert_same (m : Memory) (a : Nat) (b : Byte) (h : ∀ c ∈ m, c.1 ≠ a) :
    (m.insert a b).read a = b := by
  induction m with
  | nil => simp [Memory.insert, Memory.read_cons]
  | cons c m ih =>
    by_cases hc : a < c.1
    · simp [Memory.insert, hc, Memory.read_cons]
    · have h1 := h c (by simp)
      simp [Memory.insert, hc, Memory.read_cons, h1, ih (fun d hd => h d (by simp [hd]))]

theorem Memory.read_insert_other (m : Memory) {a a' : Nat} (b : Byte) (h : a' ≠ a) :
    (m.insert a b).read a' = m.read a' := by
  have h' : a ≠ a' := fun e => h e.symm
  induction m with
  | nil => simp [Memory.insert, Memory.read_cons, h']
  | cons c m ih =>
    by_cases hc : a < c.1
    · simp [Memory.insert, hc, Memory.read_cons, h']
    · simp [Memory.insert, hc, Memory.read_cons, ih]

theorem Memory.erase_unlisted (m : Memory) (a : Nat) : ∀ c ∈ m.erase a, c.1 ≠ a := by
  induction m with
  | nil => simp [Memory.erase]
  | cons c m ih =>
    by_cases hc : c.1 = a
    · simpa [Memory.erase, hc] using ih
    · intro d hd
      simp [Memory.erase, hc] at hd
      rcases hd with rfl | hd
      · exact hc
      · exact ih d hd

/-- A read after a write to the same address gives the byte written, in every memory. -/
@[simp] theorem Memory.read_write_same (m : Memory) (a : Nat) (b : Byte) : (m.write a b).read a = b := by
  unfold Memory.write
  split
  · next h => rw [Memory.read_erase_same, h]
  · exact Memory.read_insert_same _ _ _ (Memory.erase_unlisted m a)

/-- A write leaves every other address alone, in every memory. -/
theorem Memory.read_write_other (m : Memory) {a a' : Nat} (b : Byte) (h : a' ≠ a) :
    (m.write a b).read a' = m.read a' := by
  unfold Memory.write
  split
  · exact Memory.read_erase_other m h
  · rw [Memory.read_insert_other _ _ h, Memory.read_erase_other m h]

/-- A write of several bytes, read back at any address. -/
theorem Memory.read_writeN (bs : List Byte) : ∀ (m : Memory) (a a' : Nat),
    (m.writeN a bs).read a' = if a ≤ a' ∧ a' < a + bs.length then bs.getD (a' - a) 0 else m.read a' := by
  induction bs with
  | nil =>
    intro m a a'
    rw [if_neg (by simp)]
    rfl
  | cons b bs ih =>
    intro m a a'
    rw [Memory.writeN, ih]
    by_cases h : a' = a
    · subst h
      simp
    · by_cases h2 : a + 1 ≤ a' ∧ a' < a + 1 + bs.length
      · have h3 : a ≤ a' ∧ a' < a + (b :: bs).length := by simp only [List.length_cons]; omega
        have h4 : a' - a = (a' - (a + 1)) + 1 := by omega
        rw [if_pos h2, if_pos h3, h4, List.getD_cons_succ]
      · have h3 : ¬ (a ≤ a' ∧ a' < a + (b :: bs).length) := by simp only [List.length_cons]; omega
        rw [if_neg h2, if_neg h3, Memory.read_write_other m b h]

theorem Memory.read_writeN_outside (m : Memory) (a : Nat) (bs : List Byte) {a' : Nat}
    (h : a' < a ∨ a + bs.length ≤ a') : (m.writeN a bs).read a' = m.read a' := by
  rw [Memory.read_writeN, if_neg (by omega)]

theorem Memory.read_writeN_inside (m : Memory) (a : Nat) (bs : List Byte) {i : Nat} (h : i < bs.length) :
    (m.writeN a bs).read (a + i) = bs.getD i 0 := by
  rw [Memory.read_writeN, if_pos (by omega)]
  congr 1
  omega

@[simp] theorem Memory.readN_length (m : Memory) (a n : Nat) : (m.readN a n).length = n := by
  simp [Memory.readN]

@[simp] theorem Memory.readN_zero (m : Memory) (a : Nat) : m.readN a 0 = [] := rfl

theorem Memory.readN_getD (m : Memory) (a n : Nat) {i : Nat} (h : i < n) :
    (m.readN a n).getD i 0 = m.read (a + i) := by
  simp [Memory.readN, List.getD, h]

theorem Memory.readN_congr {m m' : Memory} {a n : Nat} (h : ∀ i, i < n → m'.read (a + i) = m.read (a + i)) :
    m'.readN a n = m.readN a n := by
  unfold Memory.readN
  refine List.map_congr_left ?_
  intro i hi
  exact h i (by simpa using hi)

/-- Bytes written read back, in order. -/
theorem Memory.readN_writeN_same (m : Memory) (a : Nat) (bs : List Byte) :
    (m.writeN a bs).readN a bs.length = bs := by
  refine List.ext_getElem (by simp) ?_
  intro i h1 h2
  simp only [Memory.readN_length] at h1
  simp [Memory.readN, Memory.read_writeN_inside m a bs h2, h2]

/-- Bytes outside those written read as before. -/
theorem Memory.readN_writeN_outside (m : Memory) (a : Nat) (bs : List Byte) {a' n : Nat}
    (h : a' + n ≤ a ∨ a + bs.length ≤ a') : (m.writeN a bs).readN a' n = m.readN a' n := by
  refine Memory.readN_congr ?_
  intro i hi
  exact Memory.read_writeN_outside m a bs (by omega)

theorem Memory.readN_append (m : Memory) (a n k : Nat) : m.readN a (n + k) = m.readN a n ++ m.readN (a + n) k := by
  unfold Memory.readN
  rw [List.range_add, List.map_append, List.map_map]
  refine congrArg _ (List.map_congr_left ?_)
  intro i _
  simp [Nat.add_assoc]

theorem Memory.readN_drop (m : Memory) (a n k : Nat) : (m.readN a n).drop k = m.readN (a + k) (n - k) := by
  by_cases h : k ≤ n
  · obtain ⟨d, rfl⟩ := Nat.exists_eq_add_of_le h
    rw [Memory.readN_append, List.drop_left' (by simp)]
    simp
  · rw [List.drop_eq_nil_of_le (by simp; omega)]
    have : n - k = 0 := by omega
    simp [this]

theorem Memory.readN_headD (m : Memory) (a n : Nat) (h : 0 < n) : (m.readN a n).headD 0 = m.read a := by
  have := Memory.readN_getD m a n h
  cases hl : m.readN a n with
  | nil => simp [hl] at this; have h2 := Memory.readN_length m a n; rw [hl] at h2; simp at h2; omega
  | cons b bs => simpa [hl] using this

/-! ## The canonical form -/

/-- Addresses strictly rising and no listed default byte, said over the pairs (equivalent to `Memory.wf`). -/
theorem Memory.wf_iff (m : Memory) :
    m.wf = true ↔ m.Pairwise (fun c d => c.1 < d.1) ∧ ∀ c ∈ m, c.2 ≠ Memory.unlisted := by
  induction m with
  | nil => simp [Memory.wf]
  | cons c m ih =>
    cases m with
    | nil => simp [Memory.wf]
    | cons d rest =>
      simp only [Memory.wf, Bool.and_eq_true, decide_eq_true_eq, ih]
      constructor
      · rintro ⟨⟨h1, h2⟩, h3, h4⟩
        refine ⟨?_, ?_⟩
        · refine List.pairwise_cons.2 ⟨?_, h3⟩
          intro e he
          simp only [List.mem_cons] at he
          rcases he with rfl | he
          · exact h2
          · exact Nat.lt_trans h2 ((List.pairwise_cons.1 h3).1 e he)
        · intro e he
          simp only [List.mem_cons] at he
          rcases he with rfl | he
          · exact h1
          · exact h4 e (by simpa using he)
      · rintro ⟨h1, h2⟩
        have h3 := List.pairwise_cons.1 h1
        exact ⟨⟨h2 c (by simp), h3.1 d (by simp)⟩, h3.2, fun e he => h2 e (List.mem_cons_of_mem _ he)⟩

theorem Memory.mem_erase {m : Memory} {a : Nat} {c : Host.Cell} (h : c ∈ m.erase a) : c ∈ m := by
  induction m with
  | nil => simp [Memory.erase] at h
  | cons d m ih =>
    by_cases hd : d.1 = a
    · simp only [Memory.erase, hd, if_true] at h; exact List.mem_cons_of_mem _ (ih h)
    · simp only [Memory.erase, hd, if_false, List.mem_cons] at h
      rcases h with rfl | h
      · simp
      · exact List.mem_cons_of_mem _ (ih h)

theorem Memory.pairwise_erase {m : Memory} (a : Nat) (h : m.Pairwise (fun c d => c.1 < d.1)) :
    (m.erase a).Pairwise (fun c d => c.1 < d.1) := by
  induction m with
  | nil => simp [Memory.erase]
  | cons c m ih =>
    have h' := List.pairwise_cons.1 h
    by_cases hc : c.1 = a
    · simpa [Memory.erase, hc] using ih h'.2
    · simp only [Memory.erase, hc, if_false]
      exact List.pairwise_cons.2 ⟨fun d hd => h'.1 d (Memory.mem_erase hd), ih h'.2⟩

theorem Memory.mem_insert {m : Memory} {a : Nat} {b : Byte} {c : Host.Cell} (h : c ∈ m.insert a b) :
    c = (a, b) ∨ c ∈ m := by
  induction m with
  | nil => simp [Memory.insert] at h; exact .inl h
  | cons d m ih =>
    by_cases hd : a < d.1
    · simp only [Memory.insert, hd, if_true, List.mem_cons] at h ⊢; tauto
    · simp only [Memory.insert, hd, if_false, List.mem_cons] at h ⊢
      rcases h with h | h
      · tauto
      · have := ih h; tauto

theorem Memory.pairwise_insert {m : Memory} {a : Nat} {b : Byte} (hn : ∀ c ∈ m, c.1 ≠ a)
    (h : m.Pairwise (fun c d => c.1 < d.1)) : (m.insert a b).Pairwise (fun c d => c.1 < d.1) := by
  induction m with
  | nil => simp [Memory.insert]
  | cons c m ih =>
    have h' := List.pairwise_cons.1 h
    by_cases hc : a < c.1
    · simp only [Memory.insert, hc, if_true]
      refine List.pairwise_cons.2 ⟨?_, h⟩
      intro d hd
      simp only [List.mem_cons] at hd
      rcases hd with rfl | hd
      · exact hc
      · exact Nat.lt_trans hc (h'.1 d hd)
    · simp only [Memory.insert, hc, if_false]
      refine List.pairwise_cons.2 ⟨?_, ih (fun d hd => hn d (List.mem_cons_of_mem _ hd)) h'.2⟩
      intro d hd
      have hca := hn c (by simp)
      rcases Memory.mem_insert hd with rfl | hd
      · show c.1 < a; omega
      · exact h'.1 d hd

/-- One byte written keeps the canonical form. -/
theorem Memory.wf_write {m : Memory} (a : Nat) (b : Byte) (h : m.wf = true) : (m.write a b).wf = true := by
  rw [Memory.wf_iff] at h ⊢
  unfold Memory.write
  split
  · exact ⟨Memory.pairwise_erase a h.1, fun c hc => h.2 c (Memory.mem_erase hc)⟩
  · next hb =>
    refine ⟨Memory.pairwise_insert (Memory.erase_unlisted m a) (Memory.pairwise_erase a h.1), ?_⟩
    intro c hc
    rcases Memory.mem_insert hc with rfl | hc
    · exact hb
    · exact h.2 c (Memory.mem_erase hc)

/-- Several bytes written keep the canonical form. -/
theorem Memory.wf_writeN (bs : List Byte) : ∀ {m : Memory} (a : Nat), m.wf = true → (m.writeN a bs).wf = true := by
  induction bs with
  | nil => intro m a h; exact h
  | cons b bs ih => intro m a h; exact ih (a + 1) (Memory.wf_write a b h)

/-- The draws of an aborted command keep the canonical form. -/
theorem drawRegion_wf (p : Platform) (n : Nat) :
    ∀ {m : Memory} (a d : Nat), m.wf = true → (drawRegion p m a n d).wf = true := by
  induction n with
  | zero => intro m a d h; exact h
  | succ n ih =>
    intro m a d h
    refine ih (a + 1) (d + 1) ?_
    split
    · exact Memory.wf_write a _ h
    · exact h

/-- What an aborted command's written region holds: a draw at each address that holds memory, all else as before. -/
theorem drawRegion_read (p : Platform) (n : Nat) : ∀ (m : Memory) (a d a' : Nat),
    (drawRegion p m a n d).read a' =
      if a ≤ a' ∧ a' < a + n ∧ p.holds a' = true then Config.drawByte (d + (a' - a)) else m.read a' := by
  induction n with
  | zero =>
    intro m a d a'
    rw [if_neg (by omega)]
    rfl
  | succ n ih =>
    intro m a d a'
    have hw : (if p.holds a then m.write a (Config.drawByte d) else m).read a' =
        if a' = a ∧ p.holds a = true then Config.drawByte d else m.read a' := by
      by_cases hp : p.holds a = true
      · by_cases h : a' = a
        · subst h; simp [hp]
        · simp [hp, h, Memory.read_write_other m _ h]
      · simp [hp]
    rw [drawRegion, ih, hw]
    by_cases h : a' = a
    · subst h
      by_cases hp : p.holds a' = true <;> simp [hp]
    · by_cases hr : a ≤ a' ∧ a' < a + (n + 1) ∧ p.holds a' = true
      · have hr' : a + 1 ≤ a' ∧ a' < a + 1 + n ∧ p.holds a' = true := ⟨by omega, by omega, hr.2.2⟩
        have hd : d + 1 + (a' - (a + 1)) = d + (a' - a) := by omega
        rw [if_pos hr', if_pos hr, hd]
      · have hr' : ¬ (a + 1 ≤ a' ∧ a' < a + 1 + n ∧ p.holds a' = true) :=
          fun e => hr ⟨by omega, by omega, e.2.2⟩
        rw [if_neg hr', if_neg hr, if_neg (fun e => h e.1)]

/-! ## Present memory -/

theorem Platform.holdsAll_iff (p : Platform) (a n : Nat) :
    p.holdsAll a n = true ↔ ∀ i, i < n → p.holds (a + i) = true := by
  simp [Platform.holdsAll]

@[simp] theorem Platform.holdsAll_zero (p : Platform) (a : Nat) : p.holdsAll a 0 = true := rfl

theorem Region.contains_iff (r : Region) (a : Nat) : r.contains a = true ↔ r.base ≤ a ∧ a < r.base + r.len := by
  simp [Region.contains]

/-- Every byte of a region holds memory, so every stretch inside it does. -/
theorem Platform.holdsAll_of_region {p : Platform} {r : Region} (h : ∀ a, r.contains a = true → p.holds a = true)
    {a n : Nat} (h1 : r.base ≤ a) (h2 : a + n ≤ r.base + r.len) : p.holdsAll a n = true := by
  rw [Platform.holdsAll_iff]
  intro i hi
  exact h _ ((Region.contains_iff r _).2 ⟨by omega, by omega⟩)

/-- A stretch inside a present stretch is present. -/
theorem holdsAll_sub {p : Platform} {a n b k : Nat} (h : p.holdsAll a n = true) (h1 : a ≤ b) (h2 : b + k ≤ a + n) :
    p.holdsAll b k = true := by
  rw [Platform.holdsAll_iff] at *
  intro i hi
  have := h (b - a + i) (by omega)
  rwa [show a + (b - a + i) = b + i by omega] at this

end Sys2Proof.Machine
end

