-- ==== Sys2Proof/Laws/State.lean ====
section
/-! SUPPORT. One lemma per field per update of the state and of the register file, so that no proof unfolds a record update. -/

namespace Sys2Proof.Machine

@[simp] theorem State.setRegs_regs (s : State) (r : Regs) : (s.setRegs r).regs = r := rfl
@[simp] theorem State.setRegs_mem (s : State) (r : Regs) : (s.setRegs r).mem = s.mem := rfl
@[simp] theorem State.setRegs_platform (s : State) (r : Regs) : (s.setRegs r).platform = s.platform := rfl
@[simp] theorem State.setRegs_program (s : State) (r : Regs) : (s.setRegs r).program = s.program := rfl
@[simp] theorem State.setRegs_schedule (s : State) (r : Regs) : (s.setRegs r).schedule = s.schedule := rfl
@[simp] theorem State.setRegs_draws (s : State) (r : Regs) : (s.setRegs r).draws = s.draws := rfl
@[simp] theorem State.setRegs_readData (s : State) (r : Regs) : (s.setRegs r).readData = s.readData := rfl
@[simp] theorem State.setRegs_loadData (s : State) (r : Regs) : (s.setRegs r).loadData = s.loadData := rfl
@[simp] theorem State.setMem_regs (s : State) (m : Memory) : (s.setMem m).regs = s.regs := rfl
@[simp] theorem State.setMem_mem (s : State) (m : Memory) : (s.setMem m).mem = m := rfl
@[simp] theorem State.setMem_platform (s : State) (m : Memory) : (s.setMem m).platform = s.platform := rfl
@[simp] theorem State.setMem_program (s : State) (m : Memory) : (s.setMem m).program = s.program := rfl
@[simp] theorem State.setMem_schedule (s : State) (m : Memory) : (s.setMem m).schedule = s.schedule := rfl
@[simp] theorem State.setMem_draws (s : State) (m : Memory) : (s.setMem m).draws = s.draws := rfl
@[simp] theorem State.setMem_readData (s : State) (m : Memory) : (s.setMem m).readData = s.readData := rfl
@[simp] theorem State.setMem_loadData (s : State) (m : Memory) : (s.setMem m).loadData = s.loadData := rfl

@[simp] theorem State.setRegs_setRegs (s : State) (r q : Regs) : (s.setRegs r).setRegs q = s.setRegs q := rfl
@[simp] theorem State.setMem_setMem (s : State) (m n : Memory) : (s.setMem m).setMem n = s.setMem n := rfl
theorem State.setMem_setRegs (s : State) (r : Regs) (m : Memory) : (s.setRegs r).setMem m = (s.setMem m).setRegs r := rfl
@[simp] theorem State.setRegs_self (s : State) : s.setRegs s.regs = s := rfl
@[simp] theorem State.setMem_self (s : State) : s.setMem s.mem = s := rfl
@[simp] theorem complete_regs (s : State) : (complete s).regs = s.regs.completed := rfl
@[simp] theorem complete_mem (s : State) : (complete s).mem = s.mem := rfl
@[simp] theorem complete_platform (s : State) : (complete s).platform = s.platform := rfl
@[simp] theorem complete_program (s : State) : (complete s).program = s.program := rfl
@[simp] theorem raiseError_regs (c : ErrCode) (i : Word) (s : State) : (raiseError c i s).regs = s.regs.raised c i := rfl
@[simp] theorem raiseError_mem (c : ErrCode) (i : Word) (s : State) : (raiseError c i s).mem = s.mem := rfl
@[simp] theorem raiseError_platform (c : ErrCode) (i : Word) (s : State) : (raiseError c i s).platform = s.platform := rfl
@[simp] theorem raiseError_program (c : ErrCode) (i : Word) (s : State) : (raiseError c i s).program = s.program := rfl

@[simp] theorem Regs.completed_ctrl (r : Regs) : (r.completed).ctrl = r.ctrl := rfl
@[simp] theorem Regs.completed_status (r : Regs) : (r.completed).status = { r.status with done := true, error := false, busy := false } := rfl
@[simp] theorem Regs.completed_cmd (r : Regs) : (r.completed).cmd = r.cmd := rfl
@[simp] theorem Regs.completed_errCode (r : Regs) : (r.completed).errCode = r.errCode := rfl
@[simp] theorem Regs.completed_errInfo (r : Regs) : (r.completed).errInfo = r.errInfo := rfl
@[simp] theorem Regs.completed_srcAddr (r : Regs) : (r.completed).srcAddr = r.srcAddr := rfl
@[simp] theorem Regs.completed_srcLen (r : Regs) : (r.completed).srcLen = r.srcLen := rfl
@[simp] theorem Regs.completed_dstAddr (r : Regs) : (r.completed).dstAddr = r.dstAddr := rfl
@[simp] theorem Regs.completed_dstLen (r : Regs) : (r.completed).dstLen = r.dstLen := rfl
@[simp] theorem Regs.completed_auxAddr (r : Regs) : (r.completed).auxAddr = r.auxAddr := rfl
@[simp] theorem Regs.completed_auxLen (r : Regs) : (r.completed).auxLen = r.auxLen := rfl
@[simp] theorem Regs.completed_imgWidth (r : Regs) : (r.completed).imgWidth = r.imgWidth := rfl
@[simp] theorem Regs.completed_imgHeight (r : Regs) : (r.completed).imgHeight = r.imgHeight := rfl
@[simp] theorem Regs.completed_outLen (r : Regs) : (r.completed).outLen = r.outLen := rfl
@[simp] theorem Regs.completed_parseOff (r : Regs) : (r.completed).parseOff = r.parseOff := rfl
@[simp] theorem Regs.completed_idatLen (r : Regs) : (r.completed).idatLen = r.idatLen := rfl
@[simp] theorem Regs.completed_chunkCount (r : Regs) : (r.completed).chunkCount = r.chunkCount := rfl
@[simp] theorem Regs.completed_corruptCount (r : Regs) : (r.completed).corruptCount = r.corruptCount := rfl
@[simp] theorem Regs.completed_corruptType (r : Regs) : (r.completed).corruptType = r.corruptType := rfl
@[simp] theorem Regs.completed_chOff (r : Regs) : (r.completed).chOff = r.chOff := rfl
@[simp] theorem Regs.completed_chLen (r : Regs) : (r.completed).chLen = r.chLen := rfl
@[simp] theorem Regs.completed_chType (r : Regs) : (r.completed).chType = r.chType := rfl
@[simp] theorem Regs.completed_chCrc (r : Regs) : (r.completed).chCrc = r.chCrc := rfl
@[simp] theorem Regs.completed_hdrFields (r : Regs) : (r.completed).hdrFields = r.hdrFields := rfl
@[simp] theorem Regs.completed_hdrInterlace (r : Regs) : (r.completed).hdrInterlace = r.hdrInterlace := rfl
@[simp] theorem Regs.completed_byteA (r : Regs) : (r.completed).byteA = r.byteA := rfl
@[simp] theorem Regs.completed_byteB (r : Regs) : (r.completed).byteB = r.byteB := rfl
@[simp] theorem Regs.completed_byteC (r : Regs) : (r.completed).byteC = r.byteC := rfl
@[simp] theorem Regs.completed_byteX (r : Regs) : (r.completed).byteX = r.byteX := rfl
@[simp] theorem Regs.completed_result (r : Regs) : (r.completed).result = r.result := rfl

@[simp] theorem Regs.raised_ctrl (r : Regs) (code : ErrCode) (info : Word) : (r.raised code info).ctrl = r.ctrl := rfl
@[simp] theorem Regs.raised_status (r : Regs) (code : ErrCode) (info : Word) : (r.raised code info).status = { r.status with error := true, done := false, busy := false } := rfl
@[simp] theorem Regs.raised_cmd (r : Regs) (code : ErrCode) (info : Word) : (r.raised code info).cmd = r.cmd := rfl
@[simp] theorem Regs.raised_errCode (r : Regs) (code : ErrCode) (info : Word) : (r.raised code info).errCode = code.number := rfl
@[simp] theorem Regs.raised_errInfo (r : Regs) (code : ErrCode) (info : Word) : (r.raised code info).errInfo = info := rfl
@[simp] theorem Regs.raised_srcAddr (r : Regs) (code : ErrCode) (info : Word) : (r.raised code info).srcAddr = r.srcAddr := rfl
@[simp] theorem Regs.raised_srcLen (r : Regs) (code : ErrCode) (info : Word) : (r.raised code info).srcLen = r.srcLen := rfl
@[simp] theorem Regs.raised_dstAddr (r : Regs) (code : ErrCode) (info : Word) : (r.raised code info).dstAddr = r.dstAddr := rfl
@[simp] theorem Regs.raised_dstLen (r : Regs) (code : ErrCode) (info : Word) : (r.raised code info).dstLen = r.dstLen := rfl
@[simp] theorem Regs.raised_auxAddr (r : Regs) (code : ErrCode) (info : Word) : (r.raised code info).auxAddr = r.auxAddr := rfl
@[simp] theorem Regs.raised_auxLen (r : Regs) (code : ErrCode) (info : Word) : (r.raised code info).auxLen = r.auxLen := rfl
@[simp] theorem Regs.raised_imgWidth (r : Regs) (code : ErrCode) (info : Word) : (r.raised code info).imgWidth = r.imgWidth := rfl
@[simp] theorem Regs.raised_imgHeight (r : Regs) (code : ErrCode) (info : Word) : (r.raised code info).imgHeight = r.imgHeight := rfl
@[simp] theorem Regs.raised_outLen (r : Regs) (code : ErrCode) (info : Word) : (r.raised code info).outLen = r.outLen := rfl
@[simp] theorem Regs.raised_parseOff (r : Regs) (code : ErrCode) (info : Word) : (r.raised code info).parseOff = r.parseOff := rfl
@[simp] theorem Regs.raised_idatLen (r : Regs) (code : ErrCode) (info : Word) : (r.raised code info).idatLen = r.idatLen := rfl
@[simp] theorem Regs.raised_chunkCount (r : Regs) (code : ErrCode) (info : Word) : (r.raised code info).chunkCount = r.chunkCount := rfl
@[simp] theorem Regs.raised_corruptCount (r : Regs) (code : ErrCode) (info : Word) : (r.raised code info).corruptCount = r.corruptCount := rfl
@[simp] theorem Regs.raised_corruptType (r : Regs) (code : ErrCode) (info : Word) : (r.raised code info).corruptType = r.corruptType := rfl
@[simp] theorem Regs.raised_chOff (r : Regs) (code : ErrCode) (info : Word) : (r.raised code info).chOff = r.chOff := rfl
@[simp] theorem Regs.raised_chLen (r : Regs) (code : ErrCode) (info : Word) : (r.raised code info).chLen = r.chLen := rfl
@[simp] theorem Regs.raised_chType (r : Regs) (code : ErrCode) (info : Word) : (r.raised code info).chType = r.chType := rfl
@[simp] theorem Regs.raised_chCrc (r : Regs) (code : ErrCode) (info : Word) : (r.raised code info).chCrc = r.chCrc := rfl
@[simp] theorem Regs.raised_hdrFields (r : Regs) (code : ErrCode) (info : Word) : (r.raised code info).hdrFields = r.hdrFields := rfl
@[simp] theorem Regs.raised_hdrInterlace (r : Regs) (code : ErrCode) (info : Word) : (r.raised code info).hdrInterlace = r.hdrInterlace := rfl
@[simp] theorem Regs.raised_byteA (r : Regs) (code : ErrCode) (info : Word) : (r.raised code info).byteA = r.byteA := rfl
@[simp] theorem Regs.raised_byteB (r : Regs) (code : ErrCode) (info : Word) : (r.raised code info).byteB = r.byteB := rfl
@[simp] theorem Regs.raised_byteC (r : Regs) (code : ErrCode) (info : Word) : (r.raised code info).byteC = r.byteC := rfl
@[simp] theorem Regs.raised_byteX (r : Regs) (code : ErrCode) (info : Word) : (r.raised code info).byteX = r.byteX := rfl
@[simp] theorem Regs.raised_result (r : Regs) (code : ErrCode) (info : Word) : (r.raised code info).result = r.result := rfl

@[simp] theorem Regs.issue_ctrl (r : Regs) (v : Word) : (r.issue v).ctrl = r.ctrl := rfl
@[simp] theorem Regs.issue_status (r : Regs) (v : Word) : (r.issue v).status = { r.status with busy := true, done := false, error := false } := rfl
@[simp] theorem Regs.issue_cmd (r : Regs) (v : Word) : (r.issue v).cmd = v := rfl
@[simp] theorem Regs.issue_errCode (r : Regs) (v : Word) : (r.issue v).errCode = 0 := rfl
@[simp] theorem Regs.issue_errInfo (r : Regs) (v : Word) : (r.issue v).errInfo = 0 := rfl
@[simp] theorem Regs.issue_srcAddr (r : Regs) (v : Word) : (r.issue v).srcAddr = r.srcAddr := rfl
@[simp] theorem Regs.issue_srcLen (r : Regs) (v : Word) : (r.issue v).srcLen = r.srcLen := rfl
@[simp] theorem Regs.issue_dstAddr (r : Regs) (v : Word) : (r.issue v).dstAddr = r.dstAddr := rfl
@[simp] theorem Regs.issue_dstLen (r : Regs) (v : Word) : (r.issue v).dstLen = r.dstLen := rfl
@[simp] theorem Regs.issue_auxAddr (r : Regs) (v : Word) : (r.issue v).auxAddr = r.auxAddr := rfl
@[simp] theorem Regs.issue_auxLen (r : Regs) (v : Word) : (r.issue v).auxLen = r.auxLen := rfl
@[simp] theorem Regs.issue_imgWidth (r : Regs) (v : Word) : (r.issue v).imgWidth = r.imgWidth := rfl
@[simp] theorem Regs.issue_imgHeight (r : Regs) (v : Word) : (r.issue v).imgHeight = r.imgHeight := rfl
@[simp] theorem Regs.issue_outLen (r : Regs) (v : Word) : (r.issue v).outLen = (if (decodeWord v).any clearsOutLen then 0 else r.outLen) := rfl
@[simp] theorem Regs.issue_parseOff (r : Regs) (v : Word) : (r.issue v).parseOff = r.parseOff := rfl
@[simp] theorem Regs.issue_idatLen (r : Regs) (v : Word) : (r.issue v).idatLen = r.idatLen := rfl
@[simp] theorem Regs.issue_chunkCount (r : Regs) (v : Word) : (r.issue v).chunkCount = r.chunkCount := rfl
@[simp] theorem Regs.issue_corruptCount (r : Regs) (v : Word) : (r.issue v).corruptCount = r.corruptCount := rfl
@[simp] theorem Regs.issue_corruptType (r : Regs) (v : Word) : (r.issue v).corruptType = r.corruptType := rfl
@[simp] theorem Regs.issue_chOff (r : Regs) (v : Word) : (r.issue v).chOff = r.chOff := rfl
@[simp] theorem Regs.issue_chLen (r : Regs) (v : Word) : (r.issue v).chLen = r.chLen := rfl
@[simp] theorem Regs.issue_chType (r : Regs) (v : Word) : (r.issue v).chType = r.chType := rfl
@[simp] theorem Regs.issue_chCrc (r : Regs) (v : Word) : (r.issue v).chCrc = r.chCrc := rfl
@[simp] theorem Regs.issue_hdrFields (r : Regs) (v : Word) : (r.issue v).hdrFields = r.hdrFields := rfl
@[simp] theorem Regs.issue_hdrInterlace (r : Regs) (v : Word) : (r.issue v).hdrInterlace = r.hdrInterlace := rfl
@[simp] theorem Regs.issue_byteA (r : Regs) (v : Word) : (r.issue v).byteA = r.byteA := rfl
@[simp] theorem Regs.issue_byteB (r : Regs) (v : Word) : (r.issue v).byteB = r.byteB := rfl
@[simp] theorem Regs.issue_byteC (r : Regs) (v : Word) : (r.issue v).byteC = r.byteC := rfl
@[simp] theorem Regs.issue_byteX (r : Regs) (v : Word) : (r.issue v).byteX = r.byteX := rfl
@[simp] theorem Regs.issue_result (r : Regs) (v : Word) : (r.issue v).result = r.result := rfl

@[simp] theorem Regs.overrun_ctrl (r : Regs) : (r.overrun).ctrl = r.ctrl := rfl
@[simp] theorem Regs.overrun_status (r : Regs) : (r.overrun).status = { r.status with overrun := true } := rfl
@[simp] theorem Regs.overrun_cmd (r : Regs) : (r.overrun).cmd = r.cmd := rfl
@[simp] theorem Regs.overrun_errCode (r : Regs) : (r.overrun).errCode = r.errCode := rfl
@[simp] theorem Regs.overrun_errInfo (r : Regs) : (r.overrun).errInfo = r.errInfo := rfl
@[simp] theorem Regs.overrun_srcAddr (r : Regs) : (r.overrun).srcAddr = r.srcAddr := rfl
@[simp] theorem Regs.overrun_srcLen (r : Regs) : (r.overrun).srcLen = r.srcLen := rfl
@[simp] theorem Regs.overrun_dstAddr (r : Regs) : (r.overrun).dstAddr = r.dstAddr := rfl
@[simp] theorem Regs.overrun_dstLen (r : Regs) : (r.overrun).dstLen = r.dstLen := rfl
@[simp] theorem Regs.overrun_auxAddr (r : Regs) : (r.overrun).auxAddr = r.auxAddr := rfl
@[simp] theorem Regs.overrun_auxLen (r : Regs) : (r.overrun).auxLen = r.auxLen := rfl
@[simp] theorem Regs.overrun_imgWidth (r : Regs) : (r.overrun).imgWidth = r.imgWidth := rfl
@[simp] theorem Regs.overrun_imgHeight (r : Regs) : (r.overrun).imgHeight = r.imgHeight := rfl
@[simp] theorem Regs.overrun_outLen (r : Regs) : (r.overrun).outLen = r.outLen := rfl
@[simp] theorem Regs.overrun_parseOff (r : Regs) : (r.overrun).parseOff = r.parseOff := rfl
@[simp] theorem Regs.overrun_idatLen (r : Regs) : (r.overrun).idatLen = r.idatLen := rfl
@[simp] theorem Regs.overrun_chunkCount (r : Regs) : (r.overrun).chunkCount = r.chunkCount := rfl
@[simp] theorem Regs.overrun_corruptCount (r : Regs) : (r.overrun).corruptCount = r.corruptCount := rfl
@[simp] theorem Regs.overrun_corruptType (r : Regs) : (r.overrun).corruptType = r.corruptType := rfl
@[simp] theorem Regs.overrun_chOff (r : Regs) : (r.overrun).chOff = r.chOff := rfl
@[simp] theorem Regs.overrun_chLen (r : Regs) : (r.overrun).chLen = r.chLen := rfl
@[simp] theorem Regs.overrun_chType (r : Regs) : (r.overrun).chType = r.chType := rfl
@[simp] theorem Regs.overrun_chCrc (r : Regs) : (r.overrun).chCrc = r.chCrc := rfl
@[simp] theorem Regs.overrun_hdrFields (r : Regs) : (r.overrun).hdrFields = r.hdrFields := rfl
@[simp] theorem Regs.overrun_hdrInterlace (r : Regs) : (r.overrun).hdrInterlace = r.hdrInterlace := rfl
@[simp] theorem Regs.overrun_byteA (r : Regs) : (r.overrun).byteA = r.byteA := rfl
@[simp] theorem Regs.overrun_byteB (r : Regs) : (r.overrun).byteB = r.byteB := rfl
@[simp] theorem Regs.overrun_byteC (r : Regs) : (r.overrun).byteC = r.byteC := rfl
@[simp] theorem Regs.overrun_byteX (r : Regs) : (r.overrun).byteX = r.byteX := rfl
@[simp] theorem Regs.overrun_result (r : Regs) : (r.overrun).result = r.result := rfl

@[simp] theorem Regs.setDescriptor_ctrl (r : Regs) (off len : Nat) (typ : List Byte) (stored : Word) : (r.setDescriptor off len typ stored).ctrl = r.ctrl := rfl
@[simp] theorem Regs.setDescriptor_status (r : Regs) (off len : Nat) (typ : List Byte) (stored : Word) : (r.setDescriptor off len typ stored).status = r.status := rfl
@[simp] theorem Regs.setDescriptor_cmd (r : Regs) (off len : Nat) (typ : List Byte) (stored : Word) : (r.setDescriptor off len typ stored).cmd = r.cmd := rfl
@[simp] theorem Regs.setDescriptor_errCode (r : Regs) (off len : Nat) (typ : List Byte) (stored : Word) : (r.setDescriptor off len typ stored).errCode = r.errCode := rfl
@[simp] theorem Regs.setDescriptor_errInfo (r : Regs) (off len : Nat) (typ : List Byte) (stored : Word) : (r.setDescriptor off len typ stored).errInfo = r.errInfo := rfl
@[simp] theorem Regs.setDescriptor_srcAddr (r : Regs) (off len : Nat) (typ : List Byte) (stored : Word) : (r.setDescriptor off len typ stored).srcAddr = r.srcAddr := rfl
@[simp] theorem Regs.setDescriptor_srcLen (r : Regs) (off len : Nat) (typ : List Byte) (stored : Word) : (r.setDescriptor off len typ stored).srcLen = r.srcLen := rfl
@[simp] theorem Regs.setDescriptor_dstAddr (r : Regs) (off len : Nat) (typ : List Byte) (stored : Word) : (r.setDescriptor off len typ stored).dstAddr = r.dstAddr := rfl
@[simp] theorem Regs.setDescriptor_dstLen (r : Regs) (off len : Nat) (typ : List Byte) (stored : Word) : (r.setDescriptor off len typ stored).dstLen = r.dstLen := rfl
@[simp] theorem Regs.setDescriptor_auxAddr (r : Regs) (off len : Nat) (typ : List Byte) (stored : Word) : (r.setDescriptor off len typ stored).auxAddr = r.auxAddr := rfl
@[simp] theorem Regs.setDescriptor_auxLen (r : Regs) (off len : Nat) (typ : List Byte) (stored : Word) : (r.setDescriptor off len typ stored).auxLen = r.auxLen := rfl
@[simp] theorem Regs.setDescriptor_imgWidth (r : Regs) (off len : Nat) (typ : List Byte) (stored : Word) : (r.setDescriptor off len typ stored).imgWidth = r.imgWidth := rfl
@[simp] theorem Regs.setDescriptor_imgHeight (r : Regs) (off len : Nat) (typ : List Byte) (stored : Word) : (r.setDescriptor off len typ stored).imgHeight = r.imgHeight := rfl
@[simp] theorem Regs.setDescriptor_outLen (r : Regs) (off len : Nat) (typ : List Byte) (stored : Word) : (r.setDescriptor off len typ stored).outLen = r.outLen := rfl
@[simp] theorem Regs.setDescriptor_parseOff (r : Regs) (off len : Nat) (typ : List Byte) (stored : Word) : (r.setDescriptor off len typ stored).parseOff = r.parseOff := rfl
@[simp] theorem Regs.setDescriptor_idatLen (r : Regs) (off len : Nat) (typ : List Byte) (stored : Word) : (r.setDescriptor off len typ stored).idatLen = r.idatLen := rfl
@[simp] theorem Regs.setDescriptor_chunkCount (r : Regs) (off len : Nat) (typ : List Byte) (stored : Word) : (r.setDescriptor off len typ stored).chunkCount = r.chunkCount := rfl
@[simp] theorem Regs.setDescriptor_corruptCount (r : Regs) (off len : Nat) (typ : List Byte) (stored : Word) : (r.setDescriptor off len typ stored).corruptCount = r.corruptCount := rfl
@[simp] theorem Regs.setDescriptor_corruptType (r : Regs) (off len : Nat) (typ : List Byte) (stored : Word) : (r.setDescriptor off len typ stored).corruptType = r.corruptType := rfl
@[simp] theorem Regs.setDescriptor_chOff (r : Regs) (off len : Nat) (typ : List Byte) (stored : Word) : (r.setDescriptor off len typ stored).chOff = BitVec.ofNat 32 off := rfl
@[simp] theorem Regs.setDescriptor_chLen (r : Regs) (off len : Nat) (typ : List Byte) (stored : Word) : (r.setDescriptor off len typ stored).chLen = BitVec.ofNat 32 len := rfl
@[simp] theorem Regs.setDescriptor_chType (r : Regs) (off len : Nat) (typ : List Byte) (stored : Word) : (r.setDescriptor off len typ stored).chType = packType typ := rfl
@[simp] theorem Regs.setDescriptor_chCrc (r : Regs) (off len : Nat) (typ : List Byte) (stored : Word) : (r.setDescriptor off len typ stored).chCrc = stored := rfl
@[simp] theorem Regs.setDescriptor_hdrFields (r : Regs) (off len : Nat) (typ : List Byte) (stored : Word) : (r.setDescriptor off len typ stored).hdrFields = r.hdrFields := rfl
@[simp] theorem Regs.setDescriptor_hdrInterlace (r : Regs) (off len : Nat) (typ : List Byte) (stored : Word) : (r.setDescriptor off len typ stored).hdrInterlace = r.hdrInterlace := rfl
@[simp] theorem Regs.setDescriptor_byteA (r : Regs) (off len : Nat) (typ : List Byte) (stored : Word) : (r.setDescriptor off len typ stored).byteA = r.byteA := rfl
@[simp] theorem Regs.setDescriptor_byteB (r : Regs) (off len : Nat) (typ : List Byte) (stored : Word) : (r.setDescriptor off len typ stored).byteB = r.byteB := rfl
@[simp] theorem Regs.setDescriptor_byteC (r : Regs) (off len : Nat) (typ : List Byte) (stored : Word) : (r.setDescriptor off len typ stored).byteC = r.byteC := rfl
@[simp] theorem Regs.setDescriptor_byteX (r : Regs) (off len : Nat) (typ : List Byte) (stored : Word) : (r.setDescriptor off len typ stored).byteX = r.byteX := rfl
@[simp] theorem Regs.setDescriptor_result (r : Regs) (off len : Nat) (typ : List Byte) (stored : Word) : (r.setDescriptor off len typ stored).result = r.result := rfl

@[simp] theorem Regs.recordMismatch_ctrl (r : Regs) (typ : List Byte) : (r.recordMismatch typ).ctrl = r.ctrl := rfl
@[simp] theorem Regs.recordMismatch_status (r : Regs) (typ : List Byte) : (r.recordMismatch typ).status = { r.status with corruptSeen := true } := rfl
@[simp] theorem Regs.recordMismatch_cmd (r : Regs) (typ : List Byte) : (r.recordMismatch typ).cmd = r.cmd := rfl
@[simp] theorem Regs.recordMismatch_errCode (r : Regs) (typ : List Byte) : (r.recordMismatch typ).errCode = r.errCode := rfl
@[simp] theorem Regs.recordMismatch_errInfo (r : Regs) (typ : List Byte) : (r.recordMismatch typ).errInfo = r.errInfo := rfl
@[simp] theorem Regs.recordMismatch_srcAddr (r : Regs) (typ : List Byte) : (r.recordMismatch typ).srcAddr = r.srcAddr := rfl
@[simp] theorem Regs.recordMismatch_srcLen (r : Regs) (typ : List Byte) : (r.recordMismatch typ).srcLen = r.srcLen := rfl
@[simp] theorem Regs.recordMismatch_dstAddr (r : Regs) (typ : List Byte) : (r.recordMismatch typ).dstAddr = r.dstAddr := rfl
@[simp] theorem Regs.recordMismatch_dstLen (r : Regs) (typ : List Byte) : (r.recordMismatch typ).dstLen = r.dstLen := rfl
@[simp] theorem Regs.recordMismatch_auxAddr (r : Regs) (typ : List Byte) : (r.recordMismatch typ).auxAddr = r.auxAddr := rfl
@[simp] theorem Regs.recordMismatch_auxLen (r : Regs) (typ : List Byte) : (r.recordMismatch typ).auxLen = r.auxLen := rfl
@[simp] theorem Regs.recordMismatch_imgWidth (r : Regs) (typ : List Byte) : (r.recordMismatch typ).imgWidth = r.imgWidth := rfl
@[simp] theorem Regs.recordMismatch_imgHeight (r : Regs) (typ : List Byte) : (r.recordMismatch typ).imgHeight = r.imgHeight := rfl
@[simp] theorem Regs.recordMismatch_outLen (r : Regs) (typ : List Byte) : (r.recordMismatch typ).outLen = r.outLen := rfl
@[simp] theorem Regs.recordMismatch_parseOff (r : Regs) (typ : List Byte) : (r.recordMismatch typ).parseOff = r.parseOff := rfl
@[simp] theorem Regs.recordMismatch_idatLen (r : Regs) (typ : List Byte) : (r.recordMismatch typ).idatLen = r.idatLen := rfl
@[simp] theorem Regs.recordMismatch_chunkCount (r : Regs) (typ : List Byte) : (r.recordMismatch typ).chunkCount = r.chunkCount := rfl
@[simp] theorem Regs.recordMismatch_corruptCount (r : Regs) (typ : List Byte) : (r.recordMismatch typ).corruptCount = r.corruptCount + 1 := rfl
@[simp] theorem Regs.recordMismatch_corruptType (r : Regs) (typ : List Byte) : (r.recordMismatch typ).corruptType = packType typ := rfl
@[simp] theorem Regs.recordMismatch_chOff (r : Regs) (typ : List Byte) : (r.recordMismatch typ).chOff = r.chOff := rfl
@[simp] theorem Regs.recordMismatch_chLen (r : Regs) (typ : List Byte) : (r.recordMismatch typ).chLen = r.chLen := rfl
@[simp] theorem Regs.recordMismatch_chType (r : Regs) (typ : List Byte) : (r.recordMismatch typ).chType = r.chType := rfl
@[simp] theorem Regs.recordMismatch_chCrc (r : Regs) (typ : List Byte) : (r.recordMismatch typ).chCrc = r.chCrc := rfl
@[simp] theorem Regs.recordMismatch_hdrFields (r : Regs) (typ : List Byte) : (r.recordMismatch typ).hdrFields = r.hdrFields := rfl
@[simp] theorem Regs.recordMismatch_hdrInterlace (r : Regs) (typ : List Byte) : (r.recordMismatch typ).hdrInterlace = r.hdrInterlace := rfl
@[simp] theorem Regs.recordMismatch_byteA (r : Regs) (typ : List Byte) : (r.recordMismatch typ).byteA = r.byteA := rfl
@[simp] theorem Regs.recordMismatch_byteB (r : Regs) (typ : List Byte) : (r.recordMismatch typ).byteB = r.byteB := rfl
@[simp] theorem Regs.recordMismatch_byteC (r : Regs) (typ : List Byte) : (r.recordMismatch typ).byteC = r.byteC := rfl
@[simp] theorem Regs.recordMismatch_byteX (r : Regs) (typ : List Byte) : (r.recordMismatch typ).byteX = r.byteX := rfl
@[simp] theorem Regs.recordMismatch_result (r : Regs) (typ : List Byte) : (r.recordMismatch typ).result = r.result := rfl

@[simp] theorem Regs.setCursor_ctrl (r : Regs) (off : Nat) : (r.setCursor off).ctrl = r.ctrl := rfl
@[simp] theorem Regs.setCursor_status (r : Regs) (off : Nat) : (r.setCursor off).status = r.status := rfl
@[simp] theorem Regs.setCursor_cmd (r : Regs) (off : Nat) : (r.setCursor off).cmd = r.cmd := rfl
@[simp] theorem Regs.setCursor_errCode (r : Regs) (off : Nat) : (r.setCursor off).errCode = r.errCode := rfl
@[simp] theorem Regs.setCursor_errInfo (r : Regs) (off : Nat) : (r.setCursor off).errInfo = r.errInfo := rfl
@[simp] theorem Regs.setCursor_srcAddr (r : Regs) (off : Nat) : (r.setCursor off).srcAddr = r.srcAddr := rfl
@[simp] theorem Regs.setCursor_srcLen (r : Regs) (off : Nat) : (r.setCursor off).srcLen = r.srcLen := rfl
@[simp] theorem Regs.setCursor_dstAddr (r : Regs) (off : Nat) : (r.setCursor off).dstAddr = r.dstAddr := rfl
@[simp] theorem Regs.setCursor_dstLen (r : Regs) (off : Nat) : (r.setCursor off).dstLen = r.dstLen := rfl
@[simp] theorem Regs.setCursor_auxAddr (r : Regs) (off : Nat) : (r.setCursor off).auxAddr = r.auxAddr := rfl
@[simp] theorem Regs.setCursor_auxLen (r : Regs) (off : Nat) : (r.setCursor off).auxLen = r.auxLen := rfl
@[simp] theorem Regs.setCursor_imgWidth (r : Regs) (off : Nat) : (r.setCursor off).imgWidth = r.imgWidth := rfl
@[simp] theorem Regs.setCursor_imgHeight (r : Regs) (off : Nat) : (r.setCursor off).imgHeight = r.imgHeight := rfl
@[simp] theorem Regs.setCursor_outLen (r : Regs) (off : Nat) : (r.setCursor off).outLen = r.outLen := rfl
@[simp] theorem Regs.setCursor_parseOff (r : Regs) (off : Nat) : (r.setCursor off).parseOff = BitVec.ofNat 32 off := rfl
@[simp] theorem Regs.setCursor_idatLen (r : Regs) (off : Nat) : (r.setCursor off).idatLen = r.idatLen := rfl
@[simp] theorem Regs.setCursor_chunkCount (r : Regs) (off : Nat) : (r.setCursor off).chunkCount = r.chunkCount := rfl
@[simp] theorem Regs.setCursor_corruptCount (r : Regs) (off : Nat) : (r.setCursor off).corruptCount = r.corruptCount := rfl
@[simp] theorem Regs.setCursor_corruptType (r : Regs) (off : Nat) : (r.setCursor off).corruptType = r.corruptType := rfl
@[simp] theorem Regs.setCursor_chOff (r : Regs) (off : Nat) : (r.setCursor off).chOff = r.chOff := rfl
@[simp] theorem Regs.setCursor_chLen (r : Regs) (off : Nat) : (r.setCursor off).chLen = r.chLen := rfl
@[simp] theorem Regs.setCursor_chType (r : Regs) (off : Nat) : (r.setCursor off).chType = r.chType := rfl
@[simp] theorem Regs.setCursor_chCrc (r : Regs) (off : Nat) : (r.setCursor off).chCrc = r.chCrc := rfl
@[simp] theorem Regs.setCursor_hdrFields (r : Regs) (off : Nat) : (r.setCursor off).hdrFields = r.hdrFields := rfl
@[simp] theorem Regs.setCursor_hdrInterlace (r : Regs) (off : Nat) : (r.setCursor off).hdrInterlace = r.hdrInterlace := rfl
@[simp] theorem Regs.setCursor_byteA (r : Regs) (off : Nat) : (r.setCursor off).byteA = r.byteA := rfl
@[simp] theorem Regs.setCursor_byteB (r : Regs) (off : Nat) : (r.setCursor off).byteB = r.byteB := rfl
@[simp] theorem Regs.setCursor_byteC (r : Regs) (off : Nat) : (r.setCursor off).byteC = r.byteC := rfl
@[simp] theorem Regs.setCursor_byteX (r : Regs) (off : Nat) : (r.setCursor off).byteX = r.byteX := rfl
@[simp] theorem Regs.setCursor_result (r : Regs) (off : Nat) : (r.setCursor off).result = r.result := rfl

@[simp] theorem Regs.setPayloadLen_ctrl (r : Regs) (n : Nat) : (r.setPayloadLen n).ctrl = r.ctrl := rfl
@[simp] theorem Regs.setPayloadLen_status (r : Regs) (n : Nat) : (r.setPayloadLen n).status = r.status := rfl
@[simp] theorem Regs.setPayloadLen_cmd (r : Regs) (n : Nat) : (r.setPayloadLen n).cmd = r.cmd := rfl
@[simp] theorem Regs.setPayloadLen_errCode (r : Regs) (n : Nat) : (r.setPayloadLen n).errCode = r.errCode := rfl
@[simp] theorem Regs.setPayloadLen_errInfo (r : Regs) (n : Nat) : (r.setPayloadLen n).errInfo = r.errInfo := rfl
@[simp] theorem Regs.setPayloadLen_srcAddr (r : Regs) (n : Nat) : (r.setPayloadLen n).srcAddr = r.srcAddr := rfl
@[simp] theorem Regs.setPayloadLen_srcLen (r : Regs) (n : Nat) : (r.setPayloadLen n).srcLen = r.srcLen := rfl
@[simp] theorem Regs.setPayloadLen_dstAddr (r : Regs) (n : Nat) : (r.setPayloadLen n).dstAddr = r.dstAddr := rfl
@[simp] theorem Regs.setPayloadLen_dstLen (r : Regs) (n : Nat) : (r.setPayloadLen n).dstLen = r.dstLen := rfl
@[simp] theorem Regs.setPayloadLen_auxAddr (r : Regs) (n : Nat) : (r.setPayloadLen n).auxAddr = r.auxAddr := rfl
@[simp] theorem Regs.setPayloadLen_auxLen (r : Regs) (n : Nat) : (r.setPayloadLen n).auxLen = r.auxLen := rfl
@[simp] theorem Regs.setPayloadLen_imgWidth (r : Regs) (n : Nat) : (r.setPayloadLen n).imgWidth = r.imgWidth := rfl
@[simp] theorem Regs.setPayloadLen_imgHeight (r : Regs) (n : Nat) : (r.setPayloadLen n).imgHeight = r.imgHeight := rfl
@[simp] theorem Regs.setPayloadLen_outLen (r : Regs) (n : Nat) : (r.setPayloadLen n).outLen = r.outLen := rfl
@[simp] theorem Regs.setPayloadLen_parseOff (r : Regs) (n : Nat) : (r.setPayloadLen n).parseOff = r.parseOff := rfl
@[simp] theorem Regs.setPayloadLen_idatLen (r : Regs) (n : Nat) : (r.setPayloadLen n).idatLen = BitVec.ofNat 32 n := rfl
@[simp] theorem Regs.setPayloadLen_chunkCount (r : Regs) (n : Nat) : (r.setPayloadLen n).chunkCount = r.chunkCount := rfl
@[simp] theorem Regs.setPayloadLen_corruptCount (r : Regs) (n : Nat) : (r.setPayloadLen n).corruptCount = r.corruptCount := rfl
@[simp] theorem Regs.setPayloadLen_corruptType (r : Regs) (n : Nat) : (r.setPayloadLen n).corruptType = r.corruptType := rfl
@[simp] theorem Regs.setPayloadLen_chOff (r : Regs) (n : Nat) : (r.setPayloadLen n).chOff = r.chOff := rfl
@[simp] theorem Regs.setPayloadLen_chLen (r : Regs) (n : Nat) : (r.setPayloadLen n).chLen = r.chLen := rfl
@[simp] theorem Regs.setPayloadLen_chType (r : Regs) (n : Nat) : (r.setPayloadLen n).chType = r.chType := rfl
@[simp] theorem Regs.setPayloadLen_chCrc (r : Regs) (n : Nat) : (r.setPayloadLen n).chCrc = r.chCrc := rfl
@[simp] theorem Regs.setPayloadLen_hdrFields (r : Regs) (n : Nat) : (r.setPayloadLen n).hdrFields = r.hdrFields := rfl
@[simp] theorem Regs.setPayloadLen_hdrInterlace (r : Regs) (n : Nat) : (r.setPayloadLen n).hdrInterlace = r.hdrInterlace := rfl
@[simp] theorem Regs.setPayloadLen_byteA (r : Regs) (n : Nat) : (r.setPayloadLen n).byteA = r.byteA := rfl
@[simp] theorem Regs.setPayloadLen_byteB (r : Regs) (n : Nat) : (r.setPayloadLen n).byteB = r.byteB := rfl
@[simp] theorem Regs.setPayloadLen_byteC (r : Regs) (n : Nat) : (r.setPayloadLen n).byteC = r.byteC := rfl
@[simp] theorem Regs.setPayloadLen_byteX (r : Regs) (n : Nat) : (r.setPayloadLen n).byteX = r.byteX := rfl
@[simp] theorem Regs.setPayloadLen_result (r : Regs) (n : Nat) : (r.setPayloadLen n).result = r.result := rfl

@[simp] theorem Regs.countChunk_ctrl (r : Regs) : (r.countChunk).ctrl = r.ctrl := rfl
@[simp] theorem Regs.countChunk_status (r : Regs) : (r.countChunk).status = r.status := rfl
@[simp] theorem Regs.countChunk_cmd (r : Regs) : (r.countChunk).cmd = r.cmd := rfl
@[simp] theorem Regs.countChunk_errCode (r : Regs) : (r.countChunk).errCode = r.errCode := rfl
@[simp] theorem Regs.countChunk_errInfo (r : Regs) : (r.countChunk).errInfo = r.errInfo := rfl
@[simp] theorem Regs.countChunk_srcAddr (r : Regs) : (r.countChunk).srcAddr = r.srcAddr := rfl
@[simp] theorem Regs.countChunk_srcLen (r : Regs) : (r.countChunk).srcLen = r.srcLen := rfl
@[simp] theorem Regs.countChunk_dstAddr (r : Regs) : (r.countChunk).dstAddr = r.dstAddr := rfl
@[simp] theorem Regs.countChunk_dstLen (r : Regs) : (r.countChunk).dstLen = r.dstLen := rfl
@[simp] theorem Regs.countChunk_auxAddr (r : Regs) : (r.countChunk).auxAddr = r.auxAddr := rfl
@[simp] theorem Regs.countChunk_auxLen (r : Regs) : (r.countChunk).auxLen = r.auxLen := rfl
@[simp] theorem Regs.countChunk_imgWidth (r : Regs) : (r.countChunk).imgWidth = r.imgWidth := rfl
@[simp] theorem Regs.countChunk_imgHeight (r : Regs) : (r.countChunk).imgHeight = r.imgHeight := rfl
@[simp] theorem Regs.countChunk_outLen (r : Regs) : (r.countChunk).outLen = r.outLen := rfl
@[simp] theorem Regs.countChunk_parseOff (r : Regs) : (r.countChunk).parseOff = r.parseOff := rfl
@[simp] theorem Regs.countChunk_idatLen (r : Regs) : (r.countChunk).idatLen = r.idatLen := rfl
@[simp] theorem Regs.countChunk_chunkCount (r : Regs) : (r.countChunk).chunkCount = r.chunkCount + 1 := rfl
@[simp] theorem Regs.countChunk_corruptCount (r : Regs) : (r.countChunk).corruptCount = r.corruptCount := rfl
@[simp] theorem Regs.countChunk_corruptType (r : Regs) : (r.countChunk).corruptType = r.corruptType := rfl
@[simp] theorem Regs.countChunk_chOff (r : Regs) : (r.countChunk).chOff = r.chOff := rfl
@[simp] theorem Regs.countChunk_chLen (r : Regs) : (r.countChunk).chLen = r.chLen := rfl
@[simp] theorem Regs.countChunk_chType (r : Regs) : (r.countChunk).chType = r.chType := rfl
@[simp] theorem Regs.countChunk_chCrc (r : Regs) : (r.countChunk).chCrc = r.chCrc := rfl
@[simp] theorem Regs.countChunk_hdrFields (r : Regs) : (r.countChunk).hdrFields = r.hdrFields := rfl
@[simp] theorem Regs.countChunk_hdrInterlace (r : Regs) : (r.countChunk).hdrInterlace = r.hdrInterlace := rfl
@[simp] theorem Regs.countChunk_byteA (r : Regs) : (r.countChunk).byteA = r.byteA := rfl
@[simp] theorem Regs.countChunk_byteB (r : Regs) : (r.countChunk).byteB = r.byteB := rfl
@[simp] theorem Regs.countChunk_byteC (r : Regs) : (r.countChunk).byteC = r.byteC := rfl
@[simp] theorem Regs.countChunk_byteX (r : Regs) : (r.countChunk).byteX = r.byteX := rfl
@[simp] theorem Regs.countChunk_result (r : Regs) : (r.countChunk).result = r.result := rfl

@[simp] theorem Regs.setIend_ctrl (r : Regs) : (r.setIend).ctrl = r.ctrl := rfl
@[simp] theorem Regs.setIend_status (r : Regs) : (r.setIend).status = { r.status with iend := true } := rfl
@[simp] theorem Regs.setIend_cmd (r : Regs) : (r.setIend).cmd = r.cmd := rfl
@[simp] theorem Regs.setIend_errCode (r : Regs) : (r.setIend).errCode = r.errCode := rfl
@[simp] theorem Regs.setIend_errInfo (r : Regs) : (r.setIend).errInfo = r.errInfo := rfl
@[simp] theorem Regs.setIend_srcAddr (r : Regs) : (r.setIend).srcAddr = r.srcAddr := rfl
@[simp] theorem Regs.setIend_srcLen (r : Regs) : (r.setIend).srcLen = r.srcLen := rfl
@[simp] theorem Regs.setIend_dstAddr (r : Regs) : (r.setIend).dstAddr = r.dstAddr := rfl
@[simp] theorem Regs.setIend_dstLen (r : Regs) : (r.setIend).dstLen = r.dstLen := rfl
@[simp] theorem Regs.setIend_auxAddr (r : Regs) : (r.setIend).auxAddr = r.auxAddr := rfl
@[simp] theorem Regs.setIend_auxLen (r : Regs) : (r.setIend).auxLen = r.auxLen := rfl
@[simp] theorem Regs.setIend_imgWidth (r : Regs) : (r.setIend).imgWidth = r.imgWidth := rfl
@[simp] theorem Regs.setIend_imgHeight (r : Regs) : (r.setIend).imgHeight = r.imgHeight := rfl
@[simp] theorem Regs.setIend_outLen (r : Regs) : (r.setIend).outLen = r.outLen := rfl
@[simp] theorem Regs.setIend_parseOff (r : Regs) : (r.setIend).parseOff = r.parseOff := rfl
@[simp] theorem Regs.setIend_idatLen (r : Regs) : (r.setIend).idatLen = r.idatLen := rfl
@[simp] theorem Regs.setIend_chunkCount (r : Regs) : (r.setIend).chunkCount = r.chunkCount := rfl
@[simp] theorem Regs.setIend_corruptCount (r : Regs) : (r.setIend).corruptCount = r.corruptCount := rfl
@[simp] theorem Regs.setIend_corruptType (r : Regs) : (r.setIend).corruptType = r.corruptType := rfl
@[simp] theorem Regs.setIend_chOff (r : Regs) : (r.setIend).chOff = r.chOff := rfl
@[simp] theorem Regs.setIend_chLen (r : Regs) : (r.setIend).chLen = r.chLen := rfl
@[simp] theorem Regs.setIend_chType (r : Regs) : (r.setIend).chType = r.chType := rfl
@[simp] theorem Regs.setIend_chCrc (r : Regs) : (r.setIend).chCrc = r.chCrc := rfl
@[simp] theorem Regs.setIend_hdrFields (r : Regs) : (r.setIend).hdrFields = r.hdrFields := rfl
@[simp] theorem Regs.setIend_hdrInterlace (r : Regs) : (r.setIend).hdrInterlace = r.hdrInterlace := rfl
@[simp] theorem Regs.setIend_byteA (r : Regs) : (r.setIend).byteA = r.byteA := rfl
@[simp] theorem Regs.setIend_byteB (r : Regs) : (r.setIend).byteB = r.byteB := rfl
@[simp] theorem Regs.setIend_byteC (r : Regs) : (r.setIend).byteC = r.byteC := rfl
@[simp] theorem Regs.setIend_byteX (r : Regs) : (r.setIend).byteX = r.byteX := rfl
@[simp] theorem Regs.setIend_result (r : Regs) : (r.setIend).result = r.result := rfl

@[simp] theorem Regs.setExhausted_ctrl (r : Regs) : (r.setExhausted).ctrl = r.ctrl := rfl
@[simp] theorem Regs.setExhausted_status (r : Regs) : (r.setExhausted).status = { r.status with exhausted := true } := rfl
@[simp] theorem Regs.setExhausted_cmd (r : Regs) : (r.setExhausted).cmd = r.cmd := rfl
@[simp] theorem Regs.setExhausted_errCode (r : Regs) : (r.setExhausted).errCode = r.errCode := rfl
@[simp] theorem Regs.setExhausted_errInfo (r : Regs) : (r.setExhausted).errInfo = r.errInfo := rfl
@[simp] theorem Regs.setExhausted_srcAddr (r : Regs) : (r.setExhausted).srcAddr = r.srcAddr := rfl
@[simp] theorem Regs.setExhausted_srcLen (r : Regs) : (r.setExhausted).srcLen = r.srcLen := rfl
@[simp] theorem Regs.setExhausted_dstAddr (r : Regs) : (r.setExhausted).dstAddr = r.dstAddr := rfl
@[simp] theorem Regs.setExhausted_dstLen (r : Regs) : (r.setExhausted).dstLen = r.dstLen := rfl
@[simp] theorem Regs.setExhausted_auxAddr (r : Regs) : (r.setExhausted).auxAddr = r.auxAddr := rfl
@[simp] theorem Regs.setExhausted_auxLen (r : Regs) : (r.setExhausted).auxLen = r.auxLen := rfl
@[simp] theorem Regs.setExhausted_imgWidth (r : Regs) : (r.setExhausted).imgWidth = r.imgWidth := rfl
@[simp] theorem Regs.setExhausted_imgHeight (r : Regs) : (r.setExhausted).imgHeight = r.imgHeight := rfl
@[simp] theorem Regs.setExhausted_outLen (r : Regs) : (r.setExhausted).outLen = r.outLen := rfl
@[simp] theorem Regs.setExhausted_parseOff (r : Regs) : (r.setExhausted).parseOff = r.parseOff := rfl
@[simp] theorem Regs.setExhausted_idatLen (r : Regs) : (r.setExhausted).idatLen = r.idatLen := rfl
@[simp] theorem Regs.setExhausted_chunkCount (r : Regs) : (r.setExhausted).chunkCount = r.chunkCount := rfl
@[simp] theorem Regs.setExhausted_corruptCount (r : Regs) : (r.setExhausted).corruptCount = r.corruptCount := rfl
@[simp] theorem Regs.setExhausted_corruptType (r : Regs) : (r.setExhausted).corruptType = r.corruptType := rfl
@[simp] theorem Regs.setExhausted_chOff (r : Regs) : (r.setExhausted).chOff = r.chOff := rfl
@[simp] theorem Regs.setExhausted_chLen (r : Regs) : (r.setExhausted).chLen = r.chLen := rfl
@[simp] theorem Regs.setExhausted_chType (r : Regs) : (r.setExhausted).chType = r.chType := rfl
@[simp] theorem Regs.setExhausted_chCrc (r : Regs) : (r.setExhausted).chCrc = r.chCrc := rfl
@[simp] theorem Regs.setExhausted_hdrFields (r : Regs) : (r.setExhausted).hdrFields = r.hdrFields := rfl
@[simp] theorem Regs.setExhausted_hdrInterlace (r : Regs) : (r.setExhausted).hdrInterlace = r.hdrInterlace := rfl
@[simp] theorem Regs.setExhausted_byteA (r : Regs) : (r.setExhausted).byteA = r.byteA := rfl
@[simp] theorem Regs.setExhausted_byteB (r : Regs) : (r.setExhausted).byteB = r.byteB := rfl
@[simp] theorem Regs.setExhausted_byteC (r : Regs) : (r.setExhausted).byteC = r.byteC := rfl
@[simp] theorem Regs.setExhausted_byteX (r : Regs) : (r.setExhausted).byteX = r.byteX := rfl
@[simp] theorem Regs.setExhausted_result (r : Regs) : (r.setExhausted).result = r.result := rfl

@[simp] theorem Regs.parseInit_ctrl (r : Regs) : (r.parseInit).ctrl = r.ctrl := rfl
@[simp] theorem Regs.parseInit_status (r : Regs) : (r.parseInit).status = { r.status with iend := false, exhausted := false, corruptSeen := false } := rfl
@[simp] theorem Regs.parseInit_cmd (r : Regs) : (r.parseInit).cmd = r.cmd := rfl
@[simp] theorem Regs.parseInit_errCode (r : Regs) : (r.parseInit).errCode = r.errCode := rfl
@[simp] theorem Regs.parseInit_errInfo (r : Regs) : (r.parseInit).errInfo = r.errInfo := rfl
@[simp] theorem Regs.parseInit_srcAddr (r : Regs) : (r.parseInit).srcAddr = r.srcAddr := rfl
@[simp] theorem Regs.parseInit_srcLen (r : Regs) : (r.parseInit).srcLen = r.srcLen := rfl
@[simp] theorem Regs.parseInit_dstAddr (r : Regs) : (r.parseInit).dstAddr = r.dstAddr := rfl
@[simp] theorem Regs.parseInit_dstLen (r : Regs) : (r.parseInit).dstLen = r.dstLen := rfl
@[simp] theorem Regs.parseInit_auxAddr (r : Regs) : (r.parseInit).auxAddr = r.auxAddr := rfl
@[simp] theorem Regs.parseInit_auxLen (r : Regs) : (r.parseInit).auxLen = r.auxLen := rfl
@[simp] theorem Regs.parseInit_imgWidth (r : Regs) : (r.parseInit).imgWidth = r.imgWidth := rfl
@[simp] theorem Regs.parseInit_imgHeight (r : Regs) : (r.parseInit).imgHeight = r.imgHeight := rfl
@[simp] theorem Regs.parseInit_outLen (r : Regs) : (r.parseInit).outLen = r.outLen := rfl
@[simp] theorem Regs.parseInit_parseOff (r : Regs) : (r.parseInit).parseOff = 8 := rfl
@[simp] theorem Regs.parseInit_idatLen (r : Regs) : (r.parseInit).idatLen = 0 := rfl
@[simp] theorem Regs.parseInit_chunkCount (r : Regs) : (r.parseInit).chunkCount = 0 := rfl
@[simp] theorem Regs.parseInit_corruptCount (r : Regs) : (r.parseInit).corruptCount = 0 := rfl
@[simp] theorem Regs.parseInit_corruptType (r : Regs) : (r.parseInit).corruptType = 0 := rfl
@[simp] theorem Regs.parseInit_chOff (r : Regs) : (r.parseInit).chOff = 0 := rfl
@[simp] theorem Regs.parseInit_chLen (r : Regs) : (r.parseInit).chLen = 0 := rfl
@[simp] theorem Regs.parseInit_chType (r : Regs) : (r.parseInit).chType = 0 := rfl
@[simp] theorem Regs.parseInit_chCrc (r : Regs) : (r.parseInit).chCrc = 0 := rfl
@[simp] theorem Regs.parseInit_hdrFields (r : Regs) : (r.parseInit).hdrFields = r.hdrFields := rfl
@[simp] theorem Regs.parseInit_hdrInterlace (r : Regs) : (r.parseInit).hdrInterlace = r.hdrInterlace := rfl
@[simp] theorem Regs.parseInit_byteA (r : Regs) : (r.parseInit).byteA = r.byteA := rfl
@[simp] theorem Regs.parseInit_byteB (r : Regs) : (r.parseInit).byteB = r.byteB := rfl
@[simp] theorem Regs.parseInit_byteC (r : Regs) : (r.parseInit).byteC = r.byteC := rfl
@[simp] theorem Regs.parseInit_byteX (r : Regs) : (r.parseInit).byteX = r.byteX := rfl
@[simp] theorem Regs.parseInit_result (r : Regs) : (r.parseInit).result = r.result := rfl

@[simp] theorem Regs.dropProfile_ctrl (r : Regs) : (r.dropProfile).ctrl = r.ctrl := rfl
@[simp] theorem Regs.dropProfile_status (r : Regs) : (r.dropProfile).status = { r.status with profValid := false } := rfl
@[simp] theorem Regs.dropProfile_cmd (r : Regs) : (r.dropProfile).cmd = r.cmd := rfl
@[simp] theorem Regs.dropProfile_errCode (r : Regs) : (r.dropProfile).errCode = r.errCode := rfl
@[simp] theorem Regs.dropProfile_errInfo (r : Regs) : (r.dropProfile).errInfo = r.errInfo := rfl
@[simp] theorem Regs.dropProfile_srcAddr (r : Regs) : (r.dropProfile).srcAddr = r.srcAddr := rfl
@[simp] theorem Regs.dropProfile_srcLen (r : Regs) : (r.dropProfile).srcLen = r.srcLen := rfl
@[simp] theorem Regs.dropProfile_dstAddr (r : Regs) : (r.dropProfile).dstAddr = r.dstAddr := rfl
@[simp] theorem Regs.dropProfile_dstLen (r : Regs) : (r.dropProfile).dstLen = r.dstLen := rfl
@[simp] theorem Regs.dropProfile_auxAddr (r : Regs) : (r.dropProfile).auxAddr = r.auxAddr := rfl
@[simp] theorem Regs.dropProfile_auxLen (r : Regs) : (r.dropProfile).auxLen = r.auxLen := rfl
@[simp] theorem Regs.dropProfile_imgWidth (r : Regs) : (r.dropProfile).imgWidth = r.imgWidth := rfl
@[simp] theorem Regs.dropProfile_imgHeight (r : Regs) : (r.dropProfile).imgHeight = r.imgHeight := rfl
@[simp] theorem Regs.dropProfile_outLen (r : Regs) : (r.dropProfile).outLen = r.outLen := rfl
@[simp] theorem Regs.dropProfile_parseOff (r : Regs) : (r.dropProfile).parseOff = r.parseOff := rfl
@[simp] theorem Regs.dropProfile_idatLen (r : Regs) : (r.dropProfile).idatLen = r.idatLen := rfl
@[simp] theorem Regs.dropProfile_chunkCount (r : Regs) : (r.dropProfile).chunkCount = r.chunkCount := rfl
@[simp] theorem Regs.dropProfile_corruptCount (r : Regs) : (r.dropProfile).corruptCount = r.corruptCount := rfl
@[simp] theorem Regs.dropProfile_corruptType (r : Regs) : (r.dropProfile).corruptType = r.corruptType := rfl
@[simp] theorem Regs.dropProfile_chOff (r : Regs) : (r.dropProfile).chOff = r.chOff := rfl
@[simp] theorem Regs.dropProfile_chLen (r : Regs) : (r.dropProfile).chLen = r.chLen := rfl
@[simp] theorem Regs.dropProfile_chType (r : Regs) : (r.dropProfile).chType = r.chType := rfl
@[simp] theorem Regs.dropProfile_chCrc (r : Regs) : (r.dropProfile).chCrc = r.chCrc := rfl
@[simp] theorem Regs.dropProfile_hdrFields (r : Regs) : (r.dropProfile).hdrFields = r.hdrFields := rfl
@[simp] theorem Regs.dropProfile_hdrInterlace (r : Regs) : (r.dropProfile).hdrInterlace = r.hdrInterlace := rfl
@[simp] theorem Regs.dropProfile_byteA (r : Regs) : (r.dropProfile).byteA = r.byteA := rfl
@[simp] theorem Regs.dropProfile_byteB (r : Regs) : (r.dropProfile).byteB = r.byteB := rfl
@[simp] theorem Regs.dropProfile_byteC (r : Regs) : (r.dropProfile).byteC = r.byteC := rfl
@[simp] theorem Regs.dropProfile_byteX (r : Regs) : (r.dropProfile).byteX = r.byteX := rfl
@[simp] theorem Regs.dropProfile_result (r : Regs) : (r.dropProfile).result = r.result := rfl

@[simp] theorem Regs.captureHeader_ctrl (r : Regs) (data : List Byte) : (r.captureHeader data).ctrl = r.ctrl := rfl
@[simp] theorem Regs.captureHeader_status (r : Regs) (data : List Byte) : (r.captureHeader data).status = r.status := rfl
@[simp] theorem Regs.captureHeader_cmd (r : Regs) (data : List Byte) : (r.captureHeader data).cmd = r.cmd := rfl
@[simp] theorem Regs.captureHeader_errCode (r : Regs) (data : List Byte) : (r.captureHeader data).errCode = r.errCode := rfl
@[simp] theorem Regs.captureHeader_errInfo (r : Regs) (data : List Byte) : (r.captureHeader data).errInfo = r.errInfo := rfl
@[simp] theorem Regs.captureHeader_srcAddr (r : Regs) (data : List Byte) : (r.captureHeader data).srcAddr = r.srcAddr := rfl
@[simp] theorem Regs.captureHeader_srcLen (r : Regs) (data : List Byte) : (r.captureHeader data).srcLen = r.srcLen := rfl
@[simp] theorem Regs.captureHeader_dstAddr (r : Regs) (data : List Byte) : (r.captureHeader data).dstAddr = r.dstAddr := rfl
@[simp] theorem Regs.captureHeader_dstLen (r : Regs) (data : List Byte) : (r.captureHeader data).dstLen = r.dstLen := rfl
@[simp] theorem Regs.captureHeader_auxAddr (r : Regs) (data : List Byte) : (r.captureHeader data).auxAddr = r.auxAddr := rfl
@[simp] theorem Regs.captureHeader_auxLen (r : Regs) (data : List Byte) : (r.captureHeader data).auxLen = r.auxLen := rfl
@[simp] theorem Regs.captureHeader_imgWidth (r : Regs) (data : List Byte) : (r.captureHeader data).imgWidth = r.imgWidth := rfl
@[simp] theorem Regs.captureHeader_imgHeight (r : Regs) (data : List Byte) : (r.captureHeader data).imgHeight = r.imgHeight := rfl
@[simp] theorem Regs.captureHeader_outLen (r : Regs) (data : List Byte) : (r.captureHeader data).outLen = r.outLen := rfl
@[simp] theorem Regs.captureHeader_parseOff (r : Regs) (data : List Byte) : (r.captureHeader data).parseOff = r.parseOff := rfl
@[simp] theorem Regs.captureHeader_idatLen (r : Regs) (data : List Byte) : (r.captureHeader data).idatLen = r.idatLen := rfl
@[simp] theorem Regs.captureHeader_chunkCount (r : Regs) (data : List Byte) : (r.captureHeader data).chunkCount = r.chunkCount := rfl
@[simp] theorem Regs.captureHeader_corruptCount (r : Regs) (data : List Byte) : (r.captureHeader data).corruptCount = r.corruptCount := rfl
@[simp] theorem Regs.captureHeader_corruptType (r : Regs) (data : List Byte) : (r.captureHeader data).corruptType = r.corruptType := rfl
@[simp] theorem Regs.captureHeader_chOff (r : Regs) (data : List Byte) : (r.captureHeader data).chOff = r.chOff := rfl
@[simp] theorem Regs.captureHeader_chLen (r : Regs) (data : List Byte) : (r.captureHeader data).chLen = r.chLen := rfl
@[simp] theorem Regs.captureHeader_chType (r : Regs) (data : List Byte) : (r.captureHeader data).chType = r.chType := rfl
@[simp] theorem Regs.captureHeader_chCrc (r : Regs) (data : List Byte) : (r.captureHeader data).chCrc = r.chCrc := rfl
@[simp] theorem Regs.captureHeader_hdrFields (r : Regs) (data : List Byte) : (r.captureHeader data).hdrFields = headerFields data := rfl
@[simp] theorem Regs.captureHeader_hdrInterlace (r : Regs) (data : List Byte) : (r.captureHeader data).hdrInterlace = data.getD 12 0 := rfl
@[simp] theorem Regs.captureHeader_byteA (r : Regs) (data : List Byte) : (r.captureHeader data).byteA = r.byteA := rfl
@[simp] theorem Regs.captureHeader_byteB (r : Regs) (data : List Byte) : (r.captureHeader data).byteB = r.byteB := rfl
@[simp] theorem Regs.captureHeader_byteC (r : Regs) (data : List Byte) : (r.captureHeader data).byteC = r.byteC := rfl
@[simp] theorem Regs.captureHeader_byteX (r : Regs) (data : List Byte) : (r.captureHeader data).byteX = r.byteX := rfl
@[simp] theorem Regs.captureHeader_result (r : Regs) (data : List Byte) : (r.captureHeader data).result = r.result := rfl

@[simp] theorem Regs.loadProfile_ctrl (r : Regs) (width height : Nat) : (r.loadProfile width height).ctrl = r.ctrl := rfl
@[simp] theorem Regs.loadProfile_status (r : Regs) (width height : Nat) : (r.loadProfile width height).status = { r.status with profValid := true } := rfl
@[simp] theorem Regs.loadProfile_cmd (r : Regs) (width height : Nat) : (r.loadProfile width height).cmd = r.cmd := rfl
@[simp] theorem Regs.loadProfile_errCode (r : Regs) (width height : Nat) : (r.loadProfile width height).errCode = r.errCode := rfl
@[simp] theorem Regs.loadProfile_errInfo (r : Regs) (width height : Nat) : (r.loadProfile width height).errInfo = r.errInfo := rfl
@[simp] theorem Regs.loadProfile_srcAddr (r : Regs) (width height : Nat) : (r.loadProfile width height).srcAddr = r.srcAddr := rfl
@[simp] theorem Regs.loadProfile_srcLen (r : Regs) (width height : Nat) : (r.loadProfile width height).srcLen = r.srcLen := rfl
@[simp] theorem Regs.loadProfile_dstAddr (r : Regs) (width height : Nat) : (r.loadProfile width height).dstAddr = r.dstAddr := rfl
@[simp] theorem Regs.loadProfile_dstLen (r : Regs) (width height : Nat) : (r.loadProfile width height).dstLen = r.dstLen := rfl
@[simp] theorem Regs.loadProfile_auxAddr (r : Regs) (width height : Nat) : (r.loadProfile width height).auxAddr = r.auxAddr := rfl
@[simp] theorem Regs.loadProfile_auxLen (r : Regs) (width height : Nat) : (r.loadProfile width height).auxLen = r.auxLen := rfl
@[simp] theorem Regs.loadProfile_imgWidth (r : Regs) (width height : Nat) : (r.loadProfile width height).imgWidth = BitVec.ofNat 32 width := rfl
@[simp] theorem Regs.loadProfile_imgHeight (r : Regs) (width height : Nat) : (r.loadProfile width height).imgHeight = BitVec.ofNat 32 height := rfl
@[simp] theorem Regs.loadProfile_outLen (r : Regs) (width height : Nat) : (r.loadProfile width height).outLen = r.outLen := rfl
@[simp] theorem Regs.loadProfile_parseOff (r : Regs) (width height : Nat) : (r.loadProfile width height).parseOff = r.parseOff := rfl
@[simp] theorem Regs.loadProfile_idatLen (r : Regs) (width height : Nat) : (r.loadProfile width height).idatLen = r.idatLen := rfl
@[simp] theorem Regs.loadProfile_chunkCount (r : Regs) (width height : Nat) : (r.loadProfile width height).chunkCount = r.chunkCount := rfl
@[simp] theorem Regs.loadProfile_corruptCount (r : Regs) (width height : Nat) : (r.loadProfile width height).corruptCount = r.corruptCount := rfl
@[simp] theorem Regs.loadProfile_corruptType (r : Regs) (width height : Nat) : (r.loadProfile width height).corruptType = r.corruptType := rfl
@[simp] theorem Regs.loadProfile_chOff (r : Regs) (width height : Nat) : (r.loadProfile width height).chOff = r.chOff := rfl
@[simp] theorem Regs.loadProfile_chLen (r : Regs) (width height : Nat) : (r.loadProfile width height).chLen = r.chLen := rfl
@[simp] theorem Regs.loadProfile_chType (r : Regs) (width height : Nat) : (r.loadProfile width height).chType = r.chType := rfl
@[simp] theorem Regs.loadProfile_chCrc (r : Regs) (width height : Nat) : (r.loadProfile width height).chCrc = r.chCrc := rfl
@[simp] theorem Regs.loadProfile_hdrFields (r : Regs) (width height : Nat) : (r.loadProfile width height).hdrFields = r.hdrFields := rfl
@[simp] theorem Regs.loadProfile_hdrInterlace (r : Regs) (width height : Nat) : (r.loadProfile width height).hdrInterlace = r.hdrInterlace := rfl
@[simp] theorem Regs.loadProfile_byteA (r : Regs) (width height : Nat) : (r.loadProfile width height).byteA = r.byteA := rfl
@[simp] theorem Regs.loadProfile_byteB (r : Regs) (width height : Nat) : (r.loadProfile width height).byteB = r.byteB := rfl
@[simp] theorem Regs.loadProfile_byteC (r : Regs) (width height : Nat) : (r.loadProfile width height).byteC = r.byteC := rfl
@[simp] theorem Regs.loadProfile_byteX (r : Regs) (width height : Nat) : (r.loadProfile width height).byteX = r.byteX := rfl
@[simp] theorem Regs.loadProfile_result (r : Regs) (width height : Nat) : (r.loadProfile width height).result = r.result := rfl

@[simp] theorem Regs.setResult_ctrl (r : Regs) (b : Byte) : (r.setResult b).ctrl = r.ctrl := rfl
@[simp] theorem Regs.setResult_status (r : Regs) (b : Byte) : (r.setResult b).status = r.status := rfl
@[simp] theorem Regs.setResult_cmd (r : Regs) (b : Byte) : (r.setResult b).cmd = r.cmd := rfl
@[simp] theorem Regs.setResult_errCode (r : Regs) (b : Byte) : (r.setResult b).errCode = r.errCode := rfl
@[simp] theorem Regs.setResult_errInfo (r : Regs) (b : Byte) : (r.setResult b).errInfo = r.errInfo := rfl
@[simp] theorem Regs.setResult_srcAddr (r : Regs) (b : Byte) : (r.setResult b).srcAddr = r.srcAddr := rfl
@[simp] theorem Regs.setResult_srcLen (r : Regs) (b : Byte) : (r.setResult b).srcLen = r.srcLen := rfl
@[simp] theorem Regs.setResult_dstAddr (r : Regs) (b : Byte) : (r.setResult b).dstAddr = r.dstAddr := rfl
@[simp] theorem Regs.setResult_dstLen (r : Regs) (b : Byte) : (r.setResult b).dstLen = r.dstLen := rfl
@[simp] theorem Regs.setResult_auxAddr (r : Regs) (b : Byte) : (r.setResult b).auxAddr = r.auxAddr := rfl
@[simp] theorem Regs.setResult_auxLen (r : Regs) (b : Byte) : (r.setResult b).auxLen = r.auxLen := rfl
@[simp] theorem Regs.setResult_imgWidth (r : Regs) (b : Byte) : (r.setResult b).imgWidth = r.imgWidth := rfl
@[simp] theorem Regs.setResult_imgHeight (r : Regs) (b : Byte) : (r.setResult b).imgHeight = r.imgHeight := rfl
@[simp] theorem Regs.setResult_outLen (r : Regs) (b : Byte) : (r.setResult b).outLen = r.outLen := rfl
@[simp] theorem Regs.setResult_parseOff (r : Regs) (b : Byte) : (r.setResult b).parseOff = r.parseOff := rfl
@[simp] theorem Regs.setResult_idatLen (r : Regs) (b : Byte) : (r.setResult b).idatLen = r.idatLen := rfl
@[simp] theorem Regs.setResult_chunkCount (r : Regs) (b : Byte) : (r.setResult b).chunkCount = r.chunkCount := rfl
@[simp] theorem Regs.setResult_corruptCount (r : Regs) (b : Byte) : (r.setResult b).corruptCount = r.corruptCount := rfl
@[simp] theorem Regs.setResult_corruptType (r : Regs) (b : Byte) : (r.setResult b).corruptType = r.corruptType := rfl
@[simp] theorem Regs.setResult_chOff (r : Regs) (b : Byte) : (r.setResult b).chOff = r.chOff := rfl
@[simp] theorem Regs.setResult_chLen (r : Regs) (b : Byte) : (r.setResult b).chLen = r.chLen := rfl
@[simp] theorem Regs.setResult_chType (r : Regs) (b : Byte) : (r.setResult b).chType = r.chType := rfl
@[simp] theorem Regs.setResult_chCrc (r : Regs) (b : Byte) : (r.setResult b).chCrc = r.chCrc := rfl
@[simp] theorem Regs.setResult_hdrFields (r : Regs) (b : Byte) : (r.setResult b).hdrFields = r.hdrFields := rfl
@[simp] theorem Regs.setResult_hdrInterlace (r : Regs) (b : Byte) : (r.setResult b).hdrInterlace = r.hdrInterlace := rfl
@[simp] theorem Regs.setResult_byteA (r : Regs) (b : Byte) : (r.setResult b).byteA = r.byteA := rfl
@[simp] theorem Regs.setResult_byteB (r : Regs) (b : Byte) : (r.setResult b).byteB = r.byteB := rfl
@[simp] theorem Regs.setResult_byteC (r : Regs) (b : Byte) : (r.setResult b).byteC = r.byteC := rfl
@[simp] theorem Regs.setResult_byteX (r : Regs) (b : Byte) : (r.setResult b).byteX = r.byteX := rfl
@[simp] theorem Regs.setResult_result (r : Regs) (b : Byte) : (r.setResult b).result = b := rfl

@[simp] theorem Regs.setOutLen_ctrl (r : Regs) (n : Nat) : (r.setOutLen n).ctrl = r.ctrl := rfl
@[simp] theorem Regs.setOutLen_status (r : Regs) (n : Nat) : (r.setOutLen n).status = r.status := rfl
@[simp] theorem Regs.setOutLen_cmd (r : Regs) (n : Nat) : (r.setOutLen n).cmd = r.cmd := rfl
@[simp] theorem Regs.setOutLen_errCode (r : Regs) (n : Nat) : (r.setOutLen n).errCode = r.errCode := rfl
@[simp] theorem Regs.setOutLen_errInfo (r : Regs) (n : Nat) : (r.setOutLen n).errInfo = r.errInfo := rfl
@[simp] theorem Regs.setOutLen_srcAddr (r : Regs) (n : Nat) : (r.setOutLen n).srcAddr = r.srcAddr := rfl
@[simp] theorem Regs.setOutLen_srcLen (r : Regs) (n : Nat) : (r.setOutLen n).srcLen = r.srcLen := rfl
@[simp] theorem Regs.setOutLen_dstAddr (r : Regs) (n : Nat) : (r.setOutLen n).dstAddr = r.dstAddr := rfl
@[simp] theorem Regs.setOutLen_dstLen (r : Regs) (n : Nat) : (r.setOutLen n).dstLen = r.dstLen := rfl
@[simp] theorem Regs.setOutLen_auxAddr (r : Regs) (n : Nat) : (r.setOutLen n).auxAddr = r.auxAddr := rfl
@[simp] theorem Regs.setOutLen_auxLen (r : Regs) (n : Nat) : (r.setOutLen n).auxLen = r.auxLen := rfl
@[simp] theorem Regs.setOutLen_imgWidth (r : Regs) (n : Nat) : (r.setOutLen n).imgWidth = r.imgWidth := rfl
@[simp] theorem Regs.setOutLen_imgHeight (r : Regs) (n : Nat) : (r.setOutLen n).imgHeight = r.imgHeight := rfl
@[simp] theorem Regs.setOutLen_outLen (r : Regs) (n : Nat) : (r.setOutLen n).outLen = BitVec.ofNat 32 n := rfl
@[simp] theorem Regs.setOutLen_parseOff (r : Regs) (n : Nat) : (r.setOutLen n).parseOff = r.parseOff := rfl
@[simp] theorem Regs.setOutLen_idatLen (r : Regs) (n : Nat) : (r.setOutLen n).idatLen = r.idatLen := rfl
@[simp] theorem Regs.setOutLen_chunkCount (r : Regs) (n : Nat) : (r.setOutLen n).chunkCount = r.chunkCount := rfl
@[simp] theorem Regs.setOutLen_corruptCount (r : Regs) (n : Nat) : (r.setOutLen n).corruptCount = r.corruptCount := rfl
@[simp] theorem Regs.setOutLen_corruptType (r : Regs) (n : Nat) : (r.setOutLen n).corruptType = r.corruptType := rfl
@[simp] theorem Regs.setOutLen_chOff (r : Regs) (n : Nat) : (r.setOutLen n).chOff = r.chOff := rfl
@[simp] theorem Regs.setOutLen_chLen (r : Regs) (n : Nat) : (r.setOutLen n).chLen = r.chLen := rfl
@[simp] theorem Regs.setOutLen_chType (r : Regs) (n : Nat) : (r.setOutLen n).chType = r.chType := rfl
@[simp] theorem Regs.setOutLen_chCrc (r : Regs) (n : Nat) : (r.setOutLen n).chCrc = r.chCrc := rfl
@[simp] theorem Regs.setOutLen_hdrFields (r : Regs) (n : Nat) : (r.setOutLen n).hdrFields = r.hdrFields := rfl
@[simp] theorem Regs.setOutLen_hdrInterlace (r : Regs) (n : Nat) : (r.setOutLen n).hdrInterlace = r.hdrInterlace := rfl
@[simp] theorem Regs.setOutLen_byteA (r : Regs) (n : Nat) : (r.setOutLen n).byteA = r.byteA := rfl
@[simp] theorem Regs.setOutLen_byteB (r : Regs) (n : Nat) : (r.setOutLen n).byteB = r.byteB := rfl
@[simp] theorem Regs.setOutLen_byteC (r : Regs) (n : Nat) : (r.setOutLen n).byteC = r.byteC := rfl
@[simp] theorem Regs.setOutLen_byteX (r : Regs) (n : Nat) : (r.setOutLen n).byteX = r.byteX := rfl
@[simp] theorem Regs.setOutLen_result (r : Regs) (n : Nat) : (r.setOutLen n).result = r.result := rfl

end Sys2Proof.Machine
end

