-- ==== Sys2Proof/Laws/Engine.lean ====
section
/-! SUPPORT. How a command's pseudocode runs: what each primitive answers, the weakest precondition of a piece of
pseudocode, and the two ways a command ends. Later proofs cite these and never unfold the monad. -/

namespace Sys2Proof.Machine

variable {α β : Type}

/-! ## What each primitive answers -/

theorem Engine.bind_apply (x : Engine α) (f : α → Engine β) (s : State) :
    (x >>= f) s = match x s with
      | .ok a t => f a t
      | .error e t => .error e t := by
  show EStateM.bind x f s = _
  unfold EStateM.bind
  cases x s <;> rfl

theorem Engine.bind_ok {x : Engine α} {f : α → Engine β} {s t : State} {a : α} (h : x s = .ok a t) :
    (x >>= f) s = f a t := by rw [Engine.bind_apply, h]

theorem Engine.bind_error {x : Engine α} {f : α → Engine β} {s t : State} {e : Stop} (h : x s = .error e t) :
    (x >>= f) s = .error e t := by rw [Engine.bind_apply, h]

@[simp] theorem Engine.pure_apply (a : α) (s : State) : (pure a : Engine α) s = .ok a s := rfl
@[simp] theorem Engine.get_apply (s : State) : (get : Engine State) s = .ok s s := rfl
@[simp] theorem Engine.set_apply (t s : State) : (set t : Engine PUnit) s = .ok ⟨⟩ t := rfl
@[simp] theorem Engine.throw_apply (e : Stop) (s : State) : (throw e : Engine α) s = .error e s := rfl
@[simp] theorem raise_apply (c : ErrCode) (i : Word) (s : State) : (raise c i : Engine α) s = .error (.raised c i) s := rfl

@[simp] theorem modifyRegs_apply (f : Regs → Regs) (s : State) :
    modifyRegs f s = .ok () (s.setRegs (f s.regs)) := rfl

@[simp] theorem Engine.get_bind (f : State → Engine β) (s : State) : ((get : Engine State) >>= f) s = f s s := rfl
@[simp] theorem Engine.pure_bind_apply (a : α) (f : α → Engine β) (s : State) : ((pure a : Engine α) >>= f) s = f a s := rfl
@[simp] theorem modifyRegs_bind (g : Regs → Regs) (f : Unit → Engine β) (s : State) :
    (modifyRegs g >>= f) s = f () (s.setRegs (g s.regs)) := rfl

theorem onlyIf_true {c : Bool} (h : c = true) (x : Engine Unit) (s : State) : onlyIf c x s = x s := by rw [onlyIf, if_pos h]
theorem onlyIf_false {c : Bool} (h : c = false) (x : Engine Unit) (s : State) : onlyIf c x s = .ok () s := by
  rw [onlyIf, if_neg (by simp [h])]; rfl

theorem require_apply (ok : Bool) (c : ErrCode) (i : Word) (s : State) :
    require ok c i s = if ok then .ok () s else .error (.raised c i) s := by
  unfold require; split <;> rfl

theorem require_bind (ok : Bool) (c : ErrCode) (i : Word) (f : Unit → Engine β) (s : State) :
    (require ok c i >>= f) s = if ok then f () s else .error (.raised c i) s := by
  rw [Engine.bind_apply, require_apply]; cases ok <;> rfl

theorem memRead_apply (a n : Nat) (s : State) :
    memRead a n s = if s.platform.holdsAll a n then .ok (s.mem.readN a n) s else .error .absent s := by
  unfold memRead; rw [Engine.get_bind]; split <;> rfl

theorem memRead_bind (a n : Nat) (f : List Byte → Engine β) (s : State) :
    (memRead a n >>= f) s = if s.platform.holdsAll a n then f (s.mem.readN a n) s else .error .absent s := by
  rw [Engine.bind_apply, memRead_apply]; cases s.platform.holdsAll a n <;> rfl

theorem memWrite_apply (a : Nat) (bs : List Byte) (s : State) :
    memWrite a bs s = if s.platform.holdsAll a bs.length then .ok () (s.setMem (s.mem.writeN a bs))
      else .error .absent s := by
  unfold memWrite; rw [Engine.get_bind]; split <;> rfl

theorem memWrite_bind (a : Nat) (bs : List Byte) (f : Unit → Engine β) (s : State) :
    (memWrite a bs >>= f) s = if s.platform.holdsAll a bs.length then f () (s.setMem (s.mem.writeN a bs))
      else .error .absent s := by
  rw [Engine.bind_apply, memWrite_apply]; cases s.platform.holdsAll a bs.length <;> rfl

/-! ## The weakest precondition -/

/-- Run at `s`, the piece ends with a value and state in `Q`, or stops in `E`. -/
def Engine.wp (x : Engine α) (s : State) (Q : α → State → Prop) (E : Stop → State → Prop) : Prop :=
  match x s with
  | .ok a t => Q a t
  | .error e t => E e t

variable {Q : α → State → Prop} {R : β → State → Prop} {E : Stop → State → Prop}

theorem Engine.wp_ok {x : Engine α} {s t : State} {a : α} (w : x.wp s Q E) (h : x s = .ok a t) : Q a t := by
  unfold Engine.wp at w; rwa [h] at w

theorem Engine.wp_error {x : Engine α} {s t : State} {e : Stop} (w : x.wp s Q E) (h : x s = .error e t) : E e t := by
  unfold Engine.wp at w; rwa [h] at w

theorem Engine.wp_bind (x : Engine α) (f : α → Engine β) (s : State) :
    (x >>= f).wp s R E ↔ x.wp s (fun a t => (f a).wp t R E) E := by
  unfold Engine.wp; rw [Engine.bind_apply]; cases x s <;> rfl

theorem Engine.wp_mono {x : Engine α} {s : State} {Q' : α → State → Prop} {E' : Stop → State → Prop}
    (w : x.wp s Q E) (hQ : ∀ a t, Q a t → Q' a t) (hE : ∀ e t, E e t → E' e t) : x.wp s Q' E' := by
  unfold Engine.wp at *; split at w <;> simp_all

@[simp] theorem Engine.wp_pure (a : α) (s : State) : (pure a : Engine α).wp s Q E ↔ Q a s := Iff.rfl
@[simp] theorem Engine.wp_get (s : State) (Q : State → State → Prop) : (get : Engine State).wp s Q E ↔ Q s s := Iff.rfl
@[simp] theorem wp_raise (c : ErrCode) (i : Word) (s : State) :
    (raise c i : Engine α).wp s Q E ↔ E (.raised c i) s := Iff.rfl
@[simp] theorem wp_modifyRegs (f : Regs → Regs) (s : State) (Q : Unit → State → Prop) :
    (modifyRegs f).wp s Q E ↔ Q () (s.setRegs (f s.regs)) := Iff.rfl

theorem wp_require (ok : Bool) (c : ErrCode) (i : Word) (s : State) (Q : Unit → State → Prop) :
    (require ok c i).wp s Q E ↔ (ok = true → Q () s) ∧ (ok = false → E (.raised c i) s) := by
  cases ok <;> simp [Engine.wp, require_apply]

theorem wp_memRead (a n : Nat) (s : State) (Q : List Byte → State → Prop) :
    (memRead a n).wp s Q E ↔
      (s.platform.holdsAll a n = true → Q (s.mem.readN a n) s) ∧ (s.platform.holdsAll a n = false → E .absent s) := by
  unfold Engine.wp; rw [memRead_apply]; cases s.platform.holdsAll a n <;> simp

theorem wp_memWrite (a : Nat) (bs : List Byte) (s : State) (Q : Unit → State → Prop) :
    (memWrite a bs).wp s Q E ↔
      (s.platform.holdsAll a bs.length = true → Q () (s.setMem (s.mem.writeN a bs))) ∧
      (s.platform.holdsAll a bs.length = false → E .absent s) := by
  unfold Engine.wp; rw [memWrite_apply]; cases s.platform.holdsAll a bs.length <;> simp

theorem Engine.wp_ite (c : Prop) [Decidable c] (x y : Engine α) (s : State) :
    (if c then x else y).wp s Q E ↔ (c → x.wp s Q E) ∧ (¬ c → y.wp s Q E) := by
  split <;> simp [*]

/-! ## How a command ends -/

/-- A command that answers a next state has completed, or has raised an error; there is no third way (R184, R185). -/
theorem runCommand_next {body : Engine Unit} {s t : State} (h : runCommand body s = .next t) :
    (∃ u, body s = .ok () u ∧ t = complete u) ∨
    (∃ code info u, body s = .error (.raised code info) u ∧ t = raiseError code info u) := by
  unfold runCommand at h
  split at h
  · next u hu => cases h; exact .inl ⟨u, hu, rfl⟩
  · next c i u hu => cases h; exact .inr ⟨c, i, u, hu, rfl⟩
  · cases h

theorem runCommand_ok {body : Engine Unit} {s u : State} (h : body s = .ok () u) :
    runCommand body s = .next (complete u) := by unfold runCommand; rw [h]

theorem runCommand_raised {body : Engine Unit} {s u : State} {c : ErrCode} {i : Word}
    (h : body s = .error (.raised c i) u) : runCommand body s = .next (raiseError c i u) := by unfold runCommand; rw [h]

theorem runCommand_absent {body : Engine Unit} {s u : State} (h : body s = .error .absent u) :
    runCommand body s = .fault .absentMemory := by unfold runCommand; rw [h]

theorem runCommand_fault {body : Engine Unit} {s : State} {f : Fault} (h : runCommand body s = .fault f) :
    f = .absentMemory ∧ ∃ u, body s = .error .absent u := by
  unfold runCommand at h
  split at h
  · cases h
  · cases h
  · next u hu => cases h; exact ⟨rfl, u, hu⟩

theorem runCommand_ne_refused (body : Engine Unit) (s : State) (r : Refusal) : runCommand body s ≠ .refused r := by
  unfold runCommand; split <;> simp

/-- A piece whose every end satisfies `P` makes every next state of its command an end of such a state. -/
theorem runCommand_wp {body : Engine Unit} {s t : State} {P : State → Prop}
    (w : body.wp s (fun _ u => P u) (fun e u => e ≠ .absent → P u)) (h : runCommand body s = .next t) :
    ∃ u, P u ∧ (t = complete u ∨ ∃ code info, t = raiseError code info u) := by
  rcases runCommand_next h with ⟨u, hu, rfl⟩ | ⟨c, i, u, hu, rfl⟩
  · exact ⟨u, Engine.wp_ok w hu, .inl rfl⟩
  · exact ⟨u, Engine.wp_error w hu (by simp), .inr ⟨c, i, rfl⟩⟩

/-! ## Relations between the state before and after -/

/-- However the piece ends, `R` relates the state it began in and the state it ends in. -/
def Engine.Keeps (R : State → State → Prop) (x : Engine α) : Prop := ∀ s, x.wp s (fun _ t => R s t) (fun _ t => R s t)

section Keeps
variable {R : State → State → Prop}

theorem Engine.keeps_pure (refl : ∀ s, R s s) (a : α) : (pure a : Engine α).Keeps R := fun s => refl s
theorem Engine.keeps_get (refl : ∀ s, R s s) : (get : Engine State).Keeps R := fun s => refl s
theorem keeps_raise (refl : ∀ s, R s s) (c : ErrCode) (i : Word) : (raise c i : Engine α).Keeps R := fun s => refl s
theorem keeps_require (refl : ∀ s, R s s) (ok : Bool) (c : ErrCode) (i : Word) : (require ok c i).Keeps R :=
  fun s => (wp_require ok c i s _).2 ⟨fun _ => refl s, fun _ => refl s⟩
theorem keeps_memRead (refl : ∀ s, R s s) (a n : Nat) : (memRead a n).Keeps R :=
  fun s => (wp_memRead a n s _).2 ⟨fun _ => refl s, fun _ => refl s⟩
theorem keeps_memWrite (refl : ∀ s, R s s) (hw : ∀ s m, R s (s.setMem m)) (a : Nat) (bs : List Byte) :
    (memWrite a bs).Keeps R :=
  fun s => (wp_memWrite a bs s _).2 ⟨fun _ => hw s _, fun _ => refl s⟩
theorem keeps_modifyRegs {f : Regs → Regs} (h : ∀ s, R s (s.setRegs (f s.regs))) : (modifyRegs f).Keeps R := h

theorem Engine.keeps_bind (trans : ∀ s t u, R s t → R t u → R s u) {x : Engine α} {f : α → Engine β}
    (hx : x.Keeps R) (hf : ∀ a, (f a).Keeps R) : (x >>= f).Keeps R := by
  intro s
  rw [Engine.wp_bind]
  refine Engine.wp_mono (hx s) ?_ (fun _ _ h => h)
  intro a t h
  exact Engine.wp_mono (hf a t) (fun _ u hu => trans s t u h hu) (fun _ u hu => trans s t u h hu)

theorem Engine.keeps_ite {c : Prop} [Decidable c] {x y : Engine α} (hx : x.Keeps R) (hy : y.Keeps R) :
    (if c then x else y).Keeps R := by split <;> assumption

end Keeps

end Sys2Proof.Machine
end

