-- ==== Sys2Proof/Laws/Ops.lean ====
section
/-! SUPPORT. One law per shared check and operation of the commands: when it passes, and what it raises when it does not. -/

namespace Sys2Proof.Machine

variable {β : Type}

/-! ## Regions (R67 to R69) -/

theorem Region.overlaps_iff (r q : Region) :
    r.overlaps q = true ↔ ∃ a, r.contains a = true ∧ q.contains a = true := by
  simp only [Region.overlaps, Region.contains_iff, Bool.and_eq_true, decide_eq_true_eq]
  constructor
  · rintro ⟨⟨⟨h1, h2⟩, h3⟩, h4⟩
    exact ⟨max r.base q.base, by omega, by omega⟩
  · rintro ⟨a, h1, h2⟩
    omega

theorem Region.fits_iff (r : Region) : r.fits = true ↔ r.base + r.len ≤ 2 ^ 32 := by
  unfold Region.fits
  rw [decide_eq_true_iff]
  rfl

/-- Every used region fits, as the first of the two checks computes it. -/
def Regions.allFit (rs : Regions) : Bool := rs.reads.all Region.fits && rs.written.all Region.fits

/-- The written region overlaps no read region, as the second check computes it. -/
def Regions.apart (rs : Regions) : Bool := rs.written.all (fun w => rs.reads.all (fun r => !Region.overlaps w r))

theorem Regions.allFit_iff (rs : Regions) :
    rs.allFit = true ↔ ∀ r, (r ∈ rs.reads ∨ rs.written = some r) → r.base + r.len ≤ 2 ^ 32 := by
  cases hw : rs.written <;> simp [Regions.allFit, hw, Region.fits_iff, or_imp, forall_and]

theorem Regions.apart_iff (rs : Regions) :
    rs.apart = true ↔ ∀ w, rs.written = some w → ∀ r ∈ rs.reads, ∀ a, ¬ (w.contains a = true ∧ r.contains a = true) := by
  have key : ∀ w r : Region, Region.overlaps w r = false ↔ ∀ a, ¬ (w.contains a = true ∧ r.contains a = true) := by
    intro w r
    rw [← Bool.not_eq_true, Region.overlaps_iff, not_exists]
  cases hw : rs.written <;> simp [Regions.apart, hw, key]

theorem State.regionsLegal_iff (s : State) (i : Instr) :
    s.regionsLegal i ↔ (regionsOf s.regs i).allFit = true ∧ (regionsOf s.regs i).apart = true := by
  rw [Regions.allFit_iff, Regions.apart_iff]
  unfold State.regionsLegal
  simp only [Option.mem_def, or_imp, forall_and]
  tauto

/-- R182 steps 4 and 5, in their order. -/
theorem checkRegions_apply (i : Instr) (s : State) :
    checkRegions i s =
      if (regionsOf s.regs i).allFit = true then
        if (regionsOf s.regs i).apart = true then .ok () s else .error (.raised .badArgument 3) s
      else .error (.raised .badArgument 2) s := by
  unfold checkRegions checkFits checkOverlap
  rw [Engine.get_bind, require_bind, require_apply]
  rfl

theorem checkRegions_ok {i : Instr} {s : State} (h : s.regionsLegal i) : checkRegions i s = .ok () s := by
  rw [State.regionsLegal_iff] at h
  rw [checkRegions_apply, if_pos h.1, if_pos h.2]

/-- R182 step 4: a region that does not fit the address space. -/
theorem checkRegions_unfit {i : Instr} {s : State}
    (h : ∃ r, (r ∈ (regionsOf s.regs i).reads ∨ (regionsOf s.regs i).written = some r) ∧ 2 ^ 32 < r.base + r.len) :
    checkRegions i s = .error (.raised .badArgument 2) s := by
  rw [checkRegions_apply, if_neg]
  rw [Regions.allFit_iff]
  obtain ⟨r, hr, hl⟩ := h
  exact fun hf => absurd (hf r hr) (by omega)

/-- R182 step 5: a written region that overlaps a read region. -/
theorem checkRegions_overlap {i : Instr} {s : State}
    (hf : ∀ r, (r ∈ (regionsOf s.regs i).reads ∨ (regionsOf s.regs i).written = some r) → r.base + r.len ≤ 2 ^ 32)
    (h : ∃ w r a, (regionsOf s.regs i).written = some w ∧ r ∈ (regionsOf s.regs i).reads ∧
      w.contains a = true ∧ r.contains a = true) :
    checkRegions i s = .error (.raised .badArgument 3) s := by
  rw [checkRegions_apply, if_pos, if_neg]
  · rw [Regions.apart_iff]
    obtain ⟨w, r, a, hw, hr, h1, h2⟩ := h
    exact fun hap => hap w hw r hr a ⟨h1, h2⟩
  · rw [Regions.allFit_iff]
    exact hf

/-- However the check of the regions ends, it changes nothing, and it lets only legal regions pass. -/
theorem wp_checkRegions (i : Instr) (s : State) (Q : Unit → State → Prop) (E : Stop → State → Prop)
    (hQ : s.regionsLegal i → Q () s) (hE : ∀ info, E (.raised .badArgument info) s) : (checkRegions i).wp s Q E := by
  unfold Engine.wp
  rw [checkRegions_apply]
  by_cases h1 : (regionsOf s.regs i).allFit = true
  · by_cases h2 : (regionsOf s.regs i).apart = true
    · simpa [h1, h2] using hQ ((State.regionsLegal_iff s i).2 ⟨h1, h2⟩)
    · simpa [h1, h2] using hE 3
  · simpa [h1] using hE 2

/-- Where the platform holds a command's regions, it holds every stretch inside one of them. -/
theorem State.holdsAll_of_regions {s : State} {i : Instr} (h : s.holdsRegionsOf i) {r : Region}
    (hr : r ∈ (regionsOf s.regs i).reads ∨ (regionsOf s.regs i).written = some r) {a n : Nat}
    (h1 : r.base ≤ a) (h2 : a + n ≤ r.base + r.len) : s.platform.holdsAll a n = true := by
  refine Platform.holdsAll_of_region (r := r) ?_ h1 h2
  intro b hb
  refine h b ?_
  unfold Regions.contains
  rcases hr with hr | hr
  · rw [List.any_eq_true.2 ⟨r, hr, hb⟩, Bool.true_or]
  · rw [hr]; simp [hb]

/-- Regions that fit lie in present memory on a platform whose memory covers the address space. -/
theorem State.holdsRegionsOf_of_fit {s : State} {i : Instr} (hp : s.platform.present = [⟨0, 2 ^ 32⟩])
    (h : (regionsOf s.regs i).allFit = true) : s.holdsRegionsOf i := by
  rw [Regions.allFit_iff] at h
  intro a ha
  have key : ∀ r : Region, (r ∈ (regionsOf s.regs i).reads ∨ (regionsOf s.regs i).written = some r) →
      r.contains a = true → s.platform.holds a = true := by
    intro r hr hc
    have h1 := h r hr
    rw [Region.contains_iff] at hc
    have hlt : a < 4294967296 := by omega
    simp [Platform.holds, hp, Region.contains, addressSpace, hlt]
  unfold Regions.contains at ha
  rw [Bool.or_eq_true, List.any_eq_true] at ha
  rcases ha with ⟨r, hr, hc⟩ | hw
  · exact key r (.inl hr) hc
  · cases hx : (regionsOf s.regs i).written with
    | none => rw [hx] at hw; cases hw
    | some w => rw [hx] at hw; exact key w (.inr hx) (by simpa using hw)

/-- A stretch that is not all present names an absent address of the region it lies in. -/
theorem State.absent_in_regions {s : State} {i : Instr} {r : Region}
    (hr : r ∈ (regionsOf s.regs i).reads ∨ (regionsOf s.regs i).written = some r) {a n : Nat}
    (h1 : r.base ≤ a) (h2 : a + n ≤ r.base + r.len) (h : s.platform.holdsAll a n = false) :
    ∃ b, (regionsOf s.regs i).contains b = true ∧ s.platform.holds b = false := by
  by_contra hc
  simp only [not_exists, not_and, Bool.not_eq_false] at hc
  rw [State.holdsAll_of_regions hc hr h1 h2] at h
  cases h

/-! ## The other checks -/

theorem checkGate_apply (s : State) :
    checkGate s = if s.regs.ctrl.profGate && !s.regs.status.profValid then .error (.raised .noProfile 0) s else .ok () s := by
  unfold checkGate
  rw [Engine.get_bind, require_apply]
  cases s.regs.ctrl.profGate && !s.regs.status.profValid <;> rfl

theorem checkGate_ok {s : State} (h : s.gateOpen) : checkGate s = .ok () s := by
  rw [checkGate_apply, if_neg]
  rcases h with h | h <;> simp [h]

theorem checkGate_raised {s : State} (h : ¬ s.gateOpen) : checkGate s = .error (.raised .noProfile 0) s := by
  rw [checkGate_apply, if_pos]
  simpa [State.gateOpen] using h

theorem checkWidth_apply (s : State) :
    checkWidth s = if s.regs.imgWidth ≠ 0 then .ok () s else .error (.raised .badArgument 1) s := by
  unfold checkWidth
  rw [Engine.get_bind, require_apply]
  simp

theorem checkDimensions_apply (s : State) :
    checkDimensions s =
      if s.regs.imgWidth ≠ 0 ∧ s.regs.imgHeight ≠ 0 then .ok () s else .error (.raised .badArgument 1) s := by
  unfold checkDimensions
  rw [Engine.get_bind, require_apply]
  simp

theorem checkCursor_apply (s : State) :
    checkCursor s = if s.regs.parseOff.toNat ≤ s.regs.srcLen.toNat then .ok () s else .error (.raised .badArgument 4) s := by
  unfold checkCursor
  rw [Engine.get_bind, require_apply]
  simp

theorem checkStream_apply (s : State) :
    checkStream s = if 8 ≤ s.regs.srcLen.toNat then .ok () s else .error (.raised .badArgument 4) s := by
  unfold checkStream
  rw [Engine.get_bind, require_apply]
  simp

theorem checkLength_apply (have_ need : Nat) (s : State) :
    checkLength have_ need s = if have_ = need then .ok () s else .error (.raised .payloadSize (clamp32 need)) s := by
  unfold checkLength
  rw [require_apply]
  simp

theorem checkCapacity_apply (have_ need : Nat) (s : State) :
    checkCapacity have_ need s = if need ≤ have_ then .ok () s else .error (.raised .capacity (clamp32 need)) s := by
  unfold checkCapacity
  rw [require_apply]
  simp

/-! ## Operand fields (R82, R85, R89) -/

theorem FilterType.ofCode_isSome (n : Nat) : (FilterType.ofCode n).isSome = true ↔ n ≤ 4 := by
  unfold FilterType.ofCode
  split_ifs <;> simp <;> omega

theorem filterOperand_apply (ft : BitVec 3) (s : State) :
    filterOperand ft s = match FilterType.ofCode ft.toNat with
      | some f => .ok f s
      | Option.none => .error (.raised .illegalCommand s.regs.cmd) s := by
  unfold filterOperand
  rw [Engine.get_bind]
  cases FilterType.ofCode ft.toNat <;> rfl

theorem filterOperand_ok {ft : BitVec 3} {f : FilterType} (h : FilterType.ofCode ft.toNat = some f) (s : State) :
    filterOperand ft s = .ok f s := by rw [filterOperand_apply, h]

theorem channelOperand_apply (ch : BitVec 2) (s : State) :
    channelOperand ch s = if ch.toNat ≤ 2 then .ok ch.toNat s else .error (.raised .illegalCommand s.regs.cmd) s := by
  unfold channelOperand
  rw [Engine.get_bind]
  split <;> rfl

end Sys2Proof.Machine
end

