-- ==== Sys2Proof/Laws/ChunkStream.lean ====
section
/-! SUPPORT. The laws of the parser's pieces: reading a chunk, recording a mismatch, accepting a chunk, one ParseStep. -/

namespace Sys2Proof.Machine

variable {β : Type}

theorem be32_congr {bs cs : List Byte} (h : ∀ i, i < 4 → bs.getD i 0 = cs.getD i 0) : be32 bs 0 = be32 cs 0 := by
  simp only [be32, Nat.zero_add, h 0 (by omega), h 1 (by omega), h 2 (by omega), h 3 (by omega)]

theorem be32_lt (bs : List Byte) (i : Nat) : be32 bs i < 2 ^ 32 := BitVec.isLt _

/-- R14's own formula for a big-endian number. -/
theorem be32_eq (bs : List Byte) (i : Nat) : be32 bs i =
    (bs.getD i 0).toNat * 2 ^ 24 + (bs.getD (i + 1) 0).toNat * 2 ^ 16 + (bs.getD (i + 2) 0).toNat * 2 ^ 8
      + (bs.getD (i + 3) 0).toNat := by
  unfold be32
  have h1 := (bs.getD (i + 1) 0).isLt
  have h2 := (bs.getD (i + 2) 0).isLt
  have h3 := (bs.getD (i + 3) 0).isLt
  generalize bs.getD i 0 = a at *
  generalize bs.getD (i + 1) 0 = b at *
  generalize bs.getD (i + 2) 0 = c at *
  generalize bs.getD (i + 3) 0 = d at *
  simp only [BitVec.toNat_append]
  rw [← Nat.shiftLeft_add_eq_or_of_lt h1, ← Nat.shiftLeft_add_eq_or_of_lt h2, ← Nat.shiftLeft_add_eq_or_of_lt h3]
  simp only [Nat.shiftLeft_eq]
  omega

theorem be32_readN_prefix (m : Memory) (a : Nat) {n : Nat} (h : 4 ≤ n) :
    be32 (m.readN a n) 0 = be32 (m.readN a 4) 0 := by
  refine be32_congr ?_
  intro i hi
  rw [Memory.readN_getD m a n (by omega), Memory.readN_getD m a 4 hi]

@[simp] theorem chunkAt_len (c : CrcChoice) (m : Memory) (base off : Nat) :
    (chunkAt c m base off).len = be32 (m.readN (base + off) 4) 0 := rfl
@[simp] theorem chunkAt_typ (c : CrcChoice) (m : Memory) (base off : Nat) :
    (chunkAt c m base off).typ = m.readN (base + off + 4) 4 := rfl
@[simp] theorem chunkAt_data (c : CrcChoice) (m : Memory) (base off : Nat) :
    (chunkAt c m base off).data = m.readN (base + off + 8) (be32 (m.readN (base + off) 4) 0) := rfl

theorem chunkAt_data_length (c : CrcChoice) (m : Memory) (base off : Nat) :
    (chunkAt c m base off).data.length = (chunkAt c m base off).len := by simp

/-- R100: what reading the chunk at `off` answers, case by case. -/
theorem readChunk_apply (off : Nat) (s : State) (k : Chunk)
    (hk : k = chunkAt s.platform.crc s.mem s.regs.srcAddr.toNat off) :
    readChunk off s =
      if 12 ≤ s.regs.srcLen.toNat - off then
        if s.platform.holdsAll (s.regs.srcAddr.toNat + off) 8 = true then
          if 12 + k.len ≤ s.regs.srcLen.toNat - off then
            if s.platform.holdsAll (s.regs.srcAddr.toNat + off + 8) k.len = true then
              if s.platform.holdsAll (s.regs.srcAddr.toNat + off + 8 + k.len) 4 = true then
                .ok k (s.setRegs (s.regs.setDescriptor off k.len k.typ (storedCrcAt s.mem s.regs.srcAddr.toNat off)))
              else .error .absent s
            else .error .absent s
          else .error (.raised .streamTruncated (BitVec.ofNat 32 off)) s
        else .error .absent s
      else .error (.raised .streamTruncated (BitVec.ofNat 32 off)) s := by
  subst hk
  unfold readChunk
  simp only [Engine.get_bind, require_bind, memRead_bind, modifyRegs_bind, Engine.pure_apply,
    be32_readN_prefix _ _ (show 4 ≤ 8 by omega), Memory.readN_drop, decide_eq_true_eq]
  rfl

/-- R100: a whole chunk in present memory is read, and only the descriptor changes. -/
theorem readChunk_ok {off : Nat} {s : State} {k : Chunk}
    (hk : k = chunkAt s.platform.crc s.mem s.regs.srcAddr.toNat off)
    (hlen : off + 12 + k.len ≤ s.regs.srcLen.toNat)
    (hold : s.platform.holdsAll (s.regs.srcAddr.toNat + off) (12 + k.len) = true) :
    readChunk off s =
      .ok k (s.setRegs (s.regs.setDescriptor off k.len k.typ (storedCrcAt s.mem s.regs.srcAddr.toNat off))) := by
  rw [Platform.holdsAll_iff] at hold
  rw [readChunk_apply off s k hk, if_pos (by omega), if_pos, if_pos (by omega), if_pos, if_pos]
  · rw [Platform.holdsAll_iff]; intro i hi; simpa [Nat.add_assoc] using hold (8 + (k.len + i)) (by omega)
  · rw [Platform.holdsAll_iff]; intro i hi; simpa [Nat.add_assoc] using hold (8 + i) (by omega)
  · rw [Platform.holdsAll_iff]; intro i hi; exact hold i (by omega)

/-- R100: a chunk that does not lie whole inside the stream is STREAM_TRUNCATED at its offset. -/
theorem readChunk_truncated {off : Nat} {s : State} {k : Chunk}
    (hk : k = chunkAt s.platform.crc s.mem s.regs.srcAddr.toNat off)
    (hlen : s.regs.srcLen.toNat - off < 12 ∨ s.regs.srcLen.toNat - off < 12 + k.len)
    (hold : 12 ≤ s.regs.srcLen.toNat - off → s.platform.holdsAll (s.regs.srcAddr.toNat + off) 8 = true) :
    readChunk off s = .error (.raised .streamTruncated (BitVec.ofNat 32 off)) s := by
  rw [readChunk_apply off s k hk]
  by_cases h : 12 ≤ s.regs.srcLen.toNat - off
  · rw [if_pos h, if_pos (hold h), if_neg (by omega)]
  · rw [if_neg h]

/-- R102: what a CRC mismatch does under each policy. -/
theorem onMismatch_apply (typ : List Byte) (s : State) :
    onMismatch typ s =
      if s.regs.ctrl.crcSkip = true then .ok () (s.setRegs (s.regs.recordMismatch typ))
      else .error (.raised .corruptedChunk (packType typ)) (s.setRegs (s.regs.recordMismatch typ)) := by
  unfold onMismatch
  rw [modifyRegs_bind, Engine.get_bind, require_apply]
  rfl

theorem advanceCursor_apply (off len : Nat) (s : State) :
    advanceCursor off len s = .ok () (s.setRegs (s.regs.setCursor (off + 12 + len))) := rfl

/-- R105: an IDAT's data put behind the payload, when it fits and memory is there. -/
theorem appendPayload_apply (c : Chunk) (s : State) :
    appendPayload c s =
      if s.regs.idatLen.toNat + c.len ≤ s.regs.dstLen.toNat then
        if s.platform.holdsAll (s.regs.dstAddr.toNat + s.regs.idatLen.toNat) c.data.length = true then
          .ok () ((s.setMem (s.mem.writeN (s.regs.dstAddr.toNat + s.regs.idatLen.toNat) c.data)).setRegs
            (s.regs.setPayloadLen (s.regs.idatLen.toNat + c.len)))
        else .error .absent s
      else .error (.raised .capacity (clamp32 (s.regs.idatLen.toNat + c.len))) s := by
  unfold appendPayload
  simp only [Engine.get_bind]
  rw [Engine.bind_apply, checkCapacity_apply]
  by_cases h : s.regs.idatLen.toNat + c.len ≤ s.regs.dstLen.toNat
  · simp only [if_pos h, memWrite_bind]; rfl
  · simp only [if_neg h]

theorem typeIDAT_ne_typeIEND : typeIDAT ≠ typeIEND := by decide

/-- R105, R106: a good chunk that is no IDAT is counted and stepped over; an IEND ends the sequence. -/
theorem acceptChunk_other {off : Nat} {c : Chunk} (h : c.typ ≠ typeIDAT) (s : State) :
    acceptChunk off c s = .ok () (s.setRegs
      (if c.typ = typeIEND then (s.regs.countChunk.setCursor (off + 12 + c.len)).setIend
        else s.regs.countChunk.setCursor (off + 12 + c.len))) := by
  unfold acceptChunk
  rw [Engine.bind_ok (onlyIf_false (by simpa using h) _ _), modifyRegs_bind, Engine.bind_ok (advanceCursor_apply _ _ _)]
  by_cases hi : c.typ = typeIEND
  · rw [onlyIf_true (by simpa using hi), if_pos hi]; rfl
  · rw [onlyIf_false (by simpa using hi), if_neg hi]; rfl

/-- R105: a good IDAT that fits is collected, counted and stepped over. -/
theorem acceptChunk_idat {off : Nat} {c : Chunk} {s : State} (h : c.typ = typeIDAT)
    (fit : s.regs.idatLen.toNat + c.len ≤ s.regs.dstLen.toNat)
    (hold : s.platform.holdsAll (s.regs.dstAddr.toNat + s.regs.idatLen.toNat) c.data.length = true) :
    acceptChunk off c s =
      .ok () ((s.setMem (s.mem.writeN (s.regs.dstAddr.toNat + s.regs.idatLen.toNat) c.data)).setRegs
        ((s.regs.setPayloadLen (s.regs.idatLen.toNat + c.len)).countChunk.setCursor (off + 12 + c.len))) := by
  have hi : c.typ ≠ typeIEND := by rw [h]; exact typeIDAT_ne_typeIEND
  unfold acceptChunk
  have ha := appendPayload_apply c s
  rw [if_pos fit, if_pos hold] at ha
  rw [Engine.bind_apply, onlyIf_true (by simpa using h), ha]
  simp only [modifyRegs_bind]
  rw [Engine.bind_ok (advanceCursor_apply _ _ _), onlyIf_false (by simpa using hi)]
  rfl

/-- R105: at the end of the stream a ParseStep sets EXHAUSTED and reads nothing. -/
theorem parseStep_atEnd {s : State} (h : s.regs.parseOff.toNat = s.regs.srcLen.toNat) :
    parseStep s = .ok () (s.setRegs s.regs.setExhausted) := by
  unfold parseStep
  rw [Engine.get_bind, if_pos h, modifyRegs_apply]

theorem parseStep_inside {s : State} (h : s.regs.parseOff.toNat ≠ s.regs.srcLen.toNat) :
    parseStep s = (readChunk s.regs.parseOff.toNat >>= handleChunk s.regs.parseOff.toNat) s := by
  unfold parseStep
  rw [Engine.get_bind, if_neg h]

theorem parserChecks_ok {s : State} {i : Instr} (hl : s.regionsLegal i)
    (hc : s.regs.parseOff.toNat ≤ s.regs.srcLen.toNat) : parserChecks i s = .ok () s := by
  unfold parserChecks
  rw [Engine.bind_ok (checkRegions_ok hl), checkCursor_apply, if_pos hc]

end Sys2Proof.Machine
end

