-- ==== Sys2Proof/Laws/Frames.lean ====
section
/-! SUPPORT. What the pieces of every command may touch: memory in the command's written region only, never the launch's
parameters, never the region registers; and they get stuck only at an absent address of the command's own regions. -/

namespace Sys2Proof.Machine

variable {α β : Type}

/-- From `s` to `t` a piece of command `i` has changed memory only in the command's written region, and neither the launch's parameters nor the regions. -/
structure Near (i : Instr) (s t : State) : Prop where
  platform : t.platform = s.platform
  program : t.program = s.program
  src : t.regs.src = s.regs.src
  dst : t.regs.dst = s.regs.dst
  aux : t.regs.aux = s.regs.aux
  outside : ∀ a, (∀ r, (regionsOf s.regs i).written = some r → r.contains a = false) → t.mem.read a = s.mem.read a

theorem regionsOf_congr {r q : Regs} (h1 : q.src = r.src) (h2 : q.dst = r.dst) (h3 : q.aux = r.aux) (i : Instr) :
    regionsOf q i = regionsOf r i := by
  cases i <;> simp [regionsOf, h1, h2, h3]

theorem Near.regions {i : Instr} {s t : State} (h : Near i s t) : regionsOf t.regs i = regionsOf s.regs i :=
  regionsOf_congr h.src h.dst h.aux i

theorem Near.refl (i : Instr) (s : State) : Near i s s := ⟨rfl, rfl, rfl, rfl, rfl, fun _ _ => rfl⟩

theorem Near.trans {i : Instr} {s t u : State} (h1 : Near i s t) (h2 : Near i t u) : Near i s u where
  platform := h2.platform.trans h1.platform
  program := h2.program.trans h1.program
  src := h2.src.trans h1.src
  dst := h2.dst.trans h1.dst
  aux := h2.aux.trans h1.aux
  outside a ha := (h2.outside a (by rw [h1.regions]; exact ha)).trans (h1.outside a ha)

theorem Near.setRegs (i : Instr) (s : State) {r : Regs} (h1 : r.src = s.regs.src) (h2 : r.dst = s.regs.dst)
    (h3 : r.aux = s.regs.aux) : Near i s (s.setRegs r) := ⟨rfl, rfl, h1, h2, h3, fun _ _ => rfl⟩

/-- A write inside the written region. -/
theorem Near.write {i : Instr} {s : State} {w : Region} (hw : (regionsOf s.regs i).written = some w) {a : Nat}
    {bs : List Byte} (h1 : w.base ≤ a) (h2 : a + bs.length ≤ w.base + w.len) :
    Near i s (s.setMem (s.mem.writeN a bs)) where
  platform := rfl
  program := rfl
  src := rfl
  dst := rfl
  aux := rfl
  outside b hb := by
    have h := hb w hw
    refine Memory.read_writeN_outside _ _ _ ?_
    by_contra hc
    have := (Region.contains_iff w b).2 ⟨by omega, by omega⟩
    rw [h] at this
    cases this

/-- The command names an address of its own regions that holds no memory. -/
def State.Absent (s : State) (i : Instr) : Prop := ∃ a, (regionsOf s.regs i).contains a = true ∧ s.platform.holds a = false

theorem Near.absent {i : Instr} {s t : State} (h : Near i s t) (ha : t.Absent i) : s.Absent i := by
  obtain ⟨a, h1, h2⟩ := ha
  exact ⟨a, by rw [← h.regions]; exact h1, by rw [← h.platform]; exact h2⟩

/-- The piece stays near where it began, and gets stuck only at an absent address of the regions. -/
def Engine.SafeAt (i : Instr) (x : Engine α) (s : State) : Prop :=
  x.wp s (fun _ t => Near i s t) (fun e t => Near i s t ∧ (e = .absent → s.Absent i))

/-- `SafeAt` at every state. -/
def Engine.Safe (i : Instr) (x : Engine α) : Prop := ∀ s, x.SafeAt i s

theorem Engine.safeAt_bind {i : Instr} {x : Engine α} {f : α → Engine β} {s : State} (hx : x.SafeAt i s)
    (hf : ∀ a t, x s = .ok a t → (f a).SafeAt i t) : (x >>= f).SafeAt i s := by
  unfold Engine.SafeAt Engine.wp at *
  rw [Engine.bind_apply]
  cases hr : x s with
  | ok a t =>
    rw [hr] at hx
    have h := hf a t hr
    revert h
    dsimp only
    cases f a t with
    | ok b u => exact fun h => hx.trans h
    | error e u => exact fun h => ⟨hx.trans h.1, fun he => hx.absent (h.2 he)⟩
  | error e t => rw [hr] at hx; exact hx

theorem Engine.safe_bind {i : Instr} {x : Engine α} {f : α → Engine β} (hx : x.Safe i) (hf : ∀ a, (f a).Safe i) :
    (x >>= f).Safe i := fun s => Engine.safeAt_bind (hx s) (fun a t _ => hf a t)

theorem Engine.safe_pure (i : Instr) (a : α) : (pure a : Engine α).Safe i := fun s => Near.refl i s
theorem Engine.safe_get (i : Instr) : (get : Engine State).Safe i := fun s => Near.refl i s
theorem safe_raise (i : Instr) (c : ErrCode) (info : Word) : (raise c info : Engine α).Safe i :=
  fun s => ⟨Near.refl i s, fun h => by cases h⟩

theorem safe_require (i : Instr) (ok : Bool) (c : ErrCode) (info : Word) : (require ok c info).Safe i := by
  intro s
  unfold Engine.SafeAt
  rw [wp_require]
  exact ⟨fun _ => Near.refl i s, fun _ => ⟨Near.refl i s, fun h => by cases h⟩⟩

theorem safe_modifyRegs (i : Instr) {f : Regs → Regs} (h1 : ∀ r, (f r).src = r.src) (h2 : ∀ r, (f r).dst = r.dst)
    (h3 : ∀ r, (f r).aux = r.aux) : (modifyRegs f).Safe i :=
  fun s => Near.setRegs i s (h1 _) (h2 _) (h3 _)

theorem safe_onlyIf {i : Instr} {x : Engine Unit} (h : x.Safe i) (c : Bool) : (onlyIf c x).Safe i := by
  cases c
  · exact Engine.safe_pure i ()
  · exact h

theorem Engine.safe_ite {i : Instr} {c : Prop} [Decidable c] {x y : Engine α} (hx : x.Safe i) (hy : y.Safe i) :
    (if c then x else y).Safe i := by split <;> assumption

theorem Engine.safe_get_bind {i : Instr} {f : State → Engine β} (h : ∀ s, (f s).SafeAt i s) :
    ((get : Engine State) >>= f).Safe i := fun s => h s

/-- A read inside one of the command's regions. -/
theorem safeAt_memRead {i : Instr} {s : State} {r : Region}
    (hr : r ∈ (regionsOf s.regs i).reads ∨ (regionsOf s.regs i).written = some r) {a n : Nat} (h1 : r.base ≤ a)
    (h2 : a + n ≤ r.base + r.len) : (memRead a n).SafeAt i s := by
  unfold Engine.SafeAt
  rw [wp_memRead]
  exact ⟨fun _ => Near.refl i s, fun h => ⟨Near.refl i s, fun _ => State.absent_in_regions hr h1 h2 h⟩⟩

/-- A write inside the command's written region. -/
theorem safeAt_memWrite {i : Instr} {s : State} {w : Region} (hw : (regionsOf s.regs i).written = some w) {a : Nat}
    {bs : List Byte} (h1 : w.base ≤ a) (h2 : a + bs.length ≤ w.base + w.len) : (memWrite a bs).SafeAt i s := by
  unfold Engine.SafeAt
  rw [wp_memWrite]
  exact ⟨fun _ => Near.write hw h1 h2, fun h => ⟨Near.refl i s, fun _ => State.absent_in_regions (.inr hw) h1 h2 h⟩⟩

/-- What holds on success of a check holds after it, at the same state. -/
theorem Engine.safeAt_check {i : Instr} {x : Engine Unit} {f : Unit → Engine β} {s : State} {P : Prop}
    (hx : (∃ e, x s = .error e s ∧ e ≠ .absent) ∨ x s = .ok () s ∧ P) (hf : P → (f ()).SafeAt i s) :
    (x >>= f).SafeAt i s := by
  rcases hx with ⟨e, he, hne⟩ | ⟨hok, hp⟩
  · unfold Engine.SafeAt Engine.wp
    rw [Engine.bind_error he]
    exact ⟨Near.refl i s, fun h => absurd h hne⟩
  · unfold Engine.SafeAt Engine.wp
    rw [Engine.bind_ok hok]
    exact hf hp

theorem checkRegions_cases (i : Instr) (s : State) :
    (∃ e, checkRegions i s = .error e s ∧ e ≠ .absent) ∨ checkRegions i s = .ok () s ∧ s.regionsLegal i := by
  rw [checkRegions_apply, State.regionsLegal_iff]
  split_ifs <;> simp [*]

theorem checkGate_cases (s : State) :
    (∃ e, checkGate s = .error e s ∧ e ≠ .absent) ∨ checkGate s = .ok () s ∧ True := by
  rw [checkGate_apply]; split <;> simp

theorem checkWidth_cases (s : State) :
    (∃ e, checkWidth s = .error e s ∧ e ≠ .absent) ∨ checkWidth s = .ok () s ∧ s.regs.imgWidth ≠ 0 := by
  rw [checkWidth_apply]
  by_cases h : s.regs.imgWidth ≠ 0
  · rw [if_pos h]; exact .inr ⟨rfl, h⟩
  · rw [if_neg h]; exact .inl ⟨_, rfl, by simp⟩

theorem checkDimensions_cases (s : State) :
    (∃ e, checkDimensions s = .error e s ∧ e ≠ .absent) ∨
      checkDimensions s = .ok () s ∧ s.regs.imgWidth ≠ 0 ∧ s.regs.imgHeight ≠ 0 := by
  rw [checkDimensions_apply]
  by_cases h : s.regs.imgWidth ≠ 0 ∧ s.regs.imgHeight ≠ 0
  · rw [if_pos h]; exact .inr ⟨rfl, h⟩
  · rw [if_neg h]; exact .inl ⟨_, rfl, by simp⟩

theorem checkCursor_cases (s : State) :
    (∃ e, checkCursor s = .error e s ∧ e ≠ .absent) ∨
      checkCursor s = .ok () s ∧ s.regs.parseOff.toNat ≤ s.regs.srcLen.toNat := by
  rw [checkCursor_apply]; split <;> simp [*]

theorem checkStream_cases (s : State) :
    (∃ e, checkStream s = .error e s ∧ e ≠ .absent) ∨ checkStream s = .ok () s ∧ 8 ≤ s.regs.srcLen.toNat := by
  rw [checkStream_apply]; split <;> simp [*]

theorem checkLength_cases (have_ need : Nat) (s : State) :
    (∃ e, checkLength have_ need s = .error e s ∧ e ≠ .absent) ∨ checkLength have_ need s = .ok () s ∧ have_ = need := by
  rw [checkLength_apply]; split <;> simp [*]

theorem checkCapacity_cases (have_ need : Nat) (s : State) :
    (∃ e, checkCapacity have_ need s = .error e s ∧ e ≠ .absent) ∨
      checkCapacity have_ need s = .ok () s ∧ need ≤ have_ := by
  rw [checkCapacity_apply]; split <;> simp [*]

/-! ## The chunk commands -/

/-- The commands that read a chunk stream in the SRC region. -/
def readsStream : Instr → Bool
  | .checkSig => true
  | .parseInit => false
  | .parseNext => true
  | .parseAll => true
  | .hdrCheck => true
  | .paeth => false
  | .reconByte _ => false
  | .filtByte _ => false
  | .reconRow _ => false
  | .filtRow _ _ => false
  | .decodeImage => false
  | .isolate _ => false
  | .assemble => true

theorem src_read {i : Instr} (h : readsStream i = true) (r : Regs) : r.src ∈ (regionsOf r i).reads := by
  cases i <;> simp_all [readsStream, regionsOf]

theorem safe_readChunk {i : Instr} (h : readsStream i = true) (off : Nat) : (readChunk off).Safe i := by
  intro s
  have abs : ∀ a n, ¬ s.platform.holdsAll a n = true → s.regs.srcAddr.toNat ≤ a →
      a + n ≤ s.regs.srcAddr.toNat + s.regs.srcLen.toNat → s.Absent i :=
    fun a n h3 h1 h2 => State.absent_in_regions (.inl (src_read h s.regs)) h1 h2 (by simpa using h3)
  unfold Engine.SafeAt Engine.wp
  rw [readChunk_apply off s _ rfl]
  split_ifs with h1 h2 h3 h4 h5
  · exact Near.setRegs i s rfl rfl rfl
  · exact ⟨Near.refl i s, fun _ => abs _ _ h5 (by omega) (by omega)⟩
  · exact ⟨Near.refl i s, fun _ => abs _ _ h4 (by omega) (by omega)⟩
  · exact ⟨Near.refl i s, fun h => by cases h⟩
  · exact ⟨Near.refl i s, fun _ => abs _ _ h2 (by omega) (by omega)⟩
  · exact ⟨Near.refl i s, fun h => by cases h⟩

theorem safe_onMismatch (i : Instr) (typ : List Byte) : (onMismatch typ).Safe i := by
  intro s
  unfold Engine.SafeAt Engine.wp
  rw [onMismatch_apply]
  split_ifs
  · exact Near.setRegs i s rfl rfl rfl
  · exact ⟨Near.setRegs i s rfl rfl rfl, fun h => by cases h⟩

theorem safe_advanceCursor (i : Instr) (off len : Nat) : (advanceCursor off len).Safe i :=
  safe_modifyRegs i (fun _ => rfl) (fun _ => rfl) (fun _ => rfl)

theorem safeAt_appendPayload {i : Instr} {c : Chunk} (hd : c.data.length = c.len)
    (hi : ∀ r : Regs, (regionsOf r i).written = some r.dst) : (appendPayload c).Safe i := by
  intro s
  unfold Engine.SafeAt Engine.wp
  rw [appendPayload_apply]
  split_ifs with h1 h2
  · exact (Near.write (hi s.regs) (show s.regs.dst.base ≤ _ by simp [Regs.dst]) (by simp [Regs.dst]; omega)).trans
      (Near.setRegs i _ rfl rfl rfl)
  · exact ⟨Near.refl i s, fun _ => State.absent_in_regions (.inr (hi s.regs))
      (a := s.regs.dstAddr.toNat + s.regs.idatLen.toNat) (n := c.data.length)
      (by simp [Regs.dst]) (by simp [Regs.dst]; omega) (by simpa using h2)⟩
  · exact ⟨Near.refl i s, fun h => by cases h⟩

theorem safe_handleChunk {i : Instr} {c : Chunk} (hd : c.data.length = c.len)
    (hi : ∀ r : Regs, (regionsOf r i).written = some r.dst) (off : Nat) : (handleChunk off c).Safe i := by
  unfold handleChunk
  refine Engine.safe_ite ?_ ?_
  · unfold acceptChunk
    refine Engine.safe_bind (safe_onlyIf (safeAt_appendPayload hd hi) _) fun _ => ?_
    refine Engine.safe_bind (safe_modifyRegs i (fun _ => rfl) (fun _ => rfl) (fun _ => rfl)) fun _ => ?_
    refine Engine.safe_bind (safe_advanceCursor i _ _) fun _ => ?_
    exact safe_onlyIf (safe_modifyRegs i (f := Regs.setIend) (fun _ => rfl) (fun _ => rfl) (fun _ => rfl)) _
  · exact Engine.safe_bind (safe_onMismatch i _) fun _ => safe_advanceCursor i _ _

/-- What ReadChunk returns carries as many data bytes as it declares. -/
theorem readChunk_data_length {off : Nat} {s t : State} {c : Chunk} (h : readChunk off s = .ok c t) :
    c.data.length = c.len := by
  rw [readChunk_apply off s _ rfl] at h
  split_ifs at h
  cases h
  exact chunkAt_data_length ..

theorem safe_parseStep {i : Instr} (h : readsStream i = true) (hi : ∀ r : Regs, (regionsOf r i).written = some r.dst) :
    parseStep.Safe i := by
  unfold parseStep
  refine Engine.safe_get_bind fun s => ?_
  split
  · exact safe_modifyRegs i (f := Regs.setExhausted) (fun _ => rfl) (fun _ => rfl) (fun _ => rfl) s
  · exact Engine.safeAt_bind (safe_readChunk h _ s)
      (fun c t hc => safe_handleChunk (readChunk_data_length hc) hi _ t)

theorem safe_parseLoop {i : Instr} (h : readsStream i = true) (hi : ∀ r : Regs, (regionsOf r i).written = some r.dst)
    (n : Nat) : (parseLoop n).Safe i := by
  induction n with
  | zero => exact Engine.safe_pure i ()
  | succ n ih =>
    refine Engine.safe_get_bind fun s => ?_
    split
    · exact Near.refl i s
    · exact Engine.safe_bind (safe_parseStep h hi) (fun _ => ih) s

theorem safe_checkRegions (i : Instr) : (checkRegions i).Safe i := by
  intro s
  exact wp_checkRegions i s _ _ (fun _ => Near.refl i s) (fun _ => ⟨Near.refl i s, fun h => by cases h⟩)

theorem safe_checkCursor (i : Instr) : checkCursor.Safe i :=
  Engine.safe_get_bind fun s => safe_require i _ _ _ s

theorem safe_checkStream (i : Instr) : checkStream.Safe i :=
  Engine.safe_get_bind fun s => safe_require i _ _ _ s

theorem safe_checkSigBody : checkSigBody.Safe .checkSig := by
  unfold checkSigBody
  refine Engine.safe_bind (safe_checkRegions _) fun _ => Engine.safe_get_bind fun s => ?_
  refine Engine.safeAt_bind (safeAt_memRead (r := s.regs.src) (.inl (src_read rfl _)) (Nat.le_refl _) ?_) ?_
  · simp only [Regs.src]; omega
  · intro bytes t _
    cases firstBadSignatureByte bytes with
    | none => exact Engine.safe_pure _ () t
    | some k => exact safe_raise _ _ _ t

theorem safe_parseNextBody : parseNextBody.Safe .parseNext := by
  unfold parseNextBody parserChecks
  refine Engine.safe_bind (Engine.safe_bind (safe_checkRegions _) fun _ => safe_checkCursor _) fun _ => ?_
  refine Engine.safe_get_bind fun s => ?_
  split
  · exact Near.refl _ s
  · exact safe_parseStep rfl (fun _ => rfl) s

theorem safe_parseAllBody : parseAllBody.Safe .parseAll := by
  unfold parseAllBody parserChecks
  refine Engine.safe_bind (Engine.safe_bind (safe_checkRegions _) fun _ => safe_checkCursor _) fun _ => ?_
  exact Engine.safe_get_bind fun s => safe_parseLoop rfl (fun _ => rfl) _ s

theorem safe_checkHeaderFields (i : Instr) (data : List Byte) : (checkHeaderFields data).Safe i := by
  unfold checkHeaderFields
  repeat' refine Engine.safe_bind (safe_require i _ _ _) fun _ => ?_
  exact safe_require i _ _ _

theorem safe_hdrCheckBody : hdrCheckBody.Safe .hdrCheck := by
  unfold hdrCheckBody
  refine Engine.safe_bind (safe_modifyRegs _ (fun _ => rfl) (fun _ => rfl) (fun _ => rfl)) fun _ => ?_
  refine Engine.safe_bind (safe_checkRegions _) fun _ => Engine.safe_bind (safe_checkStream _) fun _ => ?_
  refine Engine.safe_bind (Engine.safe_get _) fun s => Engine.safe_bind (safe_require _ _ _ _) fun _ => ?_
  refine Engine.safe_bind (safe_readChunk rfl _) fun c => Engine.safe_ite ?_ ?_
  · unfold acceptHeader
    refine Engine.safe_bind (safe_require _ _ _ _) fun _ => Engine.safe_bind (safe_require _ _ _ _) fun _ => ?_
    refine Engine.safe_bind (safe_modifyRegs _ (fun _ => rfl) (fun _ => rfl) (fun _ => rfl)) fun _ => ?_
    refine Engine.safe_bind (safe_checkHeaderFields _ _) fun _ => ?_
    exact safe_modifyRegs _ (fun _ => rfl) (fun _ => rfl) (fun _ => rfl)
  · exact Engine.safe_bind (safe_onMismatch _ _) fun _ => safe_raise _ _ _

/-! ## The row and image commands -/

theorem reconRowFrom_length (ft : FilterType) (prior : List Byte) (f : List Byte) :
    ∀ raw, (reconRowFrom ft prior raw f).length = raw.length + f.length := by
  induction f with
  | nil => intro raw; rfl
  | cons b bs ih => intro raw; rw [reconRowFrom, ih]; simp; omega

@[simp] theorem reconRow_length (ft : FilterType) (f prior : List Byte) : (reconRow ft f prior).length = f.length := by
  simp [reconRow, reconRowFrom_length]

@[simp] theorem filterRow_length (ft : FilterType) (raw prior : List Byte) :
    (filterRow ft raw prior).length = raw.length := by simp [filterRow]

@[simp] theorem isolateRecord_length (ch : Nat) (row : List Byte) : (isolateRecord ch row).length = 1 + row.length := by
  simp [isolateRecord]; omega

theorem safe_setOutLen (i : Instr) (n : Nat) : (setOutLen n).Safe i :=
  safe_modifyRegs i (fun _ => rfl) (fun _ => rfl) (fun _ => rfl)

theorem safe_filterOperand (i : Instr) (ft : BitVec 3) : (filterOperand ft).Safe i :=
  Engine.safe_get_bind fun s => by
    cases FilterType.ofCode ft.toNat with
    | none => exact safe_raise i _ _ s
    | some f => exact Engine.safe_pure i f s

theorem filterOperand_state {ft : BitVec 3} {f : FilterType} {s t : State} (h : filterOperand ft s = .ok f t) : t = s := by
  rw [filterOperand_apply] at h
  split at h
  · cases h; rfl
  · cases h

theorem channelOperand_cases {ch : BitVec 2} {k : Nat} {s t : State} (h : channelOperand ch s = .ok k t) :
    t = s ∧ k = ch.toNat ∧ ch.toNat ≤ 2 := by
  rw [channelOperand_apply] at h
  split at h
  · next hc => cases h; exact ⟨rfl, rfl, hc⟩
  · cases h

theorem safe_channelOperand (i : Instr) (ch : BitVec 2) : (channelOperand ch).Safe i :=
  Engine.safe_get_bind fun s => by
    split
    · exact Engine.safe_pure i _ s
    · exact safe_raise i _ _ s

/-- With FIRST = 1 nothing is checked; else AUX has the length of a row. -/
theorem checkAuxLength_cases (first : Bool) (n : Nat) (s : State) :
    (∃ e, checkAuxLength first n s = .error e s ∧ e ≠ .absent) ∨
      checkAuxLength first n s = .ok () s ∧ (first = false → s.regs.auxLen.toNat = n) := by
  unfold checkAuxLength
  rw [Engine.get_bind]
  cases first
  · rcases checkLength_cases s.regs.auxLen.toNat n s with h | ⟨h1, h2⟩
    · exact .inl h
    · exact .inr ⟨h1, fun _ => h2⟩
  · exact .inr ⟨rfl, fun h => by cases h⟩

/-- The AUX row is a read region of the command where it is read. -/
theorem safeAt_priorRow {i : Instr} {first : Bool} {n : Nat} {s : State}
    (hr : first = false → s.regs.aux ∈ (regionsOf s.regs i).reads) (hl : first = false → s.regs.auxLen.toNat = n) :
    (priorRow first n).SafeAt i s := by
  cases first
  · exact safeAt_memRead (r := s.regs.aux) (.inl (hr rfl)) (Nat.le_refl _) (by simp [Regs.aux, hl rfl])
  · exact Engine.safe_pure i _ s

theorem priorRow_state {first : Bool} {n : Nat} {s t : State} {p : List Byte} (h : priorRow first n s = .ok p t) :
    t = s := by
  unfold priorRow at h
  rw [Engine.get_bind] at h
  cases first
  · simp only [Bool.false_eq_true, if_false, memRead_apply] at h
    split at h
    · cases h; rfl
    · cases h
  · cases h; rfl

theorem memRead_cases {a n : Nat} {s t : State} {bs : List Byte} (h : memRead a n s = .ok bs t) :
    t = s ∧ bs = s.mem.readN a n := by
  rw [memRead_apply] at h
  split at h
  · cases h; exact ⟨rfl, rfl⟩
  · cases h

theorem safe_reconRowBody (first : Bool) : (reconRowBody first).Safe (.reconRow first) := by
  refine Engine.safe_get_bind fun s => ?_
  refine Engine.safeAt_check (checkGate_cases s) fun _ => ?_
  refine Engine.safeAt_check (checkWidth_cases s) fun _ => ?_
  refine Engine.safeAt_check (checkRegions_cases _ s) fun _ => ?_
  refine Engine.safeAt_check (checkLength_cases _ _ s) fun hs => ?_
  refine Engine.safeAt_check (checkAuxLength_cases first _ s) fun ha => ?_
  refine Engine.safeAt_check (checkCapacity_cases _ _ s) fun hd => ?_
  refine Engine.safeAt_bind (safeAt_memRead (r := s.regs.src) (.inl (by simp [regionsOf]; split <;> simp)) (Nat.le_refl _)
    (by simp [Regs.src, hs])) fun record t hr => ?_
  obtain ⟨rfl, hrec⟩ := memRead_cases hr
  split
  · exact safe_raise _ _ _ t
  · refine Engine.safeAt_bind (safeAt_priorRow (by rintro rfl; simp [regionsOf]) ha) fun prior u hp => ?_
    cases priorRow_state hp
    refine Engine.safeAt_bind (safeAt_memWrite (w := t.regs.dst) rfl (Nat.le_refl _) ?_) fun _ u _ => safe_setOutLen _ _ u
    simp [Regs.dst, hrec]; omega

theorem safe_filtRowBody (ft : BitVec 3) (first : Bool) : (filtRowBody ft first).Safe (.filtRow ft first) := by
  refine Engine.safe_bind (safe_filterOperand _ _) fun f => Engine.safe_get_bind fun s => ?_
  refine Engine.safeAt_check (checkGate_cases s) fun _ => ?_
  refine Engine.safeAt_check (checkWidth_cases s) fun _ => ?_
  refine Engine.safeAt_check (checkRegions_cases _ s) fun _ => ?_
  refine Engine.safeAt_check (checkLength_cases _ _ s) fun hs => ?_
  refine Engine.safeAt_check (checkAuxLength_cases first _ s) fun ha => ?_
  refine Engine.safeAt_check (checkCapacity_cases _ _ s) fun hd => ?_
  refine Engine.safeAt_bind (safeAt_memRead (r := s.regs.src) (.inl (by simp [regionsOf]; split <;> simp)) (Nat.le_refl _)
    (by simp [Regs.src, hs])) fun raw t hr => ?_
  obtain ⟨rfl, hraw⟩ := memRead_cases hr
  refine Engine.safeAt_bind (safeAt_priorRow (by rintro rfl; simp [regionsOf]) ha) fun prior u hp => ?_
  cases priorRow_state hp
  refine Engine.safeAt_bind (safeAt_memWrite (w := t.regs.dst) rfl (Nat.le_refl _) ?_) fun _ u _ => safe_setOutLen _ _ u
  simp [Regs.dst, hraw]; omega

/-- The geometry and the regions an image command works with; its rows change OUT_LEN and memory only. -/
structure SameImage (s t : State) : Prop where
  src : t.regs.src = s.regs.src
  dst : t.regs.dst = s.regs.dst
  width : t.regs.imgWidth = s.regs.imgWidth

theorem SameImage.refl (s : State) : SameImage s s := ⟨rfl, rfl, rfl⟩

theorem row_below {h n y count : Nat} (hy : y + (count + 1) ≤ h) : y * n + n ≤ h * n := by
  calc y * n + n = (y + 1) * n := by rw [Nat.succ_mul]
    _ ≤ h * n := Nat.mul_le_mul_right n (by omega)

theorem memWrite_state {a : Nat} {bs : List Byte} {s t : State} (h : memWrite a bs s = .ok () t) :
    t = s.setMem (s.mem.writeN a bs) := by
  rw [memWrite_apply] at h
  split at h
  · cases h; rfl
  · cases h

/-- One row of DECODE_IMAGE inside its regions. -/
theorem safeAt_decodeImageRow {y h : Nat} {s : State} (hy : y + 1 ≤ h) (hs : h * s.regs.stride ≤ s.regs.srcLen.toNat)
    (hd : h * s.regs.rowLen ≤ s.regs.dstLen.toNat) : (decodeImageRow y).SafeAt .decodeImage s := by
  have b1 := row_below (n := s.regs.stride) (h := h) (y := y) (count := 0) (by omega)
  have b2 := row_below (n := s.regs.rowLen) (h := h) (y := y) (count := 0) (by omega)
  have hl : s.regs.stride = 1 + s.regs.rowLen := rfl
  unfold decodeImageRow
  refine (Engine.safeAt_bind (x := (get : Engine State)) (Near.refl _ s) fun a t ht => ?_)
  cases ht
  refine Engine.safeAt_bind (safeAt_memRead (r := s.regs.src) (.inl (by simp [regionsOf])) ?_ ?_) fun record t hr => ?_
  · simp [Regs.src]
  · simp only [Regs.src]; omega
  obtain ⟨rfl, hrec⟩ := memRead_cases hr
  split
  · exact safe_raise _ _ _ t
  · have hprior : (gridPriorRow y).SafeAt .decodeImage t := by
      refine (Engine.safeAt_bind (x := (get : Engine State)) (Near.refl _ t) fun a u hu => ?_)
      cases hu
      split
      · exact Engine.safe_pure _ _ t
      · refine safeAt_memRead (r := t.regs.dst) (.inr (by simp [regionsOf])) (by simp [Regs.dst]) ?_
        have b3 := row_below (n := t.regs.rowLen) (h := h) (y := y - 1) (count := 0) (by omega)
        simp only [Regs.dst]; omega
    refine Engine.safeAt_bind hprior fun prior u hp => ?_
    have hu : u = t := by
      unfold gridPriorRow at hp
      rw [Engine.get_bind] at hp
      split at hp
      · cases hp; rfl
      · exact (memRead_cases hp).1
    subst hu
    refine Engine.safeAt_bind (safeAt_memWrite (w := u.regs.dst) rfl (by simp [Regs.dst]) ?_) fun _ v _ => safe_setOutLen _ _ v
    simp [Regs.dst, hrec, hl]; omega

theorem decodeImageRow_same {y : Nat} {s t : State} (h : decodeImageRow y s = .ok () t) : SameImage s t := by
  have w : (decodeImageRow y).Keeps SameImage := by
    have tr : ∀ a b c, SameImage a b → SameImage b c → SameImage a c :=
      fun _ _ _ h1 h2 => ⟨h2.src.trans h1.src, h2.dst.trans h1.dst, h2.width.trans h1.width⟩
    have rd : ∀ a n, (memRead a n).Keeps SameImage := keeps_memRead SameImage.refl
    have wr : ∀ a bs, (memWrite a bs).Keeps SameImage := keeps_memWrite SameImage.refl (fun _ _ => ⟨rfl, rfl, rfl⟩)
    unfold decodeImageRow
    refine Engine.keeps_bind tr (Engine.keeps_get SameImage.refl) fun s => Engine.keeps_bind tr (rd _ _) fun record => ?_
    split
    · exact keeps_raise SameImage.refl _ _
    · refine Engine.keeps_bind tr ?_ fun prior => Engine.keeps_bind tr (wr _ _) fun _ => ?_
      · refine Engine.keeps_bind tr (Engine.keeps_get SameImage.refl) fun _ => Engine.keeps_ite ?_ (rd _ _)
        exact Engine.keeps_pure SameImage.refl _
      · exact keeps_modifyRegs (fun _ => ⟨rfl, rfl, rfl⟩)
  have hw := w s
  unfold Engine.wp at hw
  rw [h] at hw
  exact hw

theorem SameImage.bounds {s t : State} (h : SameImage s t) :
    t.regs.stride = s.regs.stride ∧ t.regs.rowLen = s.regs.rowLen ∧ t.regs.srcLen.toNat = s.regs.srcLen.toNat ∧
      t.regs.dstLen.toNat = s.regs.dstLen.toNat :=
  ⟨by simp [Regs.stride, h.width], by simp [Regs.rowLen, h.width], congrArg Region.len h.src, congrArg Region.len h.dst⟩

theorem safeAt_decodeImageRows (count : Nat) : ∀ {y h : Nat} {s : State}, y + count ≤ h →
    h * s.regs.stride ≤ s.regs.srcLen.toNat → h * s.regs.rowLen ≤ s.regs.dstLen.toNat →
    (decodeImageRows y count).SafeAt .decodeImage s := by
  induction count with
  | zero => intro y h s _ _ _; exact Near.refl _ s
  | succ count ih =>
    intro y h s hy hs hd
    refine Engine.safeAt_bind (safeAt_decodeImageRow (by omega) hs hd) fun _ t ht => ?_
    obtain ⟨e1, e2, e3, e4⟩ := (decodeImageRow_same ht).bounds
    exact ih (h := h) (by omega) (by rw [e1, e3]; exact hs) (by rw [e2, e4]; exact hd)

theorem safe_decodeImageBody : decodeImageBody.Safe .decodeImage := by
  refine Engine.safe_get_bind fun s => ?_
  refine Engine.safeAt_check (checkGate_cases s) fun _ => ?_
  refine Engine.safeAt_check (checkDimensions_cases s) fun _ => ?_
  refine Engine.safeAt_check (checkRegions_cases _ s) fun _ => ?_
  refine Engine.safeAt_check (checkLength_cases _ _ s) fun hs => ?_
  refine Engine.safeAt_check (checkCapacity_cases _ _ s) fun hd => ?_
  exact safeAt_decodeImageRows _ (h := s.regs.imgHeight.toNat) (by omega) (by omega) hd

theorem safeAt_isolateRows (i : Instr) (ch : Nat) (hi : ∀ r : Regs, regionsOf r i = ⟨[r.src], some r.dst⟩) (count : Nat) :
    ∀ {y h : Nat} {s : State}, y + count ≤ h → h * s.regs.rowLen ≤ s.regs.srcLen.toNat →
    h * s.regs.stride ≤ s.regs.dstLen.toNat → (isolateRows ch y count).SafeAt i s := by
  induction count with
  | zero => intro y h s _ _ _; exact Near.refl _ s
  | succ count ih =>
    intro y h s hy hs hd
    have b1 := row_below (n := s.regs.rowLen) (h := h) (y := y) (count := 0) (by omega)
    have b2 := row_below (n := s.regs.stride) (h := h) (y := y) (count := 0) (by omega)
    have hl : s.regs.stride = 1 + s.regs.rowLen := rfl
    have hrow : (isolateRow ch y).SafeAt i s := by
      refine (Engine.safeAt_bind (x := (get : Engine State)) (Near.refl _ s) fun a t ht => ?_)
      cases ht
      refine Engine.safeAt_bind (safeAt_memRead (r := s.regs.src) (.inl (by simp [hi])) (by simp [Regs.src])
        (by simp only [Regs.src]; omega)) fun row t hr => ?_
      obtain ⟨rfl, hrec⟩ := memRead_cases hr
      exact safeAt_memWrite (w := t.regs.dst) (by simp [hi]) (by simp [Regs.dst]) (by simp [Regs.dst, hrec]; omega)
    refine Engine.safeAt_bind hrow fun _ t ht => ?_
    have hsame : SameImage s t := by
      unfold isolateRow at ht
      rw [Engine.get_bind, memRead_bind] at ht
      split at ht
      · rw [memWrite_state ht]; exact ⟨rfl, rfl, rfl⟩
      · cases ht
    obtain ⟨e1, e2, e3, e4⟩ := hsame.bounds
    exact ih (h := h) (by omega) (by rw [e2, e3]; exact hs) (by rw [e1, e4]; exact hd)

theorem safe_isolateBody (ch : BitVec 2) : (isolateBody ch).Safe (.isolate ch) := by
  refine Engine.safe_bind (safe_channelOperand _ _) fun k => Engine.safe_get_bind fun s => ?_
  refine Engine.safeAt_check (checkGate_cases s) fun _ => ?_
  refine Engine.safeAt_check (checkDimensions_cases s) fun _ => ?_
  refine Engine.safeAt_check (checkRegions_cases _ s) fun _ => ?_
  refine Engine.safeAt_check (checkLength_cases _ _ s) fun hs => ?_
  refine Engine.safeAt_check (checkCapacity_cases _ _ s) fun hd => ?_
  exact Engine.safeAt_bind
    (safeAt_isolateRows (.isolate ch) k (fun _ => rfl) _ (h := s.regs.imgHeight.toNat) (by omega) (by omega) hd)
    fun _ t _ => safe_setOutLen _ _ t

/-! ## ASSEMBLE -/

theorem safeAt_emit {o : Nat} {bytes : List Byte} {s : State} (h : o = 0 ∨ 8 ≤ s.regs.dstLen.toNat) :
    (emit o bytes).SafeAt .assemble s := by
  refine (Engine.safeAt_bind (x := (get : Engine State)) (Near.refl _ s) fun a t ht => ?_)
  cases ht
  split
  · refine Engine.safeAt_bind ?_ fun _ t _ => safe_raise _ _ _ t
    by_cases ho : 0 < o
    · simp only [onlyIf, decide_eq_true_eq, if_pos ho]
      exact safeAt_memWrite (w := s.regs.dst) rfl (Nat.le_refl _) (by simp [Regs.dst]; omega)
    · simp only [onlyIf, decide_eq_true_eq, if_neg ho]
      exact Engine.safe_pure _ () s
  · exact Engine.safeAt_bind (safeAt_memWrite (w := s.regs.dst) rfl (by simp [Regs.dst]) (by simp [Regs.dst]; omega))
      fun _ t _ => Engine.safe_pure _ _ t

/-- What `emit` answers when it goes on. -/
theorem emit_cases {o o' : Nat} {bytes : List Byte} {s t : State} (h : emit o bytes s = .ok o' t) :
    o' = o + bytes.length ∧ o + bytes.length ≤ s.regs.dstLen.toNat ∧
      t = s.setMem (s.mem.writeN (s.regs.dstAddr.toNat + o) bytes) := by
  unfold emit at h
  rw [Engine.get_bind] at h
  split at h
  · rw [Engine.bind_apply] at h
    split at h <;> cases h
  · next hc =>
    rw [Engine.bind_apply, memWrite_apply] at h
    split at h
    · next hw =>
      split at hw
      · cases hw; cases h; exact ⟨rfl, by omega, rfl⟩
      · cases hw
    · cases h

/-- The pieces of ASSEMBLE that read the original stream: they leave memory, the regions and CTRL alone. -/
structure SameStream (s t : State) : Prop where
  mem : t.mem = s.mem
  platform : t.platform = s.platform
  src : t.regs.src = s.regs.src
  dst : t.regs.dst = s.regs.dst
  aux : t.regs.aux = s.regs.aux
  ctrl : t.regs.ctrl = s.regs.ctrl
  outLen : t.regs.outLen = s.regs.outLen

theorem SameStream.refl (s : State) : SameStream s s := ⟨rfl, rfl, rfl, rfl, rfl, rfl, rfl⟩
theorem SameStream.trans (s t u : State) (h1 : SameStream s t) (h2 : SameStream t u) : SameStream s u :=
  ⟨h2.mem.trans h1.mem, h2.platform.trans h1.platform, h2.src.trans h1.src, h2.dst.trans h1.dst, h2.aux.trans h1.aux,
    h2.ctrl.trans h1.ctrl, h2.outLen.trans h1.outLen⟩

theorem keeps_readChunk (off : Nat) : (readChunk off).Keeps SameStream := by
  intro s
  unfold Engine.wp
  rw [readChunk_apply off s _ rfl]
  split_ifs <;> exact ⟨rfl, rfl, rfl, rfl, rfl, rfl, rfl⟩

theorem keeps_onMismatch (typ : List Byte) : (onMismatch typ).Keeps SameStream := by
  intro s
  unfold Engine.wp
  rw [onMismatch_apply]
  split_ifs <;> exact ⟨rfl, rfl, rfl, rfl, rfl, rfl, rfl⟩

theorem keeps_walkChunks (fuel : Nat) : ∀ off, (walkChunks off fuel).Keeps SameStream := by
  have tr := SameStream.trans
  induction fuel with
  | zero => intro off; exact keeps_raise SameStream.refl _ _
  | succ fuel ih =>
    intro off
    refine Engine.keeps_bind tr (Engine.keeps_get SameStream.refl) fun s => Engine.keeps_ite ?_ ?_
    · exact keeps_raise SameStream.refl _ _
    · refine Engine.keeps_bind tr (keeps_readChunk off) fun c => Engine.keeps_ite (Engine.keeps_ite ?_ ?_) ?_
      · exact Engine.keeps_pure SameStream.refl _
      · exact Engine.keeps_bind tr (ih _) fun _ => Engine.keeps_pure SameStream.refl _
      · exact Engine.keeps_bind tr (keeps_onMismatch _) fun _ => ih _

theorem Engine.keeps_ok {R : State → State → Prop} {x : Engine α} (h : x.Keeps R) {s t : State} {a : α}
    (hx : x s = .ok a t) : R s t := by
  have w := h s
  unfold Engine.wp at w
  rwa [hx] at w

theorem Engine.keeps_error {R : State → State → Prop} {x : Engine α} (h : x.Keeps R) {s t : State} {e : Stop}
    (hx : x s = .error e t) : R s t := by
  have w := h s
  unfold Engine.wp at w
  rwa [hx] at w

theorem safe_walkChunks (fuel : Nat) : ∀ off, (walkChunks off fuel).Safe .assemble := by
  induction fuel with
  | zero => intro off; exact safe_raise _ _ _
  | succ fuel ih =>
    intro off
    refine Engine.safe_bind (Engine.safe_get _) fun s => Engine.safe_ite ?_ ?_
    · exact safe_raise _ _ _
    · refine Engine.safe_bind (safe_readChunk rfl off) fun c => Engine.safe_ite (Engine.safe_ite ?_ ?_) ?_
      · exact Engine.safe_pure _ _
      · exact Engine.safe_bind (ih _) fun _ => Engine.safe_pure _ _
      · exact Engine.safe_bind (safe_onMismatch _ _) fun _ => ih _

/-- A chunk that was read lies whole inside the stream. -/
theorem readChunk_inside {off : Nat} {s t : State} {c : Chunk} (h : readChunk off s = .ok c t) :
    off + 12 + c.len ≤ s.regs.srcLen.toNat := by
  rw [readChunk_apply off s _ rfl] at h
  split_ifs at h
  cases h
  omega

theorem srcLen_of_src {s t : State} (h : t.regs.src = s.regs.src) : t.regs.srcLen.toNat = s.regs.srcLen.toNat :=
  congrArg Region.len h

/-- Every chunk that the walk keeps lies whole inside the stream. -/
theorem walkChunks_inside (fuel : Nat) : ∀ {off : Nat} {s t : State} {cs : List KeptChunk},
    walkChunks off fuel s = .ok cs t → ∀ c ∈ cs, c.off + 12 + c.len ≤ s.regs.srcLen.toNat := by
  induction fuel with
  | zero => intro off s t cs h; cases h
  | succ fuel ih =>
    intro off s t cs h
    rw [walkChunks, Engine.get_bind] at h
    split at h
    · cases h
    · rw [Engine.bind_apply] at h
      split at h
      · next c u hc =>
        have hin := readChunk_inside hc
        have hsrc := srcLen_of_src (Engine.keeps_ok (keeps_readChunk off) hc).src
        split at h
        · split at h
          · cases h
            intro d hd
            simp only [List.mem_singleton] at hd
            subst hd
            exact hin
          · rw [Engine.bind_apply] at h
            split at h
            · next rest v hr =>
              cases h
              intro d hd
              simp only [List.mem_cons] at hd
              rcases hd with rfl | hd
              · exact hin
              · rw [← hsrc]; exact ih hr d hd
            · cases h
        · rw [Engine.bind_apply] at h
          split at h
          · next v hm =>
            have hsrc' := srcLen_of_src (Engine.keeps_ok (keeps_onMismatch _) hm).src
            intro d hd
            rw [← hsrc, ← hsrc']
            exact ih h d hd
          · cases h
      · cases h

theorem safeAt_verbatim {c : KeptChunk} {s : State} (h : c.off + 12 + c.len ≤ s.regs.srcLen.toNat) :
    (verbatim c).SafeAt .assemble s := by
  refine (Engine.safeAt_bind (x := (get : Engine State)) (Near.refl _ s) fun a t ht => ?_)
  cases ht
  exact safeAt_memRead (r := s.regs.src) (.inl (src_read rfl _)) (by simp [Regs.src]) (by simp only [Regs.src]; omega)

theorem verbatim_cases {c : KeptChunk} {s t : State} {bs : List Byte} (h : verbatim c s = .ok bs t) :
    t = s ∧ bs = verbatimBytes s.mem s.regs.srcAddr.toNat c := memRead_cases h

theorem emit_regs {o o' : Nat} {bytes : List Byte} {s t : State} (h : emit o bytes s = .ok o' t) : t.regs = s.regs := by
  rw [(emit_cases h).2.2]; rfl

theorem safeAt_emitVariantA (p : List Byte) (cs : List KeptChunk) : ∀ {o : Nat} {replaced : Bool} {s : State},
    (∀ c ∈ cs, c.off + 12 + c.len ≤ s.regs.srcLen.toNat) → 8 ≤ s.regs.dstLen.toNat →
    (emitVariantA p o replaced cs).SafeAt .assemble s := by
  induction cs with
  | nil => intro o b s _ _; exact Engine.safe_pure _ o s
  | cons c rest ih =>
    intro o b s hc h8
    have hrest : ∀ d ∈ rest, d.off + 12 + d.len ≤ s.regs.srcLen.toNat := fun d hd => hc d (List.mem_cons_of_mem _ hd)
    rw [emitVariantA]
    split
    · split
      · exact ih hrest h8
      · refine (Engine.safeAt_bind (x := (get : Engine State)) (Near.refl _ s) fun a t ht => ?_)
        cases ht
        refine Engine.safeAt_bind (safeAt_emit (.inr h8)) fun o' t ht => ih ?_ ?_
        · rw [emit_regs ht]; exact hrest
        · rw [emit_regs ht]; exact h8
    · refine Engine.safeAt_bind (safeAt_verbatim (hc c (by simp))) fun bs t ht => ?_
      obtain ⟨rfl, _⟩ := verbatim_cases ht
      refine Engine.safeAt_bind (safeAt_emit (.inr h8)) fun o' u hu => ih ?_ ?_
      · rw [emit_regs hu]; exact hrest
      · rw [emit_regs hu]; exact h8

/-- After the signature has been emitted the output region holds at least its eight bytes. -/
theorem emit_signature {o : Nat} {s t : State} (h : emit 0 pngSignature s = .ok o t) :
    o = 8 ∧ 8 ≤ t.regs.dstLen.toNat ∧ t.regs = s.regs := by
  obtain ⟨h1, h2, h3⟩ := emit_cases h
  exact ⟨h1, by rw [emit_regs h]; exact h2, emit_regs h⟩

theorem safeAt_emitVariant {reduced : Bool} {p : List Byte} {cs : List KeptChunk} {s : State}
    (hc : ∀ c ∈ cs, c.off + 12 + c.len ≤ s.regs.srcLen.toNat) : (emitVariant reduced cs p).SafeAt .assemble s := by
  unfold emitVariant
  split
  · unfold variantB
    split
    · next ih ie hih hie =>
      have m1 := hc ih (List.mem_of_find?_eq_some hih)
      have m2 := hc ie (List.mem_of_getLast? hie)
      refine Engine.safeAt_bind (safeAt_emit (.inl rfl)) fun o t ht => ?_
      obtain ⟨rfl, h8, hr⟩ := emit_signature ht
      rw [← hr] at m1 m2
      refine Engine.safeAt_bind (safeAt_verbatim m1) fun bs u hu => ?_
      obtain ⟨rfl, _⟩ := verbatim_cases hu
      refine Engine.safeAt_bind (safeAt_emit (.inr h8)) fun o u hu => ?_
      rw [← emit_regs hu] at m2 h8
      refine (Engine.safeAt_bind (x := (get : Engine State)) (Near.refl _ u) fun a v hv => ?_)
      cases hv
      refine Engine.safeAt_bind (safeAt_emit (.inr h8)) fun o v hv => ?_
      rw [← emit_regs hv] at m2 h8
      refine Engine.safeAt_bind (safeAt_verbatim m2) fun bs w hw => ?_
      obtain ⟨rfl, _⟩ := verbatim_cases hw
      exact safeAt_emit (.inr h8)
    · exact safe_raise _ _ _ s
  · refine Engine.safeAt_bind (safe_require _ _ _ _ s) fun _ t ht => ?_
    have : t = s := by
      rw [require_apply] at ht
      split at ht <;> cases ht
      rfl
    subst this
    refine Engine.safeAt_bind (safeAt_emit (.inl rfl)) fun o u hu => ?_
    obtain ⟨rfl, h8, hr⟩ := emit_signature hu
    exact safeAt_emitVariantA p cs (by rw [hr]; exact hc) h8

theorem safe_assembleBody : assembleBody.Safe .assemble := by
  refine Engine.safe_bind (safe_checkRegions _) fun _ => Engine.safe_bind (safe_checkStream _) fun _ => ?_
  refine Engine.safe_get_bind fun s => ?_
  refine Engine.safeAt_bind (safe_walkChunks _ _ s) fun cs t ht => ?_
  have hk := Engine.keeps_ok (keeps_walkChunks _ _) ht
  have hin : ∀ c ∈ cs, c.off + 12 + c.len ≤ t.regs.srcLen.toNat := by
    rw [srcLen_of_src hk.src]; exact walkChunks_inside _ ht
  have haux : t.regs.aux = s.regs.aux := hk.aux
  have a1 : s.regs.auxAddr.toNat = t.regs.aux.base := (congrArg Region.base haux).symm
  have a2 : s.regs.auxLen.toNat = t.regs.aux.len := (congrArg Region.len haux).symm
  rw [a1, a2]
  refine Engine.safeAt_bind (safeAt_memRead (r := t.regs.aux) (.inl (by simp [regionsOf])) (Nat.le_refl _) (Nat.le_refl _))
    fun p u hu => ?_
  obtain ⟨rfl, _⟩ := memRead_cases hu
  exact Engine.safeAt_bind (safeAt_emitVariant hin) fun o v _ => safe_setOutLen _ _ v

/-! ## Every command -/

/-- The pseudocode that `exec` runs for a command. -/
def bodyOf : Instr → Engine Unit
  | .checkSig => checkSigBody
  | .parseInit => modifyRegs Regs.parseInit
  | .parseNext => parseNextBody
  | .parseAll => parseAllBody
  | .hdrCheck => hdrCheckBody
  | .paeth => paethBody
  | .reconByte ft => reconByteBody ft
  | .filtByte ft => filtByteBody ft
  | .reconRow first => reconRowBody first
  | .filtRow ft first => filtRowBody ft first
  | .decodeImage => decodeImageBody
  | .isolate ch => isolateBody ch
  | .assemble => assembleBody

theorem exec_eq_runCommand (i : Instr) (s : State) : exec i s = runCommand (bodyOf i) s := by cases i <;> rfl

/-- Every command changes memory in its written region only, and gets stuck only at an absent address of its regions. -/
theorem safe_bodyOf (i : Instr) : (bodyOf i).Safe i := by
  cases i with
  | checkSig => exact safe_checkSigBody
  | parseInit => exact safe_modifyRegs _ (fun _ => rfl) (fun _ => rfl) (fun _ => rfl)
  | parseNext => exact safe_parseNextBody
  | parseAll => exact safe_parseAllBody
  | hdrCheck => exact safe_hdrCheckBody
  | paeth => exact safe_modifyRegs (f := fun r => r.setResult (paethPredictor r.byteA r.byteB r.byteC)) _ (fun _ => rfl) (fun _ => rfl) (fun _ => rfl)
  | reconByte ft =>
    exact Engine.safe_bind (safe_filterOperand _ ft) fun _ => safe_modifyRegs _ (fun _ => rfl) (fun _ => rfl) (fun _ => rfl)
  | filtByte ft =>
    exact Engine.safe_bind (safe_filterOperand _ ft) fun _ => safe_modifyRegs _ (fun _ => rfl) (fun _ => rfl) (fun _ => rfl)
  | reconRow first => exact safe_reconRowBody first
  | filtRow ft first => exact safe_filtRowBody ft first
  | decodeImage => exact safe_decodeImageBody
  | isolate ch => exact safe_isolateBody ch
  | assemble => exact safe_assembleBody

end Sys2Proof.Machine
end

