-- ==== Sys2Proof/Laws/Registers.lean ====
section
/-! SUPPORT. Which register updates each command performs: a relation that is reflexive, transitive, kept by memory writes and
kept by the updates a command performs holds between the state before the command's pseudocode and the state it ends in. -/

namespace Sys2Proof.Machine

variable {R : State → State → Prop}

/-- What every relation below has: it is reflexive and transitive, and a memory write keeps it. -/
structure Stable (R : State → State → Prop) : Prop where
  refl : ∀ s, R s s
  trans : ∀ s t u, R s t → R t u → R s u
  write : ∀ s a bs, R s (s.setMem (s.mem.writeN a bs))

/-- The relation is kept by a register update. -/
def KeptBy (R : State → State → Prop) (f : Regs → Regs) : Prop := ∀ s : State, R s (s.setRegs (f s.regs))

/-- The updates of reading a chunk and of recording a CRC mismatch. -/
structure KeptByReading (R : State → State → Prop) : Prop where
  descriptor : ∀ off len typ stored, KeptBy R (fun r => r.setDescriptor off len typ stored)
  mismatch : ∀ typ, KeptBy R (fun r => r.recordMismatch typ)

/-- The updates of a ParseStep beside those of reading. -/
structure KeptByParsing (R : State → State → Prop) : Prop extends KeptByReading R where
  cursor : ∀ off, KeptBy R (fun r => r.setCursor off)
  payload : ∀ n, KeptBy R (fun r => r.setPayloadLen n)
  count : KeptBy R Regs.countChunk
  iend : KeptBy R Regs.setIend
  exhausted : KeptBy R Regs.setExhausted

/-- The updates of HDR_CHECK beside those of reading. -/
structure KeptByHeader (R : State → State → Prop) : Prop extends KeptByReading R where
  drop : KeptBy R Regs.dropProfile
  capture : ∀ data, KeptBy R (fun r => r.captureHeader data)
  load : ∀ w h, KeptBy R (fun r => r.loadProfile w h)

namespace Stable

theorem memRead (st : Stable R) (a n : Nat) : (memRead a n).Keeps R := keeps_memRead st.refl a n

theorem memWrite (st : Stable R) (a : Nat) (bs : List Byte) : (memWrite a bs).Keeps R :=
  fun s => (wp_memWrite a bs s _).2 ⟨fun _ => st.write s a bs, fun _ => st.refl s⟩

theorem get_bind {β : Type} (st : Stable R) {f : State → Engine β} (h : ∀ s, (f s).Keeps R) :
    ((get : Engine State) >>= f).Keeps R := Engine.keeps_bind st.trans (Engine.keeps_get st.refl) h

theorem onlyIf (st : Stable R) (c : Bool) {x : Engine Unit} (h : x.Keeps R) : (onlyIf c x).Keeps R := by
  cases c
  · exact Engine.keeps_pure st.refl ()
  · exact h

theorem checkRegions (st : Stable R) (i : Instr) : (checkRegions i).Keeps R :=
  st.get_bind fun _ => Engine.keeps_bind st.trans (keeps_require st.refl _ _ _) fun _ => keeps_require st.refl _ _ _

theorem checkGate (st : Stable R) : checkGate.Keeps R := st.get_bind fun _ => keeps_require st.refl _ _ _
theorem checkWidth (st : Stable R) : checkWidth.Keeps R := st.get_bind fun _ => keeps_require st.refl _ _ _
theorem checkDimensions (st : Stable R) : checkDimensions.Keeps R := st.get_bind fun _ => keeps_require st.refl _ _ _
theorem checkCursor (st : Stable R) : checkCursor.Keeps R := st.get_bind fun _ => keeps_require st.refl _ _ _
theorem checkStream (st : Stable R) : checkStream.Keeps R := st.get_bind fun _ => keeps_require st.refl _ _ _
theorem checkLength (st : Stable R) (a b : Nat) : (checkLength a b).Keeps R := keeps_require st.refl _ _ _
theorem checkCapacity (st : Stable R) (a b : Nat) : (checkCapacity a b).Keeps R := keeps_require st.refl _ _ _

theorem filterOperand (st : Stable R) (ft : BitVec 3) : (filterOperand ft).Keeps R :=
  st.get_bind fun _ => by
    split
    · exact Engine.keeps_pure st.refl _
    · exact keeps_raise st.refl _ _

theorem channelOperand (st : Stable R) (ch : BitVec 2) : (channelOperand ch).Keeps R :=
  st.get_bind fun _ => Engine.keeps_ite (Engine.keeps_pure st.refl _) (keeps_raise st.refl _ _)

/-! ### Chunks -/

theorem readChunk (st : Stable R) (u : KeptByReading R) (off : Nat) : (readChunk off).Keeps R := by
  intro s
  unfold Engine.wp
  rw [readChunk_apply off s _ rfl]
  split_ifs
  · exact u.descriptor _ _ _ _ s
  all_goals exact st.refl s

theorem onMismatch (u : KeptByReading R) (typ : List Byte) : (onMismatch typ).Keeps R := by
  intro s
  unfold Engine.wp
  rw [onMismatch_apply]
  split_ifs <;> exact u.mismatch typ s

theorem parseStep (st : Stable R) (u : KeptByParsing R) : parseStep.Keeps R := by
  have tr := st.trans
  refine st.get_bind fun s => Engine.keeps_ite (keeps_modifyRegs u.exhausted) ?_
  refine Engine.keeps_bind tr (st.readChunk u.toKeptByReading _) fun c => Engine.keeps_ite ?_ ?_
  · refine Engine.keeps_bind tr (st.onlyIf _ ?_) fun _ => ?_
    · refine st.get_bind fun _ => Engine.keeps_bind tr (st.checkCapacity _ _) fun _ => ?_
      exact Engine.keeps_bind tr (st.memWrite _ _) fun _ => keeps_modifyRegs (u.payload _)
    · refine Engine.keeps_bind tr (keeps_modifyRegs u.count) fun _ => ?_
      exact Engine.keeps_bind tr (keeps_modifyRegs (u.cursor _)) fun _ => st.onlyIf _ (keeps_modifyRegs u.iend)
  · exact Engine.keeps_bind tr (onMismatch u.toKeptByReading _) fun _ => keeps_modifyRegs (u.cursor _)

theorem parseLoop (st : Stable R) (u : KeptByParsing R) (n : Nat) : (parseLoop n).Keeps R := by
  induction n with
  | zero => exact Engine.keeps_pure st.refl ()
  | succ n ih =>
    refine st.get_bind fun s => Engine.keeps_ite (Engine.keeps_pure st.refl ()) ?_
    exact Engine.keeps_bind st.trans (st.parseStep u) fun _ => ih

theorem checkSigBody (st : Stable R) : checkSigBody.Keeps R := by
  refine Engine.keeps_bind st.trans (st.checkRegions _) fun _ => st.get_bind fun _ => ?_
  refine Engine.keeps_bind st.trans (st.memRead _ _) fun bytes => ?_
  split
  · exact keeps_raise st.refl _ _
  · exact Engine.keeps_pure st.refl _

theorem parseNextBody (st : Stable R) (u : KeptByParsing R) : parseNextBody.Keeps R := by
  refine Engine.keeps_bind st.trans ?_ fun _ => st.get_bind fun _ => ?_
  · exact Engine.keeps_bind st.trans (st.checkRegions _) fun _ => st.checkCursor
  · exact Engine.keeps_ite (Engine.keeps_pure st.refl _) (st.parseStep u)

theorem parseAllBody (st : Stable R) (u : KeptByParsing R) : parseAllBody.Keeps R := by
  refine Engine.keeps_bind st.trans ?_ fun _ => st.get_bind fun _ => st.parseLoop u _
  exact Engine.keeps_bind st.trans (st.checkRegions _) fun _ => st.checkCursor

theorem hdrCheckBody (st : Stable R) (u : KeptByHeader R) : hdrCheckBody.Keeps R := by
  have tr := st.trans
  have rq : ∀ ok c i, (require ok c i).Keeps R := keeps_require st.refl
  refine Engine.keeps_bind tr (keeps_modifyRegs u.drop) fun _ => Engine.keeps_bind tr (st.checkRegions _) fun _ => ?_
  refine Engine.keeps_bind tr st.checkStream fun _ => st.get_bind fun _ => Engine.keeps_bind tr (rq _ _ _) fun _ => ?_
  refine Engine.keeps_bind tr (st.readChunk u.toKeptByReading _) fun c => Engine.keeps_ite ?_ ?_
  · refine Engine.keeps_bind tr (rq _ _ _) fun _ => Engine.keeps_bind tr (rq _ _ _) fun _ => ?_
    refine Engine.keeps_bind tr (keeps_modifyRegs (u.capture _)) fun _ => Engine.keeps_bind tr ?_ fun _ => ?_
    · unfold checkHeaderFields
      repeat' refine Engine.keeps_bind tr (rq _ _ _) fun _ => ?_
      exact rq _ _ _
    · exact keeps_modifyRegs (u.load _ _)
  · exact Engine.keeps_bind tr (onMismatch u.toKeptByReading _) fun _ => keeps_raise st.refl _ _

/-! ### Rows -/

theorem reconRowBody (st : Stable R) (u : ∀ n, KeptBy R (fun r => r.setOutLen n)) (first : Bool) :
    (reconRowBody first).Keeps R := by
  have tr := st.trans
  refine st.get_bind fun _ => Engine.keeps_bind tr st.checkGate fun _ => Engine.keeps_bind tr st.checkWidth fun _ => ?_
  refine Engine.keeps_bind tr (st.checkRegions _) fun _ => Engine.keeps_bind tr (st.checkLength _ _) fun _ => ?_
  refine Engine.keeps_bind tr ?_ fun _ => Engine.keeps_bind tr (st.checkCapacity _ _) fun _ => ?_
  · exact st.get_bind fun _ => Engine.keeps_ite (Engine.keeps_pure st.refl _) (st.checkLength _ _)
  refine Engine.keeps_bind tr (st.memRead _ _) fun record => ?_
  split
  · exact keeps_raise st.refl _ _
  · refine Engine.keeps_bind tr ?_ fun _ => Engine.keeps_bind tr (st.memWrite _ _) fun _ => keeps_modifyRegs (u _)
    exact st.get_bind fun _ => Engine.keeps_ite (Engine.keeps_pure st.refl _) (st.memRead _ _)

theorem filtRowBody (st : Stable R) (u : ∀ n, KeptBy R (fun r => r.setOutLen n)) (ft : BitVec 3) (first : Bool) :
    (filtRowBody ft first).Keeps R := by
  have tr := st.trans
  refine Engine.keeps_bind tr (st.filterOperand ft) fun _ => ?_
  refine st.get_bind fun _ => Engine.keeps_bind tr st.checkGate fun _ => Engine.keeps_bind tr st.checkWidth fun _ => ?_
  refine Engine.keeps_bind tr (st.checkRegions _) fun _ => Engine.keeps_bind tr (st.checkLength _ _) fun _ => ?_
  refine Engine.keeps_bind tr ?_ fun _ => Engine.keeps_bind tr (st.checkCapacity _ _) fun _ => ?_
  · exact st.get_bind fun _ => Engine.keeps_ite (Engine.keeps_pure st.refl _) (st.checkLength _ _)
  refine Engine.keeps_bind tr (st.memRead _ _) fun raw => ?_
  refine Engine.keeps_bind tr ?_ fun _ => Engine.keeps_bind tr (st.memWrite _ _) fun _ => keeps_modifyRegs (u _)
  exact st.get_bind fun _ => Engine.keeps_ite (Engine.keeps_pure st.refl _) (st.memRead _ _)

theorem decodeImageRow (st : Stable R) (u : ∀ n, KeptBy R (fun r => r.setOutLen n)) (y : Nat) :
    (decodeImageRow y).Keeps R := by
  have tr := st.trans
  refine st.get_bind fun _ => Engine.keeps_bind tr (st.memRead _ _) fun record => ?_
  split
  · exact keeps_raise st.refl _ _
  · refine Engine.keeps_bind tr ?_ fun _ => Engine.keeps_bind tr (st.memWrite _ _) fun _ => keeps_modifyRegs (u _)
    exact st.get_bind fun _ => Engine.keeps_ite (Engine.keeps_pure st.refl _) (st.memRead _ _)

theorem decodeImageRows (st : Stable R) (u : ∀ n, KeptBy R (fun r => r.setOutLen n)) (count : Nat) :
    ∀ y, (decodeImageRows y count).Keeps R := by
  induction count with
  | zero => intro y; exact Engine.keeps_pure st.refl ()
  | succ count ih => intro y; exact Engine.keeps_bind st.trans (st.decodeImageRow u y) fun _ => ih (y + 1)

theorem decodeImageBody (st : Stable R) (u : ∀ n, KeptBy R (fun r => r.setOutLen n)) : decodeImageBody.Keeps R := by
  have tr := st.trans
  refine st.get_bind fun _ => Engine.keeps_bind tr st.checkGate fun _ => Engine.keeps_bind tr st.checkDimensions fun _ => ?_
  refine Engine.keeps_bind tr (st.checkRegions _) fun _ => Engine.keeps_bind tr (st.checkLength _ _) fun _ => ?_
  exact Engine.keeps_bind tr (st.checkCapacity _ _) fun _ => st.decodeImageRows u _ _

theorem isolateRows (st : Stable R) (ch count : Nat) : ∀ y, (isolateRows ch y count).Keeps R := by
  induction count with
  | zero => intro y; exact Engine.keeps_pure st.refl ()
  | succ count ih =>
    intro y
    refine Engine.keeps_bind st.trans ?_ fun _ => ih (y + 1)
    exact st.get_bind fun _ => Engine.keeps_bind st.trans (st.memRead _ _) fun _ => st.memWrite _ _

theorem isolateBody (st : Stable R) (u : ∀ n, KeptBy R (fun r => r.setOutLen n)) (ch : BitVec 2) :
    (isolateBody ch).Keeps R := by
  have tr := st.trans
  refine Engine.keeps_bind tr (st.channelOperand ch) fun _ => ?_
  refine st.get_bind fun _ => Engine.keeps_bind tr st.checkGate fun _ => Engine.keeps_bind tr st.checkDimensions fun _ => ?_
  refine Engine.keeps_bind tr (st.checkRegions _) fun _ => Engine.keeps_bind tr (st.checkLength _ _) fun _ => ?_
  refine Engine.keeps_bind tr (st.checkCapacity _ _) fun _ => Engine.keeps_bind tr (st.isolateRows _ _ _) fun _ => ?_
  exact keeps_modifyRegs (u _)

/-! ### ASSEMBLE -/

theorem walkChunks (st : Stable R) (u : KeptByReading R) (fuel : Nat) : ∀ off, (walkChunks off fuel).Keeps R := by
  have tr := st.trans
  induction fuel with
  | zero => intro off; exact keeps_raise st.refl _ _
  | succ fuel ih =>
    intro off
    refine st.get_bind fun _ => Engine.keeps_ite (keeps_raise st.refl _ _) ?_
    refine Engine.keeps_bind tr (st.readChunk u off) fun _ => Engine.keeps_ite (Engine.keeps_ite ?_ ?_) ?_
    · exact Engine.keeps_pure st.refl _
    · exact Engine.keeps_bind tr (ih _) fun _ => Engine.keeps_pure st.refl _
    · exact Engine.keeps_bind tr (onMismatch u _) fun _ => ih _

theorem emit (st : Stable R) (o : Nat) (bytes : List Byte) : (emit o bytes).Keeps R := by
  refine st.get_bind fun _ => Engine.keeps_ite ?_ ?_
  · exact Engine.keeps_bind st.trans (st.onlyIf _ (st.memWrite _ _)) fun _ => keeps_raise st.refl _ _
  · exact Engine.keeps_bind st.trans (st.memWrite _ _) fun _ => Engine.keeps_pure st.refl _

theorem verbatim (st : Stable R) (c : KeptChunk) : (verbatim c).Keeps R := st.get_bind fun _ => st.memRead _ _

theorem emitVariantA (st : Stable R) (p : List Byte) (cs : List KeptChunk) :
    ∀ o b, (emitVariantA p o b cs).Keeps R := by
  induction cs with
  | nil => intro o b; exact Engine.keeps_pure st.refl _
  | cons c rest ih =>
    intro o b
    refine Engine.keeps_ite (Engine.keeps_ite (ih _ _) ?_) ?_
    · exact st.get_bind fun _ => Engine.keeps_bind st.trans (st.emit _ _) fun _ => ih _ _
    · exact Engine.keeps_bind st.trans (st.verbatim _) fun _ => Engine.keeps_bind st.trans (st.emit _ _) fun _ => ih _ _

theorem emitVariant (st : Stable R) (reduced : Bool) (cs : List KeptChunk) (p : List Byte) :
    (emitVariant reduced cs p).Keeps R := by
  have tr := st.trans
  refine Engine.keeps_ite ?_ ?_
  · unfold variantB
    split
    · refine Engine.keeps_bind tr (st.emit _ _) fun _ => Engine.keeps_bind tr (st.verbatim _) fun _ => ?_
      refine Engine.keeps_bind tr (st.emit _ _) fun _ => st.get_bind fun _ => Engine.keeps_bind tr (st.emit _ _) fun _ => ?_
      exact Engine.keeps_bind tr (st.verbatim _) fun _ => st.emit _ _
    · exact keeps_raise st.refl _ _
  · refine Engine.keeps_bind tr (keeps_require st.refl _ _ _) fun _ => ?_
    exact Engine.keeps_bind tr (st.emit _ _) fun _ => st.emitVariantA _ _ _ _

theorem assembleBody (st : Stable R) (u : KeptByReading R) (v : ∀ n, KeptBy R (fun r => r.setOutLen n)) :
    assembleBody.Keeps R := by
  have tr := st.trans
  refine Engine.keeps_bind tr (st.checkRegions _) fun _ => Engine.keeps_bind tr st.checkStream fun _ => ?_
  refine st.get_bind fun _ => Engine.keeps_bind tr (st.walkChunks u _ _) fun _ => ?_
  refine Engine.keeps_bind tr (st.memRead _ _) fun _ => Engine.keeps_bind tr (st.emitVariant _ _ _) fun _ => ?_
  exact keeps_modifyRegs (v _)

/-- The updates each command performs. -/
def updatesOf (R : State → State → Prop) : Instr → Prop
  | .checkSig => True
  | .parseInit => KeptBy R Regs.parseInit
  | .parseNext => KeptByParsing R
  | .parseAll => KeptByParsing R
  | .hdrCheck => KeptByHeader R
  | .paeth => ∀ (s : State) (b : Byte), R s (s.setRegs (s.regs.setResult b))
  | .reconByte _ => ∀ (s : State) (b : Byte), R s (s.setRegs (s.regs.setResult b))
  | .filtByte _ => ∀ (s : State) (b : Byte), R s (s.setRegs (s.regs.setResult b))
  | .reconRow _ => ∀ n, KeptBy R (fun r => r.setOutLen n)
  | .filtRow _ _ => ∀ n, KeptBy R (fun r => r.setOutLen n)
  | .decodeImage => ∀ n, KeptBy R (fun r => r.setOutLen n)
  | .isolate _ => ∀ n, KeptBy R (fun r => r.setOutLen n)
  | .assemble => KeptByReading R ∧ ∀ n, KeptBy R (fun r => r.setOutLen n)

/-- A stable relation that a command's updates keep holds from the start to the end of its pseudocode. -/
theorem body (st : Stable R) {i : Instr} (u : updatesOf R i) : (bodyOf i).Keeps R := by
  cases i with
  | checkSig => exact st.checkSigBody
  | parseInit => exact keeps_modifyRegs u
  | parseNext => exact st.parseNextBody u
  | parseAll => exact st.parseAllBody u
  | hdrCheck => exact st.hdrCheckBody u
  | paeth =>
    exact keeps_modifyRegs (f := fun r => r.setResult (paethPredictor r.byteA r.byteB r.byteC)) fun s => u s _
  | reconByte ft => exact Engine.keeps_bind st.trans (st.filterOperand ft) fun _ => keeps_modifyRegs fun s => u s _
  | filtByte ft => exact Engine.keeps_bind st.trans (st.filterOperand ft) fun _ => keeps_modifyRegs fun s => u s _
  | reconRow first => exact st.reconRowBody u first
  | filtRow ft first => exact st.filtRowBody u ft first
  | decodeImage => exact st.decodeImageBody u
  | isolate ch => exact st.isolateBody u ch
  | assemble => exact st.assembleBody u.1 u.2

end Stable

end Sys2Proof.Machine
end

