-- ==== Sys2Proof/Laws/Parser.lean ====
section
/-! SUPPORT. Laws of the parser's walk (R105, R107, R108): what a ParseStep on one chunk does, that each step makes progress,
that the bound on the iterations is never reached, and what a walk over a list of chunks leaves. -/

namespace Sys2Proof.Machine

/-! ## The loop of PARSE_ALL -/

theorem parseLoop_ended {n : Nat} {s : State} (h : s.regs.sequenceEnded = true) : parseLoop n s = .ok () s := by
  cases n with
  | zero => rfl
  | succ n => rw [parseLoop, Engine.get_bind, if_pos h]; rfl

theorem parseLoop_next {n : Nat} {s : State} (h : s.regs.sequenceEnded = false) :
    parseLoop (n + 1) s = (parseStep >>= fun _ => parseLoop n) s := by
  rw [parseLoop, Engine.get_bind, if_neg (by simp [h])]

theorem parseNextBody_checked {s : State} (hl : s.regionsLegal .parseNext)
    (hc : s.regs.parseOff.toNat ≤ s.regs.srcLen.toNat) :
    parseNextBody s = if s.regs.sequenceEnded = true then .ok () s else parseStep s := by
  unfold parseNextBody
  rw [Engine.bind_ok (parserChecks_ok hl hc), Engine.get_bind]
  split <;> rfl

theorem parseAllBody_checked {s : State} (hl : s.regionsLegal .parseAll)
    (hc : s.regs.parseOff.toNat ≤ s.regs.srcLen.toNat) :
    parseAllBody s = parseLoop (parseFuel s.regs) s := by
  unfold parseAllBody
  rw [Engine.bind_ok (parserChecks_ok hl hc), Engine.get_bind]

/-- R108: a ParseStep that returns leaves the stream alone, keeps the cursor inside it, and ends the sequence or moves the cursor by 12 bytes or more. -/
theorem parseStep_progress {s t : State} (hc : s.regs.parseOff.toNat ≤ s.regs.srcLen.toNat) (h : parseStep s = .ok () t) :
    t.regs.srcLen = s.regs.srcLen ∧ s.regs.parseOff.toNat ≤ t.regs.parseOff.toNat ∧
      t.regs.parseOff.toNat ≤ t.regs.srcLen.toNat ∧
      (t.regs.sequenceEnded = true ∨ s.regs.parseOff.toNat + 12 ≤ t.regs.parseOff.toNat) := by
  by_cases he : s.regs.parseOff.toNat = s.regs.srcLen.toNat
  · rw [parseStep_atEnd he] at h
    cases h
    simp [Regs.sequenceEnded, hc]
  rw [parseStep_inside he, Engine.bind_apply] at h
  split at h
  · next c u hr =>
    have hin := readChunk_inside hr
    have hul : u.regs.srcLen = s.regs.srcLen :=
      BitVec.eq_of_toNat_eq (congrArg Region.len (Engine.keeps_ok (keeps_readChunk _) hr).src)
    have hb := s.regs.srcLen.isLt
    have fin : ∀ v : State, v.regs.srcLen = s.regs.srcLen →
        v.regs.parseOff = BitVec.ofNat 32 (s.regs.parseOff.toNat + 12 + c.len) →
        v.regs.srcLen = s.regs.srcLen ∧ s.regs.parseOff.toNat ≤ v.regs.parseOff.toNat ∧
          v.regs.parseOff.toNat ≤ v.regs.srcLen.toNat ∧
          (v.regs.sequenceEnded = true ∨ s.regs.parseOff.toNat + 12 ≤ v.regs.parseOff.toNat) := by
      intro v h1 h2
      have h3 : v.regs.parseOff.toNat = s.regs.parseOff.toNat + 12 + c.len := by
        rw [h2, BitVec.toNat_ofNat, Nat.mod_eq_of_lt (by omega)]
      rw [h1, h3]
      exact ⟨rfl, by omega, by omega, .inr (by omega)⟩
    unfold handleChunk at h
    split at h
    · by_cases ht : c.typ = typeIDAT
      · have h' := h
        unfold acceptChunk at h'
        rw [Engine.bind_apply, onlyIf_true (by simpa using ht), appendPayload_apply] at h'
        split_ifs at h' with f1 f2
        rw [acceptChunk_idat (off := s.regs.parseOff.toNat) ht f1 f2] at h
        cases h
        exact fin _ hul rfl
      · rw [acceptChunk_other ht] at h
        cases h
        refine fin _ ?_ ?_
        · split <;> exact hul
        · simp only [State.setRegs_regs]; split <;> rfl
    · rw [Engine.bind_apply, onMismatch_apply] at h
      split_ifs at h
      cases h
      exact fin _ hul rfl
  · cases h

/-- R108: iterations beyond those there can be change nothing. -/
theorem parseLoop_enough (n : Nat) : ∀ (m : Nat) (s : State), s.regs.parseOff.toNat ≤ s.regs.srcLen.toNat →
    (s.regs.srcLen.toNat - s.regs.parseOff.toNat) / 12 + 1 ≤ n →
    (s.regs.srcLen.toNat - s.regs.parseOff.toNat) / 12 + 1 ≤ m → parseLoop n s = parseLoop m s := by
  induction n with
  | zero => intro m s _ h; omega
  | succ n ih =>
    intro m s hc h1 h2
    obtain ⟨m, rfl⟩ : ∃ k, m = k + 1 := ⟨m - 1, by omega⟩
    cases he : s.regs.sequenceEnded with
    | true => rw [parseLoop_ended he, parseLoop_ended he]
    | false =>
      rw [parseLoop_next he, parseLoop_next he, Engine.bind_apply, Engine.bind_apply]
      cases hp : parseStep s with
      | error e t => rfl
      | ok a t =>
        obtain ⟨e1, e2, e3, e4⟩ := parseStep_progress hc hp
        rcases e4 with e4 | e4
        · exact (parseLoop_ended e4).trans (parseLoop_ended e4).symm
        · exact ih m t e3 (by rw [e1] at e3 ⊢; omega) (by rw [e1] at e3 ⊢; omega)

/-- R107, R108: a walk that returns has ended the sequence, with the cursor inside the stream. -/
theorem parseLoop_ends (n : Nat) : ∀ (s t : State), s.regs.parseOff.toNat ≤ s.regs.srcLen.toNat →
    (s.regs.srcLen.toNat - s.regs.parseOff.toNat) / 12 + 1 ≤ n → parseLoop n s = .ok () t →
    t.regs.sequenceEnded = true ∧ s.regs.parseOff.toNat ≤ t.regs.parseOff.toNat ∧
      t.regs.parseOff.toNat ≤ s.regs.srcLen.toNat := by
  induction n with
  | zero => intro s t _ h; omega
  | succ n ih =>
    intro s t hc h1 h2
    cases he : s.regs.sequenceEnded with
    | true => rw [parseLoop_ended he] at h2; cases h2; exact ⟨he, Nat.le_refl _, hc⟩
    | false =>
      rw [parseLoop_next he, Engine.bind_apply] at h2
      cases hp : parseStep s with
      | error e t => rw [hp] at h2; cases h2
      | ok a u =>
        rw [hp] at h2
        obtain ⟨e1, e2, e3, e4⟩ := parseStep_progress hc hp
        rcases e4 with e4 | e4
        · have h2' : parseLoop n u = .ok () t := h2
          rw [parseLoop_ended e4] at h2'
          cases h2'
          exact ⟨e4, e2, by rw [← e1]; exact e3⟩
        · obtain ⟨a1, a2, a3⟩ := ih u t e3 (by rw [e1] at e3 ⊢; omega) h2
          exact ⟨a1, by omega, by rw [← e1]; exact a3⟩

/-! ## The parser does not look at the outcome bits -/

/-- A result with the outcome bits of a success. -/
def completedResult {α : Type} : EStateM.Result Stop State α → EStateM.Result Stop State α
  | .ok a t => .ok a (complete t)
  | .error e t => .error e (complete t)

/-- Run from the completed state, a piece of pseudocode does what it does from the state itself. -/
def Engine.BlindToOutcome {α : Type} (x : Engine α) : Prop := ∀ s, x (complete s) = completedResult (x s)

namespace Engine.BlindToOutcome

variable {α β : Type}

theorem bind {x : Engine α} {f : α → Engine β} (hx : x.BlindToOutcome) (hf : ∀ a, (f a).BlindToOutcome) :
    (x >>= f).BlindToOutcome := by
  intro s
  rw [Engine.bind_apply, Engine.bind_apply, hx s]
  cases x s with
  | ok a t => exact hf a t
  | error e t => rfl

theorem get_bind {f : State → Engine β} (h : ∀ s, f (complete s) = f s) (hf : ∀ s, (f s).BlindToOutcome) :
    ((get : Engine State) >>= f).BlindToOutcome := by
  intro s
  rw [Engine.get_bind, Engine.get_bind, h]
  exact hf s s

theorem pure (a : α) : (pure a : Engine α).BlindToOutcome := fun _ => rfl

theorem require (ok : Bool) (c : ErrCode) (i : Word) : (require ok c i).BlindToOutcome := by
  intro s; rw [require_apply, require_apply]; cases ok <;> rfl

theorem modifyRegs {f : Regs → Regs} (h : ∀ r : Regs, f r.completed = (f r).completed) :
    (modifyRegs f).BlindToOutcome := by
  intro s
  rw [modifyRegs_apply, modifyRegs_apply]
  show _ = EStateM.Result.ok () _
  simp [complete, h]

theorem memRead (a n : Nat) : (memRead a n).BlindToOutcome := by
  intro s
  rw [memRead_apply, memRead_apply]
  by_cases h : s.platform.holdsAll a n = true
  · rw [if_pos h]; exact if_pos h
  · rw [if_neg h]; exact if_neg h

theorem memWrite (a : Nat) (bs : List Byte) : (memWrite a bs).BlindToOutcome := by
  intro s
  rw [memWrite_apply, memWrite_apply]
  by_cases h : s.platform.holdsAll a bs.length = true
  · rw [if_pos h]; exact if_pos h
  · rw [if_neg h]; exact if_neg h

theorem ite {c : Prop} [Decidable c] {x y : Engine α} (h1 : x.BlindToOutcome) (h2 : y.BlindToOutcome) :
    (if c then x else y).BlindToOutcome := by split <;> assumption

theorem onlyIf {c : Bool} {x : Engine Unit} (h : x.BlindToOutcome) : (onlyIf c x).BlindToOutcome := by
  cases c
  · exact pure ()
  · exact h

theorem readChunk (off : Nat) : (readChunk off).BlindToOutcome :=
  get_bind (fun _ => rfl) fun _ => bind (require _ _ _) fun _ => bind (memRead _ _) fun _ => bind (require _ _ _) fun _ =>
    bind (memRead _ _) fun _ => bind (memRead _ _) fun _ => bind (modifyRegs fun _ => rfl) fun _ => pure _

theorem onMismatch (typ : List Byte) : (onMismatch typ).BlindToOutcome :=
  bind (modifyRegs fun _ => rfl) fun _ => get_bind (fun _ => rfl) fun _ => require _ _ _

theorem parseStep : parseStep.BlindToOutcome := by
  refine get_bind (fun s => rfl) fun s => ite (modifyRegs fun _ => rfl) (bind (readChunk _) fun c => ite ?_ ?_)
  · refine bind (onlyIf ?_) fun _ => bind (modifyRegs fun _ => rfl) fun _ => bind (modifyRegs fun _ => rfl) fun _ =>
      onlyIf (modifyRegs fun _ => rfl)
    exact get_bind (fun s => rfl) fun s => bind (require _ _ _) fun _ => bind (memWrite _ _) fun _ => modifyRegs fun _ => rfl
  · exact bind (onMismatch _) fun _ => modifyRegs fun _ => rfl

theorem parseLoop (n : Nat) : (parseLoop n).BlindToOutcome := by
  induction n with
  | zero => exact pure ()
  | succ n ih => exact get_bind (fun s => rfl) fun s => ite (pure ()) (bind parseStep fun _ => ih)

end Engine.BlindToOutcome

theorem runCommand_complete {x : Engine Unit} (h : x.BlindToOutcome) (s : State) :
    runCommand x (complete s) = runCommand x s := by
  unfold runCommand
  rw [h s]
  cases x s with
  | ok a t => rfl
  | error e t => cases e <;> rfl

/-! ## Chunks in memory -/

/-- A chunk depends on its own bytes only. -/
theorem chunkAt_congr {c : CrcChoice} {m m' : Memory} {base off : Nat}
    (h : ∀ a, base + off ≤ a → a < base + off + 12 + (chunkAt c m base off).len → m'.read a = m.read a) :
    chunkAt c m' base off = chunkAt c m base off := by
  have e1 : m'.readN (base + off) 4 = m.readN (base + off) 4 :=
    Memory.readN_congr (fun i hi => h _ (by omega) (by omega))
  have e2 : m'.readN (base + off + 4) 4 = m.readN (base + off + 4) 4 :=
    Memory.readN_congr (fun i hi => h _ (by omega) (by omega))
  have e3 : m'.readN (base + off + 8) (be32 (m.readN (base + off) 4) 0) =
      m.readN (base + off + 8) (be32 (m.readN (base + off) 4) 0) :=
    Memory.readN_congr (fun i hi => h _ (by omega) (by simp; omega))
  have e4 : m'.readN (base + off + 8 + be32 (m.readN (base + off) 4) 0) 4 =
      m.readN (base + off + 8 + be32 (m.readN (base + off) 4) 0) 4 :=
    Memory.readN_congr (fun i hi => h _ (by omega) (by simp; omega))
  unfold chunkAt
  simp only [e1, e2, e3, e4]

theorem chunksAt_congr {c : CrcChoice} {m m' : Memory} {base : Nat} (ks : List Chunk) : ∀ {off : Nat},
    chunksAt c m base off ks →
    (∀ a, base + off ≤ a → a < base + off + chunksSize ks → m'.read a = m.read a) → chunksAt c m' base off ks := by
  induction ks with
  | nil => intro off _ _; trivial
  | cons k ks ih =>
    intro off h hm
    obtain ⟨h1, h2⟩ := h
    simp only [chunksSize] at hm
    refine ⟨?_, ih h2 (fun a a1 a2 => hm a (by omega) (by omega))⟩
    rw [h1]
    exact (chunkAt_congr (fun a a1 a2 => hm a a1 (by rw [← h1] at a2; omega))).symm

theorem chunksSize_ge (ks : List Chunk) : 12 * ks.length ≤ chunksSize ks := by
  induction ks with
  | nil => simp [chunksSize]
  | cons k ks ih => simp only [chunksSize, List.length_cons]; omega

theorem noEarlyEnd_tail {k : Chunk} {ks : List Chunk} (h : noEarlyEnd (k :: ks)) : noEarlyEnd ks := by
  intro x hx
  refine h x ?_
  cases ks with
  | nil => simp at hx
  | cons a b => rw [List.dropLast_cons_cons]; exact List.mem_cons_of_mem _ hx

/-- A good "IEND" is the last of the chunks walked. -/
theorem noEarlyEnd_last {k : Chunk} {ks : List Chunk} (h : noEarlyEnd (k :: ks)) (hk : k.good = true ∧ k.typ = typeIEND) :
    ks = [] := by
  by_contra hks
  refine h k ?_ hk
  obtain ⟨a, b, rfl⟩ := List.exists_cons_of_ne_nil hks
  rw [List.dropLast_cons_cons]; simp

theorem endsAtIend_nil : ¬ endsAtIend [] := by rintro ⟨k, h, _⟩; simp at h

/-- Behind a chunk that is no good "IEND" the walk ends where the rest ends. -/
theorem endsAtIend_cons {k : Chunk} {ks : List Chunk} (hk : ¬ (k.good = true ∧ k.typ = typeIEND)) :
    endsAtIend (k :: ks) ↔ endsAtIend ks := by
  cases ks with
  | nil =>
    refine ⟨?_, fun h => absurd h endsAtIend_nil⟩
    rintro ⟨x, hx, h1, h2⟩
    simp at hx
    subst hx
    exact absurd ⟨h1, h2⟩ hk
  | cons a b => unfold endsAtIend; simp [List.getLast?_cons_cons]

/-! ## A walk over chunks -/

/-- The bytes a chunk adds to the payload (R109). -/
def Chunk.contribution (k : Chunk) : List Byte := if k.good = true ∧ k.typ = typeIDAT then k.data else []

theorem payloadOf_cons (k : Chunk) (ks : List Chunk) : payloadOf (k :: ks) = k.contribution ++ payloadOf ks := by
  rw [payloadOf, Chunk.contribution]; split <;> rfl

/-- The memory a parser command works on: both regions present, and apart. -/
structure ParserMemory (s : State) : Prop where
  src : s.platform.holdsAll s.regs.srcAddr.toNat s.regs.srcLen.toNat = true
  dst : s.platform.holdsAll s.regs.dstAddr.toNat s.regs.dstLen.toNat = true
  apart : ∀ a, ¬ (s.regs.dst.contains a = true ∧ s.regs.src.contains a = true)

theorem ParserMemory.of_regions {s : State} (hl : s.regionsLegal .parseAll) (hh : s.holdsRegionsOf .parseAll) :
    ParserMemory s where
  src := State.holdsAll_of_regions hh (r := s.regs.src) (.inl (by simp [regionsOf])) (Nat.le_refl _) (Nat.le_refl _)
  dst := State.holdsAll_of_regions hh (r := s.regs.dst) (.inr (by simp [regionsOf])) (Nat.le_refl _) (Nat.le_refl _)
  apart := hl.2.2 s.regs.dst (by simp [regionsOf]) s.regs.src (by simp [regionsOf])

/-- What a ParseStep that takes chunk `k` leaves (R105). -/
structure Took (s u : State) (k : Chunk) : Prop where
  platform : u.platform = s.platform
  srcAddr : u.regs.srcAddr = s.regs.srcAddr
  srcLen : u.regs.srcLen = s.regs.srcLen
  dstAddr : u.regs.dstAddr = s.regs.dstAddr
  dstLen : u.regs.dstLen = s.regs.dstLen
  ctrl : u.regs.ctrl = s.regs.ctrl
  mem : u.mem = s.mem.writeN (s.regs.dstAddr.toNat + s.regs.idatLen.toNat) k.contribution
  parseOff : u.regs.parseOff.toNat = s.regs.parseOff.toNat + 12 + k.len
  idatLen : u.regs.idatLen.toNat = s.regs.idatLen.toNat + k.contribution.length
  chunkCount : u.regs.chunkCount = s.regs.chunkCount + (if k.good then 1 else 0)
  corruptCount : u.regs.corruptCount = s.regs.corruptCount + (if k.good then 0 else 1)
  iend : u.regs.status.iend = decide (k.good = true ∧ k.typ = typeIEND)
  exhausted : u.regs.status.exhausted = false

/-- The descriptor is none of what a ParseStep's account speaks of. -/
theorem Took.of_descriptor {s u : State} {k : Chunk} {off len : Nat} {typ : List Byte} {crc : Word}
    (t : Took (s.setRegs (s.regs.setDescriptor off len typ crc)) u k) : Took s u k :=
  ⟨t.platform, t.srcAddr, t.srcLen, t.dstAddr, t.dstLen, t.ctrl, t.mem, t.parseOff, t.idatLen, t.chunkCount,
    t.corruptCount, t.iend, t.exhausted⟩

theorem word_toNat {n : Nat} (h : n < 2 ^ 32) : (BitVec.ofNat 32 n : Word).toNat = n := by
  rw [BitVec.toNat_ofNat, Nat.mod_eq_of_lt h]

/-- R105: a good IDAT that fits is taken. -/
theorem handleChunk_takes_idat {d : State} {k : Chunk} (hg : k.good = true) (ht : k.typ = typeIDAT)
    (hi : d.regs.status.iend = false) (he : d.regs.status.exhausted = false) (hdl : k.data.length = k.len)
    (hlen : d.regs.parseOff.toNat + 12 + k.len < 2 ^ 32)
    (fit : d.regs.idatLen.toNat + k.len ≤ d.regs.dstLen.toNat)
    (hold : d.platform.holdsAll (d.regs.dstAddr.toNat + d.regs.idatLen.toNat) k.data.length = true) :
    ∃ u, handleChunk d.regs.parseOff.toNat k d = .ok () u ∧ Took d u k := by
  have hd := d.regs.dstLen.isLt
  have hne : k.typ ≠ typeIEND := by rw [ht]; exact typeIDAT_ne_typeIEND
  have hc : k.contribution = k.data := by rw [Chunk.contribution, if_pos ⟨hg, ht⟩]
  rw [handleChunk, if_pos hg]
  refine ⟨_, acceptChunk_idat ht fit hold, rfl, rfl, rfl, rfl, rfl, rfl, ?_, ?_, ?_, ?_, ?_, ?_, ?_⟩
  · rw [hc]; rfl
  · exact word_toNat hlen
  · rw [hc, hdl]; exact word_toNat (by omega)
  · simp [hg]
  · simp [hg]
  · simp [hi, hne]
  · simp [he]

/-- R105, R106: a good chunk of another type is taken. -/
theorem handleChunk_takes_other {d : State} {k : Chunk} (hg : k.good = true) (ht : k.typ ≠ typeIDAT)
    (hi : d.regs.status.iend = false) (he : d.regs.status.exhausted = false)
    (hlen : d.regs.parseOff.toNat + 12 + k.len < 2 ^ 32) :
    ∃ u, handleChunk d.regs.parseOff.toNat k d = .ok () u ∧ Took d u k := by
  have hc : k.contribution = [] := by rw [Chunk.contribution, if_neg (by tauto)]
  rw [handleChunk, if_pos hg]
  refine ⟨_, acceptChunk_other ht d, ?_⟩
  by_cases hx : k.typ = typeIEND
  · rw [if_pos hx]
    refine ⟨rfl, rfl, rfl, rfl, rfl, rfl, by rw [hc]; rfl, word_toNat hlen, by rw [hc]; rfl, ?_, ?_, ?_, ?_⟩ <;>
      simp [hg, he, hx]
  · rw [if_neg hx]
    refine ⟨rfl, rfl, rfl, rfl, rfl, rfl, by rw [hc]; rfl, word_toNat hlen, by rw [hc]; rfl, ?_, ?_, ?_, ?_⟩ <;>
      simp [hg, hi, he, hx]

/-- R102, R105: a chunk that is not good is stepped over under the skip policy. -/
theorem handleChunk_skips {d : State} {k : Chunk} (hg : k.good = false) (hskip : d.regs.ctrl.crcSkip = true)
    (hi : d.regs.status.iend = false) (he : d.regs.status.exhausted = false)
    (hlen : d.regs.parseOff.toNat + 12 + k.len < 2 ^ 32) :
    ∃ u, handleChunk d.regs.parseOff.toNat k d = .ok () u ∧ Took d u k := by
  have hc : k.contribution = [] := by rw [Chunk.contribution, if_neg (by simp [hg])]
  have hm := onMismatch_apply k.typ d
  rw [if_pos hskip] at hm
  rw [handleChunk, if_neg (by simp [hg]), Engine.bind_ok hm]
  refine ⟨_, advanceCursor_apply _ _ _, ?_⟩
  refine ⟨rfl, rfl, rfl, rfl, rfl, rfl, by rw [hc]; rfl, word_toNat hlen, by rw [hc]; rfl, ?_, ?_, ?_, ?_⟩ <;>
    simp [hg, hi, he]

/-- The state once chunk `k` has been read at the cursor (R100). -/
def State.described (s : State) (k : Chunk) : State :=
  s.setRegs (s.regs.setDescriptor s.regs.parseOff.toNat k.len k.typ
    (storedCrcAt s.mem s.regs.srcAddr.toNat s.regs.parseOff.toNat))

/-- R105: a ParseStep takes a chunk that lies inside the stream, is good or may be skipped, and fits. -/
theorem parseStep_takes {s : State} {k : Chunk} (pm : ParserMemory s)
    (hi : s.regs.status.iend = false) (he : s.regs.status.exhausted = false)
    (hk : k = chunkAt s.platform.crc s.mem s.regs.srcAddr.toNat s.regs.parseOff.toNat)
    (hgood : s.regs.ctrl.crcSkip = true ∨ k.good = true)
    (hlen : s.regs.parseOff.toNat + 12 + k.len ≤ s.regs.srcLen.toNat)
    (hcap : s.regs.idatLen.toNat + k.contribution.length ≤ s.regs.dstLen.toNat) :
    ∃ u, parseStep s = .ok () u ∧ Took s u k := by
  have hb := s.regs.srcLen.isLt
  have hdl : k.data.length = k.len := by rw [hk]; exact chunkAt_data_length ..
  have hr := readChunk_ok hk (by omega) (holdsAll_sub pm.src (by omega) (by omega))
  rw [parseStep_inside (by omega), Engine.bind_ok hr]
  have hoff : s.regs.parseOff.toNat + 12 + k.len < 2 ^ 32 := by omega
  have key : ∃ u, handleChunk s.regs.parseOff.toNat k (s.described k) = .ok () u ∧ Took (s.described k) u k := by
    by_cases hg : k.good = true
    · by_cases ht : k.typ = typeIDAT
      · rw [Chunk.contribution, if_pos ⟨hg, ht⟩, hdl] at hcap
        refine handleChunk_takes_idat (d := s.described k) hg ht hi he hdl hoff hcap
          (holdsAll_sub (p := s.platform) pm.dst (Nat.le_add_right _ _) ?_)
        show s.regs.dstAddr.toNat + s.regs.idatLen.toNat + k.data.length ≤ _
        omega
      · exact handleChunk_takes_other (d := s.described k) hg ht hi he hoff
    · exact handleChunk_skips (d := s.described k) (by simpa using hg) (hgood.resolve_right hg) hi he hoff
  obtain ⟨u, hu, tk⟩ := key
  exact ⟨u, hu, tk.of_descriptor⟩

/-- What a walk over the chunks `ks` leaves (R107, R109). -/
structure Walked (s t : State) (ks : List Chunk) : Prop where
  parseOff : t.regs.parseOff = BitVec.ofNat 32 (s.regs.parseOff.toNat + chunksSize ks)
  idatLen : t.regs.idatLen = BitVec.ofNat 32 (s.regs.idatLen.toNat + (payloadOf ks).length)
  payload : t.mem.readN (s.regs.dstAddr.toNat + s.regs.idatLen.toNat) (payloadOf ks).length = payloadOf ks
  outside : ∀ a, a < s.regs.dstAddr.toNat + s.regs.idatLen.toNat ∨
    s.regs.dstAddr.toNat + s.regs.idatLen.toNat + (payloadOf ks).length ≤ a → t.mem.read a = s.mem.read a
  chunkCount : t.regs.chunkCount = s.regs.chunkCount + BitVec.ofNat 32 (ks.filter (fun k => k.good)).length
  corruptCount : t.regs.corruptCount = s.regs.corruptCount + BitVec.ofNat 32 (ks.filter (fun k => !k.good)).length
  iend : endsAtIend ks → t.regs.status.iend = true ∧ t.regs.status.exhausted = false
  exhausted : ¬ endsAtIend ks → t.regs.status.iend = false ∧ t.regs.status.exhausted = true

/-- A walk over one chunk that ends the sequence. -/
theorem Took.walked {s u : State} {k : Chunk} (tk : Took s u k) (hk : k.good = true ∧ k.typ = typeIEND) : Walked s u [k] := by
  have hc : k.contribution = [] := by
    rw [Chunk.contribution, if_neg]; rw [hk.2]; exact fun h => typeIDAT_ne_typeIEND h.2.symm
  have hp : payloadOf [k] = [] := by rw [payloadOf_cons, hc]; rfl
  have hm : u.mem = s.mem := by rw [tk.mem, hc]; rfl
  have hend : endsAtIend [k] := ⟨k, rfl, hk.1, hk.2⟩
  refine ⟨?_, ?_, ?_, ?_, ?_, ?_, ?_, ?_⟩
  · have hlt := u.regs.parseOff.isLt
    rw [tk.parseOff] at hlt
    apply BitVec.eq_of_toNat_eq
    rw [BitVec.toNat_ofNat, Nat.mod_eq_of_lt (by simp only [chunksSize]; omega), tk.parseOff]
    simp only [chunksSize]; omega
  · rw [hp]; apply BitVec.eq_of_toNat_eq; rw [tk.idatLen, hc]; simp
  · rw [hp]; rfl
  · intro a _; rw [hm]
  · rw [tk.chunkCount]; simp [hk.1]
  · rw [tk.corruptCount]; simp [hk.1]
  · intro _; exact ⟨by rw [tk.iend]; simp [hk], tk.exhausted⟩
  · intro h; exact absurd hend h

/-- A walk goes on behind a chunk it took. -/
theorem Took.walk {s u t : State} {k : Chunk} {ks : List Chunk} (tk : Took s u k)
    (hk : ¬ (k.good = true ∧ k.typ = typeIEND)) (w : Walked u t ks) : Walked s t (k :: ks) := by
  have e1 : s.regs.dstAddr.toNat + s.regs.idatLen.toNat + k.contribution.length = u.regs.dstAddr.toNat + u.regs.idatLen.toNat := by
    rw [tk.dstAddr, tk.idatLen]; omega
  have hm : ∀ a, a < s.regs.dstAddr.toNat + s.regs.idatLen.toNat ∨
      s.regs.dstAddr.toNat + s.regs.idatLen.toNat + k.contribution.length ≤ a → u.mem.read a = s.mem.read a := by
    intro a ha; rw [tk.mem]; exact Memory.read_writeN_outside _ _ _ ha
  refine ⟨?_, ?_, ?_, ?_, ?_, ?_, ?_, ?_⟩
  · rw [w.parseOff, tk.parseOff]; simp only [chunksSize]; congr 1; omega
  · rw [w.idatLen, tk.idatLen, payloadOf_cons, List.length_append]; congr 1; omega
  · rw [payloadOf_cons, List.length_append, Memory.readN_append]
    congr 1
    · have : t.mem.readN (s.regs.dstAddr.toNat + s.regs.idatLen.toNat) k.contribution.length =
          u.mem.readN (s.regs.dstAddr.toNat + s.regs.idatLen.toNat) k.contribution.length :=
        Memory.readN_congr (fun i hi => w.outside _ (by omega))
      rw [this, tk.mem]
      exact Memory.readN_writeN_same _ _ _
    · rw [e1]; exact w.payload
  · intro a ha
    rw [payloadOf_cons, List.length_append] at ha
    rw [w.outside a (by omega)]
    exact hm a (by omega)
  · rw [w.chunkCount, tk.chunkCount]; cases hg : k.good <;> simp [hg, BitVec.ofNat_add, BitVec.add_assoc, BitVec.add_comm]
  · rw [w.corruptCount, tk.corruptCount]; cases hg : k.good <;> simp [hg, BitVec.ofNat_add, BitVec.add_assoc, BitVec.add_comm]
  · rw [endsAtIend_cons hk]; exact w.iend
  · rw [endsAtIend_cons hk]; exact w.exhausted

/-- R107, R109: the walk over chunks that stand one behind the other up to a good "IEND" or the end of the stream. -/
theorem parseLoop_walks (ks : List Chunk) : ∀ (s : State) (n : Nat), ParserMemory s →
    s.regs.status.iend = false → s.regs.status.exhausted = false →
    chunksAt s.platform.crc s.mem s.regs.srcAddr.toNat s.regs.parseOff.toNat ks →
    (s.regs.ctrl.crcSkip = true ∨ ∀ k ∈ ks, k.good = true) → noEarlyEnd ks →
    s.regs.parseOff.toNat + chunksSize ks ≤ s.regs.srcLen.toNat →
    (endsAtIend ks ∨ s.regs.parseOff.toNat + chunksSize ks = s.regs.srcLen.toNat) →
    s.regs.idatLen.toNat + (payloadOf ks).length ≤ s.regs.dstLen.toNat → ks.length < n →
    ∃ t, parseLoop n s = .ok () t ∧ Walked s t ks := by
  induction ks with
  | nil =>
    intro s n pm hi he _ _ _ _ hend _ hn
    have hoff : s.regs.parseOff.toNat = s.regs.srcLen.toNat := by simpa [endsAtIend_nil, chunksSize] using hend
    obtain ⟨n, rfl⟩ : ∃ k, n = k + 1 := ⟨n - 1, by simp at hn; omega⟩
    refine ⟨s.setRegs s.regs.setExhausted, ?_, ?_⟩
    · rw [parseLoop_next (by simp [Regs.sequenceEnded, hi, he]), Engine.bind_ok (parseStep_atEnd hoff),
        parseLoop_ended (by simp [Regs.sequenceEnded])]
    · exact ⟨by simp [chunksSize], by simp [payloadOf], by simp [payloadOf], fun _ _ => rfl, by simp, by simp,
        fun h => absurd h endsAtIend_nil, fun _ => ⟨hi, rfl⟩⟩
  | cons k ks ih =>
    intro s n pm hi he hch hgood hearly hsz hend hcap hn
    obtain ⟨hk, hrest⟩ := hch
    obtain ⟨n, rfl⟩ : ∃ k, n = k + 1 := ⟨n - 1, by simp at hn; omega⟩
    simp only [chunksSize, List.length_cons] at hsz hend hn
    rw [payloadOf_cons, List.length_append] at hcap
    obtain ⟨u, hu, tk⟩ := parseStep_takes pm hi he hk (hgood.imp id (fun h => h k (by simp))) (by omega) (by omega)
    rw [parseLoop_next (by simp [Regs.sequenceEnded, hi, he]), Engine.bind_ok hu]
    by_cases hlast : k.good = true ∧ k.typ = typeIEND
    · obtain rfl := noEarlyEnd_last hearly hlast
      exact ⟨u, parseLoop_ended (by simp [Regs.sequenceEnded, tk.iend, hlast]), tk.walked hlast⟩
    · have hpm : ParserMemory u := by
        refine ⟨by rw [tk.platform, tk.srcAddr, tk.srcLen]; exact pm.src,
          by rw [tk.platform, tk.dstAddr, tk.dstLen]; exact pm.dst, ?_⟩
        simpa only [Regs.dst, Regs.src, tk.srcAddr, tk.srcLen, tk.dstAddr, tk.dstLen] using pm.apart
      have hmem : ∀ a, s.regs.srcAddr.toNat ≤ a → a < s.regs.srcAddr.toNat + s.regs.srcLen.toNat →
          u.mem.read a = s.mem.read a := by
        intro a h1 h2
        rw [tk.mem]
        refine Memory.read_writeN_outside _ _ _ ?_
        have := pm.apart a
        simp only [Region.contains_iff, Regs.src, Regs.dst] at this
        omega
      obtain ⟨t, ht, w⟩ := ih u n hpm (by rw [tk.iend]; simpa using hlast) tk.exhausted
        (by rw [tk.platform, tk.srcAddr, tk.parseOff]
            exact chunksAt_congr ks hrest (fun a a1 a2 => hmem a (by omega) (by omega)))
        (by rw [tk.ctrl]; exact hgood.imp id (fun h x hx => h x (List.mem_cons_of_mem _ hx)))
        (noEarlyEnd_tail hearly) (by rw [tk.parseOff, tk.srcLen]; omega)
        (by rw [tk.parseOff, tk.srcLen, ← endsAtIend_cons hlast]
            rcases hend with h | h
            · exact .inl h
            · exact .inr (by omega))
        (by rw [tk.idatLen, tk.dstLen]; omega) (by omega)
      exact ⟨t, ht, tk.walk hlast w⟩

end Sys2Proof.Machine
end

