-- ==== Sys2Proof/Laws/Assembler.lean ====
section
/-! SUPPORT. Laws of the assembler (R165 to R170): the walk over a list of chunks, what a run of emissions leaves in memory, and
how an emission that fails leaves the output. -/

namespace Sys2Proof.Machine

/-! ## The walk (R167) -/

theorem SameStream.of_descriptor (s : State) (off len : Nat) (typ : List Byte) (crc : Word) :
    SameStream s (s.setRegs (s.regs.setDescriptor off len typ crc)) := ⟨rfl, rfl, rfl, rfl, rfl, rfl, rfl⟩

theorem SameStream.srcAddr {s t : State} (h : SameStream s t) : t.regs.srcAddr = s.regs.srcAddr :=
  BitVec.eq_of_toNat_eq (congrArg Region.base h.src)

theorem SameStream.srcLen {s t : State} (h : SameStream s t) : t.regs.srcLen = s.regs.srcLen :=
  BitVec.eq_of_toNat_eq (congrArg Region.len h.src)

/-- R167: the walk over chunks that stand one behind the other: to a good "IEND" it answers the good chunks; to the end of the stream it is STREAM_TRUNCATED. -/
theorem walkChunks_over (ks : List Chunk) : ∀ (s : State) (off fuel : Nat), s.platform.holdsAll s.regs.srcAddr.toNat s.regs.srcLen.toNat = true →
    chunksAt s.platform.crc s.mem s.regs.srcAddr.toNat off ks →
    (s.regs.ctrl.crcSkip = true ∨ ∀ k ∈ ks, k.good = true) → noEarlyEnd ks →
    off + chunksSize ks ≤ s.regs.srcLen.toNat → ks.length < fuel →
    (endsAtIend ks → ∃ t, walkChunks off fuel s = .ok (keptChunks off ks) t) ∧
    (¬ endsAtIend ks → off + chunksSize ks = s.regs.srcLen.toNat → ∃ t, walkChunks off fuel s = .error (.raised .streamTruncated s.regs.srcLen) t) := by
  induction ks with
  | nil =>
    intro s off fuel _ _ _ _ _ hf
    obtain ⟨fuel, rfl⟩ : ∃ k, fuel = k + 1 := ⟨fuel - 1, by simp at hf; omega⟩
    refine ⟨fun ⟨k, h, _⟩ => by simp at h, fun _ h => ⟨s, ?_⟩⟩
    simp only [chunksSize, Nat.add_zero] at h
    rw [walkChunks, Engine.get_bind, if_pos h, raise_apply, h]; simp
  | cons k ks ih =>
    intro s off fuel hh hch hgood hearly hsz hf
    obtain ⟨hk, hrest⟩ := hch
    obtain ⟨fuel, rfl⟩ : ∃ k, fuel = k + 1 := ⟨fuel - 1, by simp at hf; omega⟩
    simp only [chunksSize, List.length_cons] at hsz hf
    have hrd := readChunk_ok hk (by omega) (holdsAll_sub hh (by omega) (by omega))
    have hw : walkChunks off (fuel+1) s = (if k.good then if k.typ = typeIEND then pure [⟨off, k.len, k.typ⟩] else do { let rest ← walkChunks (off+12+k.len) fuel; pure (⟨off,k.len,k.typ⟩ :: rest) } else do { onMismatch k.typ; walkChunks (off+12+k.len) fuel } : Engine (List KeptChunk)) (s.setRegs (s.regs.setDescriptor off k.len k.typ (storedCrcAt s.mem s.regs.srcAddr.toNat off))) := by
      rw [walkChunks, Engine.get_bind, if_neg (by omega), Engine.bind_ok hrd]
    have hearly' := noEarlyEnd_tail hearly
    have hgood' : s.regs.ctrl.crcSkip = true ∨ ∀ k ∈ ks, k.good = true := hgood.imp id (fun h x hx => h x (List.mem_cons_of_mem _ hx))
    by_cases hlast : k.good = true ∧ k.typ = typeIEND
    · obtain rfl := noEarlyEnd_last hearly hlast
      rw [if_pos hlast.1, if_pos hlast.2] at hw
      refine ⟨fun _ => ⟨(s.setRegs (s.regs.setDescriptor off k.len k.typ (storedCrcAt s.mem s.regs.srcAddr.toNat off))), ?_⟩, fun h => absurd ⟨k, rfl, hlast.1, hlast.2⟩ h⟩
      rw [hw, keptChunks, if_pos hlast.1]; rfl
    · rw [endsAtIend_cons hlast]
      simp only [chunksSize]
      have recur : ∀ u : State, SameStream s u → 
          (endsAtIend ks → ∃ t, walkChunks (off + 12 + k.len) fuel u = .ok (keptChunks (off + 12 + k.len) ks) t) ∧
    (¬ endsAtIend ks → off + 12 + k.len + chunksSize ks = s.regs.srcLen.toNat → ∃ t, walkChunks (off + 12 + k.len) fuel u = .error (.raised .streamTruncated s.regs.srcLen) t) := by
        intro u hu
        have us1 : u.regs.srcAddr = s.regs.srcAddr := BitVec.eq_of_toNat_eq (congrArg Region.base hu.src)
        have us2 : u.regs.srcLen = s.regs.srcLen := BitVec.eq_of_toNat_eq (congrArg Region.len hu.src)
        have := ih u (off + 12 + k.len) fuel (by rw [hu.platform, us1, us2]; exact hh) (by rw [hu.platform, hu.mem, us1]; exact hrest) (by rw [hu.ctrl]; exact hgood') hearly' (by rw [us2]; omega) (by omega)
        rwa [us2] at this
      cases hg : k.good with
      | true =>
        rw [if_pos hg, if_neg (fun h => hlast ⟨hg, h⟩)] at hw
        obtain ⟨r1, r2⟩ := recur _ (SameStream.of_descriptor s _ _ _ _)
        refine ⟨fun h => ?_, fun h h' => ?_⟩
        · obtain ⟨t, ht⟩ := r1 h
          exact ⟨t, by rw [hw, Engine.bind_ok ht, keptChunks, if_pos hg]; rfl⟩
        · obtain ⟨t, ht⟩ := r2 h (by omega)
          exact ⟨t, by rw [hw, Engine.bind_error ht]⟩
      | false =>
        have hskip : s.regs.ctrl.crcSkip = true := by
          rcases hgood with h | h
          · exact h
          · have := h k (by simp); rw [hg] at this; cases this
        have hm := onMismatch_apply k.typ (s.setRegs (s.regs.setDescriptor off k.len k.typ (storedCrcAt s.mem s.regs.srcAddr.toNat off)))
        rw [if_pos (by simpa using hskip)] at hm
        rw [if_neg (by simp [hg])] at hw
        have hw2 := hw.trans (Engine.bind_ok hm)
        obtain ⟨r1, r2⟩ := recur ((s.setRegs (s.regs.setDescriptor off k.len k.typ (storedCrcAt s.mem s.regs.srcAddr.toNat off))).setRegs ((s.setRegs (s.regs.setDescriptor off k.len k.typ (storedCrcAt s.mem s.regs.srcAddr.toNat off))).regs.recordMismatch k.typ)) ⟨rfl, rfl, rfl, rfl, rfl, rfl, rfl⟩
        refine ⟨fun h => ?_, fun h h' => ?_⟩
        · obtain ⟨t, ht⟩ := r1 h
          exact ⟨t, by rw [hw2]; rw [keptChunks, if_neg (by simp [hg])]; exact ht⟩
        · obtain ⟨t, ht⟩ := r2 h (by omega)
          exact ⟨t, by rw [hw2]; exact ht⟩

/-- No good "IEND" stands among chunks that the walk passes without ending. -/
theorem noEnd_of_notEnding {ks : List Chunk} (he : noEarlyEnd ks) (hn : ¬ endsAtIend ks) :
    ∀ k ∈ ks, ¬ (k.good = true ∧ k.typ = typeIEND) := by
  induction ks with
  | nil => simp
  | cons k ks ih =>
    have hk : ¬ (k.good = true ∧ k.typ = typeIEND) := by
      intro h
      obtain rfl := noEarlyEnd_last he h
      exact hn ⟨k, rfl, h⟩
    rw [endsAtIend_cons hk] at hn
    intro x hx
    rcases List.mem_cons.1 hx with rfl | hx
    · exact hk
    · exact ih (noEarlyEnd_tail he) hn x hx

/-- R102, R167: the walk comes past chunks of which none ends it: it keeps the good ones, counts the others, and goes on behind them. -/
theorem walkChunks_past (ks : List Chunk) : ∀ (s : State) (off fuel : Nat),
    s.platform.holdsAll s.regs.srcAddr.toNat s.regs.srcLen.toNat = true →
    chunksAt s.platform.crc s.mem s.regs.srcAddr.toNat off ks →
    (s.regs.ctrl.crcSkip = true ∨ ∀ k ∈ ks, k.good = true) →
    (∀ k ∈ ks, ¬ (k.good = true ∧ k.typ = typeIEND)) → off + chunksSize ks ≤ s.regs.srcLen.toNat →
    ∃ t, SameStream s t ∧
      t.regs.corruptCount = s.regs.corruptCount + BitVec.ofNat 32 (ks.filter (fun k => !k.good)).length ∧
      walkChunks off (fuel + ks.length) s =
        (walkChunks (off + chunksSize ks) fuel >>= fun rest => pure (keptChunks off ks ++ rest)) t := by
  induction ks with
  | nil =>
    intro s off fuel _ _ _ _ _
    refine ⟨s, SameStream.refl s, by simp, ?_⟩
    rw [Engine.bind_apply]
    show walkChunks off fuel s = _
    simp only [chunksSize, Nat.add_zero, keptChunks, List.nil_append]
    cases walkChunks off fuel s <;> rfl
  | cons k ks ih =>
    intro s off fuel hh hch hgood hend hsz
    obtain ⟨hk, hrest⟩ := hch
    simp only [chunksSize] at hsz ⊢
    have hrd := readChunk_ok hk (by omega) (holdsAll_sub hh (by omega) (by omega))
    have recur : ∀ u : State, SameStream s u → _ := fun u hu => ih u (off + 12 + k.len) fuel
      (by rw [hu.platform, SameStream.srcAddr hu, SameStream.srcLen hu]; exact hh)
      (by rw [hu.platform, hu.mem, SameStream.srcAddr hu]; exact hrest)
      (by rw [hu.ctrl]; exact hgood.imp id (fun h x hx => h x (List.mem_cons_of_mem _ hx)))
      (fun x hx => hend x (List.mem_cons_of_mem _ hx)) (by rw [SameStream.srcLen hu]; omega)
    rw [show off + (12 + k.len + chunksSize ks) = off + 12 + k.len + chunksSize ks by omega]
    rw [show fuel + (k :: ks).length = (fuel + ks.length) + 1 from rfl, walkChunks, Engine.get_bind, if_neg (by omega),
      Engine.bind_ok hrd]
    cases hg : k.good with
    | true =>
      have ht : k.typ ≠ typeIEND := fun h => hend k (by simp) ⟨hg, h⟩
      obtain ⟨t, h1, h2, h3⟩ := recur _ (SameStream.of_descriptor s off k.len k.typ (storedCrcAt s.mem s.regs.srcAddr.toNat off))
      refine ⟨t, SameStream.trans _ _ _ (SameStream.of_descriptor s _ _ _ _) h1, by rw [h2]; simp [hg, Regs.setDescriptor], ?_⟩
      rw [if_pos rfl, if_neg ht, Engine.bind_apply, h3, Engine.bind_apply, Engine.bind_apply, keptChunks, if_pos hg]
      cases walkChunks (off + 12 + k.len + chunksSize ks) fuel t <;> rfl
    | false =>
      have hskip : s.regs.ctrl.crcSkip = true := by
        rcases hgood with h | h
        · exact h
        · exact absurd (h k (by simp)) (by simp [hg])
      have hm := onMismatch_apply k.typ (s.setRegs (s.regs.setDescriptor off k.len k.typ (storedCrcAt s.mem s.regs.srcAddr.toNat off)))
      rw [if_pos (by simpa [Regs.setDescriptor] using hskip)] at hm
      have hss : SameStream s ((s.setRegs (s.regs.setDescriptor off k.len k.typ (storedCrcAt s.mem s.regs.srcAddr.toNat off))).setRegs
          ((s.regs.setDescriptor off k.len k.typ (storedCrcAt s.mem s.regs.srcAddr.toNat off)).recordMismatch k.typ)) :=
        ⟨rfl, rfl, rfl, rfl, rfl, rfl, rfl⟩
      obtain ⟨t, h1, h2, h3⟩ := recur _ hss
      refine ⟨t, SameStream.trans _ _ _ hss h1, ?_, ?_⟩
      · rw [h2]
        simp [hg, Regs.setDescriptor, Regs.recordMismatch, BitVec.ofNat_add, BitVec.add_assoc, BitVec.add_comm]
      · rw [if_neg (by simp), Engine.bind_ok hm, keptChunks, if_neg (by simp [hg])]
        exact h3

/-! ## Emission (R166) -/

/-- The output so far: `out` stands at DST, and nothing else differs from the state the emissions began with. -/
structure Emitted (s0 s : State) (out : List Byte) : Prop where
  regs : s.regs = s0.regs
  platform : s.platform = s0.platform
  at_ : s.mem.readN s0.regs.dstAddr.toNat out.length = out
  outside : ∀ a, a < s0.regs.dstAddr.toNat ∨ s0.regs.dstAddr.toNat + out.length ≤ a → s.mem.read a = s0.mem.read a

/-- R166: an emission that fits puts its bytes behind the output. -/
theorem emit_appends {s0 s : State} {out bs : List Byte} (h : Emitted s0 s out) (hd : s0.platform.holdsAll s0.regs.dstAddr.toNat s0.regs.dstLen.toNat = true)
   (hc : (out ++ bs).length ≤ s0.regs.dstLen.toNat) : ∃ t, emit out.length bs s = .ok (out ++ bs).length t ∧ Emitted s0 t (out ++ bs) := by
  rw [List.length_append] at hc
  refine ⟨s.setMem (s.mem.writeN (s0.regs.dstAddr.toNat + out.length) bs), ?_, ?_⟩
  · unfold emit
    rw [Engine.get_bind, h.regs, if_neg (by omega), memWrite_bind, if_pos (by rw [h.platform]; exact holdsAll_sub hd (by omega) (by omega))]
    simp
  · refine ⟨h.regs, h.platform, ?_, ?_⟩
    · rw [List.length_append, Memory.readN_append]
      congr 1
      · rw [State.setMem_mem, Memory.readN_writeN_outside _ _ _ (by omega)]; exact h.at_
      · exact Memory.readN_writeN_same _ _ _
    · intro a ha
      rw [List.length_append] at ha
      rw [State.setMem_mem, Memory.read_writeN_outside _ _ _ (by omega)]
      exact h.outside a (by omega)

/-- R166: the original bytes of a chunk, which the emissions have not touched. -/
theorem verbatim_original {s0 s : State} {out : List Byte} {c : KeptChunk} (h : Emitted s0 s out) (hs : s0.platform.holdsAll s0.regs.srcAddr.toNat s0.regs.srcLen.toNat = true)
   (hap : ∀ a, ¬ ((s0.regs.dst).contains a = true ∧ (s0.regs.src).contains a = true)) (hc : out.length ≤ s0.regs.dstLen.toNat) (hin : c.off + 12 + c.len ≤ s0.regs.srcLen.toNat) :
   verbatim c s = .ok (verbatimBytes s0.mem s0.regs.srcAddr.toNat c) s := by
  unfold verbatim
  rw [Engine.get_bind, h.regs, memRead_apply, if_pos (by rw [h.platform]; exact holdsAll_sub hs (by omega) (by omega))]
  have : s.mem.readN (s0.regs.srcAddr.toNat + c.off) (12 + c.len) = verbatimBytes s0.mem s0.regs.srcAddr.toNat c := by
    unfold verbatimBytes
    refine Memory.readN_congr (fun i hi => h.outside _ ?_)
    have := hap (s0.regs.srcAddr.toNat + c.off + i)
    simp only [Region.contains_iff, Regs.src, Regs.dst] at this
    omega
  rw [this]

/-- R168: the emissions of variant (a). -/
theorem emitVariantA_emits {s0 : State} {p new : List Byte} (hs : s0.platform.holdsAll s0.regs.srcAddr.toNat s0.regs.srcLen.toNat = true) (hd : s0.platform.holdsAll s0.regs.dstAddr.toNat s0.regs.dstLen.toNat = true)
   (hap : ∀ a, ¬ ((s0.regs.dst).contains a = true ∧ (s0.regs.src).contains a = true)) (hnew : new = newIdat s0.platform.crc p)
   (cs : List KeptChunk) : ∀ (s : State) (out : List Byte) (b : Bool), (∀ c ∈ cs, c.off + 12 + c.len ≤ s0.regs.srcLen.toNat) → Emitted s0 s out → 
    (out ++ variantABytes s0.mem s0.regs.srcAddr.toNat new b cs).length ≤ s0.regs.dstLen.toNat →
    ∃ t, emitVariantA p out.length b cs s = .ok (out ++ variantABytes s0.mem s0.regs.srcAddr.toNat new b cs).length t ∧ Emitted s0 t (out ++ variantABytes s0.mem s0.regs.srcAddr.toNat new b cs) := by
  induction cs with
  | nil => intro s out b _ h _; exact ⟨s, by simp [variantABytes, emitVariantA], by simpa [variantABytes] using h⟩
  | cons c rest ih =>
    intro s out b hin h hc
    have hin' : ∀ c ∈ rest, c.off + 12 + c.len ≤ s0.regs.srcLen.toNat := fun c hc => hin c (List.mem_cons_of_mem _ hc)
    rw [emitVariantA]
    by_cases ht : c.typ = typeIDAT
    · cases b with
      | true =>
        rw [variantABytes, if_pos ht, if_pos rfl] at hc ⊢
        rw [if_pos ht, if_pos rfl]
        exact ih s out true hin' h hc
      | false =>
        rw [variantABytes, if_pos ht, if_neg (by simp)] at hc ⊢
        rw [if_pos ht, if_neg (by simp), Engine.get_bind, h.platform, ← hnew]
        rw [← List.append_assoc] at hc ⊢
        obtain ⟨t, h1, h2⟩ := emit_appends (bs := new) h hd (by rw [List.length_append] at hc; omega)
        rw [Engine.bind_ok h1]
        exact ih t _ true hin' h2 hc
    · rw [variantABytes, if_neg ht] at hc ⊢
      rw [if_neg ht]
      rw [← List.append_assoc] at hc ⊢
      have hl : (out ++ verbatimBytes s0.mem s0.regs.srcAddr.toNat c).length ≤ s0.regs.dstLen.toNat := by rw [List.length_append] at hc; omega
      rw [Engine.bind_ok (verbatim_original h hs hap (by rw [List.length_append] at hl; omega) (hin c (by simp)))]
      obtain ⟨t, h1, h2⟩ := emit_appends (bs := verbatimBytes s0.mem s0.regs.srcAddr.toNat c) h hd hl
      rw [Engine.bind_ok h1]
      exact ih t _ b hin' h2 hc

theorem Emitted.start (s : State) : Emitted s s [] := ⟨rfl, rfl, rfl, fun _ _ => rfl⟩

/-- A good chunk of a type is kept (R167). -/
theorem keptChunks_any_idat (ks : List Chunk) : ∀ off, (∃ k ∈ ks, k.good = true ∧ k.typ = typeIDAT) → (keptChunks off ks).any (fun c => c.typ == typeIDAT) = true := by
  induction ks with
  | nil => intro off ⟨k, h, _⟩; simp at h
  | cons k ks ih =>
    intro off ⟨x, hx, h1, h2⟩
    rw [keptChunks]
    rcases List.mem_cons.1 hx with rfl | hx
    · rw [if_pos h1]; simp [h2]
    · split
      · rw [List.any_cons, ih _ ⟨x, hx, h1, h2⟩, Bool.or_true]
      · exact ih _ ⟨x, hx, h1, h2⟩

/-- No kept chunk has a type that no good chunk has (R167). -/
theorem keptChunks_typ (ks : List Chunk) (ty : List Byte) : ∀ off, (∀ k ∈ ks, ¬ (k.good = true ∧ k.typ = ty)) → ∀ c ∈ keptChunks off ks, c.typ ≠ ty := by
  induction ks with
  | nil => intro off _ c hc; simp [keptChunks] at hc
  | cons k ks ih =>
    intro off h c hc
    rw [keptChunks] at hc
    have hr : ∀ k ∈ ks, ¬ (k.good = true ∧ k.typ = ty) := fun x hx => h x (List.mem_cons_of_mem _ hx)
    split at hc
    · next hg =>
      rcases List.mem_cons.1 hc with rfl | hc
      · exact fun ht => h k (by simp) ⟨hg, ht⟩
      · exact ih _ hr c hc
    · exact ih _ hr c hc

/-! ## The body of ASSEMBLE up to the emissions -/

/-- A stream that ASSEMBLE walks to its end. -/
structure AssembleInput (s : State) (ks : List Chunk) : Prop where
  legal : s.regionsLegal .assemble
  held : s.holdsRegionsOf .assemble
  len8 : 8 ≤ s.regs.srcLen.toNat 
  chunks : chunksAt s.platform.crc s.mem s.regs.srcAddr.toNat 8 ks
  good : (s.regs.ctrl.crcSkip = true ∨ ∀ k ∈ ks, k.good = true)
  early : noEarlyEnd ks
  size : 8 + chunksSize ks ≤ s.regs.srcLen.toNat

/-- R167: on such a stream the walk keeps the good chunks, and the emissions of the chosen variant follow. -/
theorem AssembleInput.walks {s : State} {ks : List Chunk} (p : AssembleInput s ks) (hend : endsAtIend ks) : ∃ t, walkChunks 8 (walkFuel s.regs) s = .ok (keptChunks 8 ks) t ∧ SameStream s t ∧
    (∀ c ∈ keptChunks 8 ks, c.off + 12 + c.len ≤ s.regs.srcLen.toNat) ∧ 
     assembleBody s = (emitVariant s.regs.ctrl.ancReduced (keptChunks 8 ks) (s.mem.readN s.regs.auxAddr.toNat s.regs.auxLen.toNat) >>= setOutLen) t := by
  have := chunksSize_ge ks
  have hsz := p.size
  obtain ⟨t, ht⟩ := (walkChunks_over ks s 8 (walkFuel s.regs) (State.holdsAll_of_regions p.held (r := s.regs.src) (.inl (by simp [regionsOf])) (Nat.le_refl _) (Nat.le_refl _)) p.chunks p.good p.early p.size (by unfold walkFuel; omega)).1 hend
  have hss := Engine.keeps_ok (keeps_walkChunks _ _) ht
  refine ⟨t, ht, hss, walkChunks_inside _ ht, ?_⟩
  unfold assembleBody
  rw [Engine.bind_ok (checkRegions_ok p.legal), Engine.bind_ok (by rw [checkStream_apply]; exact if_pos p.len8), Engine.get_bind, Engine.bind_ok ht, memRead_bind, if_pos, hss.mem]
  rw [hss.platform]
  exact State.holdsAll_of_regions p.held (r := s.regs.aux) (.inl (by simp [regionsOf])) (Nat.le_refl _) (Nat.le_refl _)

/-! ## Emissions that fail (R170) -/

/-- R166, R170: how an emission fails. -/
theorem emit_fails {o : Nat} {bs : List Byte} {s u : State} {c i} (h : emit o bs s = .error (.raised c i) u) :
   c = .capacity ∧ u.regs = s.regs ∧ (o = 0 → u = s) ∧ (0 < o → u.mem.readN s.regs.dstAddr.toNat 8 = List.replicate 8 0) := by
  unfold emit at h
  rw [Engine.get_bind] at h
  split at h
  · by_cases ho : 0 < o
    · rw [Engine.bind_apply, onlyIf_true (by simpa using ho), memWrite_apply] at h
      split_ifs at h
      · cases h
        refine ⟨rfl, rfl, fun h => by omega, fun _ => Memory.readN_writeN_same _ _ (List.replicate 8 0)⟩
      · cases h
    · rw [Engine.bind_apply, onlyIf_false (by simpa using ho)] at h
      cases h
      exact ⟨rfl, rfl, fun _ => rfl, fun h => absurd h ho⟩
  · rw [memWrite_bind] at h
    split_ifs at h <;> cases h

/-- The end of an emission that failed behind others: CAPACITY, the registers as they were, and zeros where the signature stood. -/
def Spoiled (s0 : State) (c : ErrCode) (u : State) : Prop := c = .capacity ∧ u.regs = s0.regs ∧ u.mem.readN s0.regs.dstAddr.toNat 8 = List.replicate 8 0

theorem emit_spoils {s0 s u : State} {o bs c i} (hr : s.regs = s0.regs) (ho : 0 < o) (h : emit o bs s = .error (.raised c i) u) : Spoiled s0 c u := by
  obtain ⟨h1, h2, _, h4⟩ := emit_fails h
  exact ⟨h1, h2.trans hr, by rw [← hr]; exact h4 ho⟩

theorem verbatim_never_raises {k : KeptChunk} {s u : State} {c i} (h : verbatim k s = .error (.raised c i) u) : False := by
  unfold verbatim at h
  rw [Engine.get_bind, memRead_apply] at h
  split_ifs at h
  cases h

theorem emitVariantA_fails (p : List Byte) (s0 : State) (cs : List KeptChunk) : ∀ (o b s) {c i u}, 0 < o → s.regs = s0.regs → emitVariantA p o b cs s = .error (.raised c i) u → Spoiled s0 c u := by
  induction cs with
  | nil => intro o b s c i u _ _ h; cases h
  | cons k rest ih =>
    intro o b s c i u ho hr h
    rw [emitVariantA] at h
    split at h
    · split at h
      · exact ih _ _ _ ho hr h
      · rw [Engine.get_bind, Engine.bind_apply] at h
        split at h
        · next o' t he => exact ih _ _ _ (by have := (emit_cases he).1; omega) ((emit_regs he).trans hr) h
        · next e t he => cases h; exact emit_spoils hr ho he
    · rw [Engine.bind_apply] at h
      split at h
      · next bs t hv =>
        obtain ⟨rfl, _⟩ := verbatim_cases hv
        rw [Engine.bind_apply] at h
        split at h
        · next o' u' he => exact ih _ _ _ (by have := (emit_cases he).1; omega) ((emit_regs he).trans hr) h
        · next e t he => cases h; exact emit_spoils hr ho he
      · next e t hv => cases h; exact absurd hv (fun h => verbatim_never_raises h)

/-- R170: how either variant fails: before anything is emitted, or spoiled. -/
theorem emitVariant_fails {r : Bool} {cs p} {s u : State} {c i} (h : emitVariant r cs p s = .error (.raised c i) u) : u = s ∨ Spoiled s c u := by
  unfold emitVariant at h
  split at h
  · unfold variantB at h
    cases hf : cs.find? (fun c => c.typ == typeIHDR) with
    | none => rw [hf] at h; cases h; exact .inl rfl
    | some ih =>
    cases hg : cs.getLast? with
    | none => rw [hf, hg] at h; cases h; exact .inl rfl
    | some ie =>
    rw [hf, hg] at h
    dsimp only at h
    · rw [Engine.bind_apply] at h
      split at h
      · next o t he =>
        have t1 := emit_regs he
        have o1 : 0 < o := by have := (emit_cases he).1; simp [pngSignature] at this; omega
        rw [Engine.bind_apply] at h
        split at h
        · next bs t' hv =>
          obtain ⟨rfl, _⟩ := verbatim_cases hv
          rw [Engine.bind_apply] at h
          split at h
          · next o2 t2 he2 =>
            have t3 := (emit_regs he2).trans t1
            have o2 : 0 < o2 := by have := (emit_cases he2).1; omega
            rw [Engine.get_bind, Engine.bind_apply] at h
            split at h
            · next o3 t4 he3 =>
              have t5 := (emit_regs he3).trans t3
              have o3 : 0 < o3 := by have := (emit_cases he3).1; omega
              rw [Engine.bind_apply] at h
              split at h
              · next bs t' hv =>
                obtain ⟨rfl, _⟩ := verbatim_cases hv
                exact .inr (emit_spoils t5 o3 h)
              · next e t hv => cases h; exact absurd hv (fun h => verbatim_never_raises h)
            · next e t he => cases h; exact .inr (emit_spoils t3 o2 he)
          · next e t he => cases h; exact .inr (emit_spoils t1 o1 he)
        · next e t hv => cases h; exact absurd hv (fun h => verbatim_never_raises h)
      · next e t he => cases h; exact .inl ((emit_fails he).2.2.1 rfl)
  · unfold variantA at h
    rw [require_bind] at h
    split at h
    · rw [Engine.bind_apply] at h
      split at h
      · next o t he =>
        have o1 : 0 < o := by have := (emit_cases he).1; simp [pngSignature] at this; omega
        exact .inr (emitVariantA_fails p s cs _ _ _ o1 (emit_regs he) h)
      · next e t he => cases h; exact .inl ((emit_fails he).2.2.1 rfl)
    · cases h; exact .inl rfl

/-! ## Emissions that do not fit (R166, R170) -/

theorem variantAPieces_flatten (m : Memory) (base : Nat) (new : List Byte) (cs : List KeptChunk) : ∀ b,
    (variantAPieces m base new b cs).flatten = variantABytes m base new b cs := by
  induction cs with
  | nil => intro b; rfl
  | cons c cs ih =>
    intro b
    rw [variantAPieces, variantABytes]
    split
    · split
      · exact ih true
      · rw [List.flatten_cons, ih true]
    · rw [List.flatten_cons, ih b]

/-- R170: what CAPACITY leaves behind the emissions of `out`: nothing, or eight zero bytes where the signature stood. -/
structure Overflowed (s0 u : State) (out : List Byte) : Prop where
  regs : u.regs = s0.regs
  untouched : out = [] → ∀ a, u.mem.read a = s0.mem.read a
  spoiled : out ≠ [] → ∀ a, u.mem.read a =
    if s0.regs.dstAddr.toNat ≤ a ∧ a < s0.regs.dstAddr.toNat + 8 then 0
    else if s0.regs.dstAddr.toNat ≤ a ∧ a < s0.regs.dstAddr.toNat + out.length then out.getD (a - s0.regs.dstAddr.toNat) 0
    else s0.mem.read a

/-- The emitted bytes one by one. -/
theorem Emitted.read {s0 s : State} {out : List Byte} (h : Emitted s0 s out) (a : Nat) : s.mem.read a =
    if s0.regs.dstAddr.toNat ≤ a ∧ a < s0.regs.dstAddr.toNat + out.length then out.getD (a - s0.regs.dstAddr.toNat) 0
    else s0.mem.read a := by
  split
  · next ha =>
    have := Memory.readN_getD s.mem s0.regs.dstAddr.toNat out.length (i := a - s0.regs.dstAddr.toNat) (by omega)
    rw [h.at_] at this
    rw [this]
    congr 1
    omega
  · exact h.outside a (by omega)

/-- R166, R170: an emission that does not fit is CAPACITY with the length it would need. -/
theorem emit_overflows {s0 s : State} {out bs : List Byte} (h : Emitted s0 s out) (h8 : out ≠ [] → 8 ≤ out.length)
    (hd : s0.platform.holdsAll s0.regs.dstAddr.toNat s0.regs.dstLen.toNat = true) (hl : out.length ≤ s0.regs.dstLen.toNat)
    (hc : s0.regs.dstLen.toNat < out.length + bs.length) :
    ∃ u, emit out.length bs s = .error (.raised .capacity (clamp32 (out.length + bs.length))) u ∧ Overflowed s0 u out := by
  unfold emit
  rw [Engine.get_bind, h.regs, if_pos hc, Engine.bind_apply]
  by_cases ho : out = []
  · subst ho
    refine ⟨s, rfl, h.regs, fun _ a => h.outside a ?_, fun hn => absurd rfl hn⟩
    simp only [List.length_nil]; omega
  · have h8 := h8 ho
    rw [onlyIf_true (decide_eq_true (by omega)), memWrite_apply, if_pos]
    · refine ⟨s.setMem (s.mem.writeN s0.regs.dstAddr.toNat (List.replicate 8 0)), rfl, h.regs, fun h => absurd h ho, ?_⟩
      intro _ a
      rw [State.setMem_mem, Memory.read_writeN]
      simp only [List.length_replicate]
      split
      · exact List.getD_replicate _ (by omega)
      · exact h.read a
    · rw [h.platform]; exact holdsAll_sub hd (Nat.le_refl _) (by simp; omega)

/-- R168: variant (a) up to the first piece that does not fit. -/
theorem emitVariantA_overflows {s0 : State} {p new piece : List Byte} {after : List (List Byte)}
    (hs : s0.platform.holdsAll s0.regs.srcAddr.toNat s0.regs.srcLen.toNat = true)
    (hd : s0.platform.holdsAll s0.regs.dstAddr.toNat s0.regs.dstLen.toNat = true)
    (hap : ∀ a, ¬ (s0.regs.dst.contains a = true ∧ s0.regs.src.contains a = true)) (hnew : new = newIdat s0.platform.crc p)
    (cs : List KeptChunk) : ∀ (s : State) (out : List Byte) (b : Bool) (before : List (List Byte)),
    (∀ c ∈ cs, c.off + 12 + c.len ≤ s0.regs.srcLen.toNat) → Emitted s0 s out → 8 ≤ out.length →
    variantAPieces s0.mem s0.regs.srcAddr.toNat new b cs = before ++ piece :: after →
    (out ++ before.flatten).length ≤ s0.regs.dstLen.toNat →
    s0.regs.dstLen.toNat < (out ++ before.flatten).length + piece.length →
    ∃ u, emitVariantA p out.length b cs s =
        .error (.raised .capacity (clamp32 ((out ++ before.flatten).length + piece.length))) u ∧
      Overflowed s0 u (out ++ before.flatten) := by
  induction cs with
  | nil => intro s out b before _ _ _ hp; simp [variantAPieces] at hp
  | cons c rest ih =>
    intro s out b before hin h h8 hp hl hc
    have hin' : ∀ c ∈ rest, c.off + 12 + c.len ≤ s0.regs.srcLen.toNat := fun c hc => hin c (List.mem_cons_of_mem _ hc)
    have hout : out.length ≤ s0.regs.dstLen.toNat := by rw [List.length_append] at hl; omega
    -- one piece `q`, and what follows it when it fits
    have one : ∀ (q : List Byte) (b' : Bool), q :: variantAPieces s0.mem s0.regs.srcAddr.toNat new b' rest = before ++ piece :: after →
        ∃ u, (emit out.length q >>= fun o => emitVariantA p o b' rest) s =
            .error (.raised .capacity (clamp32 ((out ++ before.flatten).length + piece.length))) u ∧
          Overflowed s0 u (out ++ before.flatten) := by
      intro q b' hq
      cases before with
      | nil =>
        obtain ⟨rfl, -⟩ := List.cons.inj hq
        simp only [List.flatten_nil, List.append_nil] at hl hc ⊢
        obtain ⟨u, hu, ho⟩ := emit_overflows h (fun _ => h8) hd hl hc
        exact ⟨u, Engine.bind_error hu, ho⟩
      | cons q' before =>
        obtain ⟨rfl, hrest⟩ := List.cons.inj hq
        rw [List.flatten_cons, ← List.append_assoc] at hl hc ⊢
        obtain ⟨t, h1, h2⟩ := emit_appends (bs := q) h hd (by rw [List.length_append] at hl; omega)
        rw [Engine.bind_ok h1]
        exact ih t _ b' before hin' h2 (by rw [List.length_append]; omega) hrest hl hc
    rw [emitVariantA]
    rw [variantAPieces] at hp
    by_cases ht : c.typ = typeIDAT
    · rw [if_pos ht] at hp ⊢
      cases b with
      | true => rw [if_pos rfl] at hp ⊢; exact ih s out true before hin' h h8 hp hl hc
      | false =>
        rw [if_neg (by simp)] at hp ⊢
        rw [Engine.get_bind, h.platform, ← hnew]
        exact one new true hp
    · rw [if_neg ht] at hp ⊢
      rw [Engine.bind_ok (verbatim_original h hs hap hout (hin c (by simp)))]
      exact one _ b hp

/-- R28, R168, R169: the pieces that ASSEMBLE emits one by one. -/
def assemblePieces (s : State) (cs : List KeptChunk) (ih ie : KeptChunk) (new : List Byte) : List (List Byte) :=
  pngSignature ::
    if s.regs.ctrl.ancReduced = true then
      [verbatimBytes s.mem s.regs.srcAddr.toNat ih, new, verbatimBytes s.mem s.regs.srcAddr.toNat ie]
    else variantAPieces s.mem s.regs.srcAddr.toNat new false cs

/-- The piece that does not fit is the first one, or the first one lies before it. -/
theorem cons_split {q piece : List Byte} {qs before after : List (List Byte)} (h : q :: qs = before ++ piece :: after) :
    (before = [] ∧ piece = q) ∨ ∃ before', before = q :: before' ∧ qs = before' ++ piece :: after := by
  cases before with
  | nil => exact .inl ⟨rfl, (List.cons.inj h).1.symm⟩
  | cons q' before => exact .inr ⟨before, by rw [(List.cons.inj h).1], (List.cons.inj h).2⟩

/-- R166 to R170: the emissions of either variant up to the first piece that does not fit. -/
theorem emitVariant_overflows {s : State} {cs : List KeptChunk} {ih ie : KeptChunk} {p new piece : List Byte}
    {before after : List (List Byte)}
    (hs : s.platform.holdsAll s.regs.srcAddr.toNat s.regs.srcLen.toNat = true)
    (hd : s.platform.holdsAll s.regs.dstAddr.toNat s.regs.dstLen.toNat = true)
    (hap : ∀ a, ¬ (s.regs.dst.contains a = true ∧ s.regs.src.contains a = true)) (hnew : new = newIdat s.platform.crc p)
    (hin : ∀ c ∈ cs, c.off + 12 + c.len ≤ s.regs.srcLen.toNat)
    (ha : s.regs.ctrl.ancReduced = false → cs.any (fun c => c.typ == typeIDAT) = true)
    (hb : s.regs.ctrl.ancReduced = true → cs.find? (fun c => c.typ == typeIHDR) = some ih ∧ cs.getLast? = some ie)
    (hp : assemblePieces s cs ih ie new = before ++ piece :: after)
    (hl : before.flatten.length ≤ s.regs.dstLen.toNat) (hc : s.regs.dstLen.toNat < before.flatten.length + piece.length) :
    ∃ u, emitVariant s.regs.ctrl.ancReduced cs p s =
        .error (.raised .capacity (clamp32 (before.flatten.length + piece.length))) u ∧ Overflowed s u before.flatten := by
  unfold assemblePieces at hp
  have e8 : pngSignature ≠ [] → 8 ≤ pngSignature.length := fun _ => by decide
  have e0 := Emitted.start s
  rcases cons_split hp with ⟨rfl, rfl⟩ | ⟨before, rfl, hp1⟩
  · simp only [List.flatten_nil, List.length_nil] at hl hc ⊢
    obtain ⟨u, hu, ho⟩ := emit_overflows e0 (fun h => absurd rfl h) hd hl hc
    refine ⟨u, ?_, ho⟩
    unfold emitVariant
    split
    · next hr =>
      unfold variantB
      rw [(hb hr).1, (hb hr).2]
      exact Engine.bind_error hu
    · next hr =>
      unfold variantA
      rw [require_bind, if_pos (ha (by simpa using hr))]
      exact Engine.bind_error hu
  · rw [List.flatten_cons] at hl hc ⊢
    obtain ⟨t, h1, h2⟩ := emit_appends (bs := pngSignature) e0 hd (by rw [List.length_append] at hl; simpa using (by omega : pngSignature.length ≤ _))
    rw [List.nil_append] at h1 h2
    have h1 : emit 0 pngSignature s = .ok pngSignature.length t := h1
    unfold emitVariant
    split
    · next hr =>
      unfold variantB
      rw [(hb hr).1, (hb hr).2]
      rw [if_pos hr] at hp1
      obtain ⟨m1, m2⟩ := hb hr
      have hle : pngSignature.length ≤ s.regs.dstLen.toNat := by rw [List.length_append] at hl; omega
      dsimp only
      rw [Engine.bind_ok h1, Engine.bind_ok (verbatim_original h2 hs hap hle (hin ih (List.mem_of_find?_eq_some m1)))]
      generalize verbatimBytes s.mem s.regs.srcAddr.toNat ih = q1 at hp1 ⊢
      rcases cons_split hp1 with ⟨rfl, rfl⟩ | ⟨before, rfl, hp2⟩
      · simp only [List.flatten_nil, List.append_nil] at hl hc ⊢
        obtain ⟨u, hu, ho⟩ := emit_overflows h2 e8 hd hl hc
        exact ⟨u, Engine.bind_error hu, ho⟩
      rw [List.flatten_cons, ← List.append_assoc] at hl hc ⊢
      obtain ⟨t2, h3, h4⟩ := emit_appends (bs := q1) h2 hd (by rw [List.length_append] at hl; omega)
      rw [Engine.bind_ok h3, Engine.get_bind, h4.platform, ← hnew]
      have e16 : pngSignature ++ q1 ≠ [] → 8 ≤ (pngSignature ++ q1).length := fun _ => by rw [List.length_append]; exact Nat.le_add_right 8 _
      rcases cons_split hp2 with ⟨rfl, rfl⟩ | ⟨before, rfl, hp3⟩
      · simp only [List.flatten_nil, List.append_nil] at hl hc ⊢
        obtain ⟨u, hu, ho⟩ := emit_overflows h4 e16 hd hl hc
        exact ⟨u, Engine.bind_error hu, ho⟩
      rw [List.flatten_cons, ← List.append_assoc] at hl hc ⊢
      obtain ⟨t3, h5, h6⟩ := emit_appends (bs := new) h4 hd (by rw [List.length_append] at hl; omega)
      have hle3 : (pngSignature ++ q1 ++ new).length ≤ s.regs.dstLen.toNat := by rw [List.length_append] at hl; omega
      rw [Engine.bind_ok h5, Engine.bind_ok (verbatim_original h6 hs hap hle3 (hin ie (List.mem_of_getLast? m2)))]
      have e24 : pngSignature ++ q1 ++ new ≠ [] → 8 ≤ (pngSignature ++ q1 ++ new).length := fun _ => by
        rw [List.length_append, List.length_append]; exact Nat.le_trans (Nat.le_add_right 8 _) (Nat.le_add_right _ _)
      rcases cons_split hp3 with ⟨rfl, rfl⟩ | ⟨before, rfl, hp4⟩
      · simp only [List.flatten_nil, List.append_nil] at hl hc ⊢
        exact emit_overflows h6 e24 hd hl hc
      · simp at hp4
    · next hr =>
      rw [if_neg hr] at hp1
      unfold variantA
      rw [require_bind, if_pos (ha (by simpa using hr)), Engine.bind_ok h1]
      exact emitVariantA_overflows hs hd hap hnew cs t pngSignature false before hin h2 (by decide) hp1 hl hc

end Sys2Proof.Machine
end

