-- ==== Sys2Proof/Laws/Header.lean ====
section
/-! SUPPORT. Laws of HDR_CHECK (R121): its checks up to the first chunk, the read of that chunk, and the captured fields. -/

namespace Sys2Proof.Machine

theorem dropProfile_regionsLegal {s : State} (h : s.regs.srcAddr.toNat + s.regs.srcLen.toNat ≤ 2 ^ 32) :
    (s.setRegs s.regs.dropProfile).regionsLegal .hdrCheck := by
  refine ⟨?_, ?_, ?_⟩ <;> simp [regionsOf, Regs.src]
  omega

/-- R121: HDR_CHECK on a stream longer than the signature comes to its first chunk. -/
theorem hdrCheckBody_checked {s : State} (h : s.regs.srcAddr.toNat + s.regs.srcLen.toNat ≤ 2 ^ 32)
    (h8 : 8 < s.regs.srcLen.toNat) :
    hdrCheckBody s = (readChunk 8 >>= fun c => if c.good then acceptHeader c else do
      onMismatch c.typ
      raise .malformedHeader 4) (s.setRegs s.regs.dropProfile) := by
  unfold hdrCheckBody
  rw [modifyRegs_bind, Engine.bind_ok (checkRegions_ok (dropProfile_regionsLegal h)),
    Engine.bind_ok (by rw [checkStream_apply]; exact if_pos (by simp; omega)), Engine.get_bind, require_bind,
    if_pos (decide_eq_true (by show s.regs.srcLen.toNat ≠ 8; omega))]

/-- R100, R121: the first chunk, whole and in present memory, is read. -/
theorem readChunk_first {s : State} {k : Chunk} (hh : s.holdsRegionsOf .hdrCheck)
    (hk : k = chunkAt s.platform.crc s.mem s.regs.srcAddr.toNat 8) (hl : 20 + k.len ≤ s.regs.srcLen.toNat) :
    readChunk 8 (s.setRegs s.regs.dropProfile) =
      .ok k (s.setRegs (s.regs.dropProfile.setDescriptor 8 k.len k.typ (storedCrcAt s.mem s.regs.srcAddr.toNat 8))) := by
  refine readChunk_ok (s := s.setRegs s.regs.dropProfile) hk
    (by simp only [State.setRegs_regs, Regs.dropProfile_srcLen]; omega) ?_
  exact State.holdsAll_of_regions hh (r := s.regs.src) (.inl (by simp [regionsOf])) (by simp [Regs.src])
    (by simp [Regs.src]; omega)

/-- R54: HDR_FIELDS as a sum of its four bytes. -/
theorem headerFields_toNat (data : List Byte) :
    (headerFields data).toNat = (data.getD 8 0).toNat + (data.getD 9 0).toNat * 2 ^ 8 +
      (data.getD 10 0).toNat * 2 ^ 16 + (data.getD 11 0).toNat * 2 ^ 24 := by
  unfold headerFields
  have h0 := (data.getD 8 0).isLt
  have h1 := (data.getD 9 0).isLt
  have h2 := (data.getD 10 0).isLt
  generalize data.getD 8 0 = a at *
  generalize data.getD 9 0 = b at *
  generalize data.getD 10 0 = c at *
  simp only [BitVec.toNat_append]
  rw [← Nat.shiftLeft_add_eq_or_of_lt h0, ← Nat.shiftLeft_add_eq_or_of_lt h1, ← Nat.shiftLeft_add_eq_or_of_lt h2]
  simp only [Nat.shiftLeft_eq]
  omega

end Sys2Proof.Machine
end

