-- ==== Sys2Proof/Laws/PerInstr.lean ====
section
/-! SUPPORT. One law per command: which row of the opcode map its command word belongs to (R87, R93). -/

namespace Sys2Proof.Laws.TableRow

/-- The word of a command has the OP of some row of the map, has that row's fixed bits, and gives the row's fields back.
It holds for the field values that R89 restricts too: the word of such a command is built, and `decodeWord` refuses it. -/
def Statement (i : Instr) : Prop :=
  ∃ r ∈ opcodeMap, opField (encode i) = r.op ∧ encode i &&& r.mask = r.pattern ∧
    r.build (ftField (encode i)) (firstField (encode i)) (chField (encode i)) = i

theorem checkSig : Statement .checkSig := by
  unfold Statement
  decide

theorem parseInit : Statement .parseInit := by
  unfold Statement
  decide

theorem parseNext : Statement .parseNext := by
  unfold Statement
  decide

theorem parseAll : Statement .parseAll := by
  unfold Statement
  decide

theorem hdrCheck : Statement .hdrCheck := by
  unfold Statement
  decide

theorem paeth : Statement .paeth := by
  unfold Statement
  decide

theorem reconByte (ft : BitVec 3) : Statement (.reconByte ft) := by
  unfold Statement
  revert ft
  decide

theorem filtByte (ft : BitVec 3) : Statement (.filtByte ft) := by
  unfold Statement
  revert ft
  decide

theorem reconRow (first : Bool) : Statement (.reconRow first) := by
  unfold Statement
  revert first
  decide

theorem filtRow (ft : BitVec 3) (first : Bool) : Statement (.filtRow ft first) := by
  unfold Statement
  revert ft first
  decide

theorem decodeImage : Statement .decodeImage := by
  unfold Statement
  decide

theorem isolate (ch : BitVec 2) : Statement (.isolate ch) := by
  unfold Statement
  revert ch
  decide

theorem assemble : Statement .assemble := by
  unfold Statement
  decide

end Sys2Proof.Laws.TableRow
end

