-- ==== Sys2Proof/Laws/Reassembly.lean ====
section
/-! SUPPORT. Laws behind the re-parse law (R171): a chunk's bytes on the wire and the chunk they read back as, what the walk
of ASSEMBLE keeps, and the chunks that a completed assembly has emitted. -/

namespace Sys2Proof.Machine

/-! ## Bytes on the wire (R18, R64, R165) -/

@[simp] theorem be32bytes_length (w : Word) : (be32bytes w).length = 4 := rfl

theorem be32_be32bytes (w : Word) (rest : List Byte) : be32 (be32bytes w ++ rest) 0 = w.toNat := by
  rw [be32_eq]
  have := w.isLt
  simp only [be32bytes, List.cons_append, List.getD_cons_zero, List.getD_cons_succ, Nat.zero_add, BitVec.extractLsb'_toNat,
    Nat.shiftRight_eq_div_pow]
  omega

theorem be32bytes_be32 {bs : List Byte} (h : bs.length = 4) : be32bytes (BitVec.ofNat 32 (be32 bs 0)) = bs := by
  obtain ⟨a, b, c, d, rfl⟩ := List.length_eq_four.1 h
  have e : (BitVec.ofNat 32 (be32 [a, b, c, d] 0) : Word) = a ++ b ++ c ++ d := BitVec.ofNat_toNat ..
  have key : ∀ i, i < 8 → (a ++ b ++ c ++ d).getLsbD i = d.getLsbD i ∧ (a ++ b ++ c ++ d).getLsbD (8 + i) = c.getLsbD i ∧
      (a ++ b ++ c ++ d).getLsbD (16 + i) = b.getLsbD i ∧ (a ++ b ++ c ++ d).getLsbD (24 + i) = a.getLsbD i := by
    intro i hi
    simp only [BitVec.getLsbD_append]
    refine ⟨?_, ?_, ?_, ?_⟩ <;> (split_ifs <;> first | omega | (congr 1 <;> omega))
  rw [e]
  simp only [be32bytes, List.cons.injEq, and_true]
  refine ⟨?_, ?_, ?_, ?_⟩ <;>
    (apply BitVec.eq_of_getLsbD_eq; intro i hi; have := key i hi; simp [hi, this])

/-- A chunk that the wire can carry, with a good CRC. -/
structure WireChunk (k : Chunk) : Prop where
  good : k.good = true
  typ : k.typ.length = 4
  data : k.data.length = k.len
  len : k.len < 2 ^ 32

/-- R18, R165: the bytes of a good chunk: length, type, data, CRC. -/
def wire (c : CrcChoice) (k : Chunk) : List Byte :=
  be32bytes (BitVec.ofNat 32 k.len) ++ (k.typ ++ (k.data ++ be32bytes (crc32 c (k.typ ++ k.data))))

theorem WireChunk.length {c : CrcChoice} {k : Chunk} (h : WireChunk k) : (wire c k).length = 12 + k.len := by
  simp [wire, h.typ, h.data]; omega

/-- A good chunk read from memory stands there as its bytes on the wire. -/
theorem wire_of_good {c : CrcChoice} {m : Memory} {base off : Nat} {k : Chunk} (hk : k = chunkAt c m base off)
    (hg : k.good = true) : WireChunk k ∧ m.readN (base + off) (12 + k.len) = wire c k := by
  have hl : k.len = be32 (m.readN (base + off) 4) 0 := by rw [hk]; rfl
  have ht : k.typ = m.readN (base + off + 4) 4 := by rw [hk]; rfl
  have hd : k.data = m.readN (base + off + 8) k.len := by rw [hk]; rfl
  have hc : crc32 c (k.typ ++ k.data) = BitVec.ofNat 32 (be32 (m.readN (base + off + 8 + k.len) 4) 0) := by
    rw [hk] at hg ⊢; exact eq_of_beq hg
  refine ⟨⟨hg, by rw [ht]; simp, by rw [hd]; simp, by rw [hl]; exact be32_lt _ _⟩, ?_⟩
  unfold wire
  rw [hc, be32bytes_be32 (by simp), hl, be32bytes_be32 (by simp), ← hl, ht, hd,
    show 12 + k.len = 4 + (4 + (k.len + 4)) by omega]
  have e4 : base + off + 4 + 4 = base + off + 8 := by omega
  simp only [Memory.readN_append, e4]

/-- The bytes of a good chunk on the wire read back as the chunk. -/
theorem chunkAt_of_wire {c : CrcChoice} {m : Memory} {base off : Nat} {k : Chunk} (h : WireChunk k)
    (hm : m.readN (base + off) (12 + k.len) = wire c k) : k = chunkAt c m base off := by
  rw [show 12 + k.len = 4 + (4 + (k.len + 4)) by omega] at hm
  have e4 : base + off + 4 + 4 = base + off + 8 := by omega
  simp only [Memory.readN_append, e4] at hm
  unfold wire at hm
  obtain ⟨h1, hm⟩ := List.append_inj hm (by simp)
  obtain ⟨h2, hm⟩ := List.append_inj hm (by simp [h.typ])
  obtain ⟨h3, h4⟩ := List.append_inj hm (by simp [h.data])
  have hl : be32 (m.readN (base + off) 4) 0 = k.len := by
    rw [h1, ← List.append_nil (be32bytes _), be32_be32bytes, BitVec.toNat_ofNat, Nat.mod_eq_of_lt h.len]
  have hs : BitVec.ofNat 32 (be32 (m.readN (base + off + 8 + k.len) 4) 0) = crc32 c (k.typ ++ k.data) := by
    rw [h4, ← List.append_nil (be32bytes _), be32_be32bytes]; simp
  unfold chunkAt
  simp only [hl, h2, h3, hs]
  cases k
  simp only [Chunk.mk.injEq, true_and]
  simpa using h.good

/-- Chunks on the wire, one behind the other, read back as the chunks. -/
theorem chunksAt_of_wire {c : CrcChoice} {m : Memory} {base : Nat} (ks : List Chunk) : ∀ {off : Nat},
    (∀ k ∈ ks, WireChunk k) → m.readN (base + off) (chunksSize ks) = ks.flatMap (wire c) →
    chunksAt c m base off ks := by
  induction ks with
  | nil => intro off _ _; trivial
  | cons k ks ih =>
    intro off hw hm
    have hk := hw k (by simp)
    rw [chunksSize, Memory.readN_append, List.flatMap_cons] at hm
    obtain ⟨h1, h2⟩ := List.append_inj hm (by rw [hk.length]; simp)
    refine ⟨chunkAt_of_wire hk h1, ih (fun x hx => hw x (List.mem_cons_of_mem _ hx)) ?_⟩
    rw [← h2]; congr 1; omega

theorem flatMap_wire_length {c : CrcChoice} (ks : List Chunk) (h : ∀ k ∈ ks, WireChunk k) :
    (ks.flatMap (wire c)).length = chunksSize ks := by
  induction ks with
  | nil => rfl
  | cons k ks ih =>
    rw [List.flatMap_cons, List.length_append, (h k (by simp)).length, ih (fun x hx => h x (List.mem_cons_of_mem _ hx)),
      chunksSize]

/-! ## What the walk keeps (R167) -/

/-- The chunk of the original stream that a kept chunk names. -/
def State.original (s : State) (c : KeptChunk) : Chunk := chunkAt s.platform.crc s.mem s.regs.srcAddr.toNat c.off

/-- A kept chunk names a good chunk. -/
structure State.Keeps (s : State) (c : KeptChunk) : Prop where
  good : (s.original c).good = true
  len : c.len = (s.original c).len
  typ : c.typ = (s.original c).typ

theorem State.Keeps.of_same {s t : State} (h : SameStream s t) {c : KeptChunk} (k : t.Keeps c) : s.Keeps c := by
  have e : t.original c = s.original c := by
    unfold State.original
    rw [h.platform, h.mem, show t.regs.srcAddr = s.regs.srcAddr from BitVec.eq_of_toNat_eq (congrArg Region.base h.src)]
  exact ⟨by rw [← e]; exact k.good, by rw [← e]; exact k.len, by rw [← e]; exact k.typ⟩

theorem readChunk_chunk {off : Nat} {s t : State} {c : Chunk} (h : readChunk off s = .ok c t) :
    c = chunkAt s.platform.crc s.mem s.regs.srcAddr.toNat off := by
  rw [readChunk_apply off s _ rfl] at h
  split_ifs at h
  cases h
  rfl

/-- The kept chunks end at their only "IEND". -/
def EndsOnce (cs : List KeptChunk) : Prop :=
  ∃ init last, cs = init ++ [last] ∧ last.typ = typeIEND ∧ ∀ c ∈ init, c.typ ≠ typeIEND

/-- R167: what a walk that comes to its end keeps. -/
theorem walkChunks_keeps (fuel : Nat) : ∀ {off : Nat} {s t : State} {cs : List KeptChunk},
    walkChunks off fuel s = .ok cs t → (∀ c ∈ cs, s.Keeps c) ∧ EndsOnce cs := by
  induction fuel with
  | zero => intro off s t cs h; cases h
  | succ fuel ih =>
    intro off s t cs h
    rw [walkChunks, Engine.get_bind] at h
    split at h
    · cases h
    rw [Engine.bind_apply] at h
    split at h
    case h_2 => cases h
    next c u hc =>
    have hch := readChunk_chunk hc
    have hu := Engine.keeps_ok (keeps_readChunk off) hc
    split at h
    · next hg =>
      have hk : s.Keeps ⟨off, c.len, c.typ⟩ := ⟨by unfold State.original; rw [← hch]; exact hg,
        by unfold State.original; rw [← hch], by unfold State.original; rw [← hch]⟩
      split at h
      · next hi =>
        cases h
        exact ⟨by simpa using hk, [], _, rfl, hi, by simp⟩
      · next hi =>
        rw [Engine.bind_apply] at h
        split at h
        case h_2 => cases h
        next rest v hr =>
        cases h
        obtain ⟨h1, init, last, e, h2, h3⟩ := ih hr
        refine ⟨?_, ⟨off, c.len, c.typ⟩ :: init, last, by rw [e]; rfl, h2, ?_⟩
        · intro d hd
          rcases List.mem_cons.1 hd with rfl | hd
          · exact hk
          · exact (h1 d hd).of_same hu
        · intro d hd
          rcases List.mem_cons.1 hd with rfl | hd
          · exact hi
          · exact h3 d hd
    · rw [Engine.bind_apply] at h
      split at h
      case h_2 => cases h
      next v hm =>
      obtain ⟨h1, h2⟩ := ih h
      exact ⟨fun d hd => ((h1 d hd).of_same (Engine.keeps_ok (keeps_onMismatch _) hm)).of_same hu, h2⟩

/-! ## What a completed assembly has emitted (R165 to R169) -/

/-- R165: the new "IDAT" chunk of a payload. -/
def newChunk (p : List Byte) : Chunk := ⟨p.length, typeIDAT, p, true⟩

theorem newIdat_eq_wire (c : CrcChoice) (p : List Byte) : newIdat c p = wire c (newChunk p) := by
  simp [newIdat, wire, newChunk]

theorem wireChunk_new {p : List Byte} (h : p.length < 2 ^ 32) : WireChunk (newChunk p) := ⟨rfl, rfl, rfl, h⟩

theorem State.Keeps.wireChunk {s : State} {c : KeptChunk} (k : s.Keeps c) : WireChunk (s.original c) :=
  (wire_of_good rfl k.good).1

theorem State.Keeps.verbatim {s : State} {c : KeptChunk} (k : s.Keeps c) :
    verbatimBytes s.mem s.regs.srcAddr.toNat c = wire s.platform.crc (s.original c) := by
  rw [verbatimBytes, k.len]; exact (wire_of_good rfl k.good).2

/-- R168: the chunks that variant (a) emits. -/
def variantAChunks (s : State) (p : List Byte) : Bool → List KeptChunk → List Chunk
  | _, [] => []
  | replaced, c :: cs =>
    if c.typ = typeIDAT then
      if replaced then variantAChunks s p true cs else newChunk p :: variantAChunks s p true cs
    else s.original c :: variantAChunks s p replaced cs

theorem variantABytes_eq_wire {s : State} {p : List Byte} (cs : List KeptChunk) : ∀ b, (∀ c ∈ cs, s.Keeps c) →
    variantABytes s.mem s.regs.srcAddr.toNat (newIdat s.platform.crc p) b cs =
      (variantAChunks s p b cs).flatMap (wire s.platform.crc) := by
  induction cs with
  | nil => intro b _; rfl
  | cons c cs ih =>
    intro b h
    have hr : ∀ d ∈ cs, s.Keeps d := fun d hd => h d (List.mem_cons_of_mem _ hd)
    rw [variantABytes, variantAChunks]
    split
    · split
      · exact ih true hr
      · rw [ih true hr, newIdat_eq_wire]; rfl
    · rw [ih b hr, (h c (by simp)).verbatim]; rfl

theorem variantAChunks_wire {s : State} {p : List Byte} (hp : p.length < 2 ^ 32) (cs : List KeptChunk) : ∀ b,
    (∀ c ∈ cs, s.Keeps c) → ∀ k ∈ variantAChunks s p b cs, WireChunk k := by
  induction cs with
  | nil => intro b _ k hk; cases hk
  | cons c cs ih =>
    intro b h
    have hr : ∀ d ∈ cs, s.Keeps d := fun d hd => h d (List.mem_cons_of_mem _ hd)
    rw [variantAChunks]
    split
    · split
      · exact ih true hr
      · intro k hk
        rcases List.mem_cons.1 hk with rfl | hk
        · exact wireChunk_new hp
        · exact ih true hr k hk
    · intro k hk
      rcases List.mem_cons.1 hk with rfl | hk
      · exact (h c (by simp)).wireChunk
      · exact ih b hr k hk

theorem payloadOf_variantA {s : State} {p : List Byte} (cs : List KeptChunk) : ∀ b, (∀ c ∈ cs, s.Keeps c) →
    payloadOf (variantAChunks s p b cs) =
      if b = false ∧ cs.any (fun c => c.typ == typeIDAT) = true then p else [] := by
  induction cs with
  | nil => intro b _; simp [variantAChunks, payloadOf]
  | cons c cs ih =>
    intro b h
    have hr : ∀ d ∈ cs, s.Keeps d := fun d hd => h d (List.mem_cons_of_mem _ hd)
    rw [variantAChunks]
    split
    · next ht =>
      split
      · next hb => subst hb; rw [ih true hr]; simp
      · next hb =>
        have hb : b = false := by simpa using hb
        subst hb
        rw [payloadOf, if_pos ⟨rfl, rfl⟩, ih true hr]
        simp [ht, newChunk]
    · next ht =>
      have hk := h c (by simp)
      rw [payloadOf, if_neg (fun h => ht (hk.typ.trans h.2)), ih b hr]
      simp [ht]

theorem variantAChunks_append {s : State} {p : List Byte} {last : KeptChunk} (hl : last.typ = typeIEND)
    (cs : List KeptChunk) : ∀ b, variantAChunks s p b (cs ++ [last]) = variantAChunks s p b cs ++ [s.original last] := by
  induction cs with
  | nil =>
    intro b
    have hne : last.typ ≠ typeIDAT := by rw [hl]; exact fun h => typeIDAT_ne_typeIEND h.symm
    simp [variantAChunks, hne]
  | cons c cs ih =>
    intro b
    rw [List.cons_append, variantAChunks, variantAChunks]
    split
    · split
      · exact ih true
      · rw [ih true]; rfl
    · rw [ih b]; rfl

theorem variantAChunks_typ {s : State} {p : List Byte} (cs : List KeptChunk) : ∀ b, (∀ c ∈ cs, s.Keeps c) →
    (∀ c ∈ cs, c.typ ≠ typeIEND) → ∀ k ∈ variantAChunks s p b cs, k.typ ≠ typeIEND := by
  induction cs with
  | nil => intro b _ _ k hk; cases hk
  | cons c cs ih =>
    intro b h ht
    have hr : ∀ d ∈ cs, s.Keeps d := fun d hd => h d (List.mem_cons_of_mem _ hd)
    have htr : ∀ d ∈ cs, d.typ ≠ typeIEND := fun d hd => ht d (List.mem_cons_of_mem _ hd)
    rw [variantAChunks]
    split
    · split
      · exact ih true hr htr
      · intro k hk
        rcases List.mem_cons.1 hk with rfl | hk
        · exact typeIDAT_ne_typeIEND
        · exact ih true hr htr k hk
    · intro k hk
      rcases List.mem_cons.1 hk with rfl | hk
      · rw [← (h c (by simp)).typ]; exact ht c (by simp)
      · exact ih b hr htr k hk

/-- The chunks a completed assembly has emitted: a stream of good chunks that ends at its only "IEND" and whose payload is `p`. -/
structure Reassembled (p : List Byte) (ks : List Chunk) : Prop where
  wires : ∀ k ∈ ks, WireChunk k
  early : noEarlyEnd ks
  end_ : endsAtIend ks
  payload : payloadOf ks = p

theorem reassembled_of_append {p : List Byte} {init : List Chunk} {last : Chunk} (hw : ∀ k ∈ init ++ [last], WireChunk k)
    (ht : ∀ k ∈ init, k.typ ≠ typeIEND) (hl : last.typ = typeIEND) (hp : payloadOf (init ++ [last]) = p) :
    Reassembled p (init ++ [last]) where
  wires := hw
  early := by intro k hk h; rw [List.dropLast_concat] at hk; exact ht k hk h.2
  end_ := ⟨last, by simp, (hw last (by simp)).good, hl⟩
  payload := hp

/-- R168, R171: variant (a). -/
theorem reassembled_variantA {s : State} {p : List Byte} {cs : List KeptChunk} (hp : p.length < 2 ^ 32)
    (hk : ∀ c ∈ cs, s.Keeps c) (he : EndsOnce cs) (hi : cs.any (fun c => c.typ == typeIDAT) = true) :
    Reassembled p (variantAChunks s p false cs) := by
  have hw := variantAChunks_wire hp cs false hk
  have hpay := payloadOf_variantA (p := p) cs false hk
  rw [if_pos ⟨rfl, hi⟩] at hpay
  obtain ⟨init, last, rfl, hl, hn⟩ := he
  rw [variantAChunks_append hl] at hw hpay ⊢
  have hki : ∀ c ∈ init, s.Keeps c := fun c hc => hk c (by simp [hc])
  exact reassembled_of_append hw (variantAChunks_typ init false hki hn) ((hk last (by simp)).typ.symm.trans hl) hpay

/-- R169, R171: variant (b). -/
theorem reassembled_variantB {s : State} {p : List Byte} {cs : List KeptChunk} {ih ie : KeptChunk} (hp : p.length < 2 ^ 32)
    (hk : ∀ c ∈ cs, s.Keeps c) (he : EndsOnce cs) (h1 : cs.find? (fun c => c.typ == typeIHDR) = some ih)
    (h2 : cs.getLast? = some ie) : Reassembled p [s.original ih, newChunk p, s.original ie] := by
  have m1 := hk ih (List.mem_of_find?_eq_some h1)
  have m2 := hk ie (List.mem_of_getLast? h2)
  have t1 : (s.original ih).typ = typeIHDR := by rw [← m1.typ]; simpa using List.find?_some h1
  have t2 : (s.original ie).typ = typeIEND := by
    rw [← m2.typ]
    obtain ⟨init, last, rfl, hl, _⟩ := he
    rw [List.getLast?_append] at h2
    simp at h2
    rw [← h2]; exact hl
  refine reassembled_of_append (init := [s.original ih, newChunk p]) ?_ ?_ t2 ?_
  · intro k hk
    simp only [List.cons_append, List.nil_append, List.mem_cons, List.not_mem_nil, or_false] at hk
    rcases hk with rfl | rfl | rfl
    · exact m1.wireChunk
    · exact wireChunk_new hp
    · exact m2.wireChunk
  · intro k hk
    simp only [List.mem_cons, List.not_mem_nil, or_false] at hk
    rcases hk with rfl | rfl
    · rw [t1]; decide
    · exact typeIDAT_ne_typeIEND
  · have n1 : ¬ ((s.original ih).good = true ∧ (s.original ih).typ = typeIDAT) := by rw [t1]; exact fun h => absurd h.2 (by decide)
    have n2 : ¬ ((s.original ie).good = true ∧ (s.original ie).typ = typeIDAT) := by rw [t2]; exact fun h => absurd h.2 (by decide)
    simp only [List.cons_append, List.nil_append, payloadOf, if_neg n1, if_neg n2]
    simp [newChunk]

/-! ## A completed assembly -/

/-- R166: an emission that went on has put its bytes behind the output. -/
theorem Emitted.append {s0 s t : State} {out bs : List Byte} {o : Nat} (h : Emitted s0 s out)
    (he : emit out.length bs s = .ok o t) :
    o = (out ++ bs).length ∧ (out ++ bs).length ≤ s0.regs.dstLen.toNat ∧ Emitted s0 t (out ++ bs) := by
  obtain ⟨h1, h2, rfl⟩ := emit_cases he
  rw [h.regs] at h2 ⊢
  refine ⟨by rw [h1, List.length_append], by rw [List.length_append]; exact h2, h.regs, h.platform, ?_, ?_⟩
  · rw [List.length_append, Memory.readN_append, State.setMem_mem, Memory.readN_writeN_outside _ _ _ (by omega), h.at_]
    congr 1
    exact Memory.readN_writeN_same _ _ _
  · intro a ha
    rw [List.length_append] at ha
    rw [State.setMem_mem, Memory.read_writeN_outside _ _ _ (by omega)]
    exact h.outside a (by omega)

/-- R166: what an original chunk reads as between two emissions. -/
theorem Emitted.verbatim {s0 s t : State} {out bs : List Byte} {c : KeptChunk} (h : Emitted s0 s out)
    (hap : ∀ a, ¬ (s0.regs.dst.contains a = true ∧ s0.regs.src.contains a = true))
    (hc : out.length ≤ s0.regs.dstLen.toNat) (hin : c.off + 12 + c.len ≤ s0.regs.srcLen.toNat)
    (hv : verbatim c s = .ok bs t) : t = s ∧ bs = verbatimBytes s0.mem s0.regs.srcAddr.toNat c := by
  obtain ⟨rfl, rfl⟩ := verbatim_cases hv
  refine ⟨rfl, ?_⟩
  rw [h.regs]
  refine Memory.readN_congr (fun i hi => h.outside _ ?_)
  have := hap (s0.regs.srcAddr.toNat + c.off + i)
  simp only [Region.contains_iff, Regs.src, Regs.dst] at this
  omega

/-- R168: what variant (a) has emitted when it ends. -/
theorem Emitted.variantA {s0 : State} {p : List Byte}
    (hap : ∀ a, ¬ (s0.regs.dst.contains a = true ∧ s0.regs.src.contains a = true)) (cs : List KeptChunk) :
    ∀ {s t : State} {out : List Byte} {b : Bool} {o : Nat}, Emitted s0 s out → out.length ≤ s0.regs.dstLen.toNat →
    (∀ c ∈ cs, c.off + 12 + c.len ≤ s0.regs.srcLen.toNat) → emitVariantA p out.length b cs s = .ok o t →
    ∃ w, w = out ++ variantABytes s0.mem s0.regs.srcAddr.toNat (newIdat s0.platform.crc p) b cs ∧
      o = w.length ∧ w.length ≤ s0.regs.dstLen.toNat ∧ Emitted s0 t w := by
  induction cs with
  | nil =>
    intro s t out b o h hc _ he
    cases he
    exact ⟨out, by simp [variantABytes], rfl, hc, h⟩
  | cons c cs ih =>
    intro s t out b o h hc hin he
    have hin' : ∀ d ∈ cs, d.off + 12 + d.len ≤ s0.regs.srcLen.toNat := fun d hd => hin d (List.mem_cons_of_mem _ hd)
    rw [emitVariantA] at he
    rw [variantABytes]
    split at he
    · next ht =>
      rw [if_pos ht]
      split at he
      · next hb => rw [if_pos hb]; exact ih h hc hin' he
      · next hb =>
        rw [if_neg hb]
        rw [Engine.get_bind, Engine.bind_apply, h.platform] at he
        split at he
        case h_2 => cases he
        next o' u hu =>
        obtain ⟨rfl, h2, h3⟩ := h.append hu
        rw [← List.append_assoc]
        exact ih h3 h2 hin' he
    · next ht =>
      rw [if_neg ht]
      rw [Engine.bind_apply] at he
      split at he
      case h_2 => cases he
      next bs u hv =>
      obtain ⟨rfl, rfl⟩ := h.verbatim hap hc (hin c (by simp)) hv
      rw [Engine.bind_apply] at he
      split at he
      case h_2 => cases he
      next o' v hu =>
      obtain ⟨rfl, h2, h3⟩ := h.append hu
      rw [← List.append_assoc]
      exact ih h3 h2 hin' he

/-- R167 to R169: an assembly that completes has emitted SIG and a stream of good chunks whose payload is the AUX region. -/
theorem emitVariant_ok {s t : State} {r : Bool} {cs : List KeptChunk} {p : List Byte} {o : Nat}
    (hap : ∀ a, ¬ (s.regs.dst.contains a = true ∧ s.regs.src.contains a = true))
    (hin : ∀ c ∈ cs, c.off + 12 + c.len ≤ s.regs.srcLen.toNat) (hk : ∀ c ∈ cs, s.Keeps c) (he : EndsOnce cs)
    (hp : p.length < 2 ^ 32) (h : emitVariant r cs p s = .ok o t) :
    ∃ ks, Reassembled p ks ∧ o = 8 + chunksSize ks ∧ 8 + chunksSize ks ≤ s.regs.dstLen.toNat ∧
      Emitted s t (pngSignature ++ ks.flatMap (wire s.platform.crc)) := by
  have finish : ∀ ks w, Reassembled p ks → w = pngSignature ++ ks.flatMap (wire s.platform.crc) → o = w.length →
      w.length ≤ s.regs.dstLen.toNat → Emitted s t w → ∃ ks, Reassembled p ks ∧ o = 8 + chunksSize ks ∧
      8 + chunksSize ks ≤ s.regs.dstLen.toNat ∧ Emitted s t (pngSignature ++ ks.flatMap (wire s.platform.crc)) := by
    intro ks w hr hw ho hl hem
    have e : w.length = 8 + chunksSize ks := by
      rw [hw, List.length_append, flatMap_wire_length ks hr.wires]; rfl
    exact ⟨ks, hr, by rw [ho, e], by rw [← e]; exact hl, by rw [← hw]; exact hem⟩
  unfold emitVariant at h
  split at h
  · unfold variantB at h
    cases h1 : cs.find? (fun c => c.typ == typeIHDR) with
    | none => rw [h1] at h; cases h
    | some ih =>
    cases h2 : cs.getLast? with
    | none => rw [h1, h2] at h; cases h
    | some ie =>
    rw [h1, h2] at h
    dsimp only at h
    have m1 := List.mem_of_find?_eq_some h1
    have m2 := List.mem_of_getLast? h2
    rw [Engine.bind_apply] at h
    split at h
    case h_2 => cases h
    next o1 s1 e1 =>
    obtain ⟨rfl, l1, em1⟩ := (Emitted.start s).append e1
    rw [Engine.bind_apply] at h
    split at h
    case h_2 => cases h
    next b1 s1' v1 =>
    obtain ⟨rfl, rfl⟩ := em1.verbatim hap l1 (hin ih m1) v1
    rw [Engine.bind_apply] at h
    split at h
    case h_2 => cases h
    next o2 s2 e2 =>
    obtain ⟨rfl, l2, em2⟩ := em1.append e2
    rw [Engine.get_bind, Engine.bind_apply, em2.platform] at h
    split at h
    case h_2 => cases h
    next o3 s3 e3 =>
    obtain ⟨rfl, l3, em3⟩ := em2.append e3
    rw [Engine.bind_apply] at h
    split at h
    case h_2 => cases h
    next b4 s4 v4 =>
    obtain ⟨rfl, rfl⟩ := em3.verbatim hap l3 (hin ie m2) v4
    obtain ⟨rfl, l4, em4⟩ := em3.append h
    refine finish _ _ (reassembled_variantB hp hk he h1 h2) ?_ rfl l4 em4
    rw [(hk ih m1).verbatim, (hk ie m2).verbatim, newIdat_eq_wire]
    simp
  · unfold variantA at h
    rw [require_bind] at h
    split at h
    case isFalse => cases h
    next hi =>
    rw [Engine.bind_apply] at h
    split at h
    case h_2 => cases h
    next o1 s1 e1 =>
    obtain ⟨rfl, l1, em1⟩ := (Emitted.start s).append e1
    obtain ⟨w, hw, ho, hl, em⟩ := Emitted.variantA hap cs em1 l1 hin h
    refine finish _ w (reassembled_variantA hp hk he hi) ?_ ho hl em
    rw [hw, variantABytes_eq_wire cs false hk]
    simp

/-- R171: what ASSEMBLE has left when it completes. -/
structure Assembled (s t : State) (ks : List Chunk) : Prop where
  stream : Reassembled (s.mem.readN s.regs.auxAddr.toNat s.regs.auxLen.toNat) ks
  outLen : t.regs.outLen.toNat = 8 + chunksSize ks
  bytes : t.mem.readN s.regs.dstAddr.toNat (8 + chunksSize ks) = pngSignature ++ ks.flatMap (wire s.platform.crc)
  platform : t.platform = s.platform
  dst : t.regs.dst = s.regs.dst

theorem assembleBody_ok {s t : State} (h : assembleBody s = .ok () t) : ∃ ks, Assembled s t ks := by
  unfold assembleBody at h
  have hl : s.regionsLegal .assemble := by
    rw [Engine.bind_apply] at h
    split at h
    case h_2 => cases h
    next u hu =>
    rw [checkRegions_apply] at hu
    split_ifs at hu with a b
    exact (State.regionsLegal_iff s .assemble).2 ⟨a, b⟩
  rw [Engine.bind_ok (checkRegions_ok hl), Engine.bind_apply, checkStream_apply] at h
  split at h
  case h_2 => cases h
  next u hu =>
  split_ifs at hu
  cases hu
  rw [Engine.get_bind, Engine.bind_apply] at h
  split at h
  case h_2 => cases h
  next cs u hw =>
  have hss := Engine.keeps_ok (keeps_walkChunks _ _) hw
  obtain ⟨hk, he⟩ := walkChunks_keeps _ hw
  have hin := walkChunks_inside _ hw
  rw [Engine.bind_apply] at h
  split at h
  case h_2 => cases h
  next p v hp =>
  obtain ⟨rfl, rfl⟩ := memRead_cases hp
  rw [Engine.bind_apply] at h
  split at h
  case h_2 => cases h
  next o w ho =>
  cases h
  have hk' : ∀ c ∈ cs, v.Keeps c := fun c hc => (hk c hc).of_same ⟨hss.mem.symm, hss.platform.symm, hss.src.symm, hss.dst.symm, hss.aux.symm, hss.ctrl.symm, hss.outLen.symm⟩
  have hd := hl.2.2 s.regs.dst (by simp [regionsOf]) s.regs.src (by simp [regionsOf])
  rw [← hss.dst, ← hss.src] at hd
  rw [← srcLen_of_src hss.src] at hin
  obtain ⟨ks, h1, h2, h3, h4⟩ := emitVariant_ok hd hin hk' he (by rw [Memory.readN_length]; exact BitVec.isLt _) ho
  have td : v.regs.dstAddr = s.regs.dstAddr := BitVec.eq_of_toNat_eq (congrArg Region.base hss.dst)
  have e8 : (pngSignature ++ ks.flatMap (wire v.platform.crc)).length = 8 + chunksSize ks := by
    rw [List.length_append, flatMap_wire_length ks h1.wires]; rfl
  refine ⟨ks, by rw [← hss.mem]; exact h1, ?_, ?_, h4.platform.trans hss.platform, ?_⟩
  · show (BitVec.ofNat 32 o).toNat = _
    rw [h2, BitVec.toNat_ofNat, Nat.mod_eq_of_lt]
    exact Nat.lt_of_le_of_lt h3 (BitVec.isLt _)
  · have := h4.at_
    rw [e8, td, hss.platform] at this
    exact this
  · show w.regs.dst = s.regs.dst
    rw [h4.regs, hss.dst]

end Sys2Proof.Machine
end

