-- ==== Sys2Proof/Laws/Scanline.lean ====
section
/-! SUPPORT. The laws of the scanline codec: each byte of a reconstructed and of a filtered row, the arithmetic of one byte, and
what one row of the image commands does. -/

namespace Sys2Proof.Machine

/-! ## One byte -/

/-- R132 and R133 undo each other on one byte, whatever the neighbours. -/
theorem recon_filt (ft : FilterType) (r a b c : Byte) : recon ft (filt ft r a b c) a b c = r := by
  unfold recon filt
  have hr := r.isLt
  have hp := (predictor ft a b c).isLt
  refine BitVec.eq_of_toNat_eq ?_
  simp only [BitVec.toNat_ofNat, BitVec.toNat_ofInt]
  omega

theorem filt_recon (ft : FilterType) (f a b c : Byte) : filt ft (recon ft f a b c) a b c = f := by
  unfold recon filt
  have hr := f.isLt
  have hp := (predictor ft a b c).isLt
  refine BitVec.eq_of_toNat_eq ?_
  simp only [BitVec.toNat_ofNat, BitVec.toNat_ofInt]
  omega

theorem FilterType.ofCode_cases {n : Nat} {f : FilterType} (h : FilterType.ofCode n = some f) :
    n ≤ 4 ∧ f.code.toNat = n := by
  unfold FilterType.ofCode at h
  split_ifs at h <;> cases h <;> simp_all [FilterType.code]

theorem FilterType.ofCode_le {n : Nat} (h : n ≤ 4) : ∃ f, FilterType.ofCode n = some f :=
  Option.isSome_iff_exists.1 ((FilterType.ofCode_isSome n).2 h)

theorem FilterType.ofCode_none {n : Nat} (h : 4 < n) : FilterType.ofCode n = Option.none := by
  cases hc : FilterType.ofCode n with
  | none => rfl
  | some f => have := (FilterType.ofCode_isSome n).1 (by simp [hc]); omega

/-- The predictor of a filter type is the one its number names. -/
theorem predictor_toNat {n : Nat} {f : FilterType} (h : FilterType.ofCode n = some f) (a b c : Byte) :
    (predictor f a b c).toNat = predictorValue n a b c := by
  unfold FilterType.ofCode at h
  have ha := a.isLt
  have hb := b.isLt
  split_ifs at h <;> cases h <;> simp_all [predictor, predictorValue]
  omega

theorem recon_eq {n : Nat} {f : FilterType} (h : FilterType.ofCode n = some f) (x a b c : Byte) :
    recon f x a b c = BitVec.ofNat 8 (x.toNat + predictorValue n a b c) := by
  unfold recon
  rw [predictor_toNat h]
  refine BitVec.eq_of_toNat_eq ?_
  simp

theorem filt_eq {n : Nat} {f : FilterType} (h : FilterType.ofCode n = some f) (x a b c : Byte) :
    filt f x a b c = BitVec.ofNat 8 (x.toNat + 256 - predictorValue n a b c) := by
  unfold filt
  have hp := (predictor f a b c).isLt
  rw [← predictor_toNat h]
  refine BitVec.eq_of_toNat_eq ?_
  simp only [BitVec.toNat_ofNat, BitVec.toNat_ofInt]
  omega

/-! ## One row -/

theorem leftOf_congr {row row' : List Byte} {x : Nat} (h : ∀ i, i < x → row.getD i 0 = row'.getD i 0) :
    leftOf row x = leftOf row' x := by
  unfold leftOf
  split
  · next hb => exact h _ (by unfold bpp at *; omega)
  · rfl

theorem reconRowFrom_prefix (ft : FilterType) (prior f : List Byte) :
    ∀ (raw : List Byte) {i : Nat}, i < raw.length → (reconRowFrom ft prior raw f).getD i 0 = raw.getD i 0 := by
  induction f with
  | nil => intro raw i _; rfl
  | cons b bs ih =>
    intro raw i hi
    rw [reconRowFrom, ih _ (by simp; omega)]
    simp [List.getD, List.getElem?_append, hi]

theorem reconRowFrom_getD (ft : FilterType) (prior f : List Byte) :
    ∀ (raw : List Byte) {x : Nat}, raw.length ≤ x → x < raw.length + f.length →
      (reconRowFrom ft prior raw f).getD x 0 = recon ft (f.getD (x - raw.length) 0)
        (leftOf (reconRowFrom ft prior raw f) x) (prior.getD x 0) (leftOf prior x) := by
  induction f with
  | nil => intro raw x h1 h2; simp at h2; omega
  | cons b bs ih =>
    intro raw x h1 h2
    rw [reconRowFrom]
    by_cases hx : x = raw.length
    · subst hx
      rw [reconRowFrom_prefix _ _ _ _ (by simp), Nat.sub_self, List.getD_cons_zero]
      have hl := @leftOf_congr raw (reconRowFrom ft prior
        (raw ++ [recon ft b (leftOf raw raw.length) (prior.getD raw.length 0) (leftOf prior raw.length)]) bs) raw.length
        (fun i hi => by
          rw [reconRowFrom_prefix _ _ _ _ (by simp; omega)]
          simp [List.getD, List.getElem?_append, hi])
      rw [← hl]
      simp [List.getD]
    · rw [ih _ (by simp; omega) (by simp at h2 ⊢; omega)]
      have : x - raw.length = (x - (raw.length + 1)) + 1 := by omega
      simp [this]

/-- R135: each byte of a reconstructed row, from its filtered byte and its raw neighbours. -/
theorem reconRow_getD (ft : FilterType) (f prior : List Byte) {x : Nat} (hx : x < f.length) :
    (reconRow ft f prior).getD x 0 =
      recon ft (f.getD x 0) (leftOf (reconRow ft f prior) x) (prior.getD x 0) (leftOf prior x) := by
  have := reconRowFrom_getD ft prior f [] (x := x) (by simp) (by simpa using hx)
  simpa [reconRow] using this

/-- R136: each byte of a filtered row. -/
theorem filterRow_getD (ft : FilterType) (raw prior : List Byte) {x : Nat} (hx : x < raw.length) :
    (filterRow ft raw prior).getD x 0 =
      filt ft (raw.getD x 0) (leftOf raw x) (prior.getD x 0) (leftOf prior x) := by
  simp [filterRow, List.getD, hx]

theorem ext_getD {xs ys : List Byte} (hl : xs.length = ys.length) (h : ∀ i, i < xs.length → xs.getD i 0 = ys.getD i 0) :
    xs = ys := by
  refine List.ext_getElem hl fun i h1 h2 => ?_
  have := h i h1
  simpa [List.getD, h1, h2] using this

/-- A row held in memory has the neighbours its addresses have. -/
theorem leftOf_readN (m : Memory) (row : Nat) {n x : Nat} (hx : x < n) : leftOf (m.readN row n) x = leftInMemory m row x := by
  unfold leftOf leftInMemory bpp
  split
  · rw [Memory.readN_getD _ _ _ (by omega)]; congr 1; omega
  · rfl

theorem leftOf_zeros (n x : Nat) : leftOf (List.replicate n 0) x = 0 := by
  unfold leftOf
  split
  · simp only [List.getD, List.getElem?_replicate]; split <;> rfl
  · rfl

theorem getD_zeros (n x : Nat) : (List.replicate n (0 : Byte)).getD x 0 = 0 := by
  simp only [List.getD, List.getElem?_replicate]; split <;> rfl

/-- Bytes written at a row's address are what the row reads as, and the row's left neighbours are theirs. -/
theorem leftInMemory_written (m : Memory) (row : Nat) (bs : List Byte) {x : Nat} (hx : x < bs.length) :
    leftInMemory (m.writeN row bs) row x = leftOf bs x := by
  unfold leftOf leftInMemory bpp
  split
  · rw [show row + x - 3 = row + (x - 3) by omega, Memory.read_writeN_inside _ _ _ (by omega)]
  · rfl

theorem leftInMemory_congr {m m' : Memory} {row x : Nat} (h : ∀ i, i < x → m'.read (row + i) = m.read (row + i)) :
    leftInMemory m' row x = leftInMemory m row x := by
  unfold leftInMemory
  split
  · rw [show row + x - 3 = row + (x - 3) by omega]; exact h _ (by omega)
  · rfl

/-- A reconstructed row written to memory: each byte from the filtered bytes read, the row itself, and the prior row. -/
theorem read_reconRow {m m0 : Memory} {row rec_ n : Nat} {ft : FilterType} {k : Nat} {prior : List Byte}
    (hft : FilterType.ofCode k = some ft) {x : Nat} (hx : x < n) :
    (m.writeN row (reconRow ft (m0.readN rec_ n) prior)).read (row + x) =
      BitVec.ofNat 8 ((m0.read (rec_ + x)).toNat + predictorValue k
        (leftInMemory (m.writeN row (reconRow ft (m0.readN rec_ n) prior)) row x) (prior.getD x 0) (leftOf prior x)) := by
  rw [Memory.read_writeN_inside _ _ _ (by simpa using hx), reconRow_getD _ _ _ (by simpa using hx), recon_eq hft,
    Memory.readN_getD _ _ _ hx, leftInMemory_written _ _ _ (by simpa using hx)]

/-! ## The rows of an image -/

/-- What the image commands assume of memory: the filtered rows lie in a present region apart from the present grid. -/
structure GridAt (s : State) (h : Nat) : Prop where
  srcHeld : s.platform.holdsAll s.regs.srcAddr.toNat (h * s.regs.stride) = true
  dstHeld : s.platform.holdsAll s.regs.dstAddr.toNat (h * s.regs.rowLen) = true
  apart : s.regs.srcAddr.toNat + h * s.regs.stride ≤ s.regs.dstAddr.toNat ∨
    s.regs.dstAddr.toNat + h * s.regs.rowLen ≤ s.regs.srcAddr.toNat

/-- The grid's row before row y, as DECODE_IMAGE reads it back (R142). -/
def priorOf (m : Memory) (dst n y : Nat) : List Byte :=
  if y = 0 then List.replicate n 0 else m.readN (dst + (y - 1) * n) n

theorem priorOf_getD (m : Memory) (dst : Nat) {n : Nat} (y : Nat) {x : Nat} (hx : x < n) :
    (priorOf m dst n y).getD x 0 = if y = 0 then 0 else m.read (dst + (y - 1) * n + x) := by
  unfold priorOf
  split
  · exact getD_zeros _ _
  · exact Memory.readN_getD _ _ _ hx

theorem leftOf_priorOf (m : Memory) (dst : Nat) {n : Nat} (y : Nat) {x : Nat} (hx : x < n) :
    leftOf (priorOf m dst n y) x = if y = 0 then 0 else leftInMemory m (dst + (y - 1) * n) x := by
  unfold priorOf
  split
  · exact leftOf_zeros _ _
  · exact leftOf_readN _ _ hx

/-- R142: one row of DECODE_IMAGE, whose filter byte is legal: the reconstructed row is written and OUT_LEN counts it. -/
theorem decodeImageRow_ok {s : State} {h y : Nat} (g : GridAt s h) (hy : y < h) {ft : FilterType}
    (hft : FilterType.ofCode (s.mem.read (s.regs.srcAddr.toNat + y * s.regs.stride)).toNat = some ft) :
    decodeImageRow y s = .ok ()
      ((s.setMem (s.mem.writeN (s.regs.dstAddr.toNat + y * s.regs.rowLen)
        (reconRow ft (s.mem.readN (s.regs.srcAddr.toNat + y * s.regs.stride + 1) s.regs.rowLen)
          (priorOf s.mem s.regs.dstAddr.toNat s.regs.rowLen y)))).setRegs (s.regs.setOutLen ((y + 1) * s.regs.rowLen))) := by
  have b1 := row_below (n := s.regs.stride) (h := h) (y := y) (count := 0) (by omega)
  have b2 := row_below (n := s.regs.rowLen) (h := h) (y := y) (count := 0) (by omega)
  have hl : s.regs.stride = 1 + s.regs.rowLen := rfl
  have hp : gridPriorRow y s = .ok (priorOf s.mem s.regs.dstAddr.toNat s.regs.rowLen y) s := by
    unfold gridPriorRow priorOf
    rw [Engine.get_bind]
    split
    · rfl
    · have b3 := row_below (n := s.regs.rowLen) (h := h) (y := y - 1) (count := 0) (by omega)
      rw [memRead_apply, if_pos (holdsAll_sub g.dstHeld (by omega) (by omega))]
  unfold decodeImageRow
  rw [Engine.get_bind, memRead_bind, if_pos (holdsAll_sub g.srcHeld (by omega) (by omega)), Memory.readN_headD _ _ _ (by omega), hft]
  simp only []
  rw [Engine.bind_ok hp, memWrite_bind, if_pos (holdsAll_sub g.dstHeld (by omega) (by simp; omega)), Memory.readN_drop,
    show s.regs.stride - 1 = s.regs.rowLen by omega]
  rfl

/-- R142: one row whose filter byte is no filter type: nothing is written. -/
theorem decodeImageRow_unknown {s : State} {h y : Nat} (g : GridAt s h) (hy : y < h)
    (hft : 4 < (s.mem.read (s.regs.srcAddr.toNat + y * s.regs.stride)).toNat) :
    decodeImageRow y s = .error (.raised .unknownFilterType (BitVec.ofNat 32 y)) s := by
  have b1 := row_below (n := s.regs.stride) (h := h) (y := y) (count := 0) (by omega)
  have hl : s.regs.stride = 1 + s.regs.rowLen := rfl
  unfold decodeImageRow
  rw [Engine.get_bind, memRead_bind, if_pos (holdsAll_sub g.srcHeld (by omega) (by omega)), Memory.readN_headD _ _ _ (by omega),
    FilterType.ofCode_none hft]
  rfl

/-- A grid byte of row z, from the filtered row in `m0` and the grid in `m` (R134, R142). -/
def gridByte (m0 m : Memory) (src dst n z x : Nat) : Byte :=
  BitVec.ofNat 8 ((m0.read (src + z * (1 + n) + 1 + x)).toNat +
    predictorValue (m0.read (src + z * (1 + n))).toNat (leftInMemory m (dst + z * n) x)
      (if z = 0 then 0 else m.read (dst + (z - 1) * n + x))
      (if z = 0 then 0 else leftInMemory m (dst + (z - 1) * n) x))

theorem gridByte_congr {m0 m0' m m' : Memory} {src dst n z x : Nat} (hx : x < n)
    (h0 : ∀ a, src + z * (1 + n) ≤ a → a < src + z * (1 + n) + 1 + n → m0'.read a = m0.read a)
    (h1 : ∀ a, dst ≤ a → a < dst + z * n + n → m'.read a = m.read a) :
    gridByte m0' m' src dst n z x = gridByte m0 m src dst n z x := by
  unfold gridByte
  rw [h0 _ (by omega) (by omega), h0 _ (by omega) (by omega),
    leftInMemory_congr (m := m) (m' := m') (fun i hi => h1 _ (by omega) (by omega))]
  by_cases hz : z = 0
  · simp [hz]
  · have : (z - 1) * n + n = z * n := by
      obtain ⟨k, rfl⟩ := Nat.exists_eq_succ_of_ne_zero hz
      simp [Nat.succ_mul]
    rw [if_neg hz, if_neg hz, if_neg hz, if_neg hz, h1 _ (by omega) (by omega),
      leftInMemory_congr (m := m) (m' := m') (fun i hi => h1 _ (by omega) (by omega))]

/-- R142, R143: rows y, y+1, ... of DECODE_IMAGE, every filter byte legal. -/
theorem decodeImageRows_ok (count : Nat) : ∀ {s : State} {h y : Nat}, GridAt s h → y + count ≤ h →
    (∀ z, y ≤ z → z < y + count → (s.mem.read (s.regs.srcAddr.toNat + z * s.regs.stride)).toNat ≤ 4) →
    ∃ m, decodeImageRows y count s =
        .ok () ((s.setMem m).setRegs (if count = 0 then s.regs else s.regs.setOutLen ((y + count) * s.regs.rowLen))) ∧
      (∀ z x, y ≤ z → z < y + count → x < s.regs.rowLen →
        m.read (s.regs.dstAddr.toNat + z * s.regs.rowLen + x) =
          gridByte s.mem m s.regs.srcAddr.toNat s.regs.dstAddr.toNat s.regs.rowLen z x) ∧
      ∀ a, a < s.regs.dstAddr.toNat + y * s.regs.rowLen ∨ s.regs.dstAddr.toNat + (y + count) * s.regs.rowLen ≤ a →
        m.read a = s.mem.read a := by
  induction count with
  | zero => intro s h y _ _ _; exact ⟨s.mem, rfl, fun z x h1 h2 => by omega, fun _ _ => rfl⟩
  | succ count ih =>
    intro s h y g hy hf
    obtain ⟨ft, hft⟩ := FilterType.ofCode_le (hf y (Nat.le_refl _) (by omega))
    have hrow := decodeImageRow_ok g (by omega) hft
    have b2 := row_below (n := s.regs.rowLen) (h := h) (y := y) (count := 0) (by omega)
    have b1 := row_below (n := s.regs.stride) (h := h) (y := y) (count := 0) (by omega)
    have hl : s.regs.stride = 1 + s.regs.rowLen := rfl
    generalize hn : s.regs.rowLen = n at *
    generalize hd : s.regs.dstAddr.toNat = dst at *
    generalize hs : s.regs.srcAddr.toNat = src at *
    rw [hl] at hrow hf hft
    generalize hm1 : s.mem.writeN (dst + y * n)
      (reconRow ft (s.mem.readN (src + y * (1 + n) + 1) n) (priorOf s.mem dst n y)) = m1 at hrow
    have out1 : ∀ a, a < dst + y * n ∨ dst + y * n + n ≤ a → m1.read a = s.mem.read a := by
      intro a ha
      rw [← hm1]
      exact Memory.read_writeN_outside _ _ _ (by simp; omega)
    have src1 : ∀ a, src ≤ a → a < src + h * (1 + n) → m1.read a = s.mem.read a := by
      intro a h1 h2
      have := g.apart
      rw [hn, hd, hs, hl] at this
      exact out1 a (by omega)
    obtain ⟨m, e1, e2, e3⟩ := @ih ((s.setMem m1).setRegs (s.regs.setOutLen ((y + 1) * n))) h (y + 1)
      ⟨g.srcHeld, g.dstHeld, g.apart⟩ (by omega) (fun z h1 h2 => by
        have bz := row_below (n := 1 + n) (h := h) (y := z) (count := 0) (by omega)
        show (m1.read (s.regs.srcAddr.toNat + z * s.regs.stride)).toNat ≤ 4
        rw [hs, hl, src1 _ (by omega) (by omega)]
        exact hf z (by omega) (by omega))
    have hn' : ((s.setMem m1).setRegs (s.regs.setOutLen ((y + 1) * n))).regs.rowLen = n := hn
    have hd' : ((s.setMem m1).setRegs (s.regs.setOutLen ((y + 1) * n))).regs.dstAddr.toNat = dst := hd
    have hs' : ((s.setMem m1).setRegs (s.regs.setOutLen ((y + 1) * n))).regs.srcAddr.toNat = src := hs
    rw [hn', hd', hs'] at e2
    rw [hn', hd'] at e3
    simp only [State.setRegs_mem, State.setMem_mem] at e2 e3
    have below : (y + 1) * n = y * n + n := Nat.succ_mul y n
    refine ⟨m, ?_, ?_, ?_⟩
    · rw [decodeImageRows, Engine.bind_ok hrow, e1, hn']
      rw [if_neg (Nat.succ_ne_zero count)]
      by_cases hc : count = 0
      · subst hc; rfl
      · rw [if_neg hc, show y + 1 + count = y + (count + 1) by omega]; rfl
    · intro z x h1 h2 hx
      by_cases hz : z = y
      · subst hz
        have hr : m1.read (dst + z * n + x) = gridByte s.mem m1 src dst n z x := by
          rw [← hm1, read_reconRow hft hx, hm1, priorOf_getD _ _ _ hx, leftOf_priorOf _ _ _ hx]
          unfold gridByte
          by_cases hz : z = 0
          · simp [hz]
          · have := row_below (n := n) (h := z) (y := z - 1) (count := 0) (by omega)
            rw [if_neg hz, if_neg hz, if_neg hz, if_neg hz, out1 _ (by omega),
              leftInMemory_congr (m := s.mem) (m' := m1) (row := dst + (z - 1) * n) (x := x) (fun i hi => out1 _ (by omega))]
        rw [e3 _ (by omega), hr]
        exact (gridByte_congr hx (fun _ _ _ => rfl) (fun a _ h2 => e3 a (by omega))).symm
      · rw [e2 z x (by omega) (by omega) hx]
        have bz := row_below (n := 1 + n) (h := h) (y := z) (count := 0) (by omega)
        exact gridByte_congr hx (fun a h1 h2 => src1 a (by omega) (by omega)) (fun _ _ _ => rfl)
    · intro a ha
      have : (y + (count + 1)) * n = (y + 1 + count) * n := by congr 1; omega
      have mono : (y + 1) * n ≤ (y + 1 + count) * n := Nat.mul_le_mul_right n (by omega)
      rw [e3 a (by omega)]
      exact out1 a (by omega)

/-! ## ISOLATE -/

theorem isolateRecord_head (ch : Nat) (row : List Byte) : (isolateRecord ch row).getD 0 0 = 0 := rfl

theorem isolateRecord_getD (ch : Nat) (row : List Byte) {i : Nat} (hi : i < row.length) :
    (isolateRecord ch row).getD (1 + i) 0 = if i % 3 = ch then row.getD i 0 else 0 := by
  rw [Nat.add_comm]
  simp [isolateRecord, List.getD, hi]

/-- R160: rows y, y+1, ... of ISOLATE, the grid's region present and apart from the written records. -/
theorem isolateRows_ok (ch count : Nat) : ∀ {s : State} {h y : Nat},
    s.platform.holdsAll s.regs.srcAddr.toNat (h * s.regs.rowLen) = true →
    s.platform.holdsAll s.regs.dstAddr.toNat (h * s.regs.stride) = true →
    (s.regs.srcAddr.toNat + h * s.regs.rowLen ≤ s.regs.dstAddr.toNat ∨
      s.regs.dstAddr.toNat + h * s.regs.stride ≤ s.regs.srcAddr.toNat) → y + count ≤ h →
    ∃ m, isolateRows ch y count s = .ok () (s.setMem m) ∧
      (∀ z, y ≤ z → z < y + count → m.read (s.regs.dstAddr.toNat + z * s.regs.stride) = 0) ∧
      (∀ z i, y ≤ z → z < y + count → i < s.regs.rowLen →
        m.read (s.regs.dstAddr.toNat + z * s.regs.stride + 1 + i) =
          if i % 3 = ch then s.mem.read (s.regs.srcAddr.toNat + z * s.regs.rowLen + i) else 0) ∧
      ∀ a, a < s.regs.dstAddr.toNat + y * s.regs.stride ∨ s.regs.dstAddr.toNat + (y + count) * s.regs.stride ≤ a →
        m.read a = s.mem.read a := by
  induction count with
  | zero => intro s h y _ _ _ _; exact ⟨s.mem, rfl, fun z h1 h2 => by omega, fun z i h1 h2 => by omega, fun _ _ => rfl⟩
  | succ count ih =>
    intro s h y hsrc hdst hap hy
    have hl : s.regs.stride = 1 + s.regs.rowLen := rfl
    have b1 := row_below (n := s.regs.rowLen) (h := h) (y := y) (count := 0) (by omega)
    have b2 := row_below (n := s.regs.stride) (h := h) (y := y) (count := 0) (by omega)
    have hrow : isolateRow ch y s = .ok () (s.setMem (s.mem.writeN (s.regs.dstAddr.toNat + y * s.regs.stride)
        (isolateRecord ch (s.mem.readN (s.regs.srcAddr.toNat + y * s.regs.rowLen) s.regs.rowLen)))) := by
      unfold isolateRow
      rw [Engine.get_bind, memRead_bind, if_pos (holdsAll_sub hsrc (by omega) (by omega)), memWrite_apply,
        if_pos (holdsAll_sub hdst (by omega) (by simp; omega))]
    generalize hm1 : s.mem.writeN (s.regs.dstAddr.toNat + y * s.regs.stride)
      (isolateRecord ch (s.mem.readN (s.regs.srcAddr.toNat + y * s.regs.rowLen) s.regs.rowLen)) = m1 at hrow
    have out1 : ∀ a, a < s.regs.dstAddr.toNat + y * s.regs.stride ∨
        s.regs.dstAddr.toNat + y * s.regs.stride + s.regs.stride ≤ a → m1.read a = s.mem.read a := by
      intro a ha
      rw [← hm1]
      exact Memory.read_writeN_outside _ _ _ (by simp; omega)
    obtain ⟨m, e0, e1, e2, e3⟩ := @ih (s.setMem m1) h (y + 1) hsrc hdst hap (by omega)
    simp only [State.setMem_regs, State.setMem_mem] at e1 e2 e3
    have below : (y + 1) * s.regs.stride = y * s.regs.stride + s.regs.stride := Nat.succ_mul _ _
    refine ⟨m, ?_, ?_, ?_, ?_⟩
    · rw [isolateRows, Engine.bind_ok hrow, e0]; rfl
    · intro z h1 h2
      by_cases hz : z = y
      · subst hz
        rw [e3 _ (by omega), ← hm1]
        exact (Memory.read_writeN_inside _ _ _ (i := 0) (by simp)).trans (isolateRecord_head _ _)
      · exact e1 z (by omega) (by omega)
    · intro z i h1 h2 hi
      by_cases hz : z = y
      · subst hz
        rw [e3 _ (by omega), ← hm1, Nat.add_assoc _ 1 i, Memory.read_writeN_inside _ _ _ (by simp; omega),
          isolateRecord_getD _ _ (by simpa using hi), Memory.readN_getD _ _ _ hi]
      · rw [e2 z i (by omega) (by omega) hi]
        have bz := row_below (n := s.regs.rowLen) (h := h) (y := z) (count := 0) (by omega)
        rw [out1 _ (by omega)]
    · intro a ha
      have : (y + (count + 1)) * s.regs.stride = (y + 1 + count) * s.regs.stride := by congr 1; omega
      have mono : (y + 1) * s.regs.stride ≤ (y + 1 + count) * s.regs.stride := Nat.mul_le_mul_right _ (by omega)
      rw [e3 a (by omega)]
      exact out1 a (by omega)

end Sys2Proof.Machine
end

