-- ==== Sys2Proof/Laws/Rows.lean ====
section
/-! SUPPORT. Laws of the bodies of the row and image commands (R140 to R142, R160, R182): what is left of each once its checks
have passed. -/

namespace Sys2Proof.Machine

theorem imgWidth_pos {s : State} (h : s.regs.imgWidth ≠ 0) : 0 < s.regs.imgWidth.toNat :=
  Nat.pos_of_ne_zero fun h' => h (BitVec.eq_of_toNat_eq h')

/-- R68: what two legal regions use does not meet. -/
theorem regionsLegal_apart {s : State} {i : Instr} {w r : Region} {a b : Nat} (hl : s.regionsLegal i)
    (h1 : (regionsOf s.regs i).written = some w) (h2 : r ∈ (regionsOf s.regs i).reads) (ha : 0 < a) (hb : 0 < b)
    (h3 : a ≤ w.len) (h4 : b ≤ r.len) : w.base + a ≤ r.base ∨ r.base + b ≤ w.base := by
  have := hl.2.2 w h1 r h2 (max w.base r.base)
  simp only [Region.contains_iff] at this
  omega

theorem checkAuxLength_ok {s : State} {first : Bool} {n : Nat} (h : first = false → s.regs.auxLen.toNat = n) :
    checkAuxLength first n s = .ok () s := by
  unfold checkAuxLength
  rw [Engine.get_bind]
  cases first
  · simp [checkLength_apply, h rfl]
  · rfl

theorem priorRow_ok {s : State} {first : Bool} {n : Nat}
    (h : first = false → s.platform.holdsAll s.regs.auxAddr.toNat n = true) :
    priorRow first n s = .ok (if first = true then List.replicate n 0 else s.mem.readN s.regs.auxAddr.toNat n) s := by
  unfold priorRow
  rw [Engine.get_bind]
  cases first
  · simp [memRead_apply, h rfl]
  · rfl

/-- R182 steps 2 to 5 of a row command, passed. -/
theorem rowChecks_ok {s : State} {i : Instr} {f : Unit → Engine Unit} (hg : s.gateOpen) (hw : s.regs.imgWidth ≠ 0)
    (hl : s.regionsLegal i) : (checkGate >>= fun _ => checkWidth >>= fun _ => checkRegions i >>= f) s = f () s := by
  rw [Engine.bind_ok (checkGate_ok hg), Engine.bind_ok (by rw [checkWidth_apply, if_pos hw]),
    Engine.bind_ok (checkRegions_ok hl)]

/-- R140: RECON_ROW once its checks have passed and the record is read. -/
theorem reconRowBody_checked {s : State} {first : Bool} {n : Nat} (hn : n = s.regs.rowLen) (hg : s.gateOpen)
    (hw : s.regs.imgWidth ≠ 0) (hl : s.regionsLegal (.reconRow first)) (hh : s.holdsRegionsOf (.reconRow first))
    (h1 : s.regs.srcLen.toNat = 1 + n) (h2 : first = false → s.regs.auxLen.toNat = n) (h3 : n ≤ s.regs.dstLen.toNat) :
    reconRowBody first s =
      (match FilterType.ofCode ((s.mem.readN s.regs.srcAddr.toNat (1 + n)).headD 0).toNat with
      | Option.none => raise .unknownFilterType 0
      | some ft => do
        let prior ← priorRow first n
        memWrite s.regs.dstAddr.toNat (reconRow ft ((s.mem.readN s.regs.srcAddr.toNat (1 + n)).drop 1) prior)
        setOutLen n : Engine Unit) s := by
  have hsrc : s.platform.holdsAll s.regs.srcAddr.toNat s.regs.srcLen.toNat = true :=
    State.holdsAll_of_regions hh (r := s.regs.src) (.inl (by cases first <;> simp [regionsOf])) (Nat.le_refl _) (Nat.le_refl _)
  rw [h1] at hsrc
  unfold reconRowBody
  rw [Engine.get_bind]
  simp only [← hn]
  rw [rowChecks_ok hg hw hl, Engine.bind_ok (by rw [checkLength_apply, if_pos h1]), Engine.bind_ok (checkAuxLength_ok h2),
    Engine.bind_ok (by rw [checkCapacity_apply, if_pos h3]), memRead_bind, if_pos hsrc]
  all_goals rfl

/-- R182 of DECODE_IMAGE, passed. -/
theorem decodeImageBody_checked {s : State} {n h : Nat} (hn : n = s.regs.rowLen) (hh : h = s.regs.imgHeight.toNat)
    (hg : s.gateOpen) (hw : s.regs.imgWidth ≠ 0) (h0 : s.regs.imgHeight ≠ 0) (hl : s.regionsLegal .decodeImage)
    (h1 : s.regs.srcLen.toNat = h * (1 + n)) (h2 : h * n ≤ s.regs.dstLen.toNat) :
    decodeImageBody s = decodeImageRows 0 h s := by
  have e1 : s.regs.stride = 1 + n := by rw [hn]; rfl
  unfold decodeImageBody
  rw [Engine.get_bind]
  simp only [← hn, ← hh, e1]
  rw [Engine.bind_ok (checkGate_ok hg), Engine.bind_ok (by rw [checkDimensions_apply, if_pos ⟨hw, h0⟩]),
    Engine.bind_ok (checkRegions_ok hl), Engine.bind_ok (by rw [checkLength_apply, if_pos h1]),
    Engine.bind_ok (by rw [checkCapacity_apply, if_pos h2])]

/-- The records and the grid of a DECODE_IMAGE whose checks have passed lie in present memory, apart from each other. -/
theorem GridAt.of_regions {s : State} {n h : Nat} (hn : n = s.regs.rowLen) (hw : s.regs.imgWidth ≠ 0) (h0 : h ≠ 0)
    (hl : s.regionsLegal .decodeImage) (hp : s.holdsRegionsOf .decodeImage)
    (h1 : s.regs.srcLen.toNat = h * (1 + n)) (h2 : h * n ≤ s.regs.dstLen.toNat) : GridAt s h := by
  have e1 : s.regs.stride = 1 + n := by rw [hn]; rfl
  refine ⟨?_, ?_, ?_⟩
  · exact State.holdsAll_of_regions hp (r := s.regs.src) (.inl (by simp [regionsOf])) (by simp [Regs.src])
      (by simp [Regs.src, h1, e1])
  · exact State.holdsAll_of_regions hp (r := s.regs.dst) (.inr (by simp [regionsOf])) (by simp [Regs.dst])
      (by simp [Regs.dst, ← hn]; omega)
  · have wp := imgWidth_pos hw
    have nw : 0 < n := by rw [hn, Regs.rowLen]; omega
    have a1 : 0 < h * (1 + n) := Nat.mul_pos (by omega) (by omega)
    have a2 : 0 < h * n := Nat.mul_pos (by omega) nw
    have ap := regionsLegal_apart (w := s.regs.dst) (r := s.regs.src) hl rfl (by simp [regionsOf]) a2 a1 h2
      (by simp [Regs.src]; omega)
    simp only [Regs.dst, Regs.src] at ap
    rw [e1, ← hn]
    omega

/-- R142: the rows of an image in two parts. -/
theorem decodeImageRows_add (a b : Nat) : ∀ y : Nat,
    decodeImageRows y (a + b) = (decodeImageRows y a >>= fun _ => decodeImageRows (y + a) b) := by
  induction a with
  | zero => intro y; funext s; simp [decodeImageRows]
  | succ a ih =>
    intro y
    funext s
    rw [show a + 1 + b = (a + b) + 1 by omega, decodeImageRows, decodeImageRows, Engine.bind_apply, Engine.bind_apply,
      Engine.bind_apply]
    cases decodeImageRow y s with
    | error => rfl
    | ok u t => simp only []; rw [ih, Engine.bind_apply, show y + 1 + a = y + (a + 1) by omega]

end Sys2Proof.Machine
end

