-- ==== Sys2Proof/Laws/Run.lean ====
section
/-! SUPPORT. Runs of the machine (`Host.Core.run`), one step at a time, and the moves of a host whose PSCE is idle. -/

namespace Sys2Proof.Machine

theorem run_zero (s : State) : Host.Core.run core 0 s = .next s := rfl

theorem run_next {s t : State} (k : Nat) (h : step s = .next t) :
    Host.Core.run core (k + 1) s = Host.Core.run core k t := by
  have e : core.step s = .next t := h
  simp only [Host.Core.run, e]

/-- R204: with no command outstanding the step is the host's next statement. -/
theorem step_idle {s : State} {op : HostOp} {rest : List HostOp} (h : s.outstanding = none) (hp : s.program = op :: rest) :
    step s = hostStep op rest s := by
  simp only [step, h, hp]

/-- R72: with no command outstanding a host store to an address that holds memory lands. -/
theorem hostStore_idle {s : State} {a : Nat} {b : Byte} (h : s.outstanding = none) (hp : s.platform.holds a = true) :
    hostStore a b s = .next { s with mem := s.mem.write a b } := by
  have : s.runningRegions.contains a = false := by simp [State.runningRegions, h, Regions.contains]
  simp [hostStore, hp, this]

end Sys2Proof.Machine
end

