-- ==== Sys2Proof/Tests/Slice0.lean ====
section
/-! SUPPORT. Tests: words and vectors written out from the spec (95_test_vectors.md), the ill-formed commands, and for every
statement of Obligations.lean that has hypotheses a concrete state that meets them. -/

namespace Sys2Proof.Tests

open Sys2Proof.Machine

set_option Elab.async false

/-! ## Well-formedness: one ill-formed command per check (R89) -/

theorem test_illFormed_reconByte : (Instr.reconByte 5).wellFormed = false := by decide
theorem test_illFormed_filtByte : (Instr.filtByte 7).wellFormed = false := by decide
theorem test_illFormed_filtRow : (Instr.filtRow 6 true).wellFormed = false := by decide
theorem test_illFormed_isolate : (Instr.isolate 3).wellFormed = false := by decide
theorem test_wellFormed_boundary :
    (Instr.reconByte 4).wellFormed = true ∧ (Instr.filtByte 4).wellFormed = true ∧
    (Instr.filtRow 4 false).wellFormed = true ∧ (Instr.isolate 2).wellFormed = true := by decide

/-! ## Decoding: each word bit by bit from the opcode map (R80, R87), as CH, FIRST, FT and OP stand in it -/

theorem test_decode_checkSig : decodeWord 0b000000000000000000_00_0_000_00000001 = some .checkSig := by decide
theorem test_decode_parseInit : decodeWord 0b000000000000000000_00_0_000_00000010 = some .parseInit := by decide
theorem test_decode_parseNext : decodeWord 0b000000000000000000_00_0_000_00000011 = some .parseNext := by decide
theorem test_decode_parseAll : decodeWord 0b000000000000000000_00_0_000_00000100 = some .parseAll := by decide
theorem test_decode_hdrCheck : decodeWord 0b000000000000000000_00_0_000_00001000 = some .hdrCheck := by decide
theorem test_decode_paeth : decodeWord 0b000000000000000000_00_0_000_00010000 = some .paeth := by decide
theorem test_decode_reconByte : decodeWord 0b000000000000000000_00_0_100_00010001 = some (.reconByte 4) := by decide
theorem test_decode_filtByte : decodeWord 0b000000000000000000_00_0_001_00010010 = some (.filtByte 1) := by decide
theorem test_decode_reconRow : decodeWord 0b000000000000000000_00_1_000_00010011 = some (.reconRow true) := by decide
theorem test_decode_filtRow : decodeWord 0b000000000000000000_00_1_011_00010100 = some (.filtRow 3 true) := by decide
theorem test_decode_decodeImage : decodeWord 0b000000000000000000_00_0_000_00010101 = some .decodeImage := by decide
theorem test_decode_isolate : decodeWord 0b000000000000000000_10_0_000_00011000 = some (.isolate 2) := by decide
theorem test_decode_assemble : decodeWord 0b000000000000000000_00_0_000_00100000 = some .assemble := by decide

/-- 95_test_vectors.md 3.1: the words it lists as ILLEGAL. -/
theorem test_decode_illegal :
    ([0x00000000, 0x00000005, 0x00000511, 0x00000711, 0x00000911, 0x00000913, 0x00001013, 0x00000F14, 0x00001014, 0x00000115,
      0x00000016, 0x00003018, 0x00000118, 0x00000818, 0x00000820, 0x00000103, 0x000000FF, 0x00004010, 0x80000001] : List Word).all
      (fun w => decodeWord w == none) = true := by decide

/-- R87, R88: no word belongs to two rows of the map. -/
theorem test_opcodeMap_disjoint :
    opcodeMap.Pairwise (fun r q => (r.pattern ^^^ q.pattern) &&& (r.mask &&& q.mask) ≠ 0) := by decide

/-- R92: the examples of the assembler syntax. -/
theorem test_assembleText :
    assembleText "RECON_BYTE" [.ftName "Paeth"] = some (.reconByte 4) ∧
    assembleText "FILT_ROW" [.ft 1, .first] = some (.filtRow 1 true) ∧
    assembleText "ISOLATE" [.ch "G"] = some (.isolate 1) ∧
    assembleText "PAETH" [.first] = none ∧ assembleText "FILT_ROW" [.ft 1, .ft 1] = none := by decide

/-! ## Start states -/

/-- Bytes from numbers. -/
def bytes (l : List Nat) : List Byte := l.map (BitVec.ofNat 8)

/-- The reset registers after the host has written the named ones (R24). -/
def written (l : List (RegName × Word)) : Regs := l.foldl (fun r p => r.store p.1 p.2) Regs.reset

/-- Memory after host stores. -/
def stored (l : List (Nat × List Byte)) : Memory := l.foldl (fun m p => m.writeN p.1 p.2) []

/-- The reset state after host writes and stores. -/
def start (regs : List (RegName × Word)) (memory : List (Nat × List Byte)) : State :=
  { State.reset with regs := written regs, mem := stored memory }

/-- Issue the command word and take the Engine's step. -/
def issued (w : Nat) (s : State) : Host.Outcome State Fault Refusal := step (s.withFetchWord 32 w)

/-- The outcome is a next state that passes the check. -/
def nextIs (o : Host.Outcome State Fault Refusal) (p : State → Bool) : Bool :=
  match o with
  | .next t => p t
  | .fault _ => false
  | .refused _ => false

/-- The outcome is a next state with these register values and these bytes. -/
def endsWith (o : Host.Outcome State Fault Refusal) (regs : List (RegName × Word)) (memory : List (Nat × List Byte)) : Bool :=
  nextIs o fun t => regs.all (fun p => t.regs.value p.1 == p.2) && memory.all (fun p => t.mem.readN p.1 p.2.length == p.2)

/-- Stream S (95_test_vectors.md 2.1), its signature, header, image data and end. -/
def sig : List Byte := bytes [0x89, 0x50, 0x4E, 0x47, 0x0D, 0x0A, 0x1A, 0x0A]
def hOk : List Byte := bytes [0, 0, 0, 0x0D, 0x49, 0x48, 0x44, 0x52, 0, 0, 0, 2, 0, 0, 0, 1, 8, 2, 0, 0, 0, 0x7B, 0x40, 0xE8, 0xDD]
def zBytes : List Byte :=
  bytes [0x78, 0x01, 0x01, 0x07, 0x00, 0xF8, 0xFF, 0x01, 0x0A, 0x14, 0x1E, 0x05, 0x05, 0x05, 0x01, 0x44, 0x00, 0x4D]
def idatZ : List Byte := bytes [0, 0, 0, 0x12, 0x49, 0x44, 0x41, 0x54] ++ zBytes ++ bytes [0x94, 0x3D, 0x7D, 0x77]
def iend : List Byte := bytes [0, 0, 0, 0, 0x49, 0x45, 0x4E, 0x44, 0xAE, 0x42, 0x60, 0x82]
def streamS : List Byte := sig ++ hOk ++ idatZ ++ iend
/-- 2.2: S with bit 0 of byte 41 flipped. -/
def streamBad : List Byte := streamS.set 41 0x79
/-- 2.3: the text chunk of stream SP, and SP itself. -/
def textChunk : List Byte := bytes [0, 0, 0, 3, 0x74, 0x45, 0x58, 0x74, 0x6B, 0x00, 0x76, 0xCB, 0x04, 0xF3, 0x90]
def streamSP : List Byte :=
  sig ++ hOk ++ bytes [0, 0, 0, 5, 0x49, 0x44, 0x41, 0x54, 0x78, 0x01, 0x01, 0x07, 0x00, 0x73, 0x11, 0x69, 0x52] ++ textChunk ++
    bytes [0, 0, 0, 0x0D, 0x49, 0x44, 0x41, 0x54, 0xF8, 0xFF, 0x01, 0x0A, 0x14, 0x1E, 0x05, 0x05, 0x05, 0x01, 0x44, 0x00, 0x4D,
      0x77, 0x95, 0x84, 0x3C] ++ iend
/-- 2.4: payload P and NewIdat(P). -/
def pBytes : List Byte :=
  bytes [0x78, 0x01, 0x01, 0x07, 0x00, 0xF8, 0xFF, 0x00, 0x0A, 0x00, 0x00, 0x0F, 0x00, 0x00, 0x00, 0x70, 0x00, 0x1A]
def newIdatP : List Byte := bytes [0, 0, 0, 0x12, 0x49, 0x44, 0x41, 0x54] ++ pBytes ++ bytes [0x9F, 0x22, 0x3D, 0x20]

/-- A stream at 0x1000 for the parser, with DST at 0x2000 (95_test_vectors.md 3.3). -/
def parsing (ctrl off dstLen : Word) (stream : List Byte) : State :=
  start [(.ctrl, ctrl), (.srcAddr, 0x1000), (.srcLen, BitVec.ofNat 32 stream.length), (.dstAddr, 0x2000), (.dstLen, dstLen),
    (.parseOff, off)] [(0x1000, stream)]

/-- A stream at 0x1000 for the assembler, with P at 0x6000 and DST at 0x7000 (3.8). -/
def assembling (ctrl dstLen : Word) (stream : List Byte) : State :=
  start [(.ctrl, ctrl), (.srcAddr, 0x1000), (.srcLen, BitVec.ofNat 32 stream.length), (.auxAddr, 0x6000), (.auxLen, 18),
    (.dstAddr, 0x7000), (.dstLen, dstLen)] [(0x1000, stream), (0x6000, pBytes)]

/-- The gate off, a row or an image at 0x500, the previous row Q of section 3.5 at 0x600, DST at 0x700. -/
def drawing (width height dstLen : Word) (source : List Byte) : State :=
  start [(.ctrl, 0), (.imgWidth, width), (.imgHeight, height), (.srcAddr, 0x500), (.srcLen, BitVec.ofNat 32 source.length),
    (.auxAddr, 0x600), (.auxLen, 6), (.dstAddr, 0x700), (.dstLen, dstLen)]
    [(0x500, source), (0x600, bytes [0x0A, 0x14, 0x1E, 0x0F, 0x19, 0x23])]

/-- The four byte operands written (R95 `BYTES`). -/
def operands (a b c x : Word) : State := start [(.byteA, a), (.byteB, b), (.byteC, c), (.byteX, x)] []

/-! ## One step per vector of 95_test_vectors.md -/

/-- CS1. -/
theorem test_checkSig_done : endsWith (issued 0x01 (parsing 0x10 8 64 streamS)) [(.status, 0x02), (.errCode, 0)] [] = true := by
  decide +kernel
/-- CS4: five bytes of stream. -/
theorem test_checkSig_short :
    endsWith (issued 0x01 (parsing 0x10 8 64 (sig.take 5))) [(.status, 0x04), (.errCode, 1), (.errInfo, 5)] [] = true := by
  decide +kernel
/-- PARSE_INIT on a parser whose cursor has moved (R104). -/
theorem test_parseInit :
    endsWith (issued 0x02 (parsing 0x10 0x21 64 streamS)) [(.parseOff, 8), (.status, 0x02), (.srcLen, 75)] [] = true := by
  decide +kernel
/-- PN2. -/
theorem test_parseNext_idat :
    endsWith (issued 0x03 (parsing 0x10 0x21 64 streamS))
      [(.parseOff, 0x3F), (.chunkCount, 1), (.idatLen, 0x12), (.chOff, 0x21), (.chLen, 0x12), (.chType, 0x49444154),
        (.chCrc, 0x943D7D77)] [(0x2000, zBytes)] = true := by decide +kernel
/-- PA10 at the chunk that does not fit. -/
theorem test_parseNext_capacity :
    endsWith (issued 0x03 (parsing 0x10 0x21 10 streamS))
      [(.status, 0x04), (.errCode, 18), (.errInfo, 0x12), (.parseOff, 0x21), (.idatLen, 0)] [(0x2000, [0])] = true := by
  decide +kernel
/-- PA2: both parts of a split IDAT, in order. -/
theorem test_parseAll_split :
    endsWith (issued 0x04 (parsing 0x10 8 64 streamSP))
      [(.status, 0x0A), (.parseOff, 0x66), (.chunkCount, 5), (.idatLen, 0x12), (.chOff, 0x5A)] [(0x2000, zBytes)] = true := by
  decide +kernel
/-- PA15: a corrupted IDAT under the skip policy. -/
theorem test_parseAll_skip :
    endsWith (issued 0x04 (parsing 0x12 8 64 streamBad))
      [(.status, 0x2A), (.parseOff, 0x4B), (.chunkCount, 2), (.corruptCount, 1), (.corruptType, 0x49444154), (.idatLen, 0)] [] =
      true := by decide +kernel
/-- HC1. -/
theorem test_hdrCheck_done :
    endsWith (issued 0x08 (parsing 0x10 8 64 (sig ++ hOk)))
      [(.status, 0x42), (.imgWidth, 2), (.imgHeight, 1), (.hdrFields, 0x208), (.chOff, 8), (.chCrc, 0x7B40E8DD)] [] = true := by
  decide +kernel
/-- HC10: five bad fields, the first is reported. -/
theorem test_hdrCheck_first_bad :
    endsWith (issued 0x08 (parsing 0x10 8 64 (sig ++ bytes [0, 0, 0, 0x0D, 0x49, 0x48, 0x44, 0x52, 0, 0, 0, 2, 0, 0, 0, 1,
        0x10, 3, 1, 1, 1, 0xFC, 0xB2, 0x38, 0x1B])))
      [(.errCode, 5), (.errInfo, 1), (.hdrFields, 0x01010310), (.hdrInterlace, 1), (.imgWidth, 0)] [] = true := by decide +kernel
/-- 3.4: p above 255. -/
theorem test_paeth_high : endsWith (issued 0x10 (operands 10 250 0 0)) [(.result, 250), (.status, 2)] [] = true := by
  decide +kernel
/-- 3.4: p below 0, a three-way tie. -/
theorem test_paeth_tie : endsWith (issued 0x10 (operands 0 0 255 9)) [(.result, 0)] [] = true := by decide +kernel
theorem test_reconByte_sub : endsWith (issued 0x111 (operands 100 0 0 200)) [(.result, 44)] [] = true := by decide +kernel
theorem test_reconByte_average : endsWith (issued 0x311 (operands 255 255 0 200)) [(.result, 199)] [] = true := by decide +kernel
theorem test_filtByte_up : endsWith (issued 0x212 (operands 0 20 0 10)) [(.result, 246)] [] = true := by decide +kernel
theorem test_filtByte_paeth : endsWith (issued 0x412 (operands 10 250 0 0)) [(.result, 6)] [] = true := by decide +kernel
/-- W1: Average in row 0. -/
theorem test_reconRow_first :
    endsWith (issued 0x813 (drawing 2 0 6 (bytes [3, 0x10, 0x20, 0x30, 0x10, 0x20, 0x30]))) [(.outLen, 6), (.status, 2)]
      [(0x700, bytes [0x10, 0x20, 0x30, 0x18, 0x30, 0x48, 0])] = true := by decide +kernel
/-- 3.5: Average over the previous row Q. -/
theorem test_reconRow_average :
    endsWith (issued 0x13 (drawing 2 0 6 (bytes [3, 5, 5, 5, 5, 5, 5]))) [(.outLen, 6)]
      [(0x700, bytes [0x0A, 0x0F, 0x14, 0x11, 0x19, 0x20])] = true := by decide +kernel
/-- W3. -/
theorem test_filtRow_first :
    endsWith (issued 0x914 (drawing 2 0 7 (bytes [0x0A, 0x14, 0x1E, 0x0F, 0x19, 0x23]))) [(.outLen, 7)]
      [(0x700, bytes [1, 0x0A, 0x14, 0x1E, 5, 5, 5])] = true := by decide +kernel
/-- 3.5: Paeth over the previous row Q. -/
theorem test_filtRow_paeth :
    endsWith (issued 0x414 (drawing 2 0 7 (bytes [0x10, 0x20, 0x30, 0x40, 0x50, 0x60]))) [(.outLen, 7)]
      [(0x700, bytes [4, 0x06, 0x0C, 0x12, 0x30, 0x30, 0x30])] = true := by decide +kernel
/-- DI1. -/
theorem test_decodeImage :
    endsWith (issued 0x15 (drawing 2 2 12 (bytes [1, 0x0A, 0x14, 0x1E, 5, 5, 5, 4, 1, 2, 3, 4, 5, 6]))) [(.outLen, 12)]
      [(0x700, bytes [0x0A, 0x14, 0x1E, 0x0F, 0x19, 0x23, 0x0B, 0x16, 0x21, 0x13, 0x1E, 0x29])] = true := by decide +kernel
/-- DI5: an unknown filter type in row 1. -/
theorem test_decodeImage_unknown :
    endsWith (issued 0x15 (drawing 1 2 6 (bytes [0, 0x64, 0x64, 0x64, 7, 0x0A, 0x0A, 0x0A])))
      [(.errCode, 6), (.errInfo, 1), (.outLen, 3)] [(0x700, bytes [0x64, 0x64, 0x64, 0, 0, 0])] = true := by decide +kernel
/-- IS2. -/
theorem test_isolate_green :
    endsWith (issued 0x1018 (drawing 1 1 4 (bytes [0xC8, 0x32, 0x0A]))) [(.outLen, 4)] [(0x700, bytes [0, 0, 0x32, 0])] = true := by
  decide +kernel
/-- IS8. -/
theorem test_isolate_red :
    endsWith (issued 0x18 (drawing 2 1 7 (bytes [0x0A, 0x14, 0x1E, 0x0F, 0x19, 0x23]))) [(.outLen, 7)]
      [(0x700, bytes [0, 0x0A, 0, 0, 0x0F, 0, 0])] = true := by decide +kernel
/-- X3. -/
theorem test_assemble_a :
    endsWith (issued 0x20 (assembling 0x10 128 streamSP)) [(.outLen, 0x5A), (.status, 2), (.chOff, 0x5A)]
      [(0x7000, sig ++ hOk ++ newIdatP ++ textChunk ++ iend)] = true := by decide +kernel
/-- X5. -/
theorem test_assemble_capacity :
    endsWith (issued 0x20 (assembling 0x10 40 streamS)) [(.errCode, 18), (.errInfo, 63), (.outLen, 0)]
      [(0x7000, List.replicate 8 0 ++ hOk ++ List.replicate 7 0)] = true := by decide +kernel

/-- An illegal word (R180, V16): OUT_LEN is kept. -/
theorem test_illegal_word :
    endsWith (issued 0x3018 State.reset) [(.status, 4), (.errCode, 16), (.errInfo, 0x3018), (.cmd, 0x3018)] [] = true := by
  decide +kernel
/-- V2, V3, V5, V6: what host writes store. -/
theorem test_host_writes :
    (registerWrite 0x64 0x1FF State.reset).regs.value .byteA = 0xFF ∧
    (registerWrite 0x00 0xFFFFFFFE State.reset).regs.value .ctrl = 0x1E ∧
    (registerWrite 0x2C 2 { State.reset with regs := { Regs.reset with
      status := ⟨false, true, false, false, false, false, true, false⟩ } }).regs.value .status = 0x02 ∧
    (registerWrite 0x04 0x86 { State.reset with regs := { Regs.reset with
      status := ⟨false, true, false, true, false, true, false, false⟩ } }).regs.value .status = 0x28 := by decide
/-- V8, V15: writes while BUSY is 1. -/
theorem test_busy_writes :
    (registerWrite 0x18 5 (State.reset.withFetchWord 32 4)).regs.value .status = 0x81 ∧
    (registerWrite 0x18 5 (State.reset.withFetchWord 32 4)).regs.value .srcLen = 0 ∧
    (registerWrite 0x08 1 (State.reset.withFetchWord 32 4)).regs.value .cmd = 4 := by decide
/-- V11 to V13: the interrupt output. -/
theorem test_irq :
    let e : State := { State.reset with regs := { Regs.reset with status := { Status.reset with error := true } } }
    e.irq = false ∧ (registerWrite 0x00 0x18 e).irq = true ∧ (registerWrite 0x04 0x86 (registerWrite 0x00 0x18 e)).irq = false ∧
      (registerWrite 0x00 0x10 (registerWrite 0x00 0x18 e)).irq = false := by decide
/-- R11: the check value of the standard CRC-32, over the digits 1 to 9. -/
theorem test_crc32_check :
    standardCrc32 (bytes [0x31, 0x32, 0x33, 0x34, 0x35, 0x36, 0x37, 0x38, 0x39]) = 0xCBF43926 := by decide +kernel
/-- R11: the CRC of "IEND" (2.1). -/
theorem test_crc32_iend : standardCrc32 [0x49, 0x45, 0x4E, 0x44] = 0xAE426082 := by decide +kernel

/-! ## The steps the host asks for: every row of the opcode table after reset -/

theorem test_table_words :
    ([0x01, 0x02, 0x03, 0x04, 0x08, 0x10, 0x11, 0x12, 0x13, 0x14, 0x15, 0x18, 0x20] : List Nat).all
      (fun w => (decodeTableWord 32 w).isSome && nextIs (issued w State.reset) (fun _ => true)) = true := by decide +kernel

/-! ## Witnesses: the hypotheses of each statement, met -/

/-- The regions of a command are legal and present. -/
theorem legal_and_held {i : Instr} {s : State}
    (h : ((regionsOf s.regs i).allFit && (regionsOf s.regs i).apart && decide (s.platform.present = [⟨0, 2 ^ 32⟩])) = true) :
    s.regionsLegal i ∧ s.holdsRegionsOf i := by
  rw [Bool.and_eq_true, Bool.and_eq_true, decide_eq_true_iff] at h
  exact ⟨(State.regionsLegal_iff s i).2 h.1, State.holdsRegionsOf_of_fit h.2 h.1.1⟩

/-- A running command: DECODE_IMAGE with DST at (0x700, 6), of which 0x700 to 0x704 hold memory. -/
def running : State :=
  { (drawing 1 2 6 (bytes [0, 1, 2, 3, 0, 4, 5, 6])).withFetchWord 32 0x15 with
    platform := ⟨0x10000, [⟨0, 0x705⟩, ⟨0x706, 2 ^ 32 - 0x706⟩], .parameter⟩ }

theorem witness_ResetStateHoldsTheResetValues :
    (0xFC < 0x100 ∧ 0xFC % 4 = 0) ∧ (0x38 < 0x100 ∧ 0x38 % 4 = 0) ∧ (drawing 1 1 4 []).outstanding = none := by decide +kernel

theorem witness_SoftResetActsIdleOrBusy : (0x00000001 : Word).getLsbD 0 = true ∧ (0xFFFFFFFF : Word).getLsbD 0 = true ∧
    running.outstanding = some 0x15 := by decide +kernel

/-- Both ends of the written region, the byte before it and the byte behind it, and a byte of it that holds no memory; and a command without one. -/
theorem witness_AbortedCommandLeavesDraws :
    running.outstanding = some 0x15 ∧ (regionsOfWord running.regs 0x15).written = some ⟨0x700, 6⟩ ∧
    ((⟨0x700, 6⟩ : Region).contains 0x700 = true ∧ running.platform.holds 0x700 = true) ∧
    ((⟨0x700, 6⟩ : Region).contains 0x704 = true ∧ running.platform.holds 0x704 = true) ∧
    ((⟨0x700, 6⟩ : Region).contains 0x705 = true ∧ running.platform.holds 0x705 = false) ∧
    (⟨0x700, 6⟩ : Region).contains 0x6FF = false ∧ (⟨0x700, 6⟩ : Region).contains 0x706 = false ∧
    (State.reset.withFetchWord 32 0x10).outstanding = some 0x10 ∧
    (regionsOfWord (State.reset.withFetchWord 32 0x10).regs 0x10).written = none := by decide +kernel

theorem witness_ReservedOffsetsAndBitsAreInert :
    (0x78 ≤ 0x78 ∧ 0x78 < 0x100 ∧ 0x78 % 4 = 0) ∧ (0x78 ≤ 0xFC ∧ 0xFC < 0x100 ∧ 0xFC % 4 = 0) ∧
    running.regs.status.busy = true ∧ State.reset.regs.status.busy = false ∧
    (∀ k, k < 5 → (0xFFFFFFE2 : Word).getLsbD k = (0x00000002 : Word).getLsbD k) ∧
    (∀ k, k < 8 → (0xFFFFFF86 : Word).getLsbD k = (0x00000086 : Word).getLsbD k) := by decide +kernel

theorem witness_BusyWritesAreDropped :
    running.regs.status.busy = true ∧
    ((0x00 < 0x100 ∧ 0x00 % 4 = 0) ∧ ¬ (0x00 = 0x00 ∧ (0xFFFFFFFE : Word).getLsbD 0 = true)) ∧
    ((0x04 < 0x100 ∧ 0x04 % 4 = 0) ∧ ¬ (0x04 = 0x00 ∧ (0x00000001 : Word).getLsbD 0 = true)) ∧
    ((0xFC < 0x100 ∧ 0xFC % 4 = 0) ∧ ¬ (0xFC = 0x00 ∧ (0x00000001 : Word).getLsbD 0 = true)) := by decide +kernel

theorem witness_WritableRegistersStoreTheValue :
    State.reset.regs.status.busy = false ∧ (0xFFFFFFFE : Word).getLsbD 0 = false ∧
    RegName.imgWidth ∈ [RegName.srcAddr, .srcLen, .dstAddr, .dstLen, .auxAddr, .auxLen, .imgWidth, .imgHeight, .parseOff] ∧
    RegName.byteX ∈ [RegName.byteA, .byteB, .byteC, .byteX] ∧ RegName.cmd ≠ .imgWidth ∧ RegName.cmd ≠ .status ∧
    RegName.srcAddr ≠ .ctrl ∧ RegName.srcAddr ≠ .status ∧ 0 < 32 ∧ 31 < 32 := by decide +kernel

theorem witness_ReadOnlyRegistersIgnoreWrites :
    State.reset.regs.status.busy = false ∧ RegName.errCode ∈ [RegName.errCode, .errInfo, .outLen, .idatLen, .chunkCount,
      .corruptCount, .corruptType, .chOff, .chLen, .chType, .chCrc, .hdrFields, .hdrInterlace, .result] := by decide +kernel

theorem witness_StatusWritesClearOnlyTheirBits :
    (drawing 1 1 4 []).regs.status.busy = false ∧ RegName.errCode ≠ .status := by decide +kernel

theorem witness_IssueHasTheStartEffects :
    State.reset.regs.status.busy = false ∧ decodeWord 0x13 = some (.reconRow false) ∧ decodeWord 0x914 = some (.filtRow 1 true) ∧
    decodeWord 0x15 = some .decodeImage ∧ decodeWord 0x2018 = some (.isolate 2) ∧ decodeWord 0x20 = some .assemble ∧
    decodeWord 0x3018 = none ∧ RegName.ctrl ∉ [RegName.cmd, .status, .errCode, .errInfo, .outLen] := by decide +kernel

/-- The first and the last register, and an access below, above, unaligned and of another size. -/
theorem witness_OnlyAlignedWordAccessesAreAccepted :
    (∀ addr ∈ [0x10000, 0x100FC], 4 = 4 ∧ running.platform.engineBase ≤ addr ∧ addr < running.platform.engineBase + 0x100 ∧
      (addr - running.platform.engineBase) % 4 = 0) ∧
    (∀ p ∈ [(0xFFFC, 4), (0x10100, 4), (0x10002, 4), (0x10000, 2)], ¬ (p.2 = 4 ∧ running.platform.engineBase ≤ p.1 ∧
      p.1 < running.platform.engineBase + 0x100 ∧ (p.1 - running.platform.engineBase) % 4 = 0)) := by decide +kernel

theorem witness_RegisterReadsReturnValuesOrDraws :
    State.reset.outstanding = none ∧
    ((State.reset.withFetchWord 32 0xFF).outstanding = some 0xFF ∧ decodeWord 0xFF = none) ∧
    ((State.reset.withFetchWord 32 0x08).outstanding = some 0x08 ∧ decodeWord 0x08 = some .hdrCheck ∧
      (let drawn : List RegName :=
        [.imgWidth, .imgHeight, .corruptCount, .corruptType, .chOff, .chLen, .chType, .chCrc, .hdrFields, .hdrInterlace]
      RegName.errCode ≠ .status ∧ RegName.errCode ∉ drawn ∧ RegName.hdrInterlace ∈ drawn ∧ RegName.imgWidth ∈ drawn) ∧
      6 ∈ [5, 6] ∧ 0 ∉ [5, 6]) := by decide +kernel

/-- Both sides of the interrupt's condition are met by a state. -/
theorem witness_InterruptFollowsTheRegisters :
    ({ State.reset with regs := { Regs.reset with
      ctrl := { Ctrl.reset with irqEn := true }, status := { Status.reset with done := true } } } : State).irq = true ∧
    State.reset.irq = false := by decide +kernel

/-- A byte of the read region and of the written one race; the bytes beside them do not. -/
theorem witness_HostStoresRaceOnlyInRegions :
    running.outstanding = some 0x15 ∧ decodeWord 0x15 = some .decodeImage ∧
    (∀ a ∈ [0x500, 0x507, 0x700, 0x704], running.platform.holds a = true ∧ (regionsOf running.regs .decodeImage).contains a = true) ∧
    (∀ a ∈ [0x4FF, 0x508, 0x6FF, 0x706], running.platform.holds a = true ∧ (regionsOf running.regs .decodeImage).contains a = false) := by
  decide +kernel

theorem witness_HostLoadsDrawOnlyInTheWrittenRegion :
    running.outstanding = some 0x15 ∧ decodeWord 0x15 = some .decodeImage ∧
    (regionsOf running.regs .decodeImage).written = some ⟨0x700, 6⟩ ∧
    (∀ a ∈ [0x700, 0x704], running.platform.holds a = true ∧ (⟨0x700, 6⟩ : Region).contains a = true) ∧
    (∀ a ∈ [0x500, 0x6FF, 0x706], running.platform.holds a = true ∧ (⟨0x700, 6⟩ : Region).contains a = false) := by decide +kernel

/-- With the schedule naming the Engine, and with it naming the host where no statement is left. -/
theorem witness_StepRunsTheDecodedCommand :
    running.outstanding = some 0x15 ∧ decodeWord 0x15 = some .decodeImage ∧ running.schedule.head? ≠ some .host ∧
    running.program = [] ∧
    ({ running with program := [.wait] } : State).schedule.head? ≠ some .host := by decide +kernel

theorem witness_IllegalWordEndsWithIllegalCommand :
    (State.reset.withFetchWord 32 0x4010).outstanding = some 0x4010 ∧ decodeWord 0x4010 = none ∧
    (State.reset.withFetchWord 32 0x4010).schedule.head? ≠ some .host := by decide +kernel

/-- The three moves; a source that ends at the last present byte and one that goes past it; and a `MEM` up to the last present byte, and an empty one. -/
theorem witness_HostMovesOneStatementAStep :
    (State.reset.outstanding = none ∧ State.reset.program = []) ∧
    (({ State.reset with program := [.wait] } : State).outstanding = none) ∧
    (({ running with program := [.wait], schedule := [.host, .engine] } : State).outstanding = some 0x15) ∧
    (∀ i, i < 2 → running.platform.holds (0x703 + i) = true) ∧ (2 < 3 ∧ running.platform.holds (0x703 + 2) = false) ∧
    (∀ bs ∈ [[], bytes [7, 8]],
      let s : State := { State.reset with platform := running.platform, program := [.store 0x703 bs, .wait] }
      s.outstanding = none ∧ s.program = [.store 0x703 bs, .wait] ∧
        ∀ i, i < bs.length → s.platform.holds (0x703 + i) = true) := by decide +kernel

theorem witness_WaitRepeatsUntilTheEngineMoves :
    (∀ k, k < 3 → ({ running with program := [.wait], schedule := List.replicate k .host ++ [.engine] } : State).outstanding = some 0x15) ∧
    ({ State.reset with program := [.wait] } : State).outstanding = none := by decide +kernel

/-- A success and an error. -/
theorem witness_CompletionSetsExactlyOneOutcome :
    nextIs (exec .parseInit State.reset) (fun t => t.regs.status.done) = true ∧
    nextIs (exec .decodeImage State.reset) (fun t => t.regs.status.error) = true := by decide +kernel

/-- The regions of every command, present. -/
theorem witness_EveryCommandCompletesOnPresentMemory (i : Instr) : State.reset.holdsRegionsOf i :=
  State.holdsRegionsOf_of_fit rfl (by cases i <;> first | rfl | (rename_i b; cases b <;> rfl))

/-- CHECK_SIG on a stream whose first byte is absent. -/
theorem witness_CommandsStopOnlyOnAbsentMemory :
    let s : State := { start [(.srcAddr, 0xFFFFFFFF), (.srcLen, 1)] [] with platform := ⟨0, [⟨0, 0xFFFFFFFF⟩], .standard⟩ }
    s.regs.srcLen ≠ 0 ∧ s.regs.srcAddr.toNat + s.regs.srcLen.toNat ≤ 2 ^ 32 ∧ s.platform.holds s.regs.srcAddr.toNat = false ∧
    (match exec .checkSig s with
      | .fault f => f == .absentMemory
      | .next _ => false
      | .refused _ => false) = true := by
  decide +kernel

/-- A command that writes memory, with a byte outside its region. -/
theorem witness_CommandsWriteOnlyTheirRegion :
    nextIs (exec .decodeImage (drawing 1 1 3 (bytes [0, 1, 2, 3]))) (fun t => t.mem.read 0x700 == 1) = true ∧
    (regionsOf (drawing 1 1 3 (bytes [0, 1, 2, 3])).regs .decodeImage).written = some ⟨0x700, 3⟩ ∧
    (⟨0x700, 3⟩ : Region).contains 0x703 = false := by decide +kernel

theorem witness_CommandsKeepTheOtherRegisters :
    nextIs (exec .parseNext (parsing 0x10 8 64 (sig ++ hOk))) (fun t => t.regs.status.done) = true ∧
    RegName.imgWidth ∉ [RegName.status, .errCode, .errInfo] ∧ (Instr.parseNext ≠ .hdrCheck) ∧
    Instr.assemble ∉ [Instr.parseInit, .parseNext, .parseAll] := by decide +kernel

theorem witness_RestrictedFieldValuesAreIllegal : 4 < (5 : BitVec 3).toNat ∧ 4 < (7 : BitVec 3).toNat := by decide

/-- A region one byte too long, and one that just fits but shares a byte with a read region. -/
theorem witness_RegionErrorsAreReportedInOrder :
    let beyond : State := start [(.srcAddr, 0xFFFFFFFF), (.srcLen, 2)] []
    let meet : State := start [(.srcAddr, 0x1000), (.srcLen, 8), (.dstAddr, 0x1007), (.dstLen, 0xFFFFEFF9)] []
    ((regionsOf beyond.regs .checkSig).reads = [⟨0xFFFFFFFF, 2⟩] ∧ 2 ^ 32 < 0xFFFFFFFF + 2) ∧
    2 ^ 32 < beyond.regs.srcAddr.toNat + beyond.regs.srcLen.toNat ∧
    ((regionsOf meet.regs .parseAll).reads = [⟨0x1000, 8⟩] ∧ (regionsOf meet.regs .parseAll).written = some ⟨0x1007, 0xFFFFEFF9⟩ ∧
      0x1007 + 0xFFFFEFF9 ≤ 2 ^ 32 ∧ (⟨0x1007, 0xFFFFEFF9⟩ : Region).contains 0x1007 = true ∧
      (⟨0x1000, 8⟩ : Region).contains 0x1007 = true) := by decide +kernel

/-- The whole signature; the first byte missing; the last byte missing; the last byte different. -/
theorem witness_CheckSigComparesTheSignature :
    let s := parsing 0x10 8 64 sig
    let bad := parsing 0x10 8 64 (sig.set 7 0)
    let short := parsing 0x10 8 64 (sig.take 7)
    (s.regs.srcAddr.toNat + s.regs.srcLen.toNat ≤ 2 ^ 32 ∧ 8 ≤ s.regs.srcLen.toNat ∧
      s.mem.readN s.regs.srcAddr.toNat 8 = [0x89, 0x50, 0x4E, 0x47, 0x0D, 0x0A, 0x1A, 0x0A]) ∧
    (∀ p ∈ [bad, short], ∀ j, j < 7 → j < p.regs.srcLen.toNat ∧
      p.mem.read (p.regs.srcAddr.toNat + j) = ([0x89, 0x50, 0x4E, 0x47, 0x0D, 0x0A, 0x1A, 0x0A] : List Byte).getD j 0) ∧
    bad.mem.read (bad.regs.srcAddr.toNat + 7) ≠ ([0x89, 0x50, 0x4E, 0x47, 0x0D, 0x0A, 0x1A, 0x0A] : List Byte).getD 7 0 ∧
    short.regs.srcLen.toNat ≤ 7 ∧ (parsing 0x10 8 64 []).regs.srcLen.toNat ≤ 0 := by decide +kernel

theorem witness_CheckSigComparesTheSignature_present (s : State) (h : s.platform = Platform.reset)
    (hs : s.regs.srcAddr.toNat + s.regs.srcLen.toNat ≤ 2 ^ 32) :
    s.platform.holdsRegion ⟨s.regs.srcAddr.toNat, min s.regs.srcLen.toNat 8⟩ := by
  intro a ha
  simp only [Region.contains, Bool.and_eq_true, decide_eq_true_eq] at ha
  have : a < 4294967296 := by omega
  simp [h, Platform.holds, Platform.reset, Region.contains, addressSpace, this]

/-- A cursor beyond the stream; IEND and EXHAUSTED already 1; a cursor at the end. -/
theorem witness_ParserAtTheEndOfTheStream :
    (parsing 0x10 9 64 sig).regionsLegal .parseAll ∧
    (parsing 0x10 9 64 sig).regs.srcLen.toNat < (parsing 0x10 9 64 sig).regs.parseOff.toNat ∧
    (parsing 0x10 8 64 sig).regionsLegal .parseNext ∧
    (parsing 0x10 8 64 sig).regs.parseOff = (parsing 0x10 8 64 sig).regs.srcLen ∧
    (parsing 0x10 8 64 sig).regs.status.iend = false ∧ (parsing 0x10 8 64 sig).regs.status.exhausted = false ∧
    (let ended : State := { parsing 0x10 8 64 sig with regs := (parsing 0x10 8 64 sig).regs.setIend };
      ended.regs.parseOff.toNat ≤ ended.regs.srcLen.toNat ∧ ended.regs.status.iend = true) :=
  ⟨(legal_and_held (by decide +kernel)).1, by decide +kernel, (legal_and_held (by decide +kernel)).1, by decide +kernel,
    by decide +kernel, by decide +kernel, by decide +kernel⟩

/-- The chunk at the cursor of a parser state. -/
def here (s : State) : Chunk := chunkAt s.platform.crc s.mem s.regs.srcAddr.toNat s.regs.parseOff.toNat

/-- The common premises of the PARSE_NEXT statements. -/
def parserReady (i : Instr) (s : State) : Prop :=
  s.regionsLegal i ∧ s.holdsRegionsOf i ∧ s.regs.status.iend = false ∧ s.regs.status.exhausted = false

theorem parserReady_of {i : Instr} {s : State}
    (h : ((regionsOf s.regs i).allFit && (regionsOf s.regs i).apart && decide (s.platform.present = [⟨0, 2 ^ 32⟩])) = true)
    (h' : s.regs.sequenceEnded = false) : parserReady i s := by
  rw [Regs.sequenceEnded, Bool.or_eq_false_iff] at h'
  exact ⟨(legal_and_held h).1, (legal_and_held h).2, h'.1, h'.2⟩

/-- A header, an IDAT that exactly fits, and an IEND that ends with the stream. -/
theorem witness_ParseNextAcceptsAGoodChunk :
    (∀ s ∈ [parsing 0x10 8 64 streamS, parsing 0x10 0x21 18 streamS, parsing 0x10 0x3F 0 streamS],
      (here s).good = true ∧ s.regs.parseOff.toNat + 12 + (here s).len ≤ s.regs.srcLen.toNat ∧
      ((here s).typ = [0x49, 0x44, 0x41, 0x54] → s.regs.idatLen.toNat + (here s).len ≤ s.regs.dstLen.toNat)) ∧
    (here (parsing 0x10 0x21 18 streamS)).typ = [0x49, 0x44, 0x41, 0x54] ∧
    (here (parsing 0x10 0x3F 0 streamS)).typ = [0x49, 0x45, 0x4E, 0x44] := by decide +kernel

theorem witness_ParseNextAcceptsAGoodChunk_ready :
    parserReady .parseNext (parsing 0x10 8 64 streamS) ∧ parserReady .parseNext (parsing 0x10 0x21 18 streamS) ∧
    parserReady .parseNext (parsing 0x10 0x3F 0 streamS) :=
  ⟨parserReady_of (by decide +kernel) (by decide +kernel), parserReady_of (by decide +kernel) (by decide +kernel),
    parserReady_of (by decide +kernel) (by decide +kernel)⟩

/-- A tampered IDAT, strict and under the skip policy. -/
theorem witness_ParseNextRecordsAMismatch :
    parserReady .parseNext (parsing 0x10 0x21 64 streamBad) ∧ parserReady .parseNext (parsing 0x12 0x21 64 streamBad) ∧
    (∀ s ∈ [parsing 0x10 0x21 64 streamBad, parsing 0x12 0x21 64 streamBad],
      (here s).good = false ∧ s.regs.parseOff.toNat + 12 + (here s).len ≤ s.regs.srcLen.toNat) ∧
    (parsing 0x10 0x21 64 streamBad).regs.ctrl.crcSkip = false ∧ (parsing 0x12 0x21 64 streamBad).regs.ctrl.crcSkip = true :=
  ⟨parserReady_of (by decide +kernel) (by decide +kernel), parserReady_of (by decide +kernel) (by decide +kernel),
    by decide +kernel, by decide +kernel, by decide +kernel⟩

/-- Eleven bytes left; a chunk one byte too long for the stream; an IDAT one byte too long for DST. -/
theorem witness_ParseNextErrorsKeepTheCursor :
    parserReady .parseNext (parsing 0x10 0x3F 64 (streamS.take 74)) ∧ parserReady .parseNext (parsing 0x10 0x21 64 (streamS.take 62)) ∧
    parserReady .parseNext (parsing 0x10 0x21 17 streamS) ∧
    (let s := parsing 0x10 0x3F 64 (streamS.take 74);
      s.regs.parseOff.toNat < s.regs.srcLen.toNat ∧ s.regs.srcLen.toNat - s.regs.parseOff.toNat < 12) ∧
    (let s := parsing 0x10 0x21 64 (streamS.take 62);
      s.regs.parseOff.toNat < s.regs.srcLen.toNat ∧ s.regs.srcLen.toNat < s.regs.parseOff.toNat + 12 + (here s).len) ∧
    (let s := parsing 0x10 0x21 17 streamS;
      s.regs.parseOff.toNat < s.regs.srcLen.toNat ∧ s.regs.parseOff.toNat + 12 + (here s).len ≤ s.regs.srcLen.toNat ∧
      (here s).good = true ∧ (here s).typ = [0x49, 0x44, 0x41, 0x54] ∧ s.regs.dstLen.toNat < s.regs.idatLen.toNat + (here s).len) :=
  ⟨parserReady_of (by decide +kernel) (by decide +kernel), parserReady_of (by decide +kernel) (by decide +kernel),
    parserReady_of (by decide +kernel) (by decide +kernel), by decide +kernel, by decide +kernel, by decide +kernel⟩

/-- PARSE_NEXT ending with an error, with IEND, with EXHAUSTED, and with more to come. -/
theorem witness_ParseAllIsRepeatedParseNext :
    nextIs (exec .parseNext (parsing 0x10 8 64 (sig ++ [0]))) (fun t => t.regs.status.error) = true ∧
    nextIs (exec .parseNext (parsing 0x10 0x3F 64 streamS)) (fun t => t.regs.status.done && t.regs.status.iend) = true ∧
    nextIs (exec .parseNext (parsing 0x10 8 64 sig)) (fun t => t.regs.status.done && t.regs.status.exhausted) = true ∧
    nextIs (exec .parseNext (parsing 0x10 8 64 streamS))
      (fun t => t.regs.status.done && !t.regs.status.iend && !t.regs.status.exhausted) = true := by decide +kernel

theorem witness_ParseAllEndsOnlyAtTheEnd :
    nextIs (exec .parseAll (parsing 0x10 8 64 streamS)) (fun t => t.regs.status.done) = true := by decide +kernel

/-- The chunks of a stream, one behind the other, from an offset. -/
def chunksFrom (s : State) : Nat → Nat → List Chunk
  | _, 0 => []
  | off, n + 1 =>
    let k := chunkAt s.platform.crc s.mem s.regs.srcAddr.toNat off
    k :: chunksFrom s (off + 12 + k.len) n

theorem chunksFrom_at (s : State) (n : Nat) : ∀ off, chunksAt s.platform.crc s.mem s.regs.srcAddr.toNat off (chunksFrom s off n) := by
  induction n with
  | zero => intro off; trivial
  | succ n ih => intro off; exact ⟨rfl, ih _⟩

/-- Stream SP to its IEND, with a payload that exactly fits; and a tampered stream without IEND under the skip policy. -/
theorem witness_ParseAllConcatenatesThePayload :
    let s := parsing 0x10 8 18 streamSP
    let ks := chunksFrom s 8 5
    let s' := parsing 0x12 8 0 (streamBad.take 63)
    let ks' := chunksFrom s' 8 2
    (parserReady .parseAll s ∧ parserReady .parseAll s') ∧
    (∀ k ∈ ks, k.good = true) ∧ noEarlyEnd ks ∧ s.regs.parseOff.toNat + chunksSize ks ≤ s.regs.srcLen.toNat ∧ endsAtIend ks ∧
    s.regs.idatLen.toNat + (payloadOf ks).length ≤ s.regs.dstLen.toNat ∧ payloadOf ks = zBytes ∧
    s'.regs.ctrl.crcSkip = true ∧ noEarlyEnd ks' ∧ s'.regs.parseOff.toNat + chunksSize ks' = s'.regs.srcLen.toNat ∧
    s'.regs.idatLen.toNat + (payloadOf ks').length ≤ s'.regs.dstLen.toNat ∧ ¬ endsAtIend ks' := by
  refine ⟨⟨parserReady_of (by decide +kernel) (by decide +kernel), parserReady_of (by decide +kernel) (by decide +kernel)⟩,
    by decide +kernel, ?_, by decide +kernel, ⟨_, rfl, by decide +kernel, by decide +kernel⟩, by decide +kernel, by decide +kernel,
    by decide +kernel, ?_, by decide +kernel, by decide +kernel, ?_⟩
  · unfold noEarlyEnd; decide +kernel
  · unfold noEarlyEnd; decide +kernel
  · rintro ⟨k, hk, hg, ht⟩
    cases hk
    revert ht
    decide +kernel

/-- A stream for HDR_CHECK: the chunk at offset 8. -/
def first (s : State) : Chunk := chunkAt s.platform.crc s.mem s.regs.srcAddr.toNat 8

theorem hdr_held {s : State} (h : (regionsOf s.regs .hdrCheck).allFit = true) (hp : s.platform = Platform.reset) :
    s.regs.srcAddr.toNat + s.regs.srcLen.toNat ≤ 2 ^ 32 ∧ s.holdsRegionsOf .hdrCheck :=
  ⟨(Regions.allFit_iff _).1 h s.regs.src (.inl (by simp [regionsOf])), State.holdsRegionsOf_of_fit (by rw [hp]; rfl) h⟩

/-- A stream that ends with the header. -/
theorem witness_HdrCheckLoadsTheSupportedProfile :
    let s := parsing 0x10 8 64 (sig ++ hOk)
    (s.regs.srcAddr.toNat + s.regs.srcLen.toNat ≤ 2 ^ 32 ∧ s.holdsRegionsOf .hdrCheck) ∧
    (first s).good = true ∧ 20 + (first s).len ≤ s.regs.srcLen.toNat ∧ (first s).typ = [0x49, 0x48, 0x44, 0x52] ∧
    (first s).len = 13 ∧ be32 (first s).data 0 ≠ 0 ∧ be32 (first s).data 4 ≠ 0 ∧ (first s).data.drop 8 = [8, 2, 0, 0, 0] :=
  ⟨hdr_held (by decide +kernel) rfl, by decide +kernel⟩

/-- 95_test_vectors.md 2.5: a header chunk of 13 bytes of data with the given last five, and the CRC the spec gives it. -/
def header (w h bd ct cm fm il : Nat) (crc : List Nat) : List Byte :=
  sig ++ bytes ([0, 0, 0, 0x0D, 0x49, 0x48, 0x44, 0x52, 0, 0, 0, w, 0, 0, 0, h, bd, ct, cm, fm, il] ++ crc)

/-- One stream for each verdict of the fixed order: an IEND first, twelve bytes of data, and the vectors HC3, HC6, HC2, HC7, HC8, HC9. -/
theorem witness_HdrCheckReportsTheFirstBadField :
    (∀ p ∈ [(sig ++ iend, (4, 0)),
        (sig ++ bytes [0, 0, 0, 0x0C, 0x49, 0x48, 0x44, 0x52, 0, 0, 0, 2, 0, 0, 0, 1, 8, 2, 0, 0, 0xFE, 0xA9, 0x03, 0xEC], (4, 1)),
        (header 0 1 8 2 0 0 0 [0x7F, 0xB5, 0x38, 0xE0], (4, 2)), (header 2 1 0x10 2 0 0 0 [0x2B, 0xD0, 0x34, 0x9E], (5, 1)),
        (header 2 1 8 3 0 0 0 [0xC3, 0xFC, 0x8F, 0xB8], (5, 2)), (header 2 1 8 2 1 0 0 [0x7A, 0x82, 0x82, 0xEA], (5, 3)),
        (header 2 1 8 2 0 1 0 [0x62, 0x5B, 0xD9, 0x9C], (5, 4)), (header 2 1 8 2 0 0 1 [0x0C, 0x47, 0xD8, 0x4B], ((5, 5) : Nat × Nat))],
      let s := parsing 0x10 8 64 p.1
      (first s).good = true ∧ 20 + (first s).len ≤ s.regs.srcLen.toNat ∧ (regionsOf s.regs .hdrCheck).allFit = true ∧
      ((BitVec.ofNat 8 p.2.1, BitVec.ofNat 32 p.2.2) : Byte × Word) =
        (if (first s).typ ≠ [0x49, 0x48, 0x44, 0x52] then (4, 0)
        else if (first s).len ≠ 13 then (4, 1)
        else if be32 (first s).data 0 = 0 ∨ be32 (first s).data 4 = 0 then (4, 2)
        else if (first s).data.getD 8 0 ≠ 8 then (5, 1)
        else if (first s).data.getD 9 0 ≠ 2 then (5, 2)
        else if (first s).data.getD 10 0 ≠ 0 then (5, 3)
        else if (first s).data.getD 11 0 ≠ 0 then (5, 4)
        else if (first s).data.getD 12 0 ≠ 0 then (5, 5)
        else (0, 0))) ∧
    (parsing 0x10 8 64 (sig ++ iend)).holdsRegionsOf .hdrCheck :=
  ⟨by decide +kernel, (hdr_held (by decide +kernel) rfl).2⟩

/-- Seven bytes, eight, nineteen, a chunk one byte short, and a tampered header under both policies. -/
theorem witness_HdrCheckWithoutAGoodFirstChunk :
    (∀ p ∈ [(0x10, streamS.take 7, (17, 4)), (0x10, streamS.take 8, (4, 3)), (0x10, streamS.take 19, (2, 8)),
        (0x10, streamS.take 32, (2, 8)), (0x12, streamS.set 20 0x80, (4, 4)), (0x10, streamS.set 20 0x80, ((3, 0x49484452) : Nat × Nat))],
      let s := parsing p.1 8 64 p.2.1
      (regionsOf s.regs .hdrCheck).allFit = true ∧
      ((BitVec.ofNat 8 p.2.2.1, BitVec.ofNat 32 p.2.2.2) : Byte × Word) =
        (if s.regs.srcLen.toNat < 8 then (17, 4)
        else if s.regs.srcLen.toNat = 8 then (4, 3)
        else if s.regs.srcLen.toNat < 20 ∨ s.regs.srcLen.toNat < 20 + (first s).len then (2, 8)
        else if (first s).good = true then (0, 0)
        else if s.regs.ctrl.crcSkip = true then (4, 4)
        else (3, BitVec.ofNat 32 (be32 (first s).typ 0)))) ∧
    (parsing 0x10 8 64 (streamS.take 7)).holdsRegionsOf .hdrCheck :=
  ⟨by decide +kernel, (hdr_held (by decide +kernel) rfl).2⟩

theorem witness_PaethWritesTheExactPredictor :
    (0xFF : Int) = (operands 255 255 0 0).regs.byteA.toNat ∧ (0xFF : Int) = (operands 255 255 0 0).regs.byteB.toNat ∧
    (0 : Int) = (operands 255 255 0 0).regs.byteC.toNat := by decide +kernel

/-- A tie of all three, a tie of b and c, and c alone. -/
theorem witness_PaethIsNearestWithTieOrder :
    ((-255 : Int) = ((0 : Byte).toNat : Int) + (0 : Byte).toNat - (255 : Byte).toNat ∧
      |(-255 : Int) - (0 : Byte).toNat| ≤ |(-255 : Int) - (0 : Byte).toNat| ∧
      |(-255 : Int) - (0 : Byte).toNat| ≤ |(-255 : Int) - (255 : Byte).toNat|) ∧
    ((20 : Int) = ((0 : Byte).toNat : Int) + (30 : Byte).toNat - (10 : Byte).toNat ∧
      |(20 : Int) - (30 : Byte).toNat| < |(20 : Int) - (0 : Byte).toNat| ∧
      |(20 : Int) - (30 : Byte).toNat| ≤ |(20 : Int) - (10 : Byte).toNat|) := by decide

theorem witness_ByteCommandsAddAndSubtractThePredictor : (0 : BitVec 3).toNat ≤ 4 ∧ (4 : BitVec 3).toNat ≤ 4 := by decide

theorem witness_FilteringAndReconstructionAreInverse : (bytes [1, 2, 3, 4]).length = (bytes [5, 6, 7, 8]).length := by decide

/-- Each of the four forms, a closed gate, a zero dimension, a region one byte beyond the address space (W11), a DST that shares SRC's last byte
(near W7), a wrong source length, a wrong previous row, and a DST one byte short. -/
theorem witness_ScanlineArgumentErrorsInOrder :
    ((Instr.filtRow 4 false).wellFormed = true ∧ (Instr.isolate 2).wellFormed = true) ∧ ¬ State.reset.gateOpen ∧
    ((drawing 0 1 4 []).gateOpen ∧ (drawing 0 1 4 []).regs.imgWidth = 0) ∧
    ((drawing 1 0 4 []).gateOpen ∧ (drawing 1 0 4 []).regs.imgHeight = 0) ∧
    (let s := start [(.ctrl, 0), (.imgWidth, 2), (.srcAddr, 0xFFFFFFFA), (.srcLen, 7), (.dstAddr, 0x200), (.dstLen, 6)] [];
      s.gateOpen ∧ s.regs.imgWidth ≠ 0 ∧
      ((regionsOf s.regs (.reconRow true)).reads = [⟨0xFFFFFFFA, 7⟩] ∧ 2 ^ 32 < 0xFFFFFFFA + 7)) ∧
    (let s := start [(.ctrl, 0), (.imgWidth, 2), (.imgHeight, 1), (.srcAddr, 0x100), (.srcLen, 7), (.dstAddr, 0x106), (.dstLen, 6)] [];
      s.gateOpen ∧ s.regs.imgWidth ≠ 0 ∧ s.regs.imgHeight ≠ 0 ∧
      ((regionsOf s.regs .decodeImage).reads = [⟨0x100, 7⟩] ∧ (regionsOf s.regs .decodeImage).written = some ⟨0x106, 6⟩ ∧
        (⟨0x106, 6⟩ : Region).contains 0x106 = true ∧ (⟨0x100, 7⟩ : Region).contains 0x106 = true)) ∧
    (let s := drawing 1 1 4 (bytes [0, 1, 2]);
      s.gateOpen ∧ s.regs.imgWidth ≠ 0 ∧ s.regs.imgHeight ≠ 0 ∧ s.regionsLegal .decodeImage ∧
      s.regs.srcLen.toNat ≠ s.regs.imgHeight.toNat * (1 + 3 * s.regs.imgWidth.toNat)) ∧
    (let s := drawing 1 1 4 (bytes [0, 1, 2, 3]);
      s.gateOpen ∧ s.regs.imgWidth ≠ 0 ∧ s.regionsLegal (.reconRow false) ∧ s.regs.srcLen.toNat = 1 + 3 * s.regs.imgWidth.toNat ∧
      s.regs.auxLen.toNat ≠ 3 * s.regs.imgWidth.toNat) ∧
    (let s := drawing 1 1 3 (bytes [1, 2, 3]);
      s.gateOpen ∧ s.regs.imgWidth ≠ 0 ∧ s.regs.imgHeight ≠ 0 ∧ s.regionsLegal (.isolate 2) ∧
      s.regs.srcLen.toNat = s.regs.imgHeight.toNat * (3 * s.regs.imgWidth.toNat) ∧
      s.regs.dstLen.toNat < s.regs.imgHeight.toNat * (1 + 3 * s.regs.imgWidth.toNat)) ∧
    (let s := drawing 2 0 6 (bytes [1, 2, 3, 4, 5, 6]);
      s.gateOpen ∧ s.regs.imgWidth ≠ 0 ∧ s.regionsLegal (.filtRow 1 false) ∧ s.regs.srcLen.toNat = 3 * s.regs.imgWidth.toNat ∧
      s.regs.auxLen.toNat = 3 * s.regs.imgWidth.toNat ∧ s.regs.dstLen.toNat < 1 + 3 * s.regs.imgWidth.toNat) :=
  ⟨by decide, by unfold State.gateOpen; decide +kernel, ⟨.inl rfl, by decide +kernel⟩, ⟨.inl rfl, by decide +kernel⟩,
    ⟨.inl rfl, by decide +kernel, by decide +kernel⟩, ⟨.inl rfl, by decide +kernel, by decide +kernel, by decide +kernel⟩,
    ⟨.inl rfl, by decide +kernel, by decide +kernel, (legal_and_held (by decide +kernel)).1, by decide +kernel⟩,
    ⟨.inl rfl, by decide +kernel, (legal_and_held (by decide +kernel)).1, by decide +kernel, by decide +kernel⟩,
    ⟨.inl rfl, by decide +kernel, by decide +kernel, (legal_and_held (by decide +kernel)).1, by decide +kernel, by decide +kernel⟩,
    ⟨.inl rfl, by decide +kernel, (legal_and_held (by decide +kernel)).1, by decide +kernel, by decide +kernel, by decide +kernel⟩⟩

/-- A record with and without a previous row, its filter type at the top of the range, DST exactly large enough. -/
theorem witness_ReconRowReconstructsTheRow :
    let s := drawing 2 0 6 (bytes [4, 5, 5, 5, 5, 5, 5])
    s.gateOpen ∧ (s.regionsLegal (.reconRow false) ∧ s.holdsRegionsOf (.reconRow false)) ∧
    (s.regionsLegal (.reconRow true) ∧ s.holdsRegionsOf (.reconRow true)) ∧
    (6 = 3 * s.regs.imgWidth.toNat ∧ s.regs.imgWidth ≠ 0 ∧ s.regs.srcLen.toNat = 1 + 6 ∧ s.regs.auxLen.toNat = 6 ∧
      6 ≤ s.regs.dstLen.toNat ∧ (s.mem.read s.regs.srcAddr.toNat).toNat ≤ 4) :=
  ⟨.inl rfl, legal_and_held (by decide +kernel), legal_and_held (by decide +kernel), by decide +kernel⟩

theorem witness_FiltRowFiltersTheRow :
    let s := drawing 2 0 7 (bytes [0x10, 0x20, 0x30, 0x40, 0x50, 0x60])
    s.gateOpen ∧ (s.regionsLegal (.filtRow 4 false) ∧ s.holdsRegionsOf (.filtRow 4 false)) ∧
    (s.regionsLegal (.filtRow 0 true) ∧ s.holdsRegionsOf (.filtRow 0 true)) ∧
    ((4 : BitVec 3).toNat ≤ 4 ∧ 6 = 3 * s.regs.imgWidth.toNat ∧ s.regs.imgWidth ≠ 0 ∧ s.regs.srcLen.toNat = 6 ∧
      s.regs.auxLen.toNat = 6 ∧ 1 + 6 ≤ s.regs.dstLen.toNat) :=
  ⟨.inl rfl, legal_and_held (by decide +kernel), legal_and_held (by decide +kernel), by decide +kernel⟩

/-- Two rows of different filter types. -/
theorem witness_DecodeImageReconstructsTheGrid :
    let s := drawing 2 2 12 (bytes [1, 0x0A, 0x14, 0x1E, 5, 5, 5, 4, 1, 2, 3, 4, 5, 6])
    s.gateOpen ∧ (s.regionsLegal .decodeImage ∧ s.holdsRegionsOf .decodeImage) ∧
    (6 = 3 * s.regs.imgWidth.toNat ∧ 2 = s.regs.imgHeight.toNat ∧ s.regs.imgWidth ≠ 0 ∧ s.regs.imgHeight ≠ 0 ∧
      s.regs.srcLen.toNat = 2 * (1 + 6) ∧ 2 * 6 ≤ s.regs.dstLen.toNat ∧
      ∀ y, y < 2 → (s.mem.read (s.regs.srcAddr.toNat + y * (1 + 6))).toNat ≤ 4) :=
  ⟨.inl rfl, legal_and_held (by decide +kernel), by decide +kernel⟩

/-- RECON_ROW on filter byte 5, and DECODE_IMAGE with the bad row first (y = 0, filter byte 255) and last (y = 1, filter byte 5). -/
theorem witness_UnknownFilterTypeStopsTheCommand :
    (let s := drawing 2 0 6 (bytes [5, 1, 2, 3, 4, 5, 6]);
      s.gateOpen ∧ (s.regionsLegal (.reconRow true) ∧ s.holdsRegionsOf (.reconRow true)) ∧
      (s.regs.imgWidth ≠ 0 ∧ s.regs.srcLen.toNat = 1 + 6 ∧ 6 ≤ s.regs.dstLen.toNat ∧ 4 < (s.mem.read s.regs.srcAddr.toNat).toNat)) ∧
    (let s := drawing 1 2 6 (bytes [0, 1, 2, 3, 5, 4, 5, 6]);
      (s.regionsLegal .decodeImage ∧ s.holdsRegionsOf .decodeImage) ∧
      (1 < s.regs.imgHeight.toNat ∧ s.regs.srcLen.toNat = s.regs.imgHeight.toNat * (1 + 3) ∧
        s.regs.imgHeight.toNat * 3 ≤ s.regs.dstLen.toNat ∧
        (∀ z, z < 1 → (s.mem.read (s.regs.srcAddr.toNat + z * (1 + 3))).toNat ≤ 4) ∧
        4 < (s.mem.read (s.regs.srcAddr.toNat + 1 * (1 + 3))).toNat)) ∧
    (let s := drawing 1 1 3 (bytes [255, 1, 2, 3]);
      (s.regionsLegal .decodeImage ∧ s.holdsRegionsOf .decodeImage) ∧
      (0 < s.regs.imgHeight.toNat ∧ s.regs.srcLen.toNat = s.regs.imgHeight.toNat * (1 + 3) ∧
        s.regs.imgHeight.toNat * 3 ≤ s.regs.dstLen.toNat ∧ 4 < (s.mem.read (s.regs.srcAddr.toNat + 0 * (1 + 3))).toNat)) :=
  ⟨⟨.inl rfl, legal_and_held (by decide +kernel), by decide +kernel⟩, ⟨legal_and_held (by decide +kernel), by decide +kernel⟩,
    ⟨legal_and_held (by decide +kernel), by decide +kernel⟩⟩

theorem witness_IsolateKeepsOneChannel :
    let s := drawing 2 1 7 (bytes [0x0A, 0x14, 0x1E, 0x0F, 0x19, 0x23])
    s.gateOpen ∧ (s.regionsLegal (.isolate 2) ∧ s.holdsRegionsOf (.isolate 2)) ∧
    ((2 : BitVec 2).toNat ≤ 2 ∧ 6 = 3 * s.regs.imgWidth.toNat ∧ 1 = s.regs.imgHeight.toNat ∧ s.regs.imgWidth ≠ 0 ∧
      s.regs.imgHeight ≠ 0 ∧ s.regs.srcLen.toNat = 1 * 6 ∧ 1 * (1 + 6) ≤ s.regs.dstLen.toNat) :=
  ⟨.inl rfl, legal_and_held (by decide +kernel), by decide +kernel⟩

theorem witness_DecodingAnIsolatedRowKeepsTheChannel : 2 ≤ 2 ∧ 2 < (bytes [200, 50, 10]).length ∧
    (reconRow .none ((isolateRecord 0 (bytes [200, 50, 10])).drop 1) []) = bytes [200, 0, 0] := by decide +kernel

/-- Stream SP, with DST exactly as long as the output. -/
theorem witness_AssembleReplacesTheImageData :
    let s := assembling 0x10 90 streamSP
    let ks := chunksFrom s 8 5
    (s.regionsLegal .assemble ∧ s.holdsRegionsOf .assemble) ∧ s.regs.ctrl.ancReduced = false ∧ 8 ≤ s.regs.srcLen.toNat ∧
    (∀ k ∈ ks, k.good = true) ∧ noEarlyEnd ks ∧ endsAtIend ks ∧ 8 + chunksSize ks ≤ s.regs.srcLen.toNat ∧
    (∃ k ∈ ks, k.good = true ∧ k.typ = [0x49, 0x44, 0x41, 0x54]) ∧
    (sig ++ variantABytes s.mem s.regs.srcAddr.toNat newIdatP false (keptChunks 8 ks)).length ≤ s.regs.dstLen.toNat := by
  refine ⟨legal_and_held (by decide +kernel), by decide +kernel, by decide +kernel, by decide +kernel, ?_,
    ⟨_, rfl, by decide +kernel, by decide +kernel⟩, by decide +kernel, by decide +kernel, by decide +kernel⟩
  unfold noEarlyEnd
  decide +kernel

theorem witness_AssembleReducedKeepsHeaderAndEnd :
    let s := assembling 0x14 75 streamSP
    let ks := chunksFrom s 8 5
    (s.regionsLegal .assemble ∧ s.holdsRegionsOf .assemble) ∧ s.regs.ctrl.ancReduced = true ∧ 8 ≤ s.regs.srcLen.toNat ∧
    (∀ k ∈ ks, k.good = true) ∧ noEarlyEnd ks ∧ endsAtIend ks ∧ 8 + chunksSize ks ≤ s.regs.srcLen.toNat ∧
    (keptChunks 8 ks).find? (fun k => k.typ == [0x49, 0x48, 0x44, 0x52]) = some ⟨8, 13, [0x49, 0x48, 0x44, 0x52]⟩ ∧
    (keptChunks 8 ks).getLast? = some ⟨0x5A, 0, [0x49, 0x45, 0x4E, 0x44]⟩ ∧
    (sig ++ verbatimBytes s.mem s.regs.srcAddr.toNat ⟨8, 13, [0x49, 0x48, 0x44, 0x52]⟩ ++ newIdatP ++
      verbatimBytes s.mem s.regs.srcAddr.toNat ⟨0x5A, 0, [0x49, 0x45, 0x4E, 0x44]⟩).length ≤ s.regs.dstLen.toNat := by
  refine ⟨legal_and_held (by decide +kernel), by decide +kernel, by decide +kernel, by decide +kernel, ?_,
    ⟨_, rfl, by decide +kernel, by decide +kernel⟩, by decide +kernel, by decide +kernel, by decide +kernel, by decide +kernel⟩
  unfold noEarlyEnd
  decide +kernel

/-- A failure behind emitted bytes, and one before any. -/
theorem witness_FailedAssembleLeavesNoSignature :
    nextIs (exec .assemble (assembling 0x10 40 streamS)) (fun t => t.regs.status.error && t.regs.errCode == 18) = true ∧
    nextIs (exec .assemble (assembling 0x10 4 streamS)) (fun t => t.regs.status.error) = true := by decide +kernel

/-- A last chunk decides whether a list of chunks ends at a good "IEND". -/
theorem endsAtIend_iff (ks : List Chunk) :
    endsAtIend ks ↔ (ks.getLast?.any fun k => k.good && decide (k.typ = typeIEND)) = true := by
  unfold endsAtIend
  cases ks.getLast? <;> simp

/-- A stream of seven bytes; one without IEND; one without IDAT; one without IHDR under variant (b); behind a good header eleven bytes,
and a chunk one byte short; the tampered image data under the strict policy (X14). -/
theorem witness_AssembleNeedsItsChunks :
    (let s := assembling 0x10 128 (streamS.take 7);
      (s.regionsLegal .assemble ∧ s.holdsRegionsOf .assemble) ∧ s.regs.srcLen.toNat < 8) ∧
    (let s := assembling 0x10 128 sig;
      (s.regionsLegal .assemble ∧ s.holdsRegionsOf .assemble) ∧ 8 ≤ s.regs.srcLen.toNat ∧ ¬ endsAtIend [] ∧
      8 + chunksSize [] = s.regs.srcLen.toNat) ∧
    (let s := assembling 0x10 128 (sig ++ hOk ++ iend);
      let ks := chunksFrom s 8 2;
      (s.regionsLegal .assemble ∧ s.holdsRegionsOf .assemble) ∧ (∀ k ∈ ks, k.good = true) ∧ noEarlyEnd ks ∧ endsAtIend ks ∧
      8 + chunksSize ks ≤ s.regs.srcLen.toNat ∧ s.regs.ctrl.ancReduced = false ∧
      ∀ k ∈ ks, ¬ (k.good = true ∧ k.typ = [0x49, 0x44, 0x41, 0x54])) ∧
    (let s := assembling 0x14 128 (sig ++ idatZ ++ iend);
      let ks := chunksFrom s 8 2;
      (s.regionsLegal .assemble ∧ s.holdsRegionsOf .assemble) ∧ (∀ k ∈ ks, k.good = true) ∧ noEarlyEnd ks ∧ endsAtIend ks ∧
      8 + chunksSize ks ≤ s.regs.srcLen.toNat ∧ s.regs.ctrl.ancReduced = true ∧
      ∀ k ∈ ks, ¬ (k.good = true ∧ k.typ = [0x49, 0x48, 0x44, 0x52])) ∧
    (∀ tail ∈ [iend.take 11, idatZ.take 29],
      let s := assembling 0x10 128 (sig ++ hOk ++ tail)
      let ks := chunksFrom s 8 1
      let k := chunkAt s.platform.crc s.mem s.regs.srcAddr.toNat 33
      (s.regionsLegal .assemble ∧ s.holdsRegionsOf .assemble) ∧ 8 ≤ s.regs.srcLen.toNat ∧ (∀ k ∈ ks, k.good = true) ∧
      noEarlyEnd ks ∧ ¬ endsAtIend ks ∧ 33 = 8 + chunksSize ks ∧ 33 < s.regs.srcLen.toNat ∧
      (s.regs.srcLen.toNat - 33 < 12 ∨ s.regs.srcLen.toNat < 33 + 12 + k.len)) ∧
    (let s := assembling 0 128 streamBad
      let ks := chunksFrom s 8 1
      let k := chunkAt s.platform.crc s.mem s.regs.srcAddr.toNat 33
      (s.regionsLegal .assemble ∧ s.holdsRegionsOf .assemble) ∧ 8 ≤ s.regs.srcLen.toNat ∧ (∀ k ∈ ks, k.good = true) ∧
      noEarlyEnd ks ∧ ¬ endsAtIend ks ∧ 33 = 8 + chunksSize ks ∧ 33 < s.regs.srcLen.toNat ∧
      33 + 12 + k.len ≤ s.regs.srcLen.toNat ∧ k.good = false ∧ s.regs.ctrl.crcSkip = false) := by
  refine ⟨⟨legal_and_held (by decide +kernel), by decide +kernel⟩,
    ⟨legal_and_held (by decide +kernel), by decide +kernel, fun ⟨_, h, _⟩ => by simp at h, by decide +kernel⟩,
    ⟨legal_and_held (by decide +kernel), by decide +kernel, ?_, ⟨_, rfl, by decide +kernel, by decide +kernel⟩, by decide +kernel,
      by decide +kernel, by decide +kernel⟩,
    ⟨legal_and_held (by decide +kernel), by decide +kernel, ?_, ⟨_, rfl, by decide +kernel, by decide +kernel⟩, by decide +kernel,
      by decide +kernel, by decide +kernel⟩,
    fun tail ht => ?_,
    ⟨legal_and_held (by decide +kernel), by decide +kernel, by decide +kernel, ?_, by rw [endsAtIend_iff]; decide +kernel,
      by decide +kernel, by decide +kernel, by decide +kernel, by decide +kernel, by decide +kernel⟩⟩
  · unfold noEarlyEnd; decide +kernel
  · unfold noEarlyEnd; decide +kernel
  · rcases List.mem_cons.1 ht with rfl | ht
    · refine ⟨legal_and_held (by decide +kernel), by decide +kernel, by decide +kernel, ?_, by rw [endsAtIend_iff]; decide +kernel,
        by decide +kernel, by decide +kernel, .inl (by decide +kernel)⟩
      unfold noEarlyEnd; decide +kernel
    · obtain rfl := List.mem_singleton.1 ht
      refine ⟨legal_and_held (by decide +kernel), by decide +kernel, by decide +kernel, ?_, by rw [endsAtIend_iff]; decide +kernel,
        by decide +kernel, by decide +kernel, .inr (by decide +kernel)⟩
      unfold noEarlyEnd; decide +kernel
  · unfold noEarlyEnd; decide +kernel

/-- Variant (a) with the second piece too long (X5), the last one (X6) and the first (X7), and variant (b) with the last one a byte too long. -/
theorem witness_AssembleCapacityKeepsWhatWasEmitted :
    (∀ p ∈ [((40 : Word), ([sig, hOk] : List (List Byte)), newIdatP, [iend]), (74, [sig, hOk, newIdatP], iend, []), (4, [], sig, [hOk, newIdatP, iend])],
      let s := assembling 0x10 p.1 streamS
      let ks := chunksFrom s 8 3
      (s.regionsLegal .assemble ∧ s.holdsRegionsOf .assemble) ∧ 8 ≤ s.regs.srcLen.toNat ∧ (∀ k ∈ ks, k.good = true) ∧
      noEarlyEnd ks ∧ endsAtIend ks ∧ 8 + chunksSize ks ≤ s.regs.srcLen.toNat ∧ s.regs.ctrl.ancReduced = false ∧
      (∃ k ∈ ks, k.good = true ∧ k.typ = [0x49, 0x44, 0x41, 0x54]) ∧
      sig :: variantAPieces s.mem s.regs.srcAddr.toNat newIdatP false (keptChunks 8 ks) = p.2.1 ++ p.2.2.1 :: p.2.2.2 ∧
      p.2.1.flatten.length ≤ s.regs.dstLen.toNat ∧ s.regs.dstLen.toNat < p.2.1.flatten.length + p.2.2.1.length) ∧
    (let s := assembling 0x14 74 streamSP
      let ks := chunksFrom s 8 5
      let ih : KeptChunk := ⟨8, 13, [0x49, 0x48, 0x44, 0x52]⟩
      let ie : KeptChunk := ⟨0x5A, 0, [0x49, 0x45, 0x4E, 0x44]⟩
      (s.regionsLegal .assemble ∧ s.holdsRegionsOf .assemble) ∧ 8 ≤ s.regs.srcLen.toNat ∧ (∀ k ∈ ks, k.good = true) ∧
      noEarlyEnd ks ∧ endsAtIend ks ∧ 8 + chunksSize ks ≤ s.regs.srcLen.toNat ∧ s.regs.ctrl.ancReduced = true ∧
      (keptChunks 8 ks).find? (fun k => k.typ == [0x49, 0x48, 0x44, 0x52]) = some ih ∧ (keptChunks 8 ks).getLast? = some ie ∧
      [sig, verbatimBytes s.mem s.regs.srcAddr.toNat ih, newIdatP, verbatimBytes s.mem s.regs.srcAddr.toNat ie] =
        [sig, hOk, newIdatP] ++ iend :: [] ∧
      [sig, hOk, newIdatP].flatten.length ≤ s.regs.dstLen.toNat ∧
      s.regs.dstLen.toNat < [sig, hOk, newIdatP].flatten.length + iend.length) := by
  refine ⟨fun p hp => ?_, ⟨legal_and_held (by decide +kernel), by decide +kernel, by decide +kernel, ?_,
    by rw [endsAtIend_iff]; decide +kernel, by decide +kernel, by decide +kernel, by decide +kernel, by decide +kernel, by decide +kernel,
    by decide +kernel, by decide +kernel⟩⟩
  · simp only [List.mem_cons, List.not_mem_nil, or_false] at hp
    rcases hp with rfl | rfl | rfl
    all_goals
      refine ⟨legal_and_held (by decide +kernel), by decide +kernel, by decide +kernel, ?_, by rw [endsAtIend_iff]; decide +kernel,
        by decide +kernel, by decide +kernel, by decide +kernel, by decide +kernel, by decide +kernel, by decide +kernel⟩
      unfold noEarlyEnd
      decide +kernel
  · unfold noEarlyEnd; decide +kernel

/-- What an assembly of stream SP has left. -/
def assembledSP : State :=
  match exec .assemble (assembling 0x10 90 streamSP) with
  | .next t => t
  | .fault _ => State.reset
  | .refused _ => State.reset

/-- Its output as a stream, with a payload buffer of exactly the length of P at 0x9000. -/
def reparsingSP : State :=
  { assembledSP with regs := { assembledSP.regs with
    srcAddr := assembledSP.regs.dstAddr, srcLen := assembledSP.regs.outLen, dstAddr := 0x9000, dstLen := 18 } }

theorem eq_of_nextIs {o : Host.Outcome State Fault Refusal} {t : State} (h : nextIs o (fun u => decide (u = t)) = true) : o = .next t := by
  unfold nextIs at h
  split at h
  · rw [of_decide_eq_true h]
  · cases h
  · cases h

theorem witness_AssembledStreamsParseBack :
    exec .assemble (assembling 0x10 90 streamSP) = .next assembledSP ∧ assembledSP.regs.status.done = true ∧
    reparsingSP.platform = assembledSP.platform ∧ reparsingSP.regs.srcAddr = assembledSP.regs.dstAddr ∧
    reparsingSP.regs.srcLen = assembledSP.regs.outLen ∧ reparsingSP.mem = assembledSP.mem ∧
    (reparsingSP.regionsLegal .parseAll ∧ reparsingSP.holdsRegionsOf .parseAll) ∧
    (assembling 0x10 90 streamSP).regs.auxLen.toNat ≤ reparsingSP.regs.dstLen.toNat :=
  ⟨eq_of_nextIs (by decide +kernel), by decide +kernel, by simp only [reparsingSP], by simp only [reparsingSP], by simp only [reparsingSP],
    by simp only [reparsingSP], legal_and_held (by decide +kernel), by decide +kernel⟩

/-- The reset state with a command issued has the invariant, and its step answers a next state. -/
theorem witness_EveryStepKeepsTheInvariant :
    (State.reset.withFetchWord 32 0x08).Inv ∧ nextIs (step (State.reset.withFetchWord 32 0x08)) (fun _ => true) = true := by
  refine ⟨⟨by decide +kernel, by decide +kernel, by decide +kernel, by decide +kernel, by decide +kernel, by decide +kernel,
    by decide +kernel⟩, by decide +kernel⟩

theorem witness_LaunchParametersNeverChange :
    nextIs (step (State.reset.withFetchWord 32 0x02)) (fun _ => true) = true ∧ nextIs (step State.reset) (fun _ => true) = true := by
  decide +kernel

end Sys2Proof.Tests
end

section
/-! The laws of the register map and of one register access (R22 to R26, R39), of reset (R200 to R203), and the
statements they settle. -/

namespace Sys2Proof.Machine

/-! ## The register map (R22) -/

theorem registerMap_length : registerMap.length = 30 := rfl

theorem registerMap_nodup : registerMap.Nodup := by decide

theorem RegName.mem_registerMap (name : RegName) : name ∈ registerMap := by
  cases name <;> decide

@[simp] theorem registerAt_offset (name : RegName) : registerAt name.offset = some name := by
  simp [registerAt, RegName.offset, List.getElem?_idxOf name.mem_registerMap]

@[simp] theorem RegName.offset_inj {name other : RegName} : name.offset = other.offset ↔ name = other := by
  refine ⟨fun h => ?_, congrArg RegName.offset⟩
  have e : some name = some other := by rw [← registerAt_offset, h, registerAt_offset]
  exact Option.some.inj e

/-- R23: the offsets behind the last register are reserved. -/
theorem registerAt_of_reserved {offset : Nat} (h : 0x78 ≤ offset) : registerAt offset = none :=
  List.getElem?_eq_none (by rw [registerMap_length]; omega)

/-- R22: an aligned offset below the reserved ones is that of a register. -/
theorem exists_offset_eq {offset : Nat} (hlt : offset < 0x78) (hal : offset % 4 = 0) :
    ∃ name : RegName, offset = name.offset := by
  have hidx : offset / 4 < registerMap.length := by
    rw [registerMap_length]
    omega
  refine ⟨registerMap[offset / 4], ?_⟩
  rw [RegName.offset, registerMap_nodup.idxOf_getElem _ hidx]
  omega

@[simp] theorem Regs.valueAt_offset (r : Regs) (name : RegName) : r.valueAt name.offset = r.value name := by
  simp only [Regs.valueAt, registerAt_offset]

theorem Regs.valueAt_of_reserved (r : Regs) {offset : Nat} (h : 0x78 ≤ offset) : r.valueAt offset = 0 := by
  simp only [Regs.valueAt, registerAt_of_reserved h]

/-! ## The bits of a register's value (R23, R25, R31) -/

theorem getLsbD_flagAt {i : Nat} (hi : i < 32) (b : Bool) (k : Nat) : (flagAt i b).getLsbD k = (decide (k = i) && b) := by
  cases b with
  | false => simp [flagAt]
  | true =>
    simp only [flagAt, Bool.toNat_true, Nat.one_mul, BitVec.getLsbD_ofNat, Nat.testBit_two_pow, Bool.and_true]
    by_cases hk : k = i
    · simp [hk, hi]
    · simp [hk, Ne.symm hk]

/-- R25: the bits of CTRL. -/
theorem Ctrl.getLsbD_toWord (c : Ctrl) (k : Nat) : c.toWord.getLsbD k =
    (decide (k = 1) && c.crcSkip || decide (k = 2) && c.ancReduced || decide (k = 3) && c.irqEn
      || decide (k = 4) && c.profGate) := by
  simp [Ctrl.toWord, getLsbD_flagAt]

/-- R31: the bits of STATUS. -/
theorem Status.getLsbD_toWord (t : Status) (k : Nat) : t.toWord.getLsbD k =
    (decide (k = 0) && t.busy || decide (k = 1) && t.done || decide (k = 2) && t.error || decide (k = 3) && t.iend
      || decide (k = 4) && t.exhausted || decide (k = 5) && t.corruptSeen || decide (k = 6) && t.profValid
      || decide (k = 7) && t.overrun) := by
  simp [Status.toWord, getLsbD_flagAt]

/-- R23: the reserved bits of CTRL, bit 5 and up, read 0. -/
theorem Ctrl.getLsbD_toWord_of_reserved (c : Ctrl) {k : Nat} (hk : 5 ≤ k) : c.toWord.getLsbD k = false := by
  have : k ≠ 1 ∧ k ≠ 2 ∧ k ≠ 3 ∧ k ≠ 4 := by omega
  simp [Ctrl.getLsbD_toWord, this]

/-- R23: the reserved bits of STATUS, bit 8 and up, read 0. -/
theorem Status.getLsbD_toWord_of_reserved (t : Status) {k : Nat} (hk : 8 ≤ k) : t.toWord.getLsbD k = false := by
  have : k ≠ 0 ∧ k ≠ 1 ∧ k ≠ 2 ∧ k ≠ 3 ∧ k ≠ 4 ∧ k ≠ 5 ∧ k ≠ 6 ∧ k ≠ 7 := by omega
  simp [Status.getLsbD_toWord, this]

/-- R26: SOFT_RESET reads 0. -/
theorem Regs.getLsbD_zero_valueAt_ctrl (r : Regs) : (r.valueAt 0x00).getLsbD 0 = false := by
  have hval : r.valueAt 0x00 = r.ctrl.toWord := r.valueAt_offset .ctrl
  rw [hval, Ctrl.getLsbD_toWord]
  rfl

/-- A byte in a register leaves the bits from 8 up clear. -/
theorem getLsbD_byte_setWidth (b : Byte) {k : Nat} (hk : 8 ≤ k) : (b.setWidth 32).getLsbD k = false := by
  simp [BitVec.getLsbD_setWidth, BitVec.getLsbD_of_ge b k hk]

/-- R41, R54 to R56: the registers that hold a byte read 0 from bit 8 up. -/
theorem Regs.getLsbD_value_of_byte (r : Regs) {name : RegName}
    (h : name ∈ [RegName.errCode, .hdrInterlace, .byteA, .byteB, .byteC, .byteX, .result]) {k : Nat} (hk : 8 ≤ k) :
    (r.value name).getLsbD k = false := by
  simp only [List.mem_cons, List.not_mem_nil, or_false] at h
  rcases h with rfl | rfl | rfl | rfl | rfl | rfl | rfl <;> exact getLsbD_byte_setWidth _ hk

/-! ## Reset (R200 to R203) -/

@[simp] theorem resetEngine_regs (s : State) : (resetEngine s).regs = Regs.reset := by
  unfold resetEngine
  split <;> rfl

@[simp] theorem resetEngine_outstanding (s : State) : (resetEngine s).outstanding = none := by
  simp [State.outstanding, Regs.reset, Status.reset]

@[simp] theorem resetEngine_irq (s : State) : (resetEngine s).irq = false := by
  simp [State.irq, Regs.reset, Ctrl.reset]

/-- R57: with no command outstanding no region is in use. -/
theorem State.runningRegions_of_idle {s : State} (h : s.outstanding = none) : s.runningRegions = ⟨[], none⟩ := by
  simp only [State.runningRegions, h]

/-- R203: an idle PSCE's reset changes the registers alone. -/
theorem resetEngine_of_idle {s : State} (h : s.outstanding = none) : resetEngine s = s.setRegs Regs.reset := by
  simp only [resetEngine, State.runningRegions_of_idle h]

/-- R22, R58: the reset values by name. -/
theorem Regs.value_reset (name : RegName) :
    Regs.reset.value name = if name = .ctrl then 0x00000010 else if name = .parseOff then 0x00000008 else 0x00000000 := by
  cases name <;> rfl

/-- R22, R58: the reset values by offset, the reserved offsets included. -/
theorem Regs.valueAt_reset {offset : Nat} (hal : offset % 4 = 0) :
    Regs.reset.valueAt offset = if offset = 0x00 then 0x00000010 else if offset = 0x38 then 0x00000008 else 0x00000000 := by
  by_cases hlt : offset < 0x78
  · obtain ⟨name, rfl⟩ := exists_offset_eq hlt hal
    have hctrl : name.offset = 0x00 ↔ name = .ctrl := RegName.offset_inj (other := .ctrl)
    have hparse : name.offset = 0x38 ↔ name = .parseOff := RegName.offset_inj (other := .parseOff)
    simp only [Regs.valueAt_offset, Regs.value_reset, hctrl, hparse]
  · rw [Regs.valueAt_of_reserved _ (by omega), if_neg (by omega), if_neg (by omega)]

/-! ## Register writes (R24, R26, R39, R40) -/

/-- A write to a register of the map, by its name. -/
theorem registerWrite_offset (name : RegName) (v : Word) (s : State) : registerWrite name.offset v s =
    if name = .ctrl ∧ v.getLsbD 0 = true then resetEngine s
    else if s.regs.status.busy = true then s.setRegs s.regs.overrun
    else if name = .cmd then s.setRegs (s.regs.issue v)
    else s.setRegs (s.regs.store name v) := by
  simp only [registerWrite, registerAt_offset, Option.some.injEq]
  cases name <;> rfl

/-- R26: a write of CTRL with bit 0 set is the reset, idle or busy. -/
theorem registerWrite_softReset {v : Word} (h : v.getLsbD 0 = true) (s : State) : registerWrite 0x00 v s = resetEngine s :=
  (registerWrite_offset .ctrl v s).trans (if_pos ⟨rfl, h⟩)

/-- R23, R39: a write to a reserved offset does nothing but set OVERRUN while a command is outstanding. -/
theorem registerWrite_of_reserved {offset : Nat} (h : 0x78 ≤ offset) (v : Word) (s : State) :
    registerWrite offset v s = if s.regs.status.busy = true then s.setRegs s.regs.overrun else s := by
  simp [registerWrite, registerAt_of_reserved h]

/-- Two values that a register stores alike, and of which neither or both are a reset, are written alike. -/
theorem registerWrite_congr {name : RegName} {v v' : Word} (hcmd : name ≠ .cmd)
    (hreset : name = .ctrl → v.getLsbD 0 = v'.getLsbD 0) (hstore : ∀ r : Regs, r.store name v = r.store name v') (s : State) :
    registerWrite name.offset v s = registerWrite name.offset v' s := by
  have hiff : (name = .ctrl ∧ v.getLsbD 0 = true) ↔ (name = .ctrl ∧ v'.getLsbD 0 = true) :=
    and_congr_right fun h => by rw [hreset h]
  simp only [registerWrite_offset, if_neg hcmd, hstore, hiff]

/-- R24, R25: CTRL stores bits 1 to 4 of the value. -/
theorem Regs.store_ctrl_congr {v v' : Word} (h : ∀ k, k < 5 → v.getLsbD k = v'.getLsbD k) (r : Regs) :
    r.store .ctrl v = r.store .ctrl v' := by
  simp only [Regs.store, Ctrl.ofWord, h 1 (by decide), h 2 (by decide), h 3 (by decide), h 4 (by decide)]

/-- R24, R31: a write to STATUS looks at bits 1, 2, 5 and 7 of the value. -/
theorem Regs.store_status_congr {v v' : Word} (h : ∀ k, k < 8 → v.getLsbD k = v'.getLsbD k) (r : Regs) :
    r.store .status v = r.store .status v' := by
  simp only [Regs.store, Status.writeOneToClear, h 1 (by decide), h 2 (by decide), h 5 (by decide), h 7 (by decide)]

/-- R24, R55: a byte operand stores bits 0 to 7 of the value. -/
theorem Regs.store_byte_congr {name : RegName} (hname : name ∈ [RegName.byteA, .byteB, .byteC, .byteX]) {v v' : Word}
    (h : ∀ k, k < 8 → v.getLsbD k = v'.getLsbD k) (r : Regs) : r.store name v = r.store name v' := by
  have hlow : v.setWidth 8 = v'.setWidth 8 := by
    refine BitVec.eq_of_getLsbD_eq fun k hk => ?_
    rw [BitVec.getLsbD_setWidth, BitVec.getLsbD_setWidth, h k hk]
  simp only [List.mem_cons, List.not_mem_nil, or_false] at hname
  rcases hname with rfl | rfl | rfl | rfl <;> simp only [Regs.store, hlow]

/-! ## Register reads (R23, R61, R209) -/

@[simp] theorem registerRead_regs (offset : Nat) (s : State) : (registerRead offset s).regs = s.regs := by
  unfold registerRead
  split <;> rfl

@[simp] theorem registerRead_mem (offset : Nat) (s : State) : (registerRead offset s).mem = s.mem := by
  unfold registerRead
  split <;> rfl

/-- A read of an offset of which nothing is drawn returns the value that stands there. -/
theorem registerRead_readData_of_undrawn {offset : Nat} {s : State} (h : s.drawnBitsAt offset = 0) :
    (registerRead offset s).readData = s.regs.valueAt offset := by
  simp only [registerRead, if_pos h]

theorem State.drawnBitsAt_of_reserved (s : State) {offset : Nat} (h : 0x78 ≤ offset) : s.drawnBitsAt offset = 0 := by
  rw [State.drawnBitsAt, registerAt_of_reserved h]
  cases s.outstanding <;> rfl

/-- R23: a read of a reserved offset returns 0, idle or busy. -/
theorem registerRead_readData_of_reserved (s : State) {offset : Nat} (h : 0x78 ≤ offset) :
    (registerRead offset s).readData = 0 := by
  rw [registerRead_readData_of_undrawn (s.drawnBitsAt_of_reserved h), Regs.valueAt_of_reserved _ h]

/-! ## The statements -/

/-- R23: reserved bits of a written value change nothing. -/
theorem registerWrite_ignores_reserved_bits (s : State) (v v' : Word) :
    ((∀ k, k < 5 → v.getLsbD k = v'.getLsbD k) → registerWrite 0x00 v s = registerWrite 0x00 v' s) ∧
    ((∀ k, k < 8 → v.getLsbD k = v'.getLsbD k) → registerWrite 0x04 v s = registerWrite 0x04 v' s) ∧
    ∀ name ∈ [RegName.byteA, .byteB, .byteC, .byteX],
      (∀ k, k < 8 → v.getLsbD k = v'.getLsbD k) → registerWrite name.offset v s = registerWrite name.offset v' s := by
  refine ⟨fun h => ?ctrl, fun h => ?status, fun name hname h => ?byte⟩
  case ctrl => exact registerWrite_congr (name := .ctrl) (by decide) (fun _ => h 0 (by decide)) (Regs.store_ctrl_congr h) s
  case status => exact registerWrite_congr (name := .status) (by decide) (by simp) (Regs.store_status_congr h) s
  case byte =>
    have hcmd : name ≠ .cmd := by rintro rfl; simp at hname
    have hctrl : name ≠ .ctrl := by rintro rfl; simp at hname
    exact registerWrite_congr hcmd (fun e => absurd e hctrl) (Regs.store_byte_congr hname h) s

/-- Settles O7: offset by offset for the reserved ones, bit by bit for the reserved bits, and the frame of a read. -/
theorem reservedOffsetsAndBitsAreInert : Obligations.ReservedOffsetsAndBitsAreInert := by
  exact ⟨fun offset h _ _ => ⟨fun r => r.valueAt_of_reserved h, fun s => registerRead_readData_of_reserved s h,
      fun s v => registerWrite_of_reserved h v s⟩,
    fun r k => ⟨r.ctrl.getLsbD_toWord_of_reserved, r.status.getLsbD_toWord_of_reserved,
      fun name hname hk => r.getLsbD_value_of_byte hname hk⟩,
    registerWrite_ignores_reserved_bits,
    fun s offset => ⟨registerRead_regs offset s, registerRead_mem offset s⟩⟩

/-- Settles O4, from the reset values by offset and the reset of an idle PSCE. -/
theorem resetStateHoldsTheResetValues : Obligations.ResetStateHoldsTheResetValues := by
  refine ⟨fun offset _ hal => Regs.valueAt_reset hal, rfl, rfl, fun s h => ?_⟩
  rw [resetEngine_of_idle h, State.setRegs_mem]

/-- Settles O5: the write is the reset, and SOFT_RESET is not stored. -/
theorem softResetActsIdleOrBusy : Obligations.SoftResetActsIdleOrBusy := by
  refine ⟨fun s v h => ?_, Regs.getLsbD_zero_valueAt_ctrl⟩
  rw [registerWrite_softReset h]
  exact ⟨rfl, resetEngine_regs s, by rw [resetEngine_regs]; exact Regs.valueAt_reset rfl,
    resetEngine_outstanding s, resetEngine_irq s⟩

end Sys2Proof.Machine
end

section
/-! The host's accesses to buffer memory beside a running command (R72 to R75), and the statements they settle. -/

namespace Sys2Proof.Machine

/-! ## The regions of the running command (R69) -/

theorem State.runningRegions_of_decodes {s : State} {w : Word} {i : Instr} (ho : s.outstanding = some w)
    (hd : decodeWord w = some i) : s.runningRegions = regionsOf s.regs i := by
  simp only [State.runningRegions, ho, regionsOfWord, hd]

theorem State.runningRegions_of_illegal {s : State} {w : Word} (ho : s.outstanding = some w)
    (hd : decodeWord w = none) : s.runningRegions = ⟨[], none⟩ := by
  simp only [State.runningRegions, ho, regionsOfWord, hd]

/-- Regions are in use only while a legal command is outstanding, and then they are the command's. -/
theorem State.runningRegions_empty_or_decodes (s : State) :
    s.runningRegions = ⟨[], none⟩ ∨
    ∃ w i, s.outstanding = some w ∧ decodeWord w = some i ∧ s.runningRegions = regionsOf s.regs i := by
  cases ho : s.outstanding with
  | none => exact .inl (State.runningRegions_of_idle ho)
  | some w =>
    cases hd : decodeWord w with
    | none => exact .inl (State.runningRegions_of_illegal ho hd)
    | some i => exact .inr ⟨w, i, rfl, hd, State.runningRegions_of_decodes ho hd⟩

/-- An address outside the regions of whatever command is outstanding is in no region in use. -/
theorem State.runningRegions_contains_eq_false {s : State} {a : Nat}
    (h : ∀ w i, s.outstanding = some w → decodeWord w = some i → (regionsOf s.regs i).contains a = false) :
    s.runningRegions.contains a = false := by
  obtain hempty | ⟨w, i, ho, hd, hr⟩ := s.runningRegions_empty_or_decodes
  · rw [hempty]; rfl
  · rw [hr]; exact h w i ho hd

/-- An address outside the written region of whatever command is outstanding is in no written region in use. -/
theorem State.runningRegions_written_contains_eq_false {s : State} {a : Nat}
    (h : ∀ w i r, s.outstanding = some w → decodeWord w = some i → (regionsOf s.regs i).written = some r →
      r.contains a = false) :
    ∀ r, s.runningRegions.written = some r → r.contains a = false := by
  intro r hw
  obtain hempty | ⟨w, i, ho, hd, hr⟩ := s.runningRegions_empty_or_decodes
  · rw [hempty] at hw; cases hw
  · exact h w i r ho hd (hr ▸ hw)

/-! ## Host stores (R73, R75) -/

/-- R75: a store into a region in use is the race. -/
theorem hostStore_race {s : State} {a : Nat} (b : Byte) (hp : s.platform.holds a = true)
    (hc : s.runningRegions.contains a = true) : hostStore a b s = .fault .hostRace := by
  simp [hostStore, hp, hc]

/-- R73: a store outside every region in use writes its byte and nothing else, idle or busy. -/
theorem hostStore_lands {s : State} {a : Nat} (b : Byte) (hp : s.platform.holds a = true)
    (hc : s.runningRegions.contains a = false) :
    hostStore a b s = .next { s with mem := s.mem.write a b } := by
  simp [hostStore, hp, hc]

/-! ## Host loads (R73, R74) -/

/-- R74: a load in the written region in use returns the next draw, which it spends. -/
theorem hostLoad_draws {s : State} {a : Nat} {r : Region} (hp : s.platform.holds a = true)
    (hw : s.runningRegions.written = some r) (hc : r.contains a = true) :
    hostLoad a s = .next { s with loadData := Config.drawByte s.draws, draws := s.draws + 1 } := by
  simp [hostLoad, hp, hw, hc]

/-- R73: a load outside the written region in use returns the byte that stands there. -/
theorem hostLoad_reads {s : State} {a : Nat} (hp : s.platform.holds a = true)
    (hc : ∀ r, s.runningRegions.written = some r → r.contains a = false) :
    hostLoad a s = .next { s with loadData := s.mem.read a } := by
  have hany : s.runningRegions.written.any (fun r => Region.contains r a) = false := by
    cases hw : s.runningRegions.written with
    | none => rfl
    | some r => exact hc r hw
  simp [hostLoad, hp, hany]

/-! ## The statements -/

/-- Settles O16: the running command's regions are those the store is tested against, and a store that lands is one write. -/
theorem hostStoresRaceOnlyInRegions : Obligations.HostStoresRaceOnlyInRegions := by
  intro s a b hp
  constructor
  · intro w i ho hd hc
    exact hostStore_race b hp (by rw [State.runningRegions_of_decodes ho hd]; exact hc)
  · intro hclear
    exact ⟨_, hostStore_lands b hp (State.runningRegions_contains_eq_false hclear), rfl,
      Memory.read_write_same s.mem a b, fun _ hne => Memory.read_write_other s.mem b hne⟩

/-- Settles O17: a load is tested against the running command's written region, and changes only the returned byte and the draws. -/
theorem hostLoadsDrawOnlyInTheWrittenRegion : Obligations.HostLoadsDrawOnlyInTheWrittenRegion := by
  intro s a hp
  constructor
  · intro w i r ho hd hw hc
    have hrun : s.runningRegions.written = some r := by rw [State.runningRegions_of_decodes ho hd]; exact hw
    exact ⟨_, hostLoad_draws hp hrun hc, rfl, rfl, rfl⟩
  · intro hclear
    exact ⟨_, hostLoad_reads hp (State.runningRegions_written_contains_eq_false hclear), rfl, rfl, rfl⟩

end Sys2Proof.Machine
end

section
/-! Decoding a command word by the row of the opcode map that it selects (R83, R87, R89), and the statement it settles. -/

namespace Sys2Proof

/-! ## The rows of the map (R87) -/

/-- Every row fixes the whole OP field, to its own OP. -/
theorem OpcodeRow.opField_mask_pattern : ∀ r ∈ opcodeMap, opField r.mask = BitVec.allOnes 8 ∧ opField r.pattern = r.op := by
  decide

/-- The word of a command that a row builds carries the row's OP. -/
theorem OpcodeRow.opField_encode_build :
    ∀ r ∈ opcodeMap, ∀ ft first ch, opField (encode (r.build ft first ch)) = r.op := by
  decide

/-- R89: the restrictions a row places on FT and CH are those of the command it builds. -/
theorem OpcodeRow.wellFormed_build : ∀ r ∈ opcodeMap, ∀ ft first ch, (r.build ft first ch).wellFormed =
    (!(r.usesFT && !legalFilterField ft) && !(r.usesCH && !legalChannelField ch)) := by
  decide

/-- No two rows share an OP. -/
theorem OpcodeRow.eq_of_op_eq {r q : OpcodeRow} (hr : r ∈ opcodeMap) (hq : q ∈ opcodeMap) (h : r.op = q.op) : r = q :=
  List.inj_on_of_nodup_map (f := OpcodeRow.op) (by decide) hr hq h

theorem opcodeMap_find?_op {r : OpcodeRow} (hr : r ∈ opcodeMap) : opcodeMap.find? (fun q => q.op == r.op) = some r := by
  cases hf : opcodeMap.find? (fun q => q.op == r.op) with
  | none => simpa using List.find?_eq_none.1 hf r hr
  | some q =>
    have hop : q.op = r.op := by simpa using List.find?_some hf
    rw [OpcodeRow.eq_of_op_eq (List.mem_of_find?_eq_some hf) hr hop]

/-! ## Selection (R83) -/

/-- A word that fits a row's match and mask carries that row's OP. -/
theorem OpcodeRow.opField_of_fits {r : OpcodeRow} (hr : r ∈ opcodeMap) {w : Word} (h : w &&& r.mask = r.pattern) :
    opField w = r.op := by
  obtain ⟨hmask, hpattern⟩ := OpcodeRow.opField_mask_pattern r hr
  calc opField w = opField w &&& opField r.mask := by rw [hmask, BitVec.and_allOnes]
    _ = opField (w &&& r.mask) := BitVec.extractLsb'_and.symm
    _ = r.op := by rw [h, hpattern]

/-- R83, R89: a word that carries a row's OP decodes to the command the row builds, if it fits the row and that command is legal. -/
theorem decodeWord_of_opField {r : OpcodeRow} (hr : r ∈ opcodeMap) {w : Word} (hop : opField w = r.op) :
    decodeWord w =
      if w &&& r.mask = r.pattern ∧ (r.build (ftField w) (firstField w) (chField w)).wellFormed = true
      then some (r.build (ftField w) (firstField w) (chField w)) else none := by
  simp only [decodeWord, hop, opcodeMap_find?_op hr, OpcodeRow.wellFormed_build r hr]
  by_cases hfits : w &&& r.mask = r.pattern
  · cases r.usesFT && !legalFilterField (ftField w) <;> cases r.usesCH && !legalChannelField (chField w) <;> simp [hfits]
  · simp [hfits]

/-- R88: only a word that carries some row's OP decodes to a command. -/
theorem exists_row_of_decodeWord {w : Word} {i : Instr} (h : decodeWord w = some i) :
    ∃ r ∈ opcodeMap, opField w = r.op := by
  unfold decodeWord at h
  cases hf : opcodeMap.find? (fun r => r.op == opField w) with
  | none => simp [hf] at h
  | some r =>
    have hop : r.op = opField w := by simpa using List.find?_some hf
    exact ⟨r, List.mem_of_find?_eq_some hf, hop.symm⟩

/-- R83, R89: a word decodes to a command of a row exactly when it fits the row's match and mask, its fields build the command, and
R89 allows the command. -/
theorem decodeWord_eq_some_build_iff {r : OpcodeRow} (hr : r ∈ opcodeMap) (w : Word) (ft : BitVec 3) (first : Bool) (ch : BitVec 2) :
    decodeWord w = some (r.build ft first ch) ↔
      w &&& r.mask = r.pattern ∧ r.build (ftField w) (firstField w) (chField w) = r.build ft first ch ∧
        (r.build ft first ch).wellFormed = true := by
  constructor
  · intro h
    obtain ⟨q, hq, hop⟩ := exists_row_of_decodeWord h
    rw [decodeWord_of_opField hq hop, Option.ite_none_right_eq_some, Option.some.injEq] at h
    obtain ⟨⟨hfits, hlegal⟩, hbuild⟩ := h
    have hqr : q.op = r.op := by
      rw [← OpcodeRow.opField_encode_build q hq, hbuild, OpcodeRow.opField_encode_build r hr]
    obtain rfl := OpcodeRow.eq_of_op_eq hq hr hqr
    exact ⟨hfits, hbuild, hbuild ▸ hlegal⟩
  · rintro ⟨hfits, hbuild, hlegal⟩
    rw [decodeWord_of_opField hr (OpcodeRow.opField_of_fits hr hfits), hbuild, if_pos ⟨hfits, hlegal⟩]

/-- A command without fields has one word, the pattern of its row. -/
theorem decodeWord_eq_some_iff_of_fixed {op : BitVec 8} {pattern : Word} {i : Instr}
    (hr : (⟨op, pattern, 0xFFFFFFFF, false, false, fun _ _ _ => i⟩ : OpcodeRow) ∈ opcodeMap) (w : Word) :
    decodeWord w = some i ↔ w = pattern := by
  have hlegal : i.wellFormed = true := OpcodeRow.wellFormed_build _ hr 0 false 0
  have hmask : w &&& 0xFFFFFFFF = w := BitVec.and_allOnes
  rw [decodeWord_eq_some_build_iff hr w 0 false 0, hmask]
  exact and_iff_left ⟨rfl, hlegal⟩

/-! ## The statement -/

/-- Settles O2, row by row of the map: the fixed words by their pattern, the others by the fields their row reads. -/
theorem decodeSelectsRowsOfTheMap : Obligations.DecodeSelectsRowsOfTheMap := by
  intro w
  have fixed {i : Instr} (n : Nat) {op pattern}
      (h : opcodeMap[n]? = some ⟨op, pattern, 0xFFFFFFFF, false, false, fun _ _ _ => i⟩) : decodeWord w = some i ↔ w = pattern :=
    decodeWord_eq_some_iff_of_fixed (List.mem_of_getElem? h) w
  have row {r : OpcodeRow} (n : Nat) (h : opcodeMap[n]? = some r) := decodeWord_eq_some_build_iff (List.mem_of_getElem? h) w
  refine ⟨fixed 0 rfl, fixed 1 rfl, fixed 2 rfl, fixed 3 rfl, fixed 4 rfl, fixed 5 rfl, fun ft => ?reconByte, fun ft => ?filtByte,
    fun first => ?reconRow, fun ft first => ?filtRow, fixed 10 rfl, fun ch => ?isolate, fixed 12 rfl⟩
  case reconByte => simpa [Instr.wellFormed, legalFilterField, ftField] using row 6 rfl ft false 0
  case filtByte => simpa [Instr.wellFormed, legalFilterField, ftField] using row 7 rfl ft false 0
  case reconRow => simpa [Instr.wellFormed, firstField] using row 8 rfl 0 first 0
  case filtRow => simpa [Instr.wellFormed, legalFilterField, ftField, firstField, and_assoc, and_comm, and_left_comm] using row 9 rfl ft first 0
  case isolate => simpa [Instr.wellFormed, legalChannelField, chField] using row 11 rfl 0 false ch

end Sys2Proof
end

section
/-! The error of HDR_CHECK on a good first chunk (R121, R122), and the statement it settles. -/

namespace Sys2Proof.Machine

/-! ## The fixed order of the checks (R122) -/

/-- The chunk's type and length make its data the header (R121). -/
abbrev Chunk.IsHeader (k : Chunk) : Prop := k.typ = typeIHDR ∧ k.len = ihdrLen

/-- R122: the error of the first field value that is not the supported profile's. -/
def headerFieldError (data : List Byte) : Option (ErrCode × Word) :=
  if be32 data 0 = 0 ∨ be32 data 4 = 0 then some (.malformedHeader, 2)
  else if data.getD 8 0 ≠ 8 then some (.unsupportedFormat, 1)
  else if data.getD 9 0 ≠ 2 then some (.unsupportedFormat, 2)
  else if data.getD 10 0 ≠ 0 then some (.unsupportedFormat, 3)
  else if data.getD 11 0 ≠ 0 then some (.unsupportedFormat, 4)
  else if data.getD 12 0 ≠ 0 then some (.unsupportedFormat, 5)
  else none

/-- R122: the error of the first check that a good chunk fails. -/
def Chunk.headerError (k : Chunk) : Option (ErrCode × Word) :=
  if k.typ ≠ typeIHDR then some (.malformedHeader, 0)
  else if k.len ≠ ihdrLen then some (.malformedHeader, 1)
  else headerFieldError k.data

/-- A chain of checks ends with its first failure: this check's, in the state it stands in, or one of the checks behind it. -/
theorem require_bind_raises {p : Prop} [Decidable p] {ok : Bool} {c c' : ErrCode} {i i' : Word}
    {later : Option (ErrCode × Word)} {f : Unit → Engine Unit} {s u : State} (hok : ok = true ↔ ¬ p)
    (h : (if p then some (c', i') else later) = some (c, i)) (hfail : p → u = s)
    (hlater : ¬ p → later = some (c, i) → f () s = .error (.raised c i) u) :
    (require ok c' i' >>= f) s = .error (.raised c i) u := by
  rw [require_bind]
  by_cases hp : p
  · rw [if_pos hp] at h
    cases h
    rw [if_neg fun ht => hok.1 ht hp, hfail hp]
  · rw [if_neg hp] at h
    rw [if_pos (hok.2 hp)]
    exact hlater hp h

/-- The field checks stop at the first field in error, and change nothing. -/
theorem checkHeaderFields_raises {data : List Byte} {c : ErrCode} {i : Word} (h : headerFieldError data = some (c, i))
    (s : State) : checkHeaderFields data s = .error (.raised c i) s := by
  unfold checkHeaderFields
  -- One check a turn; the sixth, of the interlace method, stands last.
  iterate 5 refine require_bind_raises (by simp) h (fun _ => rfl) fun _ h => ?_
  obtain ⟨hinterlace, he⟩ := Option.ite_none_right_eq_some.1 h
  cases he
  rw [require_apply, if_neg (by simpa using hinterlace)]

/-- R121: the header registers are captured once type and length are right, before any field is looked at. -/
theorem acceptHeader_raises {k : Chunk} {c : ErrCode} {i : Word} (h : k.headerError = some (c, i)) (s : State) :
    acceptHeader k s = .error (.raised c i) (if k.IsHeader then s.setRegs (s.regs.captureHeader k.data) else s) := by
  unfold acceptHeader
  refine require_bind_raises (by simp) h (fun htyp => if_neg fun hk => htyp hk.1) fun htyp h => ?_
  refine require_bind_raises (by simp) h (fun hlen => if_neg fun hk => hlen hk.2) fun hlen h => ?_
  rw [modifyRegs_bind, Engine.bind_error (checkHeaderFields_raises h _), if_pos ⟨not_not.1 htyp, not_not.1 hlen⟩]

/-- R121: HDR_CHECK on a good first chunk in error raises that error, the chunk described and the profile dropped. -/
theorem exec_hdrCheck_raises {s : State} {k : Chunk} {c : ErrCode} {i : Word}
    (hfit : s.regs.srcAddr.toNat + s.regs.srcLen.toNat ≤ 2 ^ 32) (hh : s.holdsRegionsOf .hdrCheck)
    (hk : k = chunkAt s.platform.crc s.mem s.regs.srcAddr.toNat 8) (hgood : k.good = true)
    (hl : 20 + k.len ≤ s.regs.srcLen.toNat) (he : k.headerError = some (c, i)) {r : Regs}
    (hr : r = s.regs.dropProfile.setDescriptor 8 k.len k.typ (storedCrcAt s.mem s.regs.srcAddr.toNat 8)) :
    exec .hdrCheck s = .next (raiseError c i (s.setRegs (if k.IsHeader then r.captureHeader k.data else r))) := by
  rw [exec_eq_runCommand]
  refine runCommand_raised (body := hdrCheckBody) ?_
  rw [hdrCheckBody_checked hfit (by omega), Engine.bind_ok (readChunk_first hh hk hl), ← hr, if_pos hgood, acceptHeader_raises he]
  split <;> rfl

/-! ## The statement -/

/-- R180: an error as the pair of its number and its info, and (0, 0) for none. -/
def verdictOf : Option (ErrCode × Word) → Byte × Word
  | none => (0, 0)
  | some (c, i) => (c.number, i)

@[simp] theorem verdictOf_none : verdictOf none = (0, 0) := rfl
@[simp] theorem verdictOf_some (c : ErrCode) (i : Word) : verdictOf (some (c, i)) = (c.number, i) := rfl

theorem eq_some_of_verdictOf_ne_zero {e : Option (ErrCode × Word)} (h : (verdictOf e).1 ≠ 0) : ∃ c i, e = some (c, i) := by
  cases e with
  | none => exact absurd rfl h
  | some e => exact ⟨e.1, e.2, rfl⟩

/-- Settles O39: the verdict is the number of the first error, which HDR_CHECK raises over the chunk's descriptor, and the
header registers are captured exactly when the chunk is a header by type and length. -/
theorem hdrCheckReportsTheFirstBadField : Obligations.HdrCheckReportsTheFirstBadField := by
  intro s k hfit hh hk hgood hl verdict hv hne
  have hverdict : verdict = verdictOf k.headerError := by
    simp only [hv, Chunk.headerError, headerFieldError, apply_ite verdictOf, verdictOf_some, verdictOf_none]
    rfl
  subst hverdict
  obtain ⟨c, i, he⟩ := eq_some_of_verdictOf_ne_zero hne
  rw [he]
  refine ⟨_, exec_hdrCheck_raises hfit hh hk hgood hl he rfl, ?_⟩
  by_cases hhdr : k.IsHeader
  · rw [if_pos hhdr]
    exact ⟨rfl, rfl, rfl, rfl, rfl, rfl, rfl, rfl, rfl, rfl, fun _ => ⟨headerFields_toNat k.data, rfl⟩, fun hn => absurd hhdr hn⟩
  · rw [if_neg hhdr]
    exact ⟨rfl, rfl, rfl, rfl, rfl, rfl, rfl, rfl, rfl, rfl, fun hk => absurd hk hhdr, fun _ => ⟨rfl, rfl⟩⟩

end Sys2Proof.Machine
end

section
/-! The Paeth predictor and the byte commands (R131 to R133, R137 to R139), the row commands (R134 to R136, R140, R141),
and the statements they settle. -/

namespace Sys2Proof.Machine

/-! ## The Paeth predictor (R131) -/

/-- R131: the predictor by the absolute distances of its operands from p = a + b - c. -/
theorem paethPredictor_eq_ite {a b c : Byte} {p : Int} (hp : p = (a.toNat : Int) + b.toNat - c.toNat) :
    paethPredictor a b c =
      if |p - a.toNat| ≤ |p - b.toNat| ∧ |p - a.toNat| ≤ |p - c.toNat| then a
      else if |p - b.toNat| ≤ |p - c.toNat| then b
      else c := by
  subst hp
  simp only [paethPredictor, ← Int.natCast_natAbs, Nat.cast_le]

/-- R131: the same distances as differences of the operands, p written out. -/
theorem paethPredictor_eq_ite_differences (a b c : Byte) :
    paethPredictor a b c =
      if |(b.toNat : Int) - c.toNat| ≤ |(a.toNat : Int) - c.toNat| ∧
          |(b.toNat : Int) - c.toNat| ≤ |(a.toNat : Int) + b.toNat - 2 * c.toNat| then a
      else if |(a.toNat : Int) - c.toNat| ≤ |(a.toNat : Int) + b.toNat - 2 * c.toNat| then b
      else c := by
  have hpa : (a.toNat : Int) + b.toNat - c.toNat - a.toNat = b.toNat - c.toNat := by ring
  have hpb : (a.toNat : Int) + b.toNat - c.toNat - b.toNat = a.toNat - c.toNat := by ring
  have hpc : (a.toNat : Int) + b.toNat - c.toNat - c.toNat = a.toNat + b.toNat - 2 * c.toNat := by ring
  rw [paethPredictor_eq_ite rfl, hpa, hpb, hpc]

/-- Settles O42: in each of the predictor's three cases the distance it did not test follows from the tests that failed. -/
theorem paethIsNearestWithTieOrder : Obligations.PaethIsNearestWithTieOrder := by
  intro a b c p hp
  rw [paethPredictor_eq_ite hp]
  split_ifs with ha hb
  · refine ⟨.inl rfl, ?_, fun _ _ => rfl, fun hlt _ => absurd ha.1 (not_le.2 hlt)⟩
    rintro q (rfl | rfl | rfl)
    exacts [le_rfl, ha.1, ha.2]
  · have hba : |p - b.toNat| ≤ |p - a.toNat| := le_of_not_ge fun h => ha ⟨h, h.trans hb⟩
    refine ⟨.inr (.inl rfl), ?_, fun h1 h2 => absurd ⟨h1, h2⟩ ha, fun _ _ => rfl⟩
    rintro q (rfl | rfl | rfl)
    exacts [hba, le_rfl, hb]
  · have hcb : |p - c.toNat| ≤ |p - b.toNat| := le_of_not_ge hb
    have hca : |p - c.toNat| ≤ |p - a.toNat| := le_of_not_ge fun h => ha ⟨h.trans hcb, h⟩
    refine ⟨.inr (.inr rfl), ?_, fun h1 h2 => absurd ⟨h1, h2⟩ ha, fun _ h2 => absurd h2 hb⟩
    rintro q (rfl | rfl | rfl)
    exacts [hca, hcb, le_rfl]

/-! ## The byte commands (R137 to R139) -/

theorem exec_paeth (s : State) :
    exec .paeth s =
      .next (complete (s.setRegs (s.regs.setResult (paethPredictor s.regs.byteA s.regs.byteB s.regs.byteC)))) := rfl

theorem exec_reconByte {ft : BitVec 3} {f : FilterType} (h : FilterType.ofCode ft.toNat = some f) (s : State) :
    exec (.reconByte ft) s =
      .next (complete (s.setRegs (s.regs.setResult (recon f s.regs.byteX s.regs.byteA s.regs.byteB s.regs.byteC)))) := by
  rw [exec_eq_runCommand]
  exact runCommand_ok (Engine.bind_ok (filterOperand_ok h s))

theorem exec_filtByte {ft : BitVec 3} {f : FilterType} (h : FilterType.ofCode ft.toNat = some f) (s : State) :
    exec (.filtByte ft) s =
      .next (complete (s.setRegs (s.regs.setResult (filt f s.regs.byteX s.regs.byteA s.regs.byteB s.regs.byteC)))) := by
  rw [exec_eq_runCommand]
  exact runCommand_ok (Engine.bind_ok (filterOperand_ok h s))

/-- Settles O41: PAETH's result is the predictor, which the differences of the operands decide. -/
theorem paethWritesTheExactPredictor : Obligations.PaethWritesTheExactPredictor := by
  rintro s a b c rfl rfl rfl
  rw [exec_paeth, paethPredictor_eq_ite_differences]
  rfl

/-- Settles O43: the two operations of the filter type that FT names, on the operand bytes. -/
theorem byteCommandsAddAndSubtractThePredictor : Obligations.ByteCommandsAddAndSubtractThePredictor := by
  intro s ft hft
  obtain ⟨f, hf⟩ := FilterType.ofCode_le hft
  rw [exec_reconByte hf, exec_filtByte hf, recon_eq hf, filt_eq hf]
  exact ⟨rfl, rfl⟩

/-! ## The previous row (R84, R134) -/

/-- R84: the previous raw row of a row command, zeros with FIRST = 1, else the bytes at AUX_ADDR. -/
def previousRow (m : Memory) (first : Bool) (aux n : Nat) : List Byte :=
  if first = true then List.replicate n 0 else m.readN aux n

theorem previousRow_getD (m : Memory) (first : Bool) (aux : Nat) {n x : Nat} (hx : x < n) :
    (previousRow m first aux n).getD x 0 = if first = true then 0 else m.read (aux + x) := by
  unfold previousRow
  split
  · exact getD_zeros n x
  · exact Memory.readN_getD m aux n hx

theorem leftOf_previousRow (m : Memory) (first : Bool) (aux : Nat) {n x : Nat} (hx : x < n) :
    leftOf (previousRow m first aux n) x = if first = true then 0 else leftInMemory m aux x := by
  unfold previousRow
  split
  · exact leftOf_zeros n x
  · exact leftOf_readN m aux hx

/-- R63, R84: a command whose regions hold memory, AUX among them with FIRST = 0, reads its previous row. -/
theorem priorRow_of_regions {s : State} {i : Instr} {first : Bool} {n : Nat} (hh : s.holdsRegionsOf i)
    (haux : first = false → s.regs.aux ∈ (regionsOf s.regs i).reads) (hlen : first = false → s.regs.auxLen.toNat = n) :
    priorRow first n s = .ok (previousRow s.mem first s.regs.auxAddr.toNat n) s :=
  priorRow_ok fun h => State.holdsAll_of_regions hh (.inl (haux h)) (Nat.le_refl _) (by rw [← hlen h]; exact Nat.le_refl _)

/-! ## The row commands (R140, R141) -/

/-- R47, R185: a command that ends by writing `bytes` to its DST region, large enough, and their number to OUT_LEN. -/
theorem exec_of_writes_dst {s : State} {i : Instr} {bytes : List Byte} {n : Nat}
    (hbody : bodyOf i s = (memWrite s.regs.dstAddr.toNat bytes >>= fun _ => setOutLen n) s) (hh : s.holdsRegionsOf i)
    (hdst : (regionsOf s.regs i).written = some s.regs.dst) (hlen : bytes.length = n) (hcap : n ≤ s.regs.dstLen.toNat) :
    exec i s = .next (complete
      ((s.setMem (s.mem.writeN s.regs.dstAddr.toNat bytes)).setRegs (s.regs.setOutLen n))) := by
  have hheld : s.platform.holdsAll s.regs.dstAddr.toNat bytes.length = true :=
    State.holdsAll_of_regions hh (.inr hdst) (Nat.le_refl _) (by simpa [Regs.dst, hlen] using hcap)
  rw [exec_eq_runCommand]
  refine runCommand_ok ?_
  rw [hbody, memWrite_bind, if_pos hheld]
  rfl

/-- R140: RECON_ROW on legal arguments and a legal filter byte. -/
theorem exec_reconRow {s : State} {first : Bool} {n : Nat} {f : FilterType} (hn : n = s.regs.rowLen) (hg : s.gateOpen)
    (hw : s.regs.imgWidth ≠ 0) (hl : s.regionsLegal (.reconRow first)) (hh : s.holdsRegionsOf (.reconRow first))
    (hsrc : s.regs.srcLen.toNat = 1 + n) (haux : first = false → s.regs.auxLen.toNat = n) (hdst : n ≤ s.regs.dstLen.toNat)
    (hf : FilterType.ofCode (s.mem.read s.regs.srcAddr.toNat).toNat = some f) :
    exec (.reconRow first) s = .next (complete ((s.setMem (s.mem.writeN s.regs.dstAddr.toNat
      (reconRow f (s.mem.readN (s.regs.srcAddr.toNat + 1) n) (previousRow s.mem first s.regs.auxAddr.toNat n)))).setRegs
        (s.regs.setOutLen n))) := by
  refine exec_of_writes_dst ?_ hh rfl (by simp) hdst
  have hprior := priorRow_of_regions hh (by rintro rfl; simp [regionsOf]) haux
  have hdrop : (s.mem.readN s.regs.srcAddr.toNat (1 + n)).drop 1 = s.mem.readN (s.regs.srcAddr.toNat + 1) n := by
    rw [Memory.readN_drop, Nat.add_sub_cancel_left]
  refine (reconRowBody_checked hn hg hw hl hh hsrc haux hdst).trans ?_
  rw [Memory.readN_headD _ _ _ (by omega), hf, hdrop]
  exact Engine.bind_ok hprior

/-- R141: FILT_ROW on legal arguments. -/
theorem exec_filtRow {s : State} {ft : BitVec 3} {first : Bool} {n : Nat} {f : FilterType} (hn : n = s.regs.rowLen)
    (hf : FilterType.ofCode ft.toNat = some f) (hg : s.gateOpen) (hw : s.regs.imgWidth ≠ 0)
    (hl : s.regionsLegal (.filtRow ft first)) (hh : s.holdsRegionsOf (.filtRow ft first))
    (hsrc : s.regs.srcLen.toNat = n) (haux : first = false → s.regs.auxLen.toNat = n) (hdst : 1 + n ≤ s.regs.dstLen.toNat) :
    exec (.filtRow ft first) s = .next (complete ((s.setMem (s.mem.writeN s.regs.dstAddr.toNat
      (f.code :: filterRow f (s.mem.readN s.regs.srcAddr.toNat n) (previousRow s.mem first s.regs.auxAddr.toNat n)))).setRegs
        (s.regs.setOutLen (1 + n)))) := by
  refine exec_of_writes_dst ?_ hh rfl (by simp [Nat.add_comm]) hdst
  have hread : s.platform.holdsAll s.regs.srcAddr.toNat n = true :=
    State.holdsAll_of_regions hh (r := s.regs.src) (.inl (by cases first <;> simp [regionsOf])) (Nat.le_refl _)
      (by rw [← hsrc]; exact Nat.le_refl _)
  have hprior := priorRow_of_regions hh (by rintro rfl; simp [regionsOf]) haux
  show filtRowBody ft first s = _
  unfold filtRowBody
  rw [Engine.bind_ok (filterOperand_ok hf s), Engine.get_bind]
  simp only [← hn]
  rw [rowChecks_ok hg hw hl, Engine.bind_ok (by rw [checkLength_apply, if_pos hsrc]), Engine.bind_ok (checkAuxLength_ok haux),
    Engine.bind_ok (by rw [checkCapacity_apply, if_pos hdst]), memRead_bind, if_pos hread]
  exact Engine.bind_ok hprior

/-- A filtered row written to memory: each byte from the raw bytes read and the prior row. -/
theorem read_filterRow {m m0 : Memory} {row raw n : Nat} {f : FilterType} {k : Nat} {prior : List Byte}
    (hf : FilterType.ofCode k = some f) {x : Nat} (hx : x < n) :
    (m.writeN row (f.code :: filterRow f (m0.readN raw n) prior)).read (row + 1 + x) =
      BitVec.ofNat 8 ((m0.read (raw + x)).toNat + 256 -
        predictorValue k (leftInMemory m0 raw x) (prior.getD x 0) (leftOf prior x)) := by
  have hlen : x < (m0.readN raw n).length := by simpa using hx
  rw [Memory.writeN, Memory.read_writeN_inside _ _ _ (by simpa using hx), filterRow_getD f _ prior hlen, filt_eq hf,
    Memory.readN_getD m0 raw n hx, leftOf_readN m0 raw hx]

/-- The byte before a filtered row is its filter type. -/
theorem read_filterType (m : Memory) (row : Nat) {f : FilterType} {k : Nat} (hf : FilterType.ofCode k = some f)
    (bytes : List Byte) : ((m.writeN row (f.code :: bytes)).read row).toNat = k := by
  have hhead := Memory.read_writeN_inside m row (f.code :: bytes) (i := 0) (by simp)
  rw [Nat.add_zero, List.getD_cons_zero] at hhead
  rw [hhead]
  exact (FilterType.ofCode_cases hf).2

/-- Settles O46: the command writes the reconstructed row, whose bytes are told by `read_reconRow`. -/
theorem reconRowReconstructsTheRow : Obligations.ReconRowReconstructsTheRow := by
  rintro s first n src dst aux hn rfl rfl rfl hg hw hl hh hsrc haux hdst hfilter
  obtain ⟨f, hf⟩ := FilterType.ofCode_le hfilter
  refine ⟨_, exec_reconRow hn hg hw hl hh hsrc haux hdst hf, rfl, fun x hx => ?bytes, fun a ha => ?frame⟩
  case bytes =>
    rw [← previousRow_getD s.mem first _ hx, ← leftOf_previousRow s.mem first _ hx]
    exact read_reconRow hf hx
  case frame => exact Memory.read_writeN_outside _ _ _ (by simpa using ha)

/-- Settles O47: the command writes the filter type and the filtered row, whose bytes are told by `read_filterRow`. -/
theorem filtRowFiltersTheRow : Obligations.FiltRowFiltersTheRow := by
  rintro s ft first n src dst aux hn rfl rfl rfl hft hg hw hl hh hsrc haux hdst
  obtain ⟨f, hf⟩ := FilterType.ofCode_le hft
  refine ⟨_, exec_filtRow hn hf hg hw hl hh hsrc haux hdst, rfl, read_filterType _ _ hf _, fun x hx => ?bytes,
    fun a ha => ?frame⟩
  case bytes =>
    rw [← previousRow_getD s.mem first _ hx, ← leftOf_previousRow s.mem first _ hx]
    exact read_filterRow hf hx
  case frame => exact Memory.read_writeN_outside _ _ _ (by simp; omega)

end Sys2Proof.Machine
end

section
/-! The start effects of a CMD write (R40, R183), and the statement they settle. -/

namespace Sys2Proof.Machine

/-- R40: an idle write to CMD issues the command. -/
theorem registerWrite_cmd_of_idle {s : State} (h : s.regs.status.busy = false) (v : Word) :
    registerWrite 0x08 v s = s.setRegs (s.regs.issue v) := by
  refine (registerWrite_offset .cmd v s).trans ?_
  rw [if_neg (by simp), if_neg (by simp [h]), if_pos rfl]

/-- R183: the issue sets bit 0 of STATUS, clears bits 1 and 2, and keeps every other bit. -/
theorem Regs.value_issue_status (r : Regs) (v : Word) :
    (r.issue v).value .status = (r.value .status &&& 0xFFFFFFF9) ||| 0x00000001 := by
  have hmask : ∀ k < 32, (0xFFFFFFF9 : Word).getLsbD k = !(decide (k = 1) || decide (k = 2)) := by decide
  have hbusy : ∀ k < 32, (0x00000001 : Word).getLsbD k = decide (k = 0) := by decide
  refine BitVec.eq_of_getLsbD_eq fun k hk => ?_
  simp only [Regs.value, Regs.issue_status, BitVec.getLsbD_or, BitVec.getLsbD_and, Status.getLsbD_toWord, hmask k hk,
    hbusy k hk]
  obtain rfl | rfl | rfl | hother : k = 0 ∨ k = 1 ∨ k = 2 ∨ 2 < k := by omega
  · simp
  · simp
  · simp
  · simp [show k ≠ 0 by omega, show k ≠ 1 by omega, show k ≠ 2 by omega]

/-- R183: the registers that the issue leaves unchanged. -/
theorem Regs.value_issue_of_notMem (r : Regs) (v : Word) {name : RegName}
    (h : name ∉ [RegName.cmd, .status, .errCode, .errInfo, .outLen]) : (r.issue v).value name = r.value name := by
  cases name <;> simp [Regs.value] at h ⊢

/-- R183: the commands whose issue clears OUT_LEN; an illegal word is none of them. -/
theorem any_clearsOutLen_iff (d : Option Instr) : d.any clearsOutLen = true ↔
    (∃ first, d = some (.reconRow first)) ∨ (∃ ft first, d = some (.filtRow ft first)) ∨ d = some .decodeImage ∨
      (∃ ch, d = some (.isolate ch)) ∨ d = some .assemble := by
  cases d with
  | none => simp
  | some i => cases i <;> simp [clearsOutLen]

/-- Settles O12: the write is the issue of the command, whose effects are told register by register. -/
theorem issueHasTheStartEffects : Obligations.IssueHasTheStartEffects := by
  intro s v hidle
  rw [registerWrite_cmd_of_idle hidle]
  refine ⟨rfl, rfl, s.regs.value_issue_status v, rfl, rfl, ?outLen, fun name h => s.regs.value_issue_of_notMem v h, rfl⟩
  case outLen => exact if_congr (any_clearsOutLen_iff (decodeWord v)) rfl rfl

end Sys2Proof.Machine
end

section
/-! The round trip of `decodeWord` and `encode` (R83, R93, R97), the example words (R92), and the statements they settle. -/

namespace Sys2Proof

/-! ## A word from its fields (R80, R93) -/

/-- R80: the word whose FT, FIRST and CH are these and whose other bits are 0. -/
def fieldBits (ft : BitVec 3) (first : Bool) (ch : BitVec 2) : Word := 0#18 ++ ch ++ BitVec.ofBool first ++ ft ++ 0#8

/-- R80: the fields of a word are its bits 8 to 13. -/
theorem fieldBits_of_fields (w : Word) : fieldBits (ftField w) (firstField w) (chField w) = w &&& 0x00003F00 := by
  refine BitVec.eq_of_getLsbD_eq fun k hk => ?_
  simp only [fieldBits, ftField, firstField, chField, BitVec.getLsbD_append, BitVec.getLsbD_extractLsb',
    BitVec.getLsbD_ofBool, BitVec.getLsbD_and, BitVec.getLsbD_zero]
  interval_cases k <;> simp

/-- R93: the word of a command that a row builds is the row's pattern with the row's fields filled in. -/
theorem OpcodeRow.encode_build : ∀ r ∈ opcodeMap, ∀ ft first ch,
    encode (r.build ft first ch) = r.pattern ||| (fieldBits ft first ch &&& ~~~r.mask) := by
  decide

/-- R80: the bits that a row leaves open are field bits. -/
theorem OpcodeRow.fields_of_mask : ∀ r ∈ opcodeMap, 0x00003F00 &&& ~~~r.mask = ~~~r.mask := by
  decide

/-- R83, R93: a word that fits a row is the word of the command that the row builds from its fields. -/
theorem encode_build_of_fits {r : OpcodeRow} (hr : r ∈ opcodeMap) {w : Word} (h : w &&& r.mask = r.pattern) :
    encode (r.build (ftField w) (firstField w) (chField w)) = w := by
  calc encode (r.build (ftField w) (firstField w) (chField w))
      = (w &&& r.mask) ||| ((w &&& 0x00003F00) &&& ~~~r.mask) := by
        rw [OpcodeRow.encode_build r hr, fieldBits_of_fields, h]
    _ = (w &&& r.mask) ||| (w &&& ~~~r.mask) := by rw [BitVec.and_assoc, OpcodeRow.fields_of_mask r hr]
    _ = w := by rw [← BitVec.and_or_distrib_left, BitVec.or_not_self, BitVec.and_allOnes]

/-! ## The round trip (R97) -/

/-- The word of every command belongs to the row of the map that builds the command (R87, R93). -/
theorem tableRow (i : Instr) : Laws.TableRow.Statement i := by
  cases i with
  | checkSig => exact Laws.TableRow.checkSig
  | parseInit => exact Laws.TableRow.parseInit
  | parseNext => exact Laws.TableRow.parseNext
  | parseAll => exact Laws.TableRow.parseAll
  | hdrCheck => exact Laws.TableRow.hdrCheck
  | paeth => exact Laws.TableRow.paeth
  | reconByte ft => exact Laws.TableRow.reconByte ft
  | filtByte ft => exact Laws.TableRow.filtByte ft
  | reconRow first => exact Laws.TableRow.reconRow first
  | filtRow ft first => exact Laws.TableRow.filtRow ft first
  | decodeImage => exact Laws.TableRow.decodeImage
  | isolate ch => exact Laws.TableRow.isolate ch
  | assemble => exact Laws.TableRow.assemble

/-- R97: the word of a legal command decodes to it. -/
theorem decodeWord_encode {i : Instr} (h : i.wellFormed = true) : decodeWord (encode i) = some i := by
  obtain ⟨r, hr, hop, hfits, hbuild⟩ := tableRow i
  rw [decodeWord_of_opField hr hop, hbuild, if_pos ⟨hfits, h⟩]

/-- R97: a word that decodes is the word of its command, which is legal. -/
theorem encode_of_decodeWord {w : Word} {i : Instr} (h : decodeWord w = some i) : i.wellFormed = true ∧ encode i = w := by
  obtain ⟨r, hr, hop⟩ := exists_row_of_decodeWord h
  rw [decodeWord_of_opField hr hop, Option.ite_none_right_eq_some, Option.some.injEq] at h
  obtain ⟨⟨hfits, hlegal⟩, rfl⟩ := h
  exact ⟨hlegal, encode_build_of_fits hr hfits⟩

/-! ## The statements -/

/-- Settles O1: a legal command's word is in the command's row, and a word that fits a row is rebuilt from its fields. -/
theorem decodeEncodeAgree : Obligations.DecodeEncodeAgree := by
  intro w i
  constructor
  · exact encode_of_decodeWord
  · rintro ⟨hlegal, rfl⟩
    exact decodeWord_encode hlegal

/-- Settles O3: the decoder run on the words of the list. -/
theorem exampleWordsDecode : Obligations.ExampleWordsDecode := by
  unfold Obligations.ExampleWordsDecode
  decide

end Sys2Proof
end

section
/-! The frame of every command (R43 to R56, R59, R69), how a command ends (R63, R184, R185), and the statements they settle. -/

namespace Sys2Proof.Machine

/-! ## What each update leaves of the registers -/

theorem Regs.value_setDescriptor (r : Regs) (off len : Nat) (typ : List Byte) (stored : Word) {name : RegName}
    (h : name ∉ [RegName.chOff, .chLen, .chType, .chCrc]) :
    (r.setDescriptor off len typ stored).value name = r.value name := by
  cases name <;> simp [Regs.value] at h ⊢

theorem Regs.value_recordMismatch (r : Regs) (typ : List Byte) {name : RegName} (hs : name ≠ .status)
    (h : name ∉ [RegName.corruptCount, .corruptType]) : (r.recordMismatch typ).value name = r.value name := by
  cases name <;> simp [Regs.value] at hs h ⊢

theorem Regs.value_setCursor (r : Regs) (off : Nat) {name : RegName} (h : name ≠ .parseOff) :
    (r.setCursor off).value name = r.value name := by
  cases name <;> simp [Regs.value] at h ⊢

theorem Regs.value_setPayloadLen (r : Regs) (n : Nat) {name : RegName} (h : name ≠ .idatLen) :
    (r.setPayloadLen n).value name = r.value name := by
  cases name <;> simp [Regs.value] at h ⊢

theorem Regs.value_countChunk (r : Regs) {name : RegName} (h : name ≠ .chunkCount) :
    r.countChunk.value name = r.value name := by
  cases name <;> simp [Regs.value] at h ⊢

theorem Regs.value_setIend (r : Regs) {name : RegName} (hs : name ≠ .status) : r.setIend.value name = r.value name := by
  cases name <;> simp [Regs.value] at hs ⊢

theorem Regs.value_setExhausted (r : Regs) {name : RegName} (hs : name ≠ .status) :
    r.setExhausted.value name = r.value name := by
  cases name <;> simp [Regs.value] at hs ⊢

theorem Regs.value_parseInit (r : Regs) {name : RegName} (hs : name ≠ .status)
    (h : name ∉ registersWritten .parseInit) : r.parseInit.value name = r.value name := by
  cases name <;> simp [registersWritten, Regs.value] at hs h ⊢

theorem Regs.value_dropProfile (r : Regs) {name : RegName} (hs : name ≠ .status) :
    r.dropProfile.value name = r.value name := by
  cases name <;> simp [Regs.value] at hs ⊢

theorem Regs.value_captureHeader (r : Regs) (data : List Byte) {name : RegName}
    (h : name ∉ [RegName.hdrFields, .hdrInterlace]) : (r.captureHeader data).value name = r.value name := by
  cases name <;> simp [Regs.value] at h ⊢

theorem Regs.value_loadProfile (r : Regs) (width height : Nat) {name : RegName} (hs : name ≠ .status)
    (h : name ∉ [RegName.imgWidth, .imgHeight]) : (r.loadProfile width height).value name = r.value name := by
  cases name <;> simp [Regs.value] at hs h ⊢

theorem Regs.value_setResult (r : Regs) (b : Byte) {name : RegName} (h : name ≠ .result) :
    (r.setResult b).value name = r.value name := by
  cases name <;> simp [Regs.value] at h ⊢

theorem Regs.value_setOutLen (r : Regs) (n : Nat) {name : RegName} (h : name ≠ .outLen) :
    (r.setOutLen n).value name = r.value name := by
  cases name <;> simp [Regs.value] at h ⊢

theorem Regs.value_completed (r : Regs) {name : RegName} (hs : name ≠ .status) : r.completed.value name = r.value name := by
  cases name <;> simp [Regs.value] at hs ⊢

theorem Regs.value_raised (r : Regs) (c : ErrCode) (i : Word) {name : RegName}
    (h : name ∉ [RegName.status, .errCode, .errInfo]) : (r.raised c i).value name = r.value name := by
  cases name <;> simp [Regs.value] at h ⊢

/-! ## The register frame of a command's pseudocode -/

/-- The commands whose pseudocode may write IEND and EXHAUSTED (R35, R36). -/
def parserCommands : List Instr := [.parseInit, .parseNext, .parseAll]

/-- The commands whose pseudocode may write CORRUPT_SEEN (R37). -/
def corruptCommands : List Instr := [.parseInit, .parseNext, .parseAll, .hdrCheck, .assemble]

/-- What the pseudocode of command `i` leaves of the registers `r`, those it may write aside (R43 to R56, R59). -/
structure RegsFrame (i : Instr) (r q : Regs) : Prop where
  value : ∀ name, name ≠ .status → name ∉ registersWritten i → q.value name = r.value name
  overrun : q.status.overrun = r.status.overrun
  profValid : i ≠ .hdrCheck → q.status.profValid = r.status.profValid
  ending : i ∉ parserCommands → q.status.iend = r.status.iend ∧ q.status.exhausted = r.status.exhausted
  corruptSeen : i ∉ corruptCommands → q.status.corruptSeen = r.status.corruptSeen

namespace RegsFrame

variable {i : Instr}

/-- An update that leaves STATUS alone. -/
theorem of_status_eq {r q : Regs} (hs : q.status = r.status)
    (hv : ∀ name, name ≠ .status → name ∉ registersWritten i → q.value name = r.value name) : RegsFrame i r q :=
  ⟨hv, by rw [hs], fun _ => by rw [hs], fun _ => by rw [hs]; exact ⟨rfl, rfl⟩, fun _ => by rw [hs]⟩

theorem stable (i : Instr) : Stable (fun s t => RegsFrame i s.regs t.regs) where
  refl _ := of_status_eq rfl fun _ _ _ => rfl
  trans _ _ _ h1 h2 :=
    { value := fun name hs hn => (h2.value name hs hn).trans (h1.value name hs hn)
      overrun := h2.overrun.trans h1.overrun
      profValid := fun h => (h2.profValid h).trans (h1.profValid h)
      ending := fun h => ⟨(h2.ending h).1.trans (h1.ending h).1, (h2.ending h).2.trans (h1.ending h).2⟩
      corruptSeen := fun h => (h2.corruptSeen h).trans (h1.corruptSeen h) }
  write _ _ _ := of_status_eq rfl fun _ _ _ => rfl

theorem keptByReading (hdesc : [RegName.chOff, .chLen, .chType, .chCrc] ⊆ registersWritten i)
    (hcorrupt : [RegName.corruptCount, .corruptType] ⊆ registersWritten i) (hi : i ∈ corruptCommands) :
    KeptByReading (fun s t => RegsFrame i s.regs t.regs) where
  descriptor _ _ _ _ s :=
    of_status_eq rfl fun _ _ hn => s.regs.value_setDescriptor _ _ _ _ fun hm => hn (hdesc hm)
  mismatch _ s :=
    ⟨fun _ hs hn => s.regs.value_recordMismatch _ hs fun hm => hn (hcorrupt hm), rfl, fun _ => rfl, fun _ => ⟨rfl, rfl⟩,
      fun h => absurd hi h⟩

theorem keptByParsing (hw : registersWritten i = registersWritten .parseAll) (hi : i ∈ parserCommands)
    (hc : i ∈ corruptCommands) : KeptByParsing (fun s t => RegsFrame i s.regs t.regs) where
  toKeptByReading := keptByReading (by rw [hw]; decide) (by rw [hw]; decide) hc
  cursor _ s := of_status_eq rfl fun _ _ hn => s.regs.value_setCursor _ fun e => hn (by rw [hw, e]; decide)
  payload _ s := of_status_eq rfl fun _ _ hn => s.regs.value_setPayloadLen _ fun e => hn (by rw [hw, e]; decide)
  count s := of_status_eq rfl fun _ _ hn => s.regs.value_countChunk fun e => hn (by rw [hw, e]; decide)
  iend s := ⟨fun _ hs _ => s.regs.value_setIend hs, rfl, fun _ => rfl, fun h => absurd hi h, fun _ => rfl⟩
  exhausted s := ⟨fun _ hs _ => s.regs.value_setExhausted hs, rfl, fun _ => rfl, fun h => absurd hi h, fun _ => rfl⟩

theorem keptByHeader : KeptByHeader (fun s t => RegsFrame .hdrCheck s.regs t.regs) where
  toKeptByReading := keptByReading (by decide) (by decide) (by decide)
  drop s := ⟨fun _ hs _ => s.regs.value_dropProfile hs, rfl, fun h => absurd rfl h, fun _ => ⟨rfl, rfl⟩, fun _ => rfl⟩
  capture _ s := of_status_eq rfl fun _ _ hn => s.regs.value_captureHeader _ fun hm =>
    hn ((by decide : [RegName.hdrFields, .hdrInterlace] ⊆ registersWritten .hdrCheck) hm)
  load _ _ s :=
    ⟨fun _ hs hn => s.regs.value_loadProfile _ _ hs fun hm =>
        hn ((by decide : [RegName.imgWidth, .imgHeight] ⊆ registersWritten .hdrCheck) hm),
      rfl, fun h => absurd rfl h, fun _ => ⟨rfl, rfl⟩, fun _ => rfl⟩

theorem keptByParseInit : KeptBy (fun s t => RegsFrame .parseInit s.regs t.regs) Regs.parseInit := fun s =>
  ⟨fun _ hs hn => s.regs.value_parseInit hs hn, rfl, fun _ => rfl, fun h => absurd (by decide) h, fun h => absurd (by decide) h⟩

theorem keptByResult (h : RegName.result ∈ registersWritten i) (s : State) (b : Byte) :
    RegsFrame i s.regs (s.setRegs (s.regs.setResult b)).regs :=
  of_status_eq rfl fun _ _ hn => s.regs.value_setResult b fun e => hn (e ▸ h)

theorem keptByOutLen (h : RegName.outLen ∈ registersWritten i) (n : Nat) :
    KeptBy (fun s t => RegsFrame i s.regs t.regs) (fun r => r.setOutLen n) := fun s =>
  of_status_eq rfl fun _ _ hn => s.regs.value_setOutLen n fun e => hn (e ▸ h)

/-- Every command's updates stay inside its frame. -/
theorem updates (i : Instr) : Stable.updatesOf (fun s t => RegsFrame i s.regs t.regs) i := by
  cases i with
  | checkSig => exact trivial
  | parseInit => exact keptByParseInit
  | parseNext => exact keptByParsing rfl (by decide) (by decide)
  | parseAll => exact keptByParsing rfl (by decide) (by decide)
  | hdrCheck => exact keptByHeader
  | paeth => exact keptByResult (by decide)
  | reconByte ft => exact keptByResult (List.mem_singleton_self _)
  | filtByte ft => exact keptByResult (List.mem_singleton_self _)
  | reconRow first => exact keptByOutLen (List.mem_singleton_self _)
  | filtRow ft first => exact keptByOutLen (List.mem_singleton_self _)
  | decodeImage => exact keptByOutLen (by decide)
  | isolate ch => exact keptByOutLen (List.mem_singleton_self _)
  | assemble => exact ⟨keptByReading (by decide) (by decide) (by decide), keptByOutLen (by decide)⟩

/-- However the pseudocode of a command ends, it has kept the command's frame. -/
theorem body (i : Instr) : (bodyOf i).Keeps (fun s t => RegsFrame i s.regs t.regs) := (stable i).body (updates i)

end RegsFrame

/-! ## How a command ends -/

/-- R184, R185: a command that has a next state ends its pseudocode by completing or by an error, inside its frame, with memory
changed in its written region only. -/
theorem exec_next {i : Instr} {s t : State} (h : exec i s = .next t) :
    ∃ u, RegsFrame i s.regs u.regs ∧ Near i s u ∧ (t = complete u ∨ ∃ c info, t = raiseError c info u) := by
  have hsafe : (bodyOf i).wp s (fun _ u => Near i s u) (fun e u => Near i s u ∧ (e = .absent → s.Absent i)) := safe_bodyOf i s
  rw [exec_eq_runCommand] at h
  obtain ⟨u, hu, rfl⟩ | ⟨c, info, u, hu, rfl⟩ := runCommand_next h
  · exact ⟨u, Engine.keeps_ok (RegsFrame.body i) hu, (Engine.wp_ok hsafe hu :), .inl rfl⟩
  · exact ⟨u, Engine.keeps_error (RegsFrame.body i) hu, (Engine.wp_error hsafe hu).1, .inr ⟨c, info, rfl⟩⟩

/-- R63: a command that has no next state is stuck at an absent address of its own regions. -/
theorem exec_fault {i : Instr} {s : State} {f : Fault} (h : exec i s = .fault f) : f = .absentMemory ∧ s.Absent i := by
  rw [exec_eq_runCommand] at h
  obtain ⟨rfl, u, hu⟩ := runCommand_fault h
  exact ⟨rfl, (Engine.wp_error (safe_bodyOf i s) hu).2 rfl⟩

theorem exec_ne_refused (i : Instr) (s : State) (r : Refusal) : exec i s ≠ .refused r := by
  rw [exec_eq_runCommand]
  exact runCommand_ne_refused _ _ _

/-- No command's rule writes ERR_CODE or ERR_INFO but by its end. -/
theorem errors_notMem_registersWritten (i : Instr) : RegName.errCode ∉ registersWritten i ∧ RegName.errInfo ∉ registersWritten i := by
  cases i <;> exact ⟨by simp [registersWritten], by simp [registersWritten]⟩

theorem RegsFrame.errors {i : Instr} {r q : Regs} (h : RegsFrame i r q) : q.errCode = r.errCode ∧ q.errInfo = r.errInfo := by
  obtain ⟨hcode, hinfo⟩ := errors_notMem_registersWritten i
  have hval : q.errCode.setWidth 32 = r.errCode.setWidth 32 := h.value .errCode (by decide) hcode
  exact ⟨by simpa using congrArg (BitVec.setWidth 8) hval, h.value .errInfo (by decide) hinfo⟩

/-- R180, R192: the codes the PSCE raises. -/
theorem ErrCode.number_mem (c : ErrCode) : c.number ∈ ([1, 2, 3, 4, 5, 6, 16, 17, 18, 19, 20, 21] : List Byte) := by
  cases c <;> decide

/-! ## The statements -/

/-- Settles O22: both ends of a command clear BUSY and set one of DONE and ERROR, and only the error writes a code. -/
theorem completionSetsExactlyOneOutcome : Obligations.CompletionSetsExactlyOneOutcome := by
  intro i s t h
  obtain ⟨u, hframe, -, rfl | ⟨c, info, rfl⟩⟩ := exec_next h
  · exact ⟨rfl, by simp, fun he => by simp at he, fun _ => hframe.errors⟩
  · exact ⟨rfl, by simp, fun _ => c.number_mem, fun hd => by simp at hd⟩

/-- Settles O23: an end that is no next state would be an absent byte of the regions. -/
theorem everyCommandCompletesOnPresentMemory : Obligations.EveryCommandCompletesOnPresentMemory := by
  intro i s hh
  cases he : exec i s with
  | next t => exact ⟨t, rfl⟩
  | fault f =>
    obtain ⟨-, a, ha, habs⟩ := exec_fault he
    rw [hh a ha] at habs
    cases habs
  | refused r => exact absurd he (exec_ne_refused i s r)

/-- R63: CHECK_SIG on a stream whose first byte is absent is stuck there. -/
theorem exec_checkSig_absent {s : State} (hlen : s.regs.srcLen ≠ 0)
    (hfit : s.regs.srcAddr.toNat + s.regs.srcLen.toNat ≤ 2 ^ 32) (ha : s.platform.holds s.regs.srcAddr.toNat = false) :
    exec .checkSig s = .fault .absentMemory := by
  have hl : s.regionsLegal .checkSig := by simpa [State.regionsLegal, regionsOf, Regs.src] using hfit
  have hpos : 0 < s.regs.srcLen.toNat := Nat.pos_of_ne_zero fun h => hlen (BitVec.eq_of_toNat_eq h)
  have habs : ¬ s.platform.holdsAll s.regs.srcAddr.toNat (min s.regs.srcLen.toNat 8) = true := by
    rw [Platform.holdsAll_iff]
    intro h
    have := h 0 (by omega)
    rw [Nat.add_zero, ha] at this
    cases this
  refine runCommand_absent (u := s) ?_
  unfold checkSigBody
  rw [Engine.bind_ok (checkRegions_ok hl), Engine.get_bind, memRead_bind, if_neg habs]

/-- Settles O24: a command's only stop names an absent byte of its regions, and CHECK_SIG does stop there. -/
theorem commandsStopOnlyOnAbsentMemory : Obligations.CommandsStopOnlyOnAbsentMemory := by
  intro i s
  refine ⟨exec_ne_refused i s, fun f h => exec_fault h, ?_⟩
  rintro a hlen hfit rfl ha
  exact exec_checkSig_absent hlen hfit ha

/-- Settles O25: the pseudocode writes in the written region only, and neither end of a command touches memory. -/
theorem commandsWriteOnlyTheirRegion : Obligations.CommandsWriteOnlyTheirRegion := by
  intro i s t h a ha
  obtain ⟨u, -, hnear, rfl | ⟨c, info, rfl⟩⟩ := exec_next h
  · exact hnear.outside a ha
  · exact hnear.outside a ha

/-- Settles O26: the frame of the pseudocode, and the registers that the two ends of a command write. -/
theorem commandsKeepTheOtherRegisters : Obligations.CommandsKeepTheOtherRegisters := by
  intro i s t h
  obtain ⟨u, hframe, hnear, hend⟩ := exec_next h
  have hvalue : ∀ name, name ∉ [RegName.status, .errCode, .errInfo] → name ∉ registersWritten i →
      t.regs.value name = s.regs.value name := by
    intro name hname hn
    have hs : name ≠ .status := fun e => hname (by simp [e])
    obtain rfl | ⟨c, info, rfl⟩ := hend
    · exact (u.regs.value_completed hs).trans (hframe.value name hs hn)
    · exact (u.regs.value_raised c info hname).trans (hframe.value name hs hn)
  refine ⟨fun name hname hn => hvalue name hname (by cases i <;> exact hn), ?_⟩
  obtain rfl | ⟨c, info, rfl⟩ := hend
  · exact ⟨hframe.overrun, hframe.profValid, hframe.ending, hframe.corruptSeen, hnear.platform, hnear.program⟩
  · exact ⟨hframe.overrun, hframe.profValid, hframe.ending, hframe.corruptSeen, hnear.platform, hnear.program⟩

end Sys2Proof.Machine
end

section
/-! One step of the machine (R20, R71, R94, R214), the invariant that every step keeps (R34, R36, R123, R180, R183), and the
statements they settle. -/

namespace Sys2Proof.Machine

/-! ## What a step can do -/

/-- R20, R214: a step is nothing, a host statement, or the Engine's performance of the outstanding word. -/
theorem step_next {s t : State} (h : step s = .next t) :
    t = s ∨ (∃ op rest later, hostStep op rest { s with schedule := later } = .next t) ∨
      ∃ w later, s.outstanding = some w ∧ engineStep w { s with schedule := later } = .next t := by
  unfold step at h
  split at h
  · split at h
    · cases h; exact .inl rfl
    · exact .inr (.inl ⟨_, _, s.schedule, h⟩)
  · next w hw =>
    split at h
    · exact .inr (.inl ⟨_, _, _, h⟩)
    · exact .inr (.inr ⟨w, _, hw, h⟩)

/-- What one host statement may do to the registers and the buffer memory. -/
inductive HostEffect (s : State) : Regs → Memory → Prop
  | nothing : HostEffect s s.regs s.mem
  | store (a : Nat) (b : Byte) : HostEffect s s.regs (s.mem.write a b)
  | reset : HostEffect s (resetEngine s).regs (resetEngine s).mem
  | write (offset : Nat) (v : Word) : HostEffect s (registerWrite offset v s).regs (registerWrite offset v s).mem

@[simp] theorem registerRead_platform (offset : Nat) (s : State) : (registerRead offset s).platform = s.platform := by
  unfold registerRead
  split <;> rfl

@[simp] theorem resetEngine_platform (s : State) : (resetEngine s).platform = s.platform := by
  unfold resetEngine
  split <;> rfl

@[simp] theorem registerWrite_platform (offset : Nat) (v : Word) (s : State) :
    (registerWrite offset v s).platform = s.platform := by
  unfold registerWrite
  split_ifs
  · exact resetEngine_platform s
  · rfl
  · split <;> rfl

theorem hostStore_next {s t : State} {a : Nat} {b : Byte} (h : hostStore a b s = .next t) :
    t = { s with mem := s.mem.write a b } := by
  unfold hostStore at h
  split_ifs at h
  cases h
  rfl

theorem hostLoad_next {s t : State} {a : Nat} (h : hostLoad a s = .next t) :
    ∃ b d, t = { s with loadData := b, draws := d } := by
  unfold hostLoad at h
  split_ifs at h <;> cases h <;> exact ⟨_, _, rfl⟩

/-- R94, R200: one host statement has one of the host's effects, and keeps the launch's parameters. -/
theorem hostStep_next {op : HostOp} {rest : List HostOp} {s t : State} (h : hostStep op rest s = .next t) :
    HostEffect s t.regs t.mem ∧ t.platform = s.platform := by
  cases op with
  | write addr size v =>
    simp only [hostStep] at h
    split at h <;> cases h
    exact ⟨.write _ _, registerWrite_platform _ _ _⟩
  | read addr size =>
    simp only [hostStep] at h
    split at h <;> cases h
    exact ⟨by simpa using .nothing, registerRead_platform _ _⟩
  | wait =>
    simp only [hostStep] at h
    split at h <;> cases h <;> exact ⟨by simpa using .nothing, registerRead_platform _ _⟩
  | store addr bytes =>
    cases bytes with
    | nil => cases h; exact ⟨.nothing, rfl⟩
    | cons b bs => rw [hostStore_next h]; exact ⟨.store _ _, rfl⟩
  | load addr =>
    obtain ⟨b, d, rfl⟩ := hostLoad_next h
    exact ⟨.nothing, rfl⟩
  | codec call src n dst out =>
    simp only [hostStep] at h
    split at h <;> cases h
    exact ⟨.nothing, rfl⟩
  | powerOnReset => cases h; exact ⟨.reset, resetEngine_platform s⟩

/-- R83, R88: the Engine raises ILLEGAL_COMMAND for an illegal word, and performs the command of any other. -/
theorem engineStep_eq (w : Word) (s : State) :
    engineStep w s = match decodeWord w with
      | none => .next (raiseError .illegalCommand w s)
      | some i => exec i s := by
  unfold engineStep
  cases decodeWord w <;> rfl

/-- Settles O59: neither a host statement nor a command writes the launch's parameters. -/
theorem launchParametersNeverChange : Obligations.LaunchParametersNeverChange := by
  intro s t h
  obtain rfl | ⟨op, rest, later, h⟩ | ⟨w, later, -, h⟩ := step_next h
  · rfl
  · exact (hostStep_next h).2
  · rw [engineStep_eq] at h
    cases hd : decodeWord w with
    | none => rw [hd] at h; cases h; rfl
    | some i =>
      rw [hd] at h
      obtain ⟨u, -, hnear, rfl | ⟨c, info, rfl⟩⟩ := exec_next h
      · exact hnear.platform
      · exact hnear.platform

/-! ## The invariant and the host -/

/-- The invariant speaks of the memory's form, of STATUS, of the two error registers, and of the profile's registers. -/
theorem State.Inv.congr {s t : State} (h : s.Inv) (hmem : t.mem.wf = true) (hstatus : t.regs.status = s.regs.status)
    (hcode : t.regs.errCode = s.regs.errCode) (hinfo : t.regs.errInfo = s.regs.errInfo)
    (hwidth : t.regs.imgWidth = s.regs.imgWidth) (hheight : t.regs.imgHeight = s.regs.imgHeight)
    (hfields : t.regs.hdrFields = s.regs.hdrFields) (hinterlace : t.regs.hdrInterlace = s.regs.hdrInterlace) : t.Inv where
  memory := hmem
  outcome := by rw [hstatus]; exact h.outcome
  ending := by rw [hstatus]; exact h.ending
  quiet := by rw [hstatus, hcode, hinfo]; exact h.quiet
  code := by rw [hcode]; exact h.code
  verdict := by rw [hstatus, hcode, hinfo]; exact h.verdict
  profile := by rw [hstatus, hwidth, hheight, hfields, hinterlace]; exact h.profile

theorem State.Inv.of_regs_eq {s t : State} (h : s.Inv) (hmem : t.mem.wf = true) (hregs : t.regs = s.regs) : t.Inv :=
  h.congr hmem (by rw [hregs]) (by rw [hregs]) (by rw [hregs]) (by rw [hregs]) (by rw [hregs]) (by rw [hregs]) (by rw [hregs])

/-- Settles O57: memory is empty, ERR_CODE is 0, and every flag of STATUS is 0. -/
theorem resetStateHasTheInvariant : Obligations.ResetStateHasTheInvariant where
  memory := rfl
  outcome := by decide
  ending := by decide
  quiet := by decide
  code := by decide
  verdict := by decide
  profile := by decide

theorem resetEngine_mem_wf {s : State} (h : s.mem.wf = true) : (resetEngine s).mem.wf = true := by
  unfold resetEngine
  split
  · exact h
  · exact drawRegion_wf _ _ _ _ h

theorem State.Inv.resetEngine {s : State} (h : s.Inv) : (resetEngine s).Inv :=
  State.Inv.of_regs_eq resetStateHasTheInvariant (resetEngine_mem_wf h.memory) (resetEngine_regs s)

/-- R183: the issue clears the outcome that the invariant ties to the error registers. -/
theorem State.Inv.issue {s : State} (h : s.Inv) (v : Word) : (s.setRegs (s.regs.issue v)).Inv where
  memory := h.memory
  outcome := by simp
  ending := h.ending
  quiet := by simp
  code := by simp [errorNumbers]
  verdict := by simp
  profile := h.profile

/-- R24, R31: STATUS writes only clear flags; R38: a write to the geometry drops the profile; no other write meets the invariant. -/
theorem State.Inv.store {s : State} (h : s.Inv) (hbusy : s.regs.status.busy = false) (name : RegName) (v : Word) :
    (s.setRegs (s.regs.store name v)).Inv := by
  have hdropped : ∀ r : Regs, r.status = s.regs.dropProfile.status → r.errCode = s.regs.errCode →
      r.errInfo = s.regs.errInfo → (s.setRegs r).Inv := by
    intro r hstatus hcode hinfo
    exact
      { memory := h.memory
        outcome := by simpa [hstatus] using h.outcome
        ending := by simpa [hstatus] using h.ending
        quiet := by simp [hstatus, hbusy]
        code := by simpa [hcode] using h.code
        verdict := by simpa [hstatus, hcode, hinfo] using h.verdict
        profile := by simp [hstatus] }
  cases name with
  | status =>
    exact
      { memory := h.memory
        outcome := fun hd => h.outcome (by simp [Regs.store, Status.writeOneToClear] at hd; exact ⟨hd.1.1, hd.2.1⟩)
        ending := h.ending
        quiet := fun hb => absurd hb (by simp [Regs.store, Status.writeOneToClear, hbusy])
        code := h.code
        verdict := ⟨fun hd => h.verdict.1 (Bool.and_elim_left hd), fun he => h.verdict.2 (Bool.and_elim_left he)⟩
        profile := h.profile }
  | imgWidth => exact hdropped _ rfl rfl rfl
  | imgHeight => exact hdropped _ rfl rfl rfl
  | _ => exact h.congr h.memory rfl rfl rfl rfl rfl rfl rfl

theorem State.Inv.registerWrite {s : State} (h : s.Inv) (offset : Nat) (v : Word) : (registerWrite offset v s).Inv := by
  unfold Machine.registerWrite
  split_ifs with hreset hbusy
  · exact h.resetEngine
  · exact ⟨h.memory, h.outcome, h.ending, h.quiet, h.code, h.verdict, h.profile⟩
  · split
    · exact h
    · exact h.issue v
    · exact h.store (by simpa using hbusy) _ v

theorem State.Inv.hostEffect {s t : State} (h : s.Inv) (he : HostEffect s t.regs t.mem) : t.Inv := by
  generalize hr : t.regs = r, hm : t.mem = m at he
  cases he with
  | nothing => exact h.of_regs_eq (hm ▸ h.memory) hr
  | store a b => exact h.of_regs_eq (hm ▸ Memory.wf_write a b h.memory) hr
  | reset => exact h.resetEngine.of_regs_eq (hm ▸ h.resetEngine.memory) hr
  | write offset v => exact (h.registerWrite offset v).of_regs_eq (hm ▸ (h.registerWrite offset v).memory) hr

/-! ## The invariant and the commands -/

/-- A relation that does not look at the registers is kept by every command's updates. -/
theorem Stable.updatesOf_of_all {R : State → State → Prop} (h : ∀ s r, R s (s.setRegs r)) (i : Instr) : updatesOf R i := by
  have reading : KeptByReading R := ⟨fun _ _ _ _ s => h s _, fun _ s => h s _⟩
  have parsing : KeptByParsing R :=
    ⟨reading, fun _ s => h s _, fun _ s => h s _, fun s => h s _, fun s => h s _, fun s => h s _⟩
  cases i with
  | checkSig => exact trivial
  | parseInit => exact fun s => h s _
  | parseNext => exact parsing
  | parseAll => exact parsing
  | hdrCheck => exact ⟨reading, fun s => h s _, fun _ s => h s _, fun _ _ s => h s _⟩
  | paeth => exact fun s _ => h s _
  | reconByte ft => exact fun s _ => h s _
  | filtByte ft => exact fun s _ => h s _
  | reconRow first => exact fun _ s => h s _
  | filtRow ft first => exact fun _ s => h s _
  | decodeImage => exact fun _ s => h s _
  | isolate ch => exact fun _ s => h s _
  | assemble => exact ⟨reading, fun _ s => h s _⟩

/-- R62: every command keeps the canonical form of memory. -/
theorem keeps_memory_wf (i : Instr) : (bodyOf i).Keeps (fun s t => s.mem.wf = true → t.mem.wf = true) :=
  Stable.body ⟨fun _ h => h, fun _ _ _ h1 h2 h => h2 (h1 h), fun _ a bs h => Memory.wf_writeN bs a h⟩
    (Stable.updatesOf_of_all (fun _ _ h => h) i)

/-! ### The end of the sequence (R35, R36) -/

/-- R36: IEND and EXHAUSTED are not both 1. -/
def State.EndsOneWay (s : State) : Prop := ¬ (s.regs.status.iend = true ∧ s.regs.status.exhausted = true)

/-- Only the end of the stream sets EXHAUSTED: reading and handling a chunk leaves it alone. -/
theorem keeps_exhausted_of_chunk (off : Nat) :
    (readChunk off >>= handleChunk off).Keeps (fun s t => t.regs.status.exhausted = s.regs.status.exhausted) := by
  have st : Stable (fun s t : State => t.regs.status.exhausted = s.regs.status.exhausted) :=
    ⟨fun _ => rfl, fun _ _ _ h1 h2 => h2.trans h1, fun _ _ _ => rfl⟩
  have reading : KeptByReading (fun s t : State => t.regs.status.exhausted = s.regs.status.exhausted) :=
    ⟨fun _ _ _ _ _ => rfl, fun _ _ => rfl⟩
  have update : ∀ f : Regs → Regs, (∀ r, (f r).status.exhausted = r.status.exhausted) →
      (modifyRegs f).Keeps (fun s t => t.regs.status.exhausted = s.regs.status.exhausted) :=
    fun f h => keeps_modifyRegs fun s => h s.regs
  have append : ∀ c, (appendPayload c).Keeps (fun s t => t.regs.status.exhausted = s.regs.status.exhausted) := fun c =>
    st.get_bind fun _ => Engine.keeps_bind st.trans (st.checkCapacity _ _) fun _ =>
      Engine.keeps_bind st.trans (st.memWrite _ _) fun _ => update _ fun _ => rfl
  refine Engine.keeps_bind st.trans (st.readChunk reading off) fun c => Engine.keeps_ite ?accept ?skip
  case accept =>
    refine Engine.keeps_bind st.trans (st.onlyIf _ (append c)) fun _ => ?_
    refine Engine.keeps_bind st.trans (update _ fun _ => rfl) fun _ => ?_
    exact Engine.keeps_bind st.trans (update _ fun _ => rfl) fun _ => st.onlyIf _ (update _ fun _ => rfl)
  case skip => exact Engine.keeps_bind st.trans (Stable.onMismatch reading _) fun _ => update _ fun _ => rfl

/-- R105: a ParseStep, which runs while neither flag is set, sets at most one of them. -/
theorem parseStep_endsOneWay {s : State} (h : s.regs.sequenceEnded = false) :
    parseStep.wp s (fun _ t => t.EndsOneWay) (fun _ t => t.EndsOneWay) := by
  obtain ⟨hi, he⟩ := Bool.or_eq_false_iff.1 h
  unfold Engine.wp
  by_cases hend : s.regs.parseOff.toNat = s.regs.srcLen.toNat
  · rw [parseStep_atEnd hend]
    exact fun hboth => absurd (hi.symm.trans hboth.1) (by decide)
  · rw [parseStep_inside hend]
    have hkept : ∀ t : State, t.regs.status.exhausted = s.regs.status.exhausted → t.EndsOneWay :=
      fun t ht hboth => absurd ((ht.trans he).symm.trans hboth.2) (by decide)
    exact Engine.wp_mono (keeps_exhausted_of_chunk s.regs.parseOff.toNat s) (fun _ => hkept) (fun _ => hkept)

/-- R107: so does every ParseStep of the walk. -/
theorem keeps_endsOneWay_parseLoop (n : Nat) : (parseLoop n).Keeps (fun s t => s.EndsOneWay → t.EndsOneWay) := by
  induction n with
  | zero => exact fun _ h => h
  | succ n ih =>
    intro s
    unfold Engine.wp
    cases hs : s.regs.sequenceEnded with
    | true => rw [parseLoop_ended hs]; exact id
    | false =>
      rw [parseLoop_next hs]
      refine (Engine.wp_bind _ _ _).2 (Engine.wp_mono (parseStep_endsOneWay hs) (fun _ t ht => ?_) fun _ _ ht _ => ht)
      exact Engine.wp_mono (ih t) (fun _ _ hu _ => hu ht) (fun _ _ hu _ => hu ht)

theorem keeps_endsOneWay_parseNext :
    ((get : Engine State) >>= fun s => if s.regs.sequenceEnded then pure () else parseStep).Keeps
      (fun s t => s.EndsOneWay → t.EndsOneWay) := by
  intro s
  show Engine.wp (if s.regs.sequenceEnded then pure () else parseStep) s _ _
  cases hs : s.regs.sequenceEnded with
  | true => exact id
  | false => exact Engine.wp_mono (parseStep_endsOneWay hs) (fun _ _ ht _ => ht) (fun _ _ ht _ => ht)

/-- R36: the parser commands keep the two flags apart. -/
theorem keeps_endsOneWay {i : Instr} (hi : i ∈ parserCommands) : (bodyOf i).Keeps (fun s t => s.EndsOneWay → t.EndsOneWay) := by
  have st : Stable (fun s t : State => s.EndsOneWay → t.EndsOneWay) :=
    ⟨fun _ h => h, fun _ _ _ h1 h2 h => h2 (h1 h), fun _ _ _ h => h⟩
  have checks : ∀ j, (parserChecks j).Keeps (fun s t : State => s.EndsOneWay → t.EndsOneWay) := fun j =>
    Engine.keeps_bind st.trans (st.checkRegions j) fun _ => st.checkCursor
  simp only [parserCommands, List.mem_cons, List.not_mem_nil, or_false] at hi
  obtain rfl | rfl | rfl := hi
  · exact fun s _ hboth => by simp at hboth
  · exact Engine.keeps_bind st.trans (checks _) fun _ => keeps_endsOneWay_parseNext
  · exact Engine.keeps_bind st.trans (checks _) fun _ => st.get_bind fun _ => keeps_endsOneWay_parseLoop _

/-! ### The profile (R123) -/

/-- R123: PROF_VALID stands for the supported profile. -/
def State.ProfileLaw (s : State) : Prop := s.regs.status.profValid = true →
  s.regs.imgWidth ≠ 0 ∧ s.regs.imgHeight ≠ 0 ∧ s.regs.hdrFields = 0x00000208 ∧ s.regs.hdrInterlace = 0

theorem State.ProfileLaw.of_dropped {s : State} (h : s.regs.status.profValid = false) : s.ProfileLaw :=
  fun hp => absurd (h.symm.trans hp) (by decide)

/-- R122: header data without an error has the supported profile's values. -/
theorem headerFieldError_eq_none_iff (data : List Byte) : headerFieldError data = none ↔
    (be32 data 0 ≠ 0 ∧ be32 data 4 ≠ 0) ∧ data.getD 8 0 = 8 ∧ data.getD 9 0 = 2 ∧ data.getD 10 0 = 0 ∧
      data.getD 11 0 = 0 ∧ data.getD 12 0 = 0 := by
  simp [headerFieldError, ite_eq_iff]

theorem Chunk.headerError_eq_none_iff (k : Chunk) :
    k.headerError = none ↔ k.IsHeader ∧ headerFieldError k.data = none := by
  simp [Chunk.headerError, Chunk.IsHeader, ite_eq_iff, and_assoc]

/-- R121: a chunk without an error is captured and loaded. -/
theorem acceptHeader_loads {k : Chunk} (h : k.headerError = none) (s : State) :
    acceptHeader k s = .ok () (s.setRegs ((s.regs.captureHeader k.data).loadProfile (be32 k.data 0) (be32 k.data 4))) := by
  obtain ⟨⟨htyp, hlen⟩, hfields⟩ := k.headerError_eq_none_iff.1 h
  obtain ⟨⟨hw, hh⟩, h8, h9, h10, h11, h12⟩ := (headerFieldError_eq_none_iff _).1 hfields
  have hcheck : ∀ t, checkHeaderFields k.data t = .ok () t := fun t => by
    simp only [checkHeaderFields, require_bind, require_apply, h8, h9, h10, h11, h12]
    simp [hw, hh]
  unfold acceptHeader
  rw [require_bind, if_pos (by simpa using htyp), require_bind, if_pos (by simpa using hlen), modifyRegs_bind,
    Engine.bind_ok (hcheck _)]
  rfl

/-- R54: HDR_FIELDS of the supported profile. -/
theorem headerFields_supported {data : List Byte} (h : headerFieldError data = none) : headerFields data = 0x00000208 := by
  obtain ⟨-, h8, h9, h10, h11, -⟩ := (headerFieldError_eq_none_iff _).1 h
  rw [headerFields, h8, h9, h10, h11]
  rfl

theorem word_ne_zero {n : Nat} (h0 : n ≠ 0) (h : n < 2 ^ 32) : (BitVec.ofNat 32 n : Word) ≠ 0 := fun he =>
  h0 ((word_toNat h).symm.trans (congrArg BitVec.toNat he))

/-- R121, R123: on a good first chunk HDR_CHECK loads the supported profile or leaves PROF_VALID 0. -/
theorem acceptHeader_profile {s : State} (h : s.regs.status.profValid = false) (k : Chunk) :
    (acceptHeader k).wp s (fun _ t => t.ProfileLaw) (fun _ t => t.ProfileLaw) := by
  unfold Engine.wp
  cases he : k.headerError with
  | none =>
    have hfields := (k.headerError_eq_none_iff.1 he).2
    obtain ⟨⟨hw, hh⟩, -, -, -, -, hinterlace⟩ := (headerFieldError_eq_none_iff _).1 hfields
    rw [acceptHeader_loads he]
    exact fun _ => ⟨word_ne_zero hw (be32_lt _ _), word_ne_zero hh (be32_lt _ _), headerFields_supported hfields, hinterlace⟩
  | some e =>
    rw [acceptHeader_raises he]
    refine State.ProfileLaw.of_dropped ?_
    split_ifs <;> exact h

/-- A piece that keeps a relation, followed by one that is right in every state so related. -/
theorem Engine.wp_bind_of_keeps {α β : Type} {R : State → State → Prop} {x : Engine α} {f : α → Engine β} {s : State}
    {Q : β → State → Prop} {E : Stop → State → Prop} (hx : x.Keeps R) (hf : ∀ a t, R s t → (f a).wp t Q E)
    (hE : ∀ e t, R s t → E e t) : (x >>= f).wp s Q E :=
  (Engine.wp_bind _ _ _).2 (Engine.wp_mono (hx s) hf hE)

/-- R38: PROF_VALID stays 0. -/
def StaysDropped (s t : State) : Prop := s.regs.status.profValid = false → t.regs.status.profValid = false

theorem StaysDropped.stable : Stable StaysDropped := ⟨fun _ h => h, fun _ _ _ h1 h2 h => h2 (h1 h), fun _ _ _ h => h⟩

theorem StaysDropped.reading : KeptByReading StaysDropped := ⟨fun _ _ _ _ _ h => h, fun _ _ h => h⟩

/-- R38, R123: HDR_CHECK begins by dropping the profile, and only a supported header brings it back. -/
theorem hdrCheckBody_profile (s : State) : hdrCheckBody.wp s (fun _ t => t.ProfileLaw) (fun _ t => t.ProfileLaw) := by
  have st := StaysDropped.stable
  have law : ∀ {s t : State}, s.regs.status.profValid = false → StaysDropped s t → t.ProfileLaw :=
    fun hs ht => State.ProfileLaw.of_dropped (ht hs)
  unfold hdrCheckBody
  refine (Engine.wp_bind _ _ _).2 ((wp_modifyRegs _ _ _).2 ?_)
  have h0 : (s.setRegs s.regs.dropProfile).regs.status.profValid = false := rfl
  refine Engine.wp_bind_of_keeps (st.checkRegions _) (fun _ s1 h1 => ?_) fun _ _ => law h0
  refine Engine.wp_bind_of_keeps st.checkStream (fun _ s2 h2 => ?_) fun _ _ => law (h1 h0)
  refine (Engine.wp_bind _ _ _).2 ((Engine.wp_get _ _).2 ?_)
  refine Engine.wp_bind_of_keeps (keeps_require st.refl _ _ _) (fun _ s3 h3 => ?_) fun _ _ => law (h2 (h1 h0))
  refine Engine.wp_bind_of_keeps (st.readChunk StaysDropped.reading 8) (fun c s4 h4 => ?_) fun _ _ => law (h3 (h2 (h1 h0)))
  have hd : s4.regs.status.profValid = false := h4 (h3 (h2 (h1 h0)))
  refine (Engine.wp_ite _ _ _ _).2 ⟨fun _ => acceptHeader_profile hd c, fun _ => ?_⟩
  exact Engine.wp_bind_of_keeps (Stable.onMismatch StaysDropped.reading _) (fun _ _ => law hd) fun _ _ => law hd

/-! ### Every command -/

/-- A property of states that however the pseudocode of a command ends, and that does not look at the outcome, holds after it. -/
theorem exec_next_of_wp {i : Instr} {s t : State} {P : State → Prop} (w : (bodyOf i).wp s (fun _ u => P u) (fun _ u => P u))
    (hcomplete : ∀ u, P u → P (complete u)) (hraise : ∀ c info u, P u → P (raiseError c info u))
    (h : exec i s = .next t) : P t := by
  rw [exec_eq_runCommand] at h
  obtain ⟨u, hu, rfl | ⟨c, info, rfl⟩⟩ := runCommand_wp (Engine.wp_mono w (fun _ _ hu => hu) (fun _ _ hu _ => hu)) h
  · exact hcomplete u hu
  · exact hraise c info u hu

theorem exec_endsOneWay {i : Instr} {s t : State} (hs : s.EndsOneWay) (h : exec i s = .next t) : t.EndsOneWay := by
  by_cases hi : i ∈ parserCommands
  · exact exec_next_of_wp (P := State.EndsOneWay)
      (Engine.wp_mono (keeps_endsOneWay hi s) (fun _ _ hu => hu hs) (fun _ _ hu => hu hs)) (fun _ hu => hu) (fun _ _ _ hu => hu) h
  · obtain ⟨-, -, -, hkept, -⟩ := commandsKeepTheOtherRegisters i s t h
    obtain ⟨hiend, hexh⟩ := hkept hi
    unfold State.EndsOneWay
    rw [hiend, hexh]
    exact hs

theorem exec_profileLaw {i : Instr} {s t : State} (hs : s.ProfileLaw) (h : exec i s = .next t) : t.ProfileLaw := by
  by_cases hi : i = .hdrCheck
  · subst hi
    exact exec_next_of_wp (i := .hdrCheck) (P := State.ProfileLaw) (hdrCheckBody_profile s) (fun _ hu => hu) (fun _ _ _ hu => hu) h
  · obtain ⟨u, hframe, -, hend⟩ := exec_next h
    have hkept : ∀ name ∈ [RegName.imgWidth, .imgHeight, .hdrFields, .hdrInterlace], u.regs.value name = s.regs.value name := by
      intro name hname
      refine hframe.value name (by rintro rfl; simp at hname) ?_
      revert name
      cases i <;> simp [registersWritten] at hi ⊢
    have hu : u.ProfileLaw := by
      have hw : u.regs.imgWidth = s.regs.imgWidth := hkept .imgWidth (by decide)
      have hh : u.regs.imgHeight = s.regs.imgHeight := hkept .imgHeight (by decide)
      have hf : u.regs.hdrFields = s.regs.hdrFields := hkept .hdrFields (by decide)
      have hl : u.regs.hdrInterlace.setWidth 32 = s.regs.hdrInterlace.setWidth 32 := hkept .hdrInterlace (by decide)
      have hl' : u.regs.hdrInterlace = s.regs.hdrInterlace := by simpa using congrArg (BitVec.setWidth 8) hl
      unfold State.ProfileLaw
      rw [hframe.profValid hi, hw, hh, hf, hl']
      exact hs
    obtain rfl | ⟨c, info, rfl⟩ := hend
    · exact hu
    · exact hu

/-- R180: every code the PSCE raises is one that ERR_CODE may hold, and none of them is 0. -/
theorem raised_code_legal : ∀ b ∈ ([1, 2, 3, 4, 5, 6, 16, 17, 18, 19, 20, 21] : List Byte), b ∈ errorNumbers ∧ b ≠ 0 := by
  decide

/-- R183 to R185: a command that was outstanding ends with the invariant. -/
theorem State.Inv.exec {i : Instr} {s t : State} (h : s.Inv) (hbusy : s.regs.status.busy = true)
    (he : exec i s = .next t) : t.Inv := by
  obtain ⟨-, -, hcode0, hinfo0⟩ := h.quiet hbusy
  obtain ⟨hidle, hone, herror, hdone⟩ := completionSetsExactlyOneOutcome i s t he
  have hfresh : t.regs.status.done = true → t.regs.errCode = 0 ∧ t.regs.errInfo = 0 := fun hd => by
    rw [(hdone hd).1, (hdone hd).2]
    exact ⟨hcode0, hinfo0⟩
  exact
    { memory := exec_next_of_wp (P := fun u => u.mem.wf = true)
        (Engine.wp_mono (keeps_memory_wf i s) (fun _ _ hu => hu h.memory) (fun _ _ hu => hu h.memory)) (fun _ hu => hu)
        (fun _ _ _ hu => hu) he
      outcome := fun hboth => hone (hboth.1.trans hboth.2.symm)
      ending := exec_endsOneWay h.ending he
      quiet := fun hb => absurd (hidle.symm.trans hb) (by decide)
      code := by
        cases hd : t.regs.status.done with
        | true => rw [(hfresh hd).1]; decide
        | false =>
          have herr : t.regs.status.error = true := by
            cases he : t.regs.status.error with
            | true => rfl
            | false => exact absurd (hd.trans he.symm) hone
          exact (raised_code_legal _ (herror herr)).1
      verdict := ⟨hfresh, fun he => (raised_code_legal _ (herror he)).2⟩
      profile := exec_profileLaw h.profile he }

/-- R83, R88: the Engine's move keeps the invariant, whether the outstanding word is legal or not. -/
theorem State.Inv.engineStep {s t : State} {w : Word} (h : s.Inv) (hbusy : s.regs.status.busy = true)
    (he : engineStep w s = .next t) : t.Inv := by
  rw [engineStep_eq] at he
  cases hd : decodeWord w with
  | some i => rw [hd] at he; exact h.exec hbusy he
  | none =>
    rw [hd] at he
    cases he
    exact
      { memory := h.memory
        outcome := by simp
        ending := h.ending
        quiet := by simp
        code := (raised_code_legal _ (ErrCode.number_mem .illegalCommand)).1
        verdict := ⟨by simp, fun _ => (raised_code_legal _ (ErrCode.number_mem .illegalCommand)).2⟩
        profile := h.profile }

/-- Settles O58: a host statement has one of four effects, and the Engine ends the outstanding command. -/
theorem everyStepKeepsTheInvariant : Obligations.EveryStepKeepsTheInvariant := by
  intro s t h he
  have hmoved : ∀ later, ({ s with schedule := later } : State).Inv := fun later => h.of_regs_eq h.memory rfl
  obtain rfl | ⟨op, rest, later, he⟩ | ⟨w, later, hout, he⟩ := step_next he
  · exact h
  · exact (hmoved later).hostEffect (hostStep_next he).1
  · have hbusy : s.regs.status.busy = true := by
      by_contra hb
      rw [State.outstanding, if_neg hb] at hout
      cases hout
    exact (hmoved later).engineStep hbusy he

end Sys2Proof.Machine
end

section
/-! Steps of the Engine and of the host (R20, R40, R83, R94, R204, R214), and the statements they settle. -/

namespace Sys2Proof.Machine

/-! ## The Engine's move -/

/-- R214: where the schedule does not name the host, or the host has no statement left, the Engine moves. -/
theorem step_engine {s : State} {w : Word} (ho : s.outstanding = some w)
    (hmove : s.schedule.head? ≠ some .host ∨ s.program = []) :
    step s = engineStep w { s with schedule := s.schedule.tail } := by
  unfold step
  rw [ho]
  dsimp only
  split
  · next hs hp => rcases hmove with h | h <;> simp [hs, hp] at h
  · rfl

/-- R214: where the schedule names the host and the host has a statement, the host moves. -/
theorem step_host {s : State} {w : Word} {op : HostOp} {rest : List HostOp} {later : List Agent}
    (ho : s.outstanding = some w) (hp : s.program = op :: rest) (hs : s.schedule = .host :: later) :
    step s = hostStep op rest { s with schedule := later } := by
  unfold step
  rw [ho, hs, hp]

/-- Settles O18: the Engine's move decodes the outstanding word. -/
theorem stepRunsTheDecodedCommand : Obligations.StepRunsTheDecodedCommand := by
  intro s w i ho hd hmove
  rw [step_engine ho hmove, engineStep_eq, hd]

/-- Settles O19: the Engine's move on an illegal word is its error completion. -/
theorem illegalWordEndsWithIllegalCommand : Obligations.IllegalWordEndsWithIllegalCommand := by
  intro s w ho hd hmove
  rw [step_engine ho hmove, engineStep_eq, hd]
  rfl

/-! ## The host's statements -/

/-- R94, R216: a Codec Bridge call whose source is present goes on to store its bytes. -/
theorem hostStep_codec_present {call : CodecCall} {src n dst : Nat} {out : List Byte} {rest : List HostOp} {s : State}
    (h : ∀ i, i < n → s.platform.holds (src + i) = true) :
    hostStep (.codec call src n dst out) rest s = .next { s with program := .store dst out :: rest } :=
  if_pos ((s.platform.holdsAll_iff src n).2 h)

theorem hostStep_codec_absent {call : CodecCall} {src n dst : Nat} {out : List Byte} {rest : List HostOp} {s : State}
    (h : ∃ i, i < n ∧ s.platform.holds (src + i) = false) :
    hostStep (.codec call src n dst out) rest s = .refused .absentHostMemory := by
  obtain ⟨i, hi, ha⟩ := h
  refine if_neg fun hall => ?_
  rw [(s.platform.holdsAll_iff src n).1 hall i hi] at ha
  cases ha

/-- R72, R94: an idle machine's `MEM` statement stores its bytes, one a move, and one more move ends it. -/
theorem run_store_idle (bs : List Byte) : ∀ {s : State} {addr : Nat} {rest : List HostOp}, s.outstanding = none →
    s.program = .store addr bs :: rest → (∀ i, i < bs.length → s.platform.holds (addr + i) = true) →
    Host.Core.run core (bs.length + 1) s = .next { s with program := rest, mem := s.mem.writeN addr bs } := by
  induction bs with
  | nil =>
    intro s addr rest ho hp _
    exact run_next 0 (step_idle ho hp)
  | cons b bs ih =>
    intro s addr rest ho hp hheld
    have hstep : step s = .next { s with program := .store (addr + 1) bs :: rest, mem := s.mem.write addr b } :=
      (step_idle ho hp).trans (hostStore_idle (s := { s with program := .store (addr + 1) bs :: rest }) ho (hheld 0 (by simp)))
    have hrest : ∀ i, i < bs.length → s.platform.holds (addr + 1 + i) = true := fun i hi => by
      rw [Nat.add_assoc]
      exact hheld (1 + i) (by simp; omega)
    exact (run_next (bs.length + 1) hstep).trans (ih ho rfl hrest)

/-- Settles O20: `step` and `hostStep` clause by clause, and the run of a `MEM` statement. -/
theorem hostMovesOneStatementAStep : Obligations.HostMovesOneStatementAStep := by
  intro s
  refine ⟨fun ho hp => ?idle, fun op rest ho hp => step_idle ho hp, fun w op rest later ho hp hs => step_host ho hp hs,
    fun _ _ => rfl, fun _ _ _ _ => rfl, fun _ _ => rfl,
    fun call src n dst out rest => ⟨hostStep_codec_present, hostStep_codec_absent⟩, fun addr bs rest ho hp hheld => ?store⟩
  case idle => simp only [step, ho, hp]
  case store => exact ⟨_, run_store_idle bs ho hp hheld, fun a => Memory.read_writeN bs s.mem addr a⟩

/-! ## WAIT -/

theorem State.outstanding_eq_some {s : State} {w : Word} (h : s.outstanding = some w) :
    s.regs.status.busy = true ∧ s.regs.cmd = w := by
  unfold State.outstanding at h
  split_ifs at h with hb
  exact ⟨hb, Option.some.inj h⟩

theorem State.busy_of_idle {s : State} (h : s.outstanding = none) : s.regs.status.busy = false := by
  unfold State.outstanding at h
  split_ifs at h with hb
  simpa using hb

theorem registerRead_program (offset : Nat) (s : State) : (registerRead offset s).program = s.program := by
  unfold registerRead
  split <;> rfl

theorem registerRead_schedule (offset : Nat) (s : State) : (registerRead offset s).schedule = s.schedule := by
  unfold registerRead
  split <;> rfl

/-- R94: while BUSY is 1 a `WAIT` reads STATUS and stays in the program. -/
theorem hostStep_wait_busy {rest : List HostOp} {s : State} (h : s.regs.status.busy = true) :
    hostStep .wait rest s = .next (registerRead 0x04 s) := by
  simp only [hostStep, h, if_true]

theorem hostStep_wait_idle {rest : List HostOp} {s : State} (h : s.regs.status.busy = false) :
    hostStep .wait rest s = .next { registerRead 0x04 s with program := rest } := by
  simp [hostStep, h]

/-- R23, R61: with no command outstanding nothing is drawn. -/
theorem State.drawnBitsAt_of_idle {s : State} (h : s.outstanding = none) (offset : Nat) : s.drawnBitsAt offset = 0 := by
  simp only [State.drawnBitsAt, h]

theorem registerRead_of_idle {s : State} (h : s.outstanding = none) (offset : Nat) :
    registerRead offset s = { s with readData := s.regs.valueAt offset } :=
  if_pos (s.drawnBitsAt_of_idle h offset)

/-- R94, R214: one host move of a `WAIT` while BUSY is 1 spends its entry of the schedule and leaves the program as it is. -/
theorem step_wait_busy {s : State} {w : Word} {rest : List HostOp} {later : List Agent} (ho : s.outstanding = some w)
    (hp : s.program = .wait :: rest) (hs : s.schedule = .host :: later) :
    ∃ t, step s = .next t ∧ t.regs = s.regs ∧ t.mem = s.mem ∧ t.program = s.program ∧ t.schedule = later :=
  ⟨registerRead 0x04 { s with schedule := later },
    (step_host ho hp hs).trans (hostStep_wait_busy (State.outstanding_eq_some ho).1), registerRead_regs _ _,
    registerRead_mem _ _, registerRead_program _ _, registerRead_schedule _ _⟩

/-- R94, R214: a `WAIT` takes as many host moves as the schedule grants before the Engine's. -/
theorem run_wait_busy (k : Nat) : ∀ {s : State} {w : Word} {rest : List HostOp} {later : List Agent},
    s.outstanding = some w → s.program = .wait :: rest → s.schedule = List.replicate k .host ++ .engine :: later →
    ∃ t, Host.Core.run core k s = .next t ∧ t.regs = s.regs ∧ t.mem = s.mem ∧ t.program = s.program ∧
      t.schedule = .engine :: later := by
  induction k with
  | zero => exact fun {s} _ _ _ _ _ hs => ⟨s, rfl, rfl, rfl, rfl, hs⟩
  | succ k ih =>
    intro s w rest later ho hp hs
    obtain ⟨u, hstep, hregs, hmem, hprog, hsched⟩ := step_wait_busy ho hp hs
    have hou : u.outstanding = some w := by rw [State.outstanding, hregs]; exact ho
    obtain ⟨t, hrun, htregs, htmem, htprog, htsched⟩ := ih hou (hprog.trans hp) hsched
    exact ⟨t, (run_next k hstep).trans hrun, htregs.trans hregs, htmem.trans hmem, htprog.trans hprog, htsched⟩

/-- Settles O21, by induction on the number of host moves before the Engine's. -/
theorem waitRepeatsUntilTheEngineMoves : Obligations.WaitRepeatsUntilTheEngineMoves := by
  refine ⟨fun k s w rest later => run_wait_busy k, fun s rest ho hp => ?_⟩
  rw [step_idle ho hp, hostStep_wait_idle (State.busy_of_idle ho), registerRead_of_idle ho]
  rfl

end Sys2Proof.Machine
end

section
/-! The register map by number, host register accesses while a command is outstanding or not, the draws of an aborted command
(R22 to R26, R31, R39, R61, R189, R200 to R202, R209), and the statements they settle. -/

namespace Sys2Proof.Machine

/-! ## Masks of register values -/

/-- A byte read back from the register that stores it (R55). -/
theorem setWidth_setWidth_byte (v : Word) : (v.setWidth 8).setWidth 32 = v &&& 0x000000FF := by
  have hmask : ∀ k < 32, (0x000000FF : Word).getLsbD k = decide (k < 8) := by decide
  refine BitVec.eq_of_getLsbD_eq fun k hk => ?_
  rw [BitVec.getLsbD_setWidth, BitVec.getLsbD_setWidth, BitVec.getLsbD_and, hmask k hk]
  simp [hk, Bool.and_comm]

/-- R25: CTRL reads back bits 1 to 4 of what was written. -/
theorem Ctrl.toWord_ofWord (v : Word) : (Ctrl.ofWord v).toWord = v &&& 0x0000001E := by
  have hmask : ∀ k < 32, (0x0000001E : Word).getLsbD k = (decide (k = 1) || decide (k = 2) || decide (k = 3) || decide (k = 4)) := by
    decide
  refine BitVec.eq_of_getLsbD_eq fun k hk => ?_
  rw [Ctrl.getLsbD_toWord, BitVec.getLsbD_and, hmask k hk]
  obtain rfl | rfl | rfl | rfl | hother : k = 1 ∨ k = 2 ∨ k = 3 ∨ k = 4 ∨ (k ≠ 1 ∧ k ≠ 2 ∧ k ≠ 3 ∧ k ≠ 4) := by omega
  · simp [Ctrl.ofWord]
  · simp [Ctrl.ofWord]
  · simp [Ctrl.ofWord]
  · simp [Ctrl.ofWord]
  · simp [hother]

/-- R38: without the profile STATUS reads with bit 6 clear. -/
theorem Regs.value_dropProfile_status (r : Regs) : r.dropProfile.value .status = r.value .status &&& 0xFFFFFFBF := by
  have hmask : ∀ k < 32, (0xFFFFFFBF : Word).getLsbD k = !decide (k = 6) := by decide
  refine BitVec.eq_of_getLsbD_eq fun k hk => ?_
  simp only [Regs.value, Regs.dropProfile, BitVec.getLsbD_and, Status.getLsbD_toWord, hmask k hk]
  by_cases h6 : k = 6
  · simp [h6]
  · simp [h6]

/-- R31: a write to STATUS clears bits 1, 2, 5 and 7 where it holds a 1. -/
theorem Status.toWord_writeOneToClear (t : Status) (v : Word) :
    (t.writeOneToClear v).toWord = t.toWord &&& ~~~(v &&& 0x000000A6) := by
  have hmask : ∀ k < 32, (0x000000A6 : Word).getLsbD k = (decide (k = 1) || decide (k = 2) || decide (k = 5) || decide (k = 7)) := by
    decide
  refine BitVec.eq_of_getLsbD_eq fun k hk => ?_
  simp only [Status.getLsbD_toWord, Status.writeOneToClear, BitVec.getLsbD_and, BitVec.getLsbD_not, hmask k hk, hk]
  obtain rfl | rfl | rfl | rfl | hother : k = 1 ∨ k = 2 ∨ k = 5 ∨ k = 7 ∨ (k ≠ 1 ∧ k ≠ 2 ∧ k ≠ 5 ∧ k ≠ 7) := by omega
  · simp
  · simp
  · simp
  · simp
  · simp [hother]

/-! ## Idle writes (R24) -/

/-- R24: an idle write that neither issues a command nor resets stores its value. -/
theorem registerWrite_of_idle {name : RegName} {s : State} {v : Word} (hidle : s.regs.status.busy = false)
    (hcmd : name ≠ .cmd) (hreset : name = .ctrl → v.getLsbD 0 = false) :
    registerWrite name.offset v s = s.setRegs (s.regs.store name v) := by
  rw [registerWrite_offset, if_neg, if_neg (by simp [hidle]), if_neg hcmd]
  rintro ⟨hctrl, hbit⟩
  rw [hreset hctrl] at hbit
  cases hbit

/-- R24: the registers that store nothing. -/
theorem Regs.store_readOnly (r : Regs) (v : Word) {name : RegName}
    (h : name ∈ [RegName.errCode, .errInfo, .outLen, .idatLen, .chunkCount, .corruptCount, .corruptType,
      .chOff, .chLen, .chType, .chCrc, .hdrFields, .hdrInterlace, .result]) : r.store name v = r := by
  cases name <;> simp [Regs.store] at h ⊢

/-- R24: a write to one register leaves the others alone, STATUS aside. -/
theorem Regs.value_store_other (r : Regs) (v : Word) {name other : RegName} (h : other ≠ name) (hs : other ≠ .status) :
    (r.store name v).value other = r.value other := by
  cases name <;> cases other <;> simp [Regs.store, Regs.value] at h hs ⊢

/-- R24, R38: what an idle write does to STATUS, if it is not to STATUS. -/
theorem Regs.value_status_store (r : Regs) (v : Word) {name : RegName} (hs : name ≠ .status) :
    (r.store name v).value .status =
      if name = .imgWidth ∨ name = .imgHeight then r.value .status &&& 0xFFFFFFBF else r.value .status := by
  cases name with
  | status => exact absurd rfl hs
  | imgWidth => exact r.value_dropProfile_status
  | imgHeight => exact r.value_dropProfile_status
  | _ => rfl

/-! ## Reads while a command is outstanding (R209) -/

theorem mixBits_zero (v d : Word) : mixBits v d 0 = v := by
  show (v &&& ~~~0#32) ||| (d &&& 0#32) = v
  rw [BitVec.and_zero, BitVec.or_zero, BitVec.not_zero, BitVec.and_allOnes]

/-- R61, R209: a read returns the value with the drawn bits taken from a draw. -/
theorem registerRead_readData (offset : Nat) (s : State) : (registerRead offset s).readData =
    mixBits (s.regs.valueAt offset) (Config.drawWord s.draws) (s.drawnBitsAt offset) := by
  unfold registerRead
  split_ifs with h
  · rw [h, mixBits_zero]
  · rfl

theorem State.drawnBitsAt_of_decodes {s : State} {w : Word} {i : Instr} (ho : s.outstanding = some w)
    (hd : decodeWord w = some i) (name : RegName) : s.drawnBitsAt name.offset = drawnBits i name := by
  simp only [State.drawnBitsAt, ho, registerAt_offset, hd]

theorem State.drawnBitsAt_of_illegal {s : State} {w : Word} (ho : s.outstanding = some w) (hd : decodeWord w = none)
    (name : RegName) : s.drawnBitsAt name.offset = 0 := by
  simp only [State.drawnBitsAt, ho, registerAt_offset, hd]

theorem registerRead_value_of_undrawn {s : State} {name : RegName} (h : s.drawnBitsAt name.offset = 0) :
    (registerRead name.offset s).readData = s.regs.value name := by
  rw [registerRead_readData_of_undrawn h, Regs.valueAt_offset]

theorem storedBits_eq (name : RegName) :
    storedBits name = if name = .result ∨ name = .hdrInterlace then 0x000000FF else 0xFFFFFFFF := by
  cases name <;> rfl

/-- R23, R54, R56: the bits that a register does not store read 0. -/
theorem Regs.value_and_unstored (r : Regs) (name : RegName) : r.value name &&& ~~~storedBits name = 0 := by
  by_cases hbyte : name = .result ∨ name = .hdrInterlace
  · have hmask : ∀ k < 32, (~~~(0x000000FF : Word)).getLsbD k = decide (8 ≤ k) := by decide
    rw [storedBits_eq, if_pos hbyte]
    refine BitVec.eq_of_getLsbD_eq fun k hk => ?_
    show _ = (0#32).getLsbD k
    rw [BitVec.getLsbD_and, hmask k hk, BitVec.getLsbD_zero, Bool.and_eq_false_iff]
    by_cases h8 : 8 ≤ k
    · exact .inl (r.getLsbD_value_of_byte (by rcases hbyte with rfl | rfl <;> simp) h8)
    · exact .inr (decide_eq_false h8)
  · rw [storedBits_eq, if_neg hbyte]
    exact BitVec.and_zero

/-- R209: no command's rule names STATUS among the registers it writes. -/
theorem status_notMem_registersWritten (i : Instr) : RegName.status ∉ registersWritten i := by
  cases i <;> simp [registersWritten]

/-- R209: a register that the running command may write reads as a draw of its stored bits. -/
theorem registerRead_of_mem_registersWritten {s : State} {w : Word} {i : Instr} {name : RegName}
    (ho : s.outstanding = some w) (hd : decodeWord w = some i) (hn : name ∈ registersWritten i) :
    (registerRead name.offset s).readData = Config.drawWord s.draws &&& storedBits name := by
  have hs : name ≠ .status := by rintro rfl; exact status_notMem_registersWritten i hn
  rw [registerRead_readData, State.drawnBitsAt_of_decodes ho hd, drawnBits, if_neg hs, if_pos hn, Regs.valueAt_offset,
    mixBits, Regs.value_and_unstored]
  exact BitVec.zero_or

/-- R209: a bit of STATUS reads as a draw where the running command may write it. -/
theorem registerRead_status_getLsbD {s : State} {w : Word} {i : Instr} (ho : s.outstanding = some w)
    (hd : decodeWord w = some i) {k : Nat} (hk : k < 32) :
    (registerRead RegName.status.offset s).readData.getLsbD k =
      if (statusBitsWritten i).getLsbD k then (Config.drawWord s.draws).getLsbD k
      else (s.regs.value .status).getLsbD k := by
  rw [registerRead_readData, State.drawnBitsAt_of_decodes ho hd, drawnBits, if_pos rfl, Regs.valueAt_offset, mixBits]
  simp only [BitVec.getLsbD_or, BitVec.getLsbD_and, BitVec.getLsbD_not, hk, decide_true, Bool.true_and]
  cases (statusBitsWritten i).getLsbD k <;> simp

/-! ## The draws of an aborted command (R202) -/

theorem resetEngine_of_written {s : State} {r : Region} (h : s.runningRegions.written = some r) :
    resetEngine s = { s with
      regs := Regs.reset
      mem := drawRegion s.platform s.mem r.base r.len s.draws
      draws := s.draws + r.len } := by
  simp only [resetEngine, h]

theorem resetEngine_of_unwritten {s : State} (h : s.runningRegions.written = none) :
    resetEngine s = s.setRegs Regs.reset := by
  simp only [resetEngine, h]

/-! ## The statements -/

/-- Settles O6: the reset puts a draw into each present byte of the written region, and leaves every other byte. -/
theorem abortedCommandLeavesDraws : Obligations.AbortedCommandLeavesDraws := by
  refine ⟨fun _ _ => rfl, fun s w ho => ?_⟩
  have hrun : s.runningRegions = regionsOfWord s.regs w := by simp only [State.runningRegions, ho]
  rw [← hrun]
  refine ⟨resetEngine_regs s, resetEngine_outstanding s, fun r hr => ?written, fun hr => ?unwritten⟩
  case unwritten => rw [resetEngine_of_unwritten hr, State.setRegs_mem]
  case written =>
    rw [resetEngine_of_written hr]
    refine ⟨fun a hin hheld => ?_, fun a hout => ?_, rfl⟩
    · obtain ⟨hlo, hhi⟩ := (r.contains_iff a).1 hin
      exact (drawRegion_read _ _ _ _ _ _).trans (if_pos ⟨hlo, hhi, hheld⟩)
    · refine (drawRegion_read _ _ _ _ _ _).trans (if_neg fun ⟨hlo, hhi, _⟩ => ?_)
      rw [(r.contains_iff a).2 ⟨hlo, hhi⟩] at hout
      cases hout

/-- Settles O8, for the offsets of registers and for the reserved ones. -/
theorem busyWritesAreDropped : Obligations.BusyWritesAreDropped := by
  intro s offset v hbusy _ hal hreset
  by_cases hlt : offset < 0x78
  · obtain ⟨name, rfl⟩ := exists_offset_eq hlt hal
    rw [registerWrite_offset, if_neg, if_pos hbusy]
    · rfl
    · rintro ⟨rfl, hbit⟩
      exact hreset ⟨rfl, hbit⟩
  · rw [registerWrite_of_reserved (by omega), if_pos hbusy]
    rfl

/-- R24: an idle write to a read-write register, as its readers see it. -/
theorem writable_stores (s : State) (v : Word) (hidle : s.regs.status.busy = false) :
    (∀ name ∈ [RegName.srcAddr, .srcLen, .dstAddr, .dstLen, .auxAddr, .auxLen, .imgWidth, .imgHeight, .parseOff],
      (registerWrite name.offset v s).regs.value name = v) ∧
    (∀ name ∈ [RegName.byteA, .byteB, .byteC, .byteX],
      (registerWrite name.offset v s).regs.value name = v &&& 0x000000FF) ∧
    (v.getLsbD 0 = false → (registerWrite 0x00 v s).regs.value .ctrl = v &&& 0x0000001E) := by
  refine ⟨fun name hname => ?word, fun name hname => ?byte, fun hbit => ?ctrl⟩
  case word =>
    rw [registerWrite_of_idle hidle (by rintro rfl; simp at hname) (by rintro rfl; simp at hname)]
    cases name <;> simp [Regs.store, Regs.value] at hname ⊢
  case byte =>
    rw [registerWrite_of_idle hidle (by rintro rfl; simp at hname) (by rintro rfl; simp at hname)]
    cases name <;> simp only [List.mem_cons, reduceCtorEq, List.not_mem_nil, or_self, or_false, or_true] at hname
    all_goals exact setWidth_setWidth_byte v
  case ctrl =>
    have hwrite : registerWrite 0x00 v s = s.setRegs (s.regs.store .ctrl v) :=
      registerWrite_of_idle (name := .ctrl) hidle (by decide) fun _ => hbit
    rw [hwrite]
    exact Ctrl.toWord_ofWord v

/-- Settles O9: the map by number, the bits of the two flag registers, and what an idle write stores and keeps. -/
theorem writableRegistersStoreTheValue : Obligations.WritableRegistersStoreTheValue := by
  refine ⟨fun name => ⟨by cases name <;> rfl, registerAt_offset name, fun r => ⟨r.valueAt_offset name, fun hc hs => ?value⟩⟩,
    fun r k hk => ⟨?ctrlBits, ?statusBits⟩, fun s v hidle => ?write⟩
  case value =>
    cases name with
    | ctrl => exact absurd rfl hc
    | status => exact absurd rfl hs
    | _ => rfl
  case ctrlBits =>
    refine (r.ctrl.getLsbD_toWord k).trans ?_
    interval_cases k <;> simp
  case statusBits =>
    refine (r.status.getLsbD_toWord k).trans ?_
    interval_cases k <;> simp
  case write =>
    obtain ⟨hword, hbyte, hctrl⟩ := writable_stores s v hidle
    refine ⟨hword, hbyte, hctrl, fun name hname hreset => ?_⟩
    have hs : name ≠ .status := by rintro rfl; simp at hname
    rw [registerWrite_of_idle hidle (by rintro rfl; simp at hname) hreset]
    exact ⟨fun other h hos => s.regs.value_store_other v h hos, s.regs.value_status_store v hs, rfl⟩

/-- Settles O10: an idle write stores what a read-only register stores, nothing. -/
theorem readOnlyRegistersIgnoreWrites : Obligations.ReadOnlyRegistersIgnoreWrites := by
  intro s v hidle name hname
  rw [registerWrite_of_idle hidle (by rintro rfl; simp at hname) (by rintro rfl; simp at hname),
    Regs.store_readOnly _ _ hname, State.setRegs_self]

/-- Settles O11: an idle write to STATUS is the write-1-to-clear rule, bit by bit. -/
theorem statusWritesClearOnlyTheirBits : Obligations.StatusWritesClearOnlyTheirBits := by
  intro s v hidle
  have hwrite : registerWrite 0x04 v s = s.setRegs (s.regs.store .status v) :=
    registerWrite_of_idle (name := .status) hidle (by decide) (by simp)
  rw [hwrite]
  exact ⟨Status.toWord_writeOneToClear _ v, fun other h => s.regs.value_store_other v h h, rfl⟩

/-- Settles O13: the offset of an access is defined for exactly those the block takes. -/
theorem onlyAlignedWordAccessesAreAccepted : Obligations.OnlyAlignedWordAccessesAreAccepted := by
  intro s rest addr size v
  constructor
  · rintro ⟨hsize, hbase, htop, hal⟩
    have hoff : registerOffset s.platform addr size = some (addr - s.platform.engineBase) :=
      if_pos ⟨hsize, hbase, by omega, hal⟩
    simp only [hostStep, hoff]
    exact ⟨trivial, trivial⟩
  · intro hnot
    have hoff : registerOffset s.platform addr size = none :=
      if_neg fun ⟨hsize, hbase, htop, hal⟩ => hnot ⟨hsize, hbase, by omega, hal⟩
    simp only [hostStep, hoff]
    exact ⟨trivial, trivial⟩

/-- Settles O14: the drawn bits of a register are those the running command's rule may write. -/
theorem registerReadsReturnValuesOrDraws : Obligations.RegisterReadsReturnValuesOrDraws := by
  intro s name
  refine ⟨fun ho => registerRead_value_of_undrawn (s.drawnBitsAt_of_idle ho _), fun w ho =>
    ⟨fun hd => registerRead_value_of_undrawn (s.drawnBitsAt_of_illegal ho hd name), fun i drawn bits hd hdrawn hbits => ?_⟩⟩
  have hregs : drawn = registersWritten i := by rw [hdrawn]; cases i <;> rfl
  have hmask : ∀ k < 32, (statusBitsWritten i).getLsbD k = decide (k ∈ bits) := by
    rw [hbits]
    have none : ∀ k < 32, (0 : Word).getLsbD k = decide (k ∈ ([] : List Nat)) := by decide
    have parser : ∀ k < 32, (0x38 : Word).getLsbD k = decide (k ∈ [3, 4, 5]) := by decide
    cases i with
    | parseInit => exact parser
    | parseNext => exact parser
    | parseAll => exact parser
    | hdrCheck => exact (by decide : ∀ k < 32, (0x60 : Word).getLsbD k = decide (k ∈ [5, 6]))
    | assemble => exact (by decide : ∀ k < 32, (0x20 : Word).getLsbD k = decide (k ∈ [5]))
    | _ => exact none
  rw [hregs]
  refine ⟨fun hs hn => ?other, fun hn => ?drawn, fun hs k hk => ?status⟩
  case other =>
    exact registerRead_value_of_undrawn (by rw [s.drawnBitsAt_of_decodes ho hd, drawnBits, if_neg hs, if_neg hn])
  case drawn => rw [registerRead_of_mem_registersWritten ho hd hn, storedBits_eq]
  case status =>
    subst hs
    rw [registerRead_status_getLsbD ho hd hk, hmask k hk]
    simp only [decide_eq_true_eq]

/-- Settles O15: the three bits of CTRL and STATUS that IRQ is made of. -/
theorem interruptFollowsTheRegisters : Obligations.InterruptFollowsTheRegisters := by
  intro s
  simp only [State.irq, Regs.value, Ctrl.getLsbD_toWord, Status.getLsbD_toWord]
  simp

end Sys2Proof.Machine
end

section
/-! The errors a command raises before it does anything (R67 to R69, R89, R182 steps 1, 4 and 5), and the statements they settle. -/

namespace Sys2Proof.Machine

/-! ## Operand fields (R89) -/

theorem filterOperand_raises {ft : BitVec 3} (h : 4 < ft.toNat) (s : State) :
    filterOperand ft s = .error (.raised .illegalCommand s.regs.cmd) s := by
  rw [filterOperand_apply, FilterType.ofCode_none h]

/-- Settles O27: the operand is the first thing that each of these commands reads. -/
theorem restrictedFieldValuesAreIllegal : Obligations.RestrictedFieldValuesAreIllegal := by
  intro s
  refine ⟨fun ft h => ⟨?reconByte, ?filtByte, fun first => ?filtRow⟩, ?isolate⟩
  case reconByte => exact runCommand_raised (Engine.bind_error (filterOperand_raises h s))
  case filtByte => exact runCommand_raised (Engine.bind_error (filterOperand_raises h s))
  case filtRow => exact runCommand_raised (Engine.bind_error (filterOperand_raises h s))
  case isolate => exact runCommand_raised (body := isolateBody 3) (Engine.bind_error ((channelOperand_apply 3 s).trans (if_neg (by decide))))

/-! ## Regions (R67 to R69) -/

/-- R182: the commands that check their regions before anything else. -/
def checksRegionsFirst : List Instr := [.checkSig, .parseNext, .parseAll, .assemble]

/-- R182 steps 4 and 5: an error of the regions is the command's error, with no other effect. -/
theorem exec_of_checkRegions_raises {i : Instr} {s : State} {c : ErrCode} {info : Word} (hi : i ∈ checksRegionsFirst)
    (h : checkRegions i s = .error (.raised c info) s) : exec i s = .next (raiseError c info s) := by
  rw [exec_eq_runCommand]
  refine runCommand_raised ?_
  simp only [checksRegionsFirst, List.mem_cons, List.not_mem_nil, or_false] at hi
  obtain rfl | rfl | rfl | rfl := hi
  · exact Engine.bind_error h
  · exact Engine.bind_error (Engine.bind_error h)
  · exact Engine.bind_error (Engine.bind_error h)
  · exact Engine.bind_error h

/-- R38, R121: HDR_CHECK drops the profile before it checks its region. -/
theorem exec_hdrCheck_unfit {s : State} (h : 2 ^ 32 < s.regs.srcAddr.toNat + s.regs.srcLen.toNat) :
    exec .hdrCheck s = .next (raiseError .badArgument 2 (s.setRegs s.regs.dropProfile)) := by
  have hcheck : checkRegions .hdrCheck (s.setRegs s.regs.dropProfile) =
      .error (.raised .badArgument 2) (s.setRegs s.regs.dropProfile) :=
    checkRegions_unfit ⟨s.regs.src, .inl (List.mem_singleton_self _), h⟩
  refine runCommand_raised (body := hdrCheckBody) ?_
  unfold hdrCheckBody
  rw [modifyRegs_bind, Engine.bind_error hcheck]

/-- Settles O28: the regions of each command, and the two errors in the order of R182. -/
theorem regionErrorsAreReportedInOrder : Obligations.RegionErrorsAreReportedInOrder := by
  intro s
  refine ⟨fun i src aux dst hsrc haux hdst => ?regions, fun i hi => ⟨fun h => ?unfit, fun hfit h => ?overlap⟩, exec_hdrCheck_unfit⟩
  case regions =>
    subst hsrc haux hdst
    cases i <;> rfl
  case unfit => exact exec_of_checkRegions_raises hi (checkRegions_unfit h)
  case overlap => exact exec_of_checkRegions_raises hi (checkRegions_overlap hfit h)

end Sys2Proof.Machine
end

section
/-! CHECK_SIG, PARSE_INIT, PARSE_NEXT and PARSE_ALL (R100 to R109), and the statements they settle. -/

namespace Sys2Proof.Machine

/-! ## CHECK_SIG (R103) -/

theorem checkSigBody_checked {s : State} (hfit : s.regs.srcAddr.toNat + s.regs.srcLen.toNat ≤ 2 ^ 32)
    (hheld : s.platform.holdsRegion ⟨s.regs.srcAddr.toNat, min s.regs.srcLen.toNat 8⟩) :
    checkSigBody s =
      match firstBadSignatureByte (s.mem.readN s.regs.srcAddr.toNat (min s.regs.srcLen.toNat 8)) with
      | some i => .error (.raised .invalidSignature (BitVec.ofNat 32 i)) s
      | none => .ok () s := by
  have hl : s.regionsLegal .checkSig := by simpa [State.regionsLegal, regionsOf, Regs.src] using hfit
  unfold checkSigBody
  rw [Engine.bind_ok (checkRegions_ok hl), Engine.get_bind, memRead_bind,
    if_pos (Platform.holdsAll_of_region hheld (Nat.le_refl _) (Nat.le_refl _))]
  cases firstBadSignatureByte (s.mem.readN s.regs.srcAddr.toNat (min s.regs.srcLen.toNat 8)) <;> rfl

/-- R103: byte `i` of the stream is there and is the signature's. -/
def State.SigByte (s : State) (i : Nat) : Prop :=
  i < s.regs.srcLen.toNat ∧ s.mem.read (s.regs.srcAddr.toNat + i) = pngSignature.getD i 0

/-- R103: the test of one byte of the signature, on the bytes that CHECK_SIG has read. -/
theorem sigByte_iff (s : State) {i : Nat} (hi : i < 8) :
    (decide ((s.mem.readN s.regs.srcAddr.toNat (min s.regs.srcLen.toNat 8)).length ≤ i) ||
      (s.mem.readN s.regs.srcAddr.toNat (min s.regs.srcLen.toNat 8)).getD i 0 != pngSignature.getD i 0) = false ↔
      s.SigByte i := by
  rw [Bool.or_eq_false_iff, decide_eq_false_iff_not, Memory.readN_length, bne_eq_false_iff_eq, State.SigByte,
    show ¬ min s.regs.srcLen.toNat 8 ≤ i ↔ i < s.regs.srcLen.toNat by omega]
  refine and_congr_right fun hlt => ?_
  rw [Memory.readN_getD _ _ _ (by omega)]

/-- R103: the whole signature stands at the start of the stream. -/
theorem firstBadSignatureByte_none {s : State} (h : ∀ i, i < 8 → s.SigByte i) :
    firstBadSignatureByte (s.mem.readN s.regs.srcAddr.toNat (min s.regs.srcLen.toNat 8)) = none := by
  refine List.find?_eq_none.2 fun i hi => ?_
  have hi8 : i < 8 := List.mem_range.1 hi
  rw [(sigByte_iff s hi8).2 (h i hi8)]
  decide

/-- R103: the first byte that is not the signature's. -/
theorem firstBadSignatureByte_some {s : State} {k : Nat} (hk : k < 8) (hbefore : ∀ j, j < k → s.SigByte j)
    (hbad : ¬ s.SigByte k) :
    firstBadSignatureByte (s.mem.readN s.regs.srcAddr.toNat (min s.regs.srcLen.toNat 8)) = some k := by
  refine List.find?_range_eq_some.2 ⟨?_, List.mem_range.2 hk, fun j hj => ?_⟩
  · exact Bool.of_not_eq_false fun h => hbad ((sigByte_iff s hk).1 h)
  · rw [(sigByte_iff s (by omega)).2 (hbefore j hj)]
    rfl

/-- Settles O29: CHECK_SIG stops at the first byte that is not the signature's. -/
theorem checkSigComparesTheSignature : Obligations.CheckSigComparesTheSignature := by
  intro s hfit hheld
  refine ⟨fun hlen hsig => ?whole, fun k hk hbefore hbad => ?first⟩
  case whole =>
    have hbytes : ∀ i, i < 8 → s.SigByte i := fun i hi =>
      ⟨by omega, by rw [← Memory.readN_getD s.mem _ 8 hi, hsig]; rfl⟩
    refine runCommand_ok (body := checkSigBody) ?_
    rw [checkSigBody_checked hfit hheld, firstBadSignatureByte_none hbytes]
  case first =>
    have hnot : ¬ s.SigByte k := fun ⟨hin, heq⟩ => hbad.elim (fun h => absurd hin (by omega)) fun h => h heq
    refine runCommand_raised (body := checkSigBody) ?_
    rw [checkSigBody_checked hfit hheld, firstBadSignatureByte_some hk hbefore hnot]

/-! ## PARSE_INIT (R104) -/

/-- Settles O30: PARSE_INIT is one register update and completes. -/
theorem parseInitRestartsTheParser : Obligations.ParseInitRestartsTheParser := fun _ => rfl

/-! ## The end of the sequence (R105, R107) -/

theorem parserChecks_beyond {s : State} {i : Instr} (hl : s.regionsLegal i)
    (h : s.regs.srcLen.toNat < s.regs.parseOff.toNat) : parserChecks i s = .error (.raised .badArgument 4) s := by
  unfold parserChecks
  rw [Engine.bind_ok (checkRegions_ok hl), checkCursor_apply, if_neg (by omega)]

theorem Regs.sequenceEnded_iff (r : Regs) :
    r.sequenceEnded = true ↔ r.status.iend = true ∨ r.status.exhausted = true := Bool.or_eq_true_iff

theorem Regs.sequenceEnded_of_open {r : Regs} (hi : r.status.iend = false) (he : r.status.exhausted = false) :
    r.sequenceEnded = false := Bool.or_eq_false_iff.2 ⟨hi, he⟩

/-- R107: the walk at the end of the stream takes one ParseStep, and finds the sequence ended. -/
theorem parseLoop_atEnd {s : State} {n : Nat} (h : s.regs.parseOff.toNat = s.regs.srcLen.toNat)
    (ho : s.regs.sequenceEnded = false) : parseLoop (n + 1) s = .ok () (s.setRegs s.regs.setExhausted) := by
  rw [parseLoop_next ho, Engine.bind_ok (parseStep_atEnd h), parseLoop_ended ((Regs.sequenceEnded_iff _).2 (.inr rfl))]

/-- Settles O31: the cursor's check, an ended sequence, and the ParseStep at the end of the stream, for both commands. -/
theorem parserAtTheEndOfTheStream : Obligations.ParserAtTheEndOfTheStream := by
  rintro s i (rfl | rfl) hl
  · refine ⟨fun h => ?_, fun hc hended => ?_, fun hend hi he => ?_⟩
    · exact runCommand_raised (Engine.bind_error (parserChecks_beyond hl h))
    · refine runCommand_ok (body := parseNextBody) ?_
      rw [parseNextBody_checked hl hc, if_pos (s.regs.sequenceEnded_iff.2 hended)]
    · have hcur : s.regs.parseOff.toNat = s.regs.srcLen.toNat := by rw [hend]
      refine runCommand_ok (body := parseNextBody) (u := s.setRegs s.regs.setExhausted) ?_
      rw [parseNextBody_checked hl (by omega), if_neg (by simp [Regs.sequenceEnded_of_open hi he]), parseStep_atEnd hcur]
  · refine ⟨fun h => ?_, fun hc hended => ?_, fun hend hi he => ?_⟩
    · exact runCommand_raised (Engine.bind_error (parserChecks_beyond hl h))
    · refine runCommand_ok (body := parseAllBody) ?_
      rw [parseAllBody_checked hl hc, parseLoop_ended (s.regs.sequenceEnded_iff.2 hended)]
    · have hcur : s.regs.parseOff.toNat = s.regs.srcLen.toNat := by rw [hend]
      refine runCommand_ok (body := parseAllBody) (u := s.setRegs s.regs.setExhausted) ?_
      rw [parseAllBody_checked hl (by omega)]
      exact parseLoop_atEnd hcur (Regs.sequenceEnded_of_open hi he)

/-! ## PARSE_NEXT on one chunk (R100, R102, R105) -/

/-- What PARSE_NEXT assumes to come to the chunk at its cursor. -/
structure AtChunk (s : State) (k : Chunk) : Prop where
  legal : s.regionsLegal .parseNext
  held : s.holdsRegionsOf .parseNext
  iend : s.regs.status.iend = false
  exhausted : s.regs.status.exhausted = false
  inside : s.regs.parseOff.toNat < s.regs.srcLen.toNat
  chunk : k = chunkAt s.platform.crc s.mem s.regs.srcAddr.toNat s.regs.parseOff.toNat

namespace AtChunk

variable {s : State} {k : Chunk}

theorem body (h : AtChunk s k) :
    parseNextBody s = (readChunk s.regs.parseOff.toNat >>= handleChunk s.regs.parseOff.toNat) s := by
  have hin := h.inside
  rw [parseNextBody_checked h.legal (by omega), if_neg (by simp [Regs.sequenceEnded_of_open h.iend h.exhausted]),
    parseStep_inside (by omega)]

theorem srcHeld (h : AtChunk s k) {a n : Nat} (h1 : s.regs.srcAddr.toNat ≤ a)
    (h2 : a + n ≤ s.regs.srcAddr.toNat + s.regs.srcLen.toNat) : s.platform.holdsAll a n = true :=
  State.holdsAll_of_regions h.held (r := s.regs.src) (.inl (List.mem_singleton_self _)) h1 h2

theorem dstHeld (h : AtChunk s k) {a n : Nat} (h1 : s.regs.dstAddr.toNat ≤ a)
    (h2 : a + n ≤ s.regs.dstAddr.toNat + s.regs.dstLen.toNat) : s.platform.holdsAll a n = true :=
  State.holdsAll_of_regions h.held (r := s.regs.dst) (.inr rfl) h1 h2

theorem data_length (h : AtChunk s k) : k.data.length = k.len := by
  rw [h.chunk]
  exact chunkAt_data_length ..

/-- R100: a whole chunk has been read, and its descriptor stands in the registers. -/
theorem body_whole (h : AtChunk s k) (hlen : s.regs.parseOff.toNat + 12 + k.len ≤ s.regs.srcLen.toNat) :
    parseNextBody s = handleChunk s.regs.parseOff.toNat k (s.described k) := by
  rw [h.body, Engine.bind_ok (readChunk_ok h.chunk hlen (h.srcHeld (by omega) (by omega)))]
  rfl

/-- R100: a chunk that the end of the stream cuts off changes nothing. -/
theorem exec_truncated (h : AtChunk s k) (hlen : s.regs.srcLen.toNat - s.regs.parseOff.toNat < 12 ∨
    s.regs.srcLen.toNat < s.regs.parseOff.toNat + 12 + k.len) :
    exec .parseNext s = .next (raiseError .streamTruncated s.regs.parseOff s) := by
  have hin := h.inside
  have hread := readChunk_truncated h.chunk (by omega) fun _ => h.srcHeld (by omega) (by omega)
  refine runCommand_raised (body := parseNextBody) ?_
  rw [h.body, Engine.bind_error hread, BitVec.ofNat_toNat, BitVec.setWidth_eq]

theorem exec_of_handleChunk_ok (h : AtChunk s k) (hlen : s.regs.parseOff.toNat + 12 + k.len ≤ s.regs.srcLen.toNat)
    {u : State} (hu : handleChunk s.regs.parseOff.toNat k (s.described k) = .ok () u) :
    exec .parseNext s = .next (complete u) :=
  runCommand_ok ((h.body_whole hlen).trans hu)

theorem exec_of_handleChunk_raises (h : AtChunk s k)
    (hlen : s.regs.parseOff.toNat + 12 + k.len ≤ s.regs.srcLen.toNat) {u : State} {c : ErrCode} {i : Word}
    (hu : handleChunk s.regs.parseOff.toNat k (s.described k) = .error (.raised c i) u) :
    exec .parseNext s = .next (raiseError c i u) :=
  runCommand_raised ((h.body_whole hlen).trans hu)

end AtChunk

theorem handleChunk_good {off : Nat} {c : Chunk} (h : c.good = true) (s : State) :
    handleChunk off c s = acceptChunk off c s := by
  rw [handleChunk, if_pos h]

/-- R102: the strict policy stops at a mismatch, which it has recorded. -/
theorem handleChunk_strict {off : Nat} {c : Chunk} {s : State} (h : c.good = false) (hp : s.regs.ctrl.crcSkip = false) :
    handleChunk off c s =
      .error (.raised .corruptedChunk (packType c.typ)) (s.setRegs (s.regs.recordMismatch c.typ)) := by
  rw [handleChunk, if_neg (by simp [h]), Engine.bind_error ((onMismatch_apply _ _).trans (if_neg (by simp [hp])))]

/-- R102: the skip policy records a mismatch and steps over the chunk. -/
theorem handleChunk_skip {off : Nat} {c : Chunk} {s : State} (h : c.good = false) (hp : s.regs.ctrl.crcSkip = true) :
    handleChunk off c s =
      .ok () (s.setRegs ((s.regs.recordMismatch c.typ).setCursor (off + 12 + c.len))) := by
  rw [handleChunk, if_neg (by simp [h]), Engine.bind_ok ((onMismatch_apply _ _).trans (if_pos hp)), advanceCursor_apply]
  rfl

/-- R105: an IDAT that does not fit is CAPACITY, and nothing is written. -/
theorem acceptChunk_overflows {off : Nat} {c : Chunk} {s : State} (h : c.typ = typeIDAT)
    (hcap : s.regs.dstLen.toNat < s.regs.idatLen.toNat + c.len) :
    acceptChunk off c s = .error (.raised .capacity (clamp32 (s.regs.idatLen.toNat + c.len))) s := by
  unfold acceptChunk
  refine Engine.bind_error ?_
  rw [onlyIf_true (by simpa using h), appendPayload_apply, if_neg (by omega)]

theorem ofNat_toNat_word (w : Word) : BitVec.ofNat 32 w.toNat = w := by
  rw [BitVec.ofNat_toNat, BitVec.setWidth_eq]

/-- Settles O32: the chunk is read, then accepted by its type. -/
theorem parseNextAcceptsAGoodChunk : Obligations.ParseNextAcceptsAGoodChunk := by
  intro s k hl hh hi he hk hgood hlen hcap
  have h : AtChunk s k := ⟨hl, hh, hi, he, by omega, hk⟩
  have hoff := ofNat_toNat_word s.regs.parseOff
  by_cases hdat : k.typ = [0x49, 0x44, 0x41, 0x54]
  · have hend : decide (k.typ = [0x49, 0x45, 0x4E, 0x44]) = s.regs.status.iend := by rw [hi, hdat]; rfl
    have hfit := hcap hdat
    have hroom : s.platform.holdsAll (s.regs.dstAddr.toNat + s.regs.idatLen.toNat) k.data.length = true :=
      h.dstHeld (Nat.le_add_right _ _) (by rw [h.data_length]; omega)
    rw [h.exec_of_handleChunk_ok hlen ((handleChunk_good hgood _).trans (acceptChunk_idat hdat hfit hroom))]
    simp only [State.described, Regs.setDescriptor, Regs.setPayloadLen, Regs.countChunk, Regs.setCursor, Regs.completed,
      State.setRegs, State.setMem, complete, hoff, if_pos hdat, hend]
    rfl
  · rw [h.exec_of_handleChunk_ok hlen ((handleChunk_good hgood _).trans (acceptChunk_other hdat _))]
    simp only [if_neg hdat]
    by_cases hend : k.typ = typeIEND
    · have hlit : decide (k.typ = [0x49, 0x45, 0x4E, 0x44]) = true := decide_eq_true hend
      simp only [State.described, Regs.setDescriptor, Regs.countChunk, Regs.setCursor, Regs.setIend, Regs.completed,
        State.setRegs, complete, hoff, if_pos hend, hlit]
      rfl
    · have hlit : decide (k.typ = [0x49, 0x45, 0x4E, 0x44]) = s.regs.status.iend := by rw [hi]; exact decide_eq_false hend
      simp only [State.described, Regs.setDescriptor, Regs.countChunk, Regs.setCursor, Regs.completed,
        State.setRegs, complete, hoff, if_neg hend, hlit]
      rfl

/-- Settles O33: the chunk is read and its mismatch recorded, and the policy decides the end. -/
theorem parseNextRecordsAMismatch : Obligations.ParseNextRecordsAMismatch := by
  intro s k hl hh hi he hk hbad hlen
  have h : AtChunk s k := ⟨hl, hh, hi, he, by omega, hk⟩
  have hoff := ofNat_toNat_word s.regs.parseOff
  cases hp : s.regs.ctrl.crcSkip with
  | false =>
    exact ⟨_, h.exec_of_handleChunk_raises hlen (handleChunk_strict hbad hp), rfl, rfl, rfl, rfl, hoff, rfl, rfl, rfl, rfl, rfl,
      hi, he, fun _ => ⟨rfl, rfl, rfl, rfl⟩, fun hc => absurd hc (by decide)⟩
  | true =>
    exact ⟨_, h.exec_of_handleChunk_ok hlen (handleChunk_skip hbad hp), rfl, rfl, rfl, rfl, hoff, rfl, rfl, rfl, rfl, rfl,
      hi, he, fun hc => absurd hc (by decide), fun _ => ⟨rfl, rfl⟩⟩

/-- Settles O34: a truncated chunk is not read, and an IDAT that does not fit is read only. -/
theorem parseNextErrorsKeepTheCursor : Obligations.ParseNextErrorsKeepTheCursor := by
  intro s k hl hh hi he hin hk
  have h : AtChunk s k := ⟨hl, hh, hi, he, hin, hk⟩
  refine ⟨h.exec_truncated, fun hlen hgood hdat hcap => ?_⟩
  have hacc := acceptChunk_overflows (off := s.regs.parseOff.toNat) (s := s.described k) hdat hcap
  rw [h.exec_of_handleChunk_raises hlen ((handleChunk_good hgood _).trans hacc)]
  simp only [State.described, Regs.setDescriptor, ofNat_toNat_word, hdat]
  rfl

end Sys2Proof.Machine
end

section
/-! The walk of PARSE_ALL (R107 to R109), and the statements it settles. -/

namespace Sys2Proof.Machine

/-! ## PARSE_ALL and its first ParseStep (R107) -/

theorem blindToOutcome_parseAllBody : parseAllBody.BlindToOutcome := by
  have checks : (parserChecks .parseAll).BlindToOutcome :=
    .bind (.get_bind (fun _ => rfl) fun _ => .bind (.require _ _ _) fun _ => .require _ _ _)
      fun _ => .get_bind (fun _ => rfl) fun _ => .require _ _ _
  exact .bind checks fun _ => .get_bind (fun _ => rfl) fun _ => .parseLoop _

/-- R104, R107: PARSE_ALL does from a completed command's state what it does from the state itself. -/
theorem exec_parseAll_complete (s : State) : exec .parseAll (complete s) = exec .parseAll s :=
  runCommand_complete blindToOutcome_parseAllBody s

theorem State.regionsLegal_congr {s t : State} {i : Instr} (h : regionsOf t.regs i = regionsOf s.regs i)
    (hl : s.regionsLegal i) : t.regionsLegal i := by
  unfold State.regionsLegal
  rw [h]
  exact hl

/-- R105: a ParseStep leaves the regions where they were. -/
theorem parseStep_regions {s u : State} (h : parseStep s = .ok () u) : regionsOf u.regs .parseAll = regionsOf s.regs .parseAll :=
  have hnear : parseStep.wp s (fun _ t => Near .parseAll s t) (fun e t => Near .parseAll s t ∧ (e = .absent → s.Absent .parseAll)) :=
    safe_parseStep (i := .parseAll) rfl (fun _ => rfl) s
  (Engine.wp_ok hnear h :).regions

/-- What both PARSE_NEXT and PARSE_ALL check. -/
structure ParserReady (s : State) : Prop where
  legal : s.regionsLegal .parseAll
  cursor : s.regs.parseOff.toNat ≤ s.regs.srcLen.toNat

/-- R182: the checks of the parser pass, or they raise the same error for both commands. -/
theorem parserReady_or_raises (s : State) :
    ParserReady s ∨ ∃ e, parserChecks .parseNext s = .error e s ∧ parserChecks .parseAll s = .error e s := by
  have hboth : parserChecks .parseNext s = parserChecks .parseAll s := rfl
  rw [hboth]
  obtain ⟨e, he, -⟩ | ⟨hok, hl⟩ := checkRegions_cases .parseAll s
  · exact .inr ⟨e, Engine.bind_error he, Engine.bind_error he⟩
  · obtain ⟨e, he, -⟩ | ⟨-, hc⟩ := checkCursor_cases s
    · exact .inr ⟨e, (Engine.bind_ok hok).trans he, (Engine.bind_ok hok).trans he⟩
    · exact .inl ⟨hl, hc⟩

/-- R107: where a ParseStep has returned, PARSE_ALL goes on from the state it returned in. -/
theorem exec_parseAll_after_parseStep {s u : State} (h : ParserReady s) (ho : s.regs.sequenceEnded = false)
    (hu : parseStep s = .ok () u) : exec .parseAll s = exec .parseAll u := by
  obtain ⟨hlen, hmono, hcur, hprog⟩ := parseStep_progress h.cursor hu
  have hlu : u.regionsLegal .parseAll := State.regionsLegal_congr (parseStep_regions hu) h.legal
  have hbody : parseAllBody s = parseAllBody u := by
    rw [parseAllBody_checked h.legal h.cursor, parseAllBody_checked hlu hcur, parseFuel, parseLoop_next ho, Engine.bind_ok hu]
    cases hend : u.regs.sequenceEnded with
    | true => rw [parseLoop_ended hend, parseLoop_ended hend]
    | false =>
      have hadv : s.regs.parseOff.toNat + 12 ≤ u.regs.parseOff.toNat :=
        hprog.resolve_left fun h => absurd (hend.symm.trans h) (by decide)
      rw [hlen] at hcur
      refine parseLoop_enough _ _ u (by rw [hlen]; exact hcur) ?_ ?_
      · rw [hlen]; omega
      · rw [parseFuel]; omega
  show runCommand parseAllBody s = runCommand parseAllBody u
  unfold runCommand
  rw [hbody]

/-- R107: once the sequence has ended PARSE_ALL only completes. -/
theorem exec_parseAll_ended {s : State} (h : ParserReady s) (he : s.regs.sequenceEnded = true) :
    exec .parseAll s = .next (complete s) := by
  refine runCommand_ok (body := parseAllBody) ?_
  rw [parseAllBody_checked h.legal h.cursor, parseLoop_ended he]

theorem ParserReady.after_parseStep {s u : State} (h : ParserReady s) (hu : parseStep s = .ok () u) : ParserReady u where
  legal := State.regionsLegal_congr (parseStep_regions hu) h.legal
  cursor := (parseStep_progress h.cursor hu).2.2.1

/-- R105, R107: how a PARSE_NEXT ends, and what PARSE_ALL does from there: the same error, nothing more, or the rest of the walk. -/
theorem exec_parseNext_cases {s t : State} (h : exec .parseNext s = .next t) :
    (t.regs.status.error = true ∧ exec .parseAll s = .next t) ∨
    ∃ u, t = complete u ∧ exec .parseAll s = exec .parseAll u ∧
      (u.regs.sequenceEnded = true → exec .parseAll u = .next (complete u)) := by
  obtain ⟨u, hu, rfl⟩ | ⟨c, info, u, hu, rfl⟩ := runCommand_next (body := parseNextBody) h
  · obtain hready | ⟨e, he, -⟩ := parserReady_or_raises s
    · right
      rw [parseNextBody_checked hready.legal hready.cursor] at hu
      split_ifs at hu with hend
      · cases hu
        exact ⟨s, rfl, rfl, exec_parseAll_ended hready⟩
      · exact ⟨u, rfl, exec_parseAll_after_parseStep hready (by simpa using hend) hu, exec_parseAll_ended (hready.after_parseStep hu)⟩
    · rw [parseNextBody, Engine.bind_error he] at hu
      cases hu
  · refine .inl ⟨rfl, runCommand_raised (body := parseAllBody) ?_⟩
    obtain hready | ⟨e, he, hall⟩ := parserReady_or_raises s
    · rw [parseNextBody_checked hready.legal hready.cursor] at hu
      split_ifs at hu with hend
      rw [parseAllBody_checked hready.legal hready.cursor, parseFuel, parseLoop_next (by simpa using hend), Engine.bind_error hu]
    · rw [parseNextBody, Engine.bind_error he] at hu
      rw [parseAllBody, Engine.bind_error hall, hu]

/-- Settles O35, by the way PARSE_NEXT ended. -/
theorem parseAllIsRepeatedParseNext : Obligations.ParseAllIsRepeatedParseNext := by
  intro s t h
  obtain ⟨herr, hall⟩ | ⟨u, rfl, hall, hend⟩ := exec_parseNext_cases h
  · have hnot : t.regs.status.done ≠ t.regs.status.error := (completionSetsExactlyOneOutcome .parseNext s t h).2.1
    exact ⟨fun _ => hall, fun hd _ => hall, fun hd _ _ => absurd (hd.trans herr.symm) hnot⟩
  · refine ⟨fun he => by simp at he, fun _ hended => ?_, fun _ _ _ => ?_⟩
    · rw [hall]
      exact hend ((Regs.sequenceEnded_iff _).2 hended)
    · rw [hall, exec_parseAll_complete]

/-! ## The end of the walk (R107 to R109) -/

/-- Settles O36: the walk that returns has ended the sequence inside the stream. -/
theorem parseAllEndsOnlyAtTheEnd : Obligations.ParseAllEndsOnlyAtTheEnd := by
  intro s t h hdone
  obtain ⟨u, hu, rfl⟩ | ⟨c, info, u, hu, rfl⟩ := runCommand_next (body := parseAllBody) h
  · obtain hready | ⟨e, -, he⟩ := parserReady_or_raises s
    · rw [parseAllBody_checked hready.legal hready.cursor] at hu
      obtain ⟨hend, hlo, hhi⟩ := parseLoop_ends _ s u hready.cursor (by rw [parseFuel]; omega) hu
      exact ⟨(Regs.sequenceEnded_iff _).1 hend, hlo, hhi⟩
    · rw [parseAllBody, Engine.bind_error he] at hu
      cases hu
  · simp at hdone

/-- Settles O37: the walk over the chunks, for which the bound on its iterations is enough. -/
theorem parseAllConcatenatesThePayload : Obligations.ParseAllConcatenatesThePayload := by
  intro s ks hl hh hi he hks hgood hearly hsize hend hcap
  have hcount := chunksSize_ge ks
  obtain ⟨t, ht, w⟩ := parseLoop_walks ks s (parseFuel s.regs) (ParserMemory.of_regions hl hh) hi he hks hgood hearly hsize hend
    hcap (by rw [parseFuel]; omega)
  refine ⟨complete t, runCommand_ok (body := parseAllBody) ?_, rfl, w.parseOff, w.idatLen, w.payload, w.outside, w.chunkCount,
    w.corruptCount, w.iend, w.exhausted⟩
  rw [parseAllBody_checked hl (by omega), ht]

end Sys2Proof.Machine
end

section
/-! HDR_CHECK on a supported header and without a good first chunk (R120 to R122), and the statements they settle. -/

namespace Sys2Proof.Machine

/-- R121: HDR_CHECK on a good first chunk without an error loads the profile. -/
theorem exec_hdrCheck_loads {s : State} {k : Chunk}
    (hfit : s.regs.srcAddr.toNat + s.regs.srcLen.toNat ≤ 2 ^ 32) (hh : s.holdsRegionsOf .hdrCheck)
    (hk : k = chunkAt s.platform.crc s.mem s.regs.srcAddr.toNat 8) (hgood : k.good = true)
    (hl : 20 + k.len ≤ s.regs.srcLen.toNat) (he : k.headerError = none) :
    exec .hdrCheck s = .next (complete (s.setRegs
      (((s.regs.dropProfile.setDescriptor 8 k.len k.typ (storedCrcAt s.mem s.regs.srcAddr.toNat 8)).captureHeader k.data).loadProfile
        (be32 k.data 0) (be32 k.data 4)))) := by
  refine runCommand_ok (body := hdrCheckBody) ?_
  rw [hdrCheckBody_checked hfit (by omega), Engine.bind_ok (readChunk_first hh hk hl), if_pos hgood, acceptHeader_loads he]
  rfl

/-- The five bytes behind the geometry of an IHDR, one by one. -/
theorem getD_of_drop_eight {data : List Byte} {a b c d e : Byte} (h : data.drop 8 = [a, b, c, d, e]) :
    data.getD 8 0 = a ∧ data.getD 9 0 = b ∧ data.getD 10 0 = c ∧ data.getD 11 0 = d ∧ data.getD 12 0 = e := by
  have hget : ∀ i, data.getD (8 + i) 0 = [a, b, c, d, e].getD i 0 := fun i => by
    rw [← h, List.getD_eq_getElem?_getD, List.getD_eq_getElem?_getD, List.getElem?_drop]
  exact ⟨hget 0, hget 1, hget 2, hget 3, hget 4⟩

/-- Settles O38: a header without an error is captured and loaded. -/
theorem hdrCheckLoadsTheSupportedProfile : Obligations.HdrCheckLoadsTheSupportedProfile := by
  intro s k hfit hh hk hgood hl htyp hlen hw hheight hdata
  obtain ⟨h8, h9, h10, h11, h12⟩ := getD_of_drop_eight hdata
  have hfields : headerFieldError k.data = none :=
    (headerFieldError_eq_none_iff _).2 ⟨⟨hw, hheight⟩, h8, h9, h10, h11, h12⟩
  have he : k.headerError = none := k.headerError_eq_none_iff.2 ⟨⟨htyp, hlen⟩, hfields⟩
  rw [exec_hdrCheck_loads hfit hh hk hgood hl he, htyp, hlen]
  simp only [Regs.captureHeader, headerFields_supported hfields, h12]
  rfl

/-! ## Without a good first chunk -/

/-- R182: HDR_CHECK on a stream whose region fits comes to its check of the length. -/
theorem hdrCheckBody_fits {s : State} (hfit : s.regs.srcAddr.toNat + s.regs.srcLen.toNat ≤ 2 ^ 32) :
    hdrCheckBody s = (checkStream >>= fun _ => (get : Engine State) >>= fun s =>
      require (decide (s.regs.srcLen.toNat ≠ 8)) .malformedHeader 3 >>= fun _ => readChunk 8 >>= fun c =>
        if c.good then acceptHeader c else onMismatch c.typ >>= fun _ => raise .malformedHeader 4)
      (s.setRegs s.regs.dropProfile) := by
  unfold hdrCheckBody
  rw [modifyRegs_bind, Engine.bind_ok (checkRegions_ok (dropProfile_regionsLegal hfit))]

theorem hdrCheckBody_short {s : State} (hfit : s.regs.srcAddr.toNat + s.regs.srcLen.toNat ≤ 2 ^ 32)
    (h : s.regs.srcLen.toNat < 8) :
    hdrCheckBody s = .error (.raised .badArgument 4) (s.setRegs s.regs.dropProfile) := by
  rw [hdrCheckBody_fits hfit]
  exact Engine.bind_error ((checkStream_apply _).trans (if_neg (by simpa using h)))

theorem hdrCheckBody_noChunk {s : State} (hfit : s.regs.srcAddr.toNat + s.regs.srcLen.toNat ≤ 2 ^ 32)
    (h : s.regs.srcLen.toNat = 8) :
    hdrCheckBody s = .error (.raised .malformedHeader 3) (s.setRegs s.regs.dropProfile) := by
  rw [hdrCheckBody_fits hfit, Engine.bind_ok ((checkStream_apply _).trans (if_pos (by simp [h]))), Engine.get_bind, require_bind,
    if_neg (by simp [h])]

theorem hdrCheckBody_truncated {s : State} {k : Chunk} (hfit : s.regs.srcAddr.toNat + s.regs.srcLen.toNat ≤ 2 ^ 32)
    (hh : s.holdsRegionsOf .hdrCheck) (hk : k = chunkAt s.platform.crc s.mem s.regs.srcAddr.toNat 8)
    (h8 : 8 < s.regs.srcLen.toNat) (h : s.regs.srcLen.toNat < 20 ∨ s.regs.srcLen.toNat < 20 + k.len) :
    hdrCheckBody s = .error (.raised .streamTruncated 8) (s.setRegs s.regs.dropProfile) := by
  have hread : readChunk 8 (s.setRegs s.regs.dropProfile) =
      .error (.raised .streamTruncated 8) (s.setRegs s.regs.dropProfile) := by
    refine readChunk_truncated (s := s.setRegs s.regs.dropProfile) hk ?_ fun hrem => ?_
    · simp only [State.setRegs_regs, Regs.dropProfile_srcLen]
      omega
    · simp only [State.setRegs_regs, Regs.dropProfile_srcLen] at hrem
      exact State.holdsAll_of_regions hh (r := s.regs.src) (.inl (List.mem_singleton_self _)) (Nat.le_add_right _ _)
        (by simp [Regs.src]; omega)
  rw [hdrCheckBody_checked hfit h8, Engine.bind_error hread]

/-- R102, R121: a first chunk that is not good is recorded, and is an error under either policy. -/
theorem hdrCheckBody_mismatch {s : State} {k : Chunk} (hfit : s.regs.srcAddr.toNat + s.regs.srcLen.toNat ≤ 2 ^ 32)
    (hh : s.holdsRegionsOf .hdrCheck) (hk : k = chunkAt s.platform.crc s.mem s.regs.srcAddr.toNat 8)
    (hl : 20 + k.len ≤ s.regs.srcLen.toNat) (hbad : k.good = false) :
    hdrCheckBody s = .error (if s.regs.ctrl.crcSkip = true then .raised .malformedHeader 4
        else .raised .corruptedChunk (packType k.typ))
      (s.setRegs ((s.regs.dropProfile.setDescriptor 8 k.len k.typ
        (storedCrcAt s.mem s.regs.srcAddr.toNat 8)).recordMismatch k.typ)) := by
  rw [hdrCheckBody_checked hfit (by omega), Engine.bind_ok (readChunk_first hh hk hl), if_neg (by simp [hbad])]
  by_cases hp : s.regs.ctrl.crcSkip = true
  · rw [if_pos hp]
    exact Engine.bind_ok ((onMismatch_apply _ _).trans (if_pos hp))
  · rw [if_neg hp]
    exact Engine.bind_error ((onMismatch_apply _ _).trans (if_neg hp))

/-- R121: what HDR_CHECK leaves without a whole good first chunk: the profile dropped, and a chunk that was read recorded. -/
structure HeaderMissed (s u : State) (k : Chunk) : Prop where
  profValid : u.regs.status.profValid = false
  imgWidth : u.regs.imgWidth = s.regs.imgWidth
  imgHeight : u.regs.imgHeight = s.regs.imgHeight
  mem : u.mem = s.mem
  hdrFields : u.regs.hdrFields = s.regs.hdrFields
  hdrInterlace : u.regs.hdrInterlace = s.regs.hdrInterlace
  recorded : 20 + k.len ≤ s.regs.srcLen.toNat → u.regs.status.corruptSeen = true ∧
    u.regs.corruptCount = s.regs.corruptCount + 1 ∧ u.regs.corruptType = packType k.typ

theorem HeaderMissed.of_unread {s : State} {k : Chunk} (h : s.regs.srcLen.toNat < 20 + k.len) :
    HeaderMissed s (s.setRegs s.regs.dropProfile) k :=
  ⟨rfl, rfl, rfl, rfl, rfl, rfl, fun hl => absurd hl (by omega)⟩

theorem HeaderMissed.of_mismatch (s : State) (k : Chunk) (crc : Word) :
    HeaderMissed s (s.setRegs ((s.regs.dropProfile.setDescriptor 8 k.len k.typ crc).recordMismatch k.typ)) k :=
  ⟨rfl, rfl, rfl, rfl, rfl, rfl, fun _ => ⟨rfl, rfl, rfl⟩⟩

/-- Settles O40: the checks before the first chunk, the read of it, and the mismatch, in the order of R121. -/
theorem hdrCheckWithoutAGoodFirstChunk : Obligations.HdrCheckWithoutAGoodFirstChunk := by
  intro s k hfit hh hk verdict hv hne
  have hend : ∃ c i u, verdict = (ErrCode.number c, i) ∧ hdrCheckBody s = .error (.raised c i) u ∧ HeaderMissed s u k := by
    split_ifs at hv with hshort h8 htrunc hgood hskip
    · exact ⟨.badArgument, 4, _, hv, hdrCheckBody_short hfit hshort, .of_unread (by omega)⟩
    · exact ⟨.malformedHeader, 3, _, hv, hdrCheckBody_noChunk hfit h8, .of_unread (by omega)⟩
    · exact ⟨.streamTruncated, 8, _, hv, hdrCheckBody_truncated hfit hh hk (by omega) htrunc, .of_unread (by omega)⟩
    · exact absurd (congrArg Prod.fst hv) hne
    · have hbody := hdrCheckBody_mismatch hfit hh hk (by omega) (by simpa using hgood)
      exact ⟨.malformedHeader, 4, _, hv, by rw [hbody, if_pos hskip], .of_mismatch s k _⟩
    · have hbody := hdrCheckBody_mismatch hfit hh hk (by omega) (by simpa using hgood)
      exact ⟨.corruptedChunk, _, _, hv, hbody.trans (by rw [if_neg hskip]; rfl), .of_mismatch s k _⟩
  obtain ⟨c, i, u, rfl, hbody, hm⟩ := hend
  exact ⟨_, runCommand_raised (body := hdrCheckBody) hbody, rfl, rfl, rfl, hm.profValid, hm.imgWidth, hm.imgHeight, hm.mem,
    hm.hdrFields, hm.hdrInterlace, hm.recorded⟩

end Sys2Proof.Machine
end

section
/-! Row filtering and reconstruction are inverse (R144), and decoding an isolated row (R161); the argument errors of the scanline
commands (R182), DECODE_IMAGE (R142, R143) and ISOLATE (R160), and the statements they settle. -/

namespace Sys2Proof.Machine

/-! ## Filtering and reconstruction (R144) -/

/-- R144: a filtered row is reconstructed, byte by byte from the left, each with its left neighbour already restored. -/
theorem reconRow_filterRow (ft : FilterType) (row prior : List Byte) :
    reconRow ft (filterRow ft row prior) prior = row := by
  have hlen : (filterRow ft row prior).length = row.length := filterRow_length ft row prior
  have hbyte : ∀ x, x < row.length → (reconRow ft (filterRow ft row prior) prior).getD x 0 = row.getD x 0 := by
    intro x
    induction x using Nat.strong_induction_on with
    | _ x ih =>
      intro hx
      have hleft : leftOf (reconRow ft (filterRow ft row prior) prior) x = leftOf row x :=
        leftOf_congr fun j hj => ih j hj (hj.trans hx)
      rw [reconRow_getD ft _ prior (by omega), filterRow_getD ft row prior hx, hleft, recon_filt]
  exact ext_getD (by simp) fun x hx => hbyte x (by simpa using hx)

/-- R144: a reconstructed row is filtered back; both sides look at the same raw neighbours. -/
theorem filterRow_reconRow (ft : FilterType) (row prior : List Byte) :
    filterRow ft (reconRow ft row prior) prior = row := by
  refine ext_getD (by simp) fun x hx => ?_
  have hrow : x < row.length := by simpa using hx
  rw [filterRow_getD ft _ prior (by simpa using hrow), reconRow_getD ft row prior hrow, filt_recon]

/-- Settles O44, for rows of any lengths. -/
theorem filteringAndReconstructionAreInverse : Obligations.FilteringAndReconstructionAreInverse :=
  fun ft row prior _ => ⟨reconRow_filterRow ft row prior, filterRow_reconRow ft row prior⟩

/-! ## Isolated rows (R161) -/

theorem recon_none (f a b c : Byte) : recon .none f a b c = f := by
  have h := recon_eq (n := 0) (f := .none) rfl f a b c
  rw [h]
  exact (BitVec.ofNat_toNat 8 f).trans (BitVec.setWidth_eq f)

theorem isolateRecord_drop_length (ch : Nat) (row : List Byte) : ((isolateRecord ch row).drop 1).length = row.length := by
  simp

/-- Settles O51: filter type None adds nothing, so the record's bytes come back. -/
theorem decodingAnIsolatedRowKeepsTheChannel : Obligations.DecodingAnIsolatedRowKeepsTheChannel := by
  intro ch row prior _
  refine ⟨rfl, by simp, fun x hx => ?_⟩
  have hdrop : ((isolateRecord ch row).drop 1).getD x 0 = (isolateRecord ch row).getD (1 + x) 0 := by
    simp only [List.getD_eq_getElem?_getD, List.getElem?_drop]
  rw [reconRow_getD .none _ prior (by rw [isolateRecord_drop_length]; exact hx), recon_none, hdrop, isolateRecord_getD ch row hx]

/-! ## The argument errors of the scanline commands (R182) -/

/-- R182 step 3: the dimensions a row command or an image command needs. -/
def dimensionCheck (image : Bool) : Engine Unit := if image then checkDimensions else checkWidth

/-- R182 step 7: the AUX region of a row command with FIRST = 0. -/
def auxCheck (n : Nat) : Instr → Engine Unit
  | .reconRow first => checkAuxLength first n
  | .filtRow _ first => checkAuxLength first n
  | _ => pure ()

/-- The commands that use the AUX region as the previous row (R84). -/
def usesPreviousRow (i : Instr) : Prop := i = .reconRow false ∨ ∃ ft, i = .filtRow ft false

/-- A scanline command with the lengths it needs of SRC and DST (R182 steps 7 and 8). -/
def ScanlineCommand (r : Regs) (i : Instr) (image : Bool) (input output : Nat) : Prop :=
  (∃ first, i = .reconRow first ∧ image = false ∧ input = 1 + 3 * r.imgWidth.toNat ∧ output = 3 * r.imgWidth.toNat) ∨
  (∃ ft first, i = .filtRow ft first ∧ i.wellFormed = true ∧ image = false ∧ input = 3 * r.imgWidth.toNat ∧
    output = 1 + 3 * r.imgWidth.toNat) ∨
  (i = .decodeImage ∧ image = true ∧ input = r.imgHeight.toNat * (1 + 3 * r.imgWidth.toNat) ∧
    output = r.imgHeight.toNat * (3 * r.imgWidth.toNat)) ∨
  (∃ ch, i = .isolate ch ∧ i.wellFormed = true ∧ image = true ∧ input = r.imgHeight.toNat * (3 * r.imgWidth.toNat) ∧
    output = r.imgHeight.toNat * (1 + 3 * r.imgWidth.toNat))

/-- R182: the checks of a scanline command, in their order, and what follows them. -/
def checkedScanline (s : State) (i : Instr) (image : Bool) (input output : Nat) (rest : Unit → Engine Unit) : Engine Unit :=
  checkGate >>= fun _ => dimensionCheck image >>= fun _ => checkRegions i >>= fun _ =>
    checkLength s.regs.srcLen.toNat input >>= fun _ => auxCheck (3 * s.regs.imgWidth.toNat) i >>= fun _ =>
      checkCapacity s.regs.dstLen.toNat output >>= rest

/-- R182: every scanline command with legal fields begins with these checks. -/
theorem ScanlineCommand.body {s : State} {i : Instr} {image : Bool} {input output : Nat}
    (h : ScanlineCommand s.regs i image input output) :
    ∃ rest, bodyOf i s = checkedScanline s i image input output rest s := by
  obtain ⟨first, rfl, rfl, rfl, rfl⟩ | ⟨ft, first, rfl, hwf, rfl, rfl, rfl⟩ | ⟨rfl, rfl, rfl, rfl⟩ |
    ⟨ch, rfl, hwf, rfl, rfl, rfl⟩ := h
  · exact ⟨_, rfl⟩
  · obtain ⟨f, hf⟩ := FilterType.ofCode_le (of_decide_eq_true hwf)
    exact ⟨_, Engine.bind_ok (filterOperand_ok hf s)⟩
  · exact ⟨_, rfl⟩
  · have hch : channelOperand ch s = .ok ch.toNat s := (channelOperand_apply ch s).trans (if_pos (of_decide_eq_true hwf))
    exact ⟨_, Engine.bind_ok hch⟩

theorem dimensionCheck_ok {s : State} {image : Bool} (hw : s.regs.imgWidth ≠ 0) (hh : image = true → s.regs.imgHeight ≠ 0) :
    dimensionCheck image s = .ok () s := by
  cases image with
  | false => exact (checkWidth_apply s).trans (if_pos hw)
  | true => exact (checkDimensions_apply s).trans (if_pos ⟨hw, hh rfl⟩)

theorem dimensionCheck_raises {s : State} {image : Bool} (h : s.regs.imgWidth = 0 ∨ image = true ∧ s.regs.imgHeight = 0) :
    dimensionCheck image s = .error (.raised .badArgument 1) s := by
  cases image with
  | false => exact (checkWidth_apply s).trans (if_neg fun hw => h.elim hw fun hi => absurd hi.1 (by decide))
  | true => exact (checkDimensions_apply s).trans (if_neg fun hd => h.elim hd.1 fun hi => hd.2 hi.2)

theorem auxCheck_ok {s : State} {i : Instr} {n : Nat} (h : usesPreviousRow i → s.regs.auxLen.toNat = n) :
    auxCheck n i s = .ok () s := by
  cases i with
  | reconRow first => exact checkAuxLength_ok fun hf => h (.inl (by rw [hf]))
  | filtRow ft first => exact checkAuxLength_ok fun hf => h (.inr ⟨ft, by rw [hf]⟩)
  | _ => rfl

theorem auxCheck_raises {s : State} {i : Instr} {n : Nat} (hi : usesPreviousRow i) (h : s.regs.auxLen.toNat ≠ n) :
    auxCheck n i s = .error (.raised .payloadSize (clamp32 n)) s := by
  have hlen : checkAuxLength false n s = .error (.raised .payloadSize (clamp32 n)) s :=
    (checkLength_apply _ _ s).trans (if_neg h)
  obtain rfl | ⟨ft, rfl⟩ := hi
  · exact hlen
  · exact hlen

/-- Settles O45: each check of the chain, with the checks before it passed. -/
theorem scanlineArgumentErrorsInOrder : Obligations.ScanlineArgumentErrorsInOrder := by
  intro s i image input output hcommand
  obtain ⟨rest, hbody⟩ := ScanlineCommand.body hcommand
  have raises : ∀ {c info}, checkedScanline s i image input output rest s = .error (.raised c info) s →
      exec i s = .next (raiseError c info s) := fun h => by
    rw [exec_eq_runCommand]
    exact runCommand_raised (hbody.trans h)
  refine ⟨fun hg => raises (Engine.bind_error (checkGate_raised hg)), fun hg hz => raises ?dimension,
    fun hg hw hh => ?regions, fun hg hw hh hl => ?lengths⟩
  case dimension => exact (Engine.bind_ok (checkGate_ok hg)).trans (Engine.bind_error (dimensionCheck_raises hz))
  case regions =>
    have passed := fun {c info} (h : checkRegions i s = .error (.raised c info) s) => raises
      ((Engine.bind_ok (checkGate_ok hg)).trans ((Engine.bind_ok (dimensionCheck_ok hw hh)).trans (Engine.bind_error h)))
    exact ⟨fun h => passed (checkRegions_unfit h), fun hfit h => passed (checkRegions_overlap hfit h)⟩
  case lengths =>
    have passed : checkedScanline s i image input output rest s = (checkLength s.regs.srcLen.toNat input >>= fun _ =>
        auxCheck (3 * s.regs.imgWidth.toNat) i >>= fun _ => checkCapacity s.regs.dstLen.toNat output >>= rest) s :=
      (Engine.bind_ok (checkGate_ok hg)).trans ((Engine.bind_ok (dimensionCheck_ok hw hh)).trans (Engine.bind_ok (checkRegions_ok hl)))
    refine ⟨fun hsrc => raises (passed.trans ?src), fun hsrc hi haux => raises (passed.trans ?aux),
      fun hsrc haux hdst => raises (passed.trans ?dst)⟩
    case src => exact Engine.bind_error ((checkLength_apply _ _ s).trans (if_neg hsrc))
    case aux =>
      exact (Engine.bind_ok ((checkLength_apply _ _ s).trans (if_pos hsrc))).trans (Engine.bind_error (auxCheck_raises hi haux))
    case dst =>
      exact (Engine.bind_ok ((checkLength_apply _ _ s).trans (if_pos hsrc))).trans
        ((Engine.bind_ok (auxCheck_ok haux)).trans (Engine.bind_error ((checkCapacity_apply _ _ s).trans (if_neg (by omega)))))

/-! ## DECODE_IMAGE (R142, R143) -/

/-- R142: the first rows of the grid, every filter byte of them legal. -/
theorem decodeImageRows_first {s : State} {h count : Nat} (g : GridAt s h) (hc : count ≤ h)
    (hlegal : ∀ z, z < count → (s.mem.read (s.regs.srcAddr.toNat + z * s.regs.stride)).toNat ≤ 4) :
    ∃ m, decodeImageRows 0 count s =
        .ok () ((s.setMem m).setRegs (if count = 0 then s.regs else s.regs.setOutLen (count * s.regs.rowLen))) ∧
      (∀ z x, z < count → x < s.regs.rowLen → m.read (s.regs.dstAddr.toNat + z * s.regs.rowLen + x) =
        gridByte s.mem m s.regs.srcAddr.toNat s.regs.dstAddr.toNat s.regs.rowLen z x) ∧
      ∀ a, a < s.regs.dstAddr.toNat ∨ s.regs.dstAddr.toNat + count * s.regs.rowLen ≤ a → m.read a = s.mem.read a := by
  obtain ⟨m, hrun, hbytes, hframe⟩ := decodeImageRows_ok count (y := 0) g (by omega) fun z _ hz => hlegal z (by omega)
  rw [Nat.zero_add] at hrun
  exact ⟨m, hrun, fun z x hz hx => hbytes z x (Nat.zero_le z) (by omega) hx, fun a ha => hframe a (by simpa using ha)⟩

/-- Settles O48: all H rows of the grid. -/
theorem decodeImageReconstructsTheGrid : Obligations.DecodeImageReconstructsTheGrid := by
  rintro s n h src dst hn rfl rfl rfl hg hw hh hl hp hsrc hdst hlegal
  have hrow : s.regs.rowLen = n := hn.symm
  have hstride : s.regs.stride = 1 + n := by rw [hn]; rfl
  have hne : s.regs.imgHeight.toNat ≠ 0 := fun h0 => hh (BitVec.eq_of_toNat_eq h0)
  obtain ⟨m, hrun, hbytes, hframe⟩ := decodeImageRows_first (GridAt.of_regions hrow.symm hw hne hl hp hsrc hdst) (Nat.le_refl _)
    fun z hz => by rw [hstride]; exact hlegal z hz
  rw [hrow] at hrun hbytes hframe
  rw [if_neg hne] at hrun
  refine ⟨complete ((s.setMem m).setRegs (s.regs.setOutLen (s.regs.imgHeight.toNat * n))),
    runCommand_ok (body := decodeImageBody) ?_, rfl, hbytes, hframe⟩
  rw [decodeImageBody_checked hrow.symm rfl hg hw hh hl hsrc hdst, hrun]

/-! ## An unknown filter type (R82, R186) -/

/-- R140: RECON_ROW whose filter byte is no filter type writes nothing. -/
theorem exec_reconRow_unknown {s : State} {first : Bool} {n : Nat} (hn : n = s.regs.rowLen) (hg : s.gateOpen)
    (hw : s.regs.imgWidth ≠ 0) (hl : s.regionsLegal (.reconRow first)) (hh : s.holdsRegionsOf (.reconRow first))
    (hsrc : s.regs.srcLen.toNat = 1 + n) (haux : first = false → s.regs.auxLen.toNat = n) (hdst : n ≤ s.regs.dstLen.toNat)
    (hf : 4 < (s.mem.read s.regs.srcAddr.toNat).toNat) :
    exec (.reconRow first) s = .next (raiseError .unknownFilterType 0 s) := by
  refine runCommand_raised (body := reconRowBody first) ((reconRowBody_checked hn hg hw hl hh hsrc haux hdst).trans ?_)
  rw [Memory.readN_headD _ _ _ (by omega), FilterType.ofCode_none hf]
  rfl

/-- The rows below row `y` leave the filtered row `y` as it was. -/
theorem GridAt.filterByte_kept {s : State} {h y : Nat} {m : Memory} (g : GridAt s h) (hy : y < h)
    (hframe : ∀ a, a < s.regs.dstAddr.toNat ∨ s.regs.dstAddr.toNat + y * s.regs.rowLen ≤ a → m.read a = s.mem.read a) :
    m.read (s.regs.srcAddr.toNat + y * s.regs.stride) = s.mem.read (s.regs.srcAddr.toNat + y * s.regs.stride) := by
  have hrow : y * s.regs.rowLen ≤ h * s.regs.rowLen := Nat.mul_le_mul_right _ (by omega)
  have hrec : y * s.regs.stride + s.regs.stride ≤ h * s.regs.stride := row_below (count := 0) (by omega)
  have hpos : 0 < s.regs.stride := by rw [Regs.stride]; omega
  have hapart := g.apart
  exact hframe _ (by omega)

/-- R142: DECODE_IMAGE comes to the first row whose filter byte is no filter type, and stops there. -/
theorem decodeImageRows_unknown {s : State} {h y : Nat} (g : GridAt s h) (hy : y < h)
    (hlegal : ∀ z, z < y → (s.mem.read (s.regs.srcAddr.toNat + z * s.regs.stride)).toNat ≤ 4)
    (hf : 4 < (s.mem.read (s.regs.srcAddr.toNat + y * s.regs.stride)).toNat) :
    ∃ m, decodeImageRows 0 h s = .error (.raised .unknownFilterType (BitVec.ofNat 32 y))
        ((s.setMem m).setRegs (if y = 0 then s.regs else s.regs.setOutLen (y * s.regs.rowLen))) ∧
      (∀ z x, z < y → x < s.regs.rowLen → m.read (s.regs.dstAddr.toNat + z * s.regs.rowLen + x) =
        gridByte s.mem m s.regs.srcAddr.toNat s.regs.dstAddr.toNat s.regs.rowLen z x) ∧
      ∀ a, a < s.regs.dstAddr.toNat ∨ s.regs.dstAddr.toNat + y * s.regs.rowLen ≤ a → m.read a = s.mem.read a := by
  obtain ⟨m, hrun, hbytes, hframe⟩ := decodeImageRows_first g (Nat.le_of_lt hy) hlegal
  refine ⟨m, ?_, hbytes, hframe⟩
  obtain ⟨later, rfl⟩ : ∃ later, h = y + (later + 1) := ⟨h - y - 1, by omega⟩
  have hkept := g.filterByte_kept hy hframe
  have hstop : decodeImageRow y ((s.setMem m).setRegs (if y = 0 then s.regs else s.regs.setOutLen (y * s.regs.rowLen))) =
      .error (.raised .unknownFilterType (BitVec.ofNat 32 y))
        ((s.setMem m).setRegs (if y = 0 then s.regs else s.regs.setOutLen (y * s.regs.rowLen))) := by
    split_ifs
    · exact decodeImageRow_unknown (s := (s.setMem m).setRegs s.regs) ⟨g.srcHeld, g.dstHeld, g.apart⟩ hy (hkept ▸ hf)
    · exact decodeImageRow_unknown (s := (s.setMem m).setRegs (s.regs.setOutLen (y * s.regs.rowLen)))
        ⟨g.srcHeld, g.dstHeld, g.apart⟩ hy (hkept ▸ hf)
  rw [decodeImageRows_add, Engine.bind_ok hrun, Nat.zero_add]
  exact Engine.bind_error hstop

/-- Settles O49: RECON_ROW stops before it writes, and DECODE_IMAGE behind the rows before the unknown one. -/
theorem unknownFilterTypeStopsTheCommand : Obligations.UnknownFilterTypeStopsTheCommand := by
  rintro s n src dst hn rfl rfl hg hw
  refine ⟨fun first hl hh hsrc haux hdst hf => exec_reconRow_unknown hn hg hw hl hh hsrc haux hdst hf,
    fun y hl hp hy hsrc hdst hlegal hf => ?_⟩
  have hrow : s.regs.rowLen = n := hn.symm
  have hstride : s.regs.stride = 1 + n := by rw [hn]; rfl
  have hne : s.regs.imgHeight ≠ 0 := fun h0 => by rw [h0] at hy; exact absurd hy (Nat.not_lt_zero y)
  obtain ⟨m, hrun, hbytes, hframe⟩ := decodeImageRows_unknown
    (GridAt.of_regions hrow.symm hw (Nat.ne_of_gt (Nat.zero_lt_of_lt hy)) hl hp hsrc hdst) hy
    (fun z hz => by rw [hstride]; exact hlegal z hz) (by rw [hstride]; exact hf)
  rw [hrow] at hrun hbytes hframe
  refine ⟨_, runCommand_raised (body := decodeImageBody)
    ((decodeImageBody_checked hrow.symm rfl hg hw hne hl hsrc hdst).trans hrun), ?_, hbytes, hframe⟩
  split_ifs <;> rfl

/-! ## ISOLATE (R160) -/

/-- R182 of ISOLATE, passed. -/
theorem isolateBody_checked {s : State} {ch : BitVec 2} (hch : ch.toNat ≤ 2) (hg : s.gateOpen) (hw : s.regs.imgWidth ≠ 0)
    (hh : s.regs.imgHeight ≠ 0) (hl : s.regionsLegal (.isolate ch))
    (hsrc : s.regs.srcLen.toNat = s.regs.imgHeight.toNat * s.regs.rowLen)
    (hdst : s.regs.imgHeight.toNat * s.regs.stride ≤ s.regs.dstLen.toNat) :
    isolateBody ch s = (isolateRows ch.toNat 0 s.regs.imgHeight.toNat >>= fun _ =>
      setOutLen (s.regs.imgHeight.toNat * s.regs.stride)) s := by
  unfold isolateBody
  rw [Engine.bind_ok ((channelOperand_apply ch s).trans (if_pos hch)), Engine.get_bind, Engine.bind_ok (checkGate_ok hg),
    Engine.bind_ok ((checkDimensions_apply s).trans (if_pos ⟨hw, hh⟩)), Engine.bind_ok (checkRegions_ok hl),
    Engine.bind_ok ((checkLength_apply _ _ s).trans (if_pos hsrc)), Engine.bind_ok ((checkCapacity_apply _ _ s).trans (if_pos hdst))]

/-- R68: the grid and the records of an ISOLATE whose checks have passed do not meet. -/
theorem isolate_apart {s : State} {ch : BitVec 2} (hw : s.regs.imgWidth ≠ 0) (hh : s.regs.imgHeight ≠ 0)
    (hl : s.regionsLegal (.isolate ch)) (hsrc : s.regs.srcLen.toNat = s.regs.imgHeight.toNat * s.regs.rowLen)
    (hdst : s.regs.imgHeight.toNat * s.regs.stride ≤ s.regs.dstLen.toNat) :
    s.regs.srcAddr.toNat + s.regs.imgHeight.toNat * s.regs.rowLen ≤ s.regs.dstAddr.toNat ∨
      s.regs.dstAddr.toNat + s.regs.imgHeight.toNat * s.regs.stride ≤ s.regs.srcAddr.toNat := by
  have hhpos : 0 < s.regs.imgHeight.toNat := Nat.pos_of_ne_zero fun h0 => hh (BitVec.eq_of_toNat_eq h0)
  have hrow : 0 < s.regs.rowLen := by
    have := imgWidth_pos hw
    rw [Regs.rowLen]
    omega
  have hstride : 0 < s.regs.stride := by rw [Regs.stride]; omega
  exact (regionsLegal_apart (w := s.regs.dst) (r := s.regs.src) hl rfl (List.mem_singleton_self _) (Nat.mul_pos hhpos hstride)
    (Nat.mul_pos hhpos hrow) hdst (le_of_eq hsrc.symm)).symm

/-- Settles O50: the rows of ISOLATE, each byte of a pixel by its place in the row. -/
theorem isolateKeepsOneChannel : Obligations.IsolateKeepsOneChannel := by
  rintro s ch n h src dst hn rfl rfl rfl hch hg hw hh hl hp hsrc hdst
  have hrow : s.regs.rowLen = n := hn.symm
  have hstride : s.regs.stride = 1 + n := by rw [hn]; rfl
  rw [← hrow] at hsrc
  rw [← hstride] at hdst
  have hsrcHeld : s.platform.holdsAll s.regs.srcAddr.toNat (s.regs.imgHeight.toNat * s.regs.rowLen) = true :=
    State.holdsAll_of_regions hp (r := s.regs.src) (.inl (List.mem_singleton_self _)) (Nat.le_refl _)
      (Nat.add_le_add_left (le_of_eq hsrc.symm) _)
  have hdstHeld : s.platform.holdsAll s.regs.dstAddr.toNat (s.regs.imgHeight.toNat * s.regs.stride) = true :=
    State.holdsAll_of_regions hp (r := s.regs.dst) (.inr rfl) (Nat.le_refl _) (Nat.add_le_add_left hdst _)
  obtain ⟨m, hrun, hzero, hkept, hframe⟩ := isolateRows_ok ch.toNat s.regs.imgHeight.toNat (y := 0) hsrcHeld hdstHeld
    (isolate_apart hw hh hl hsrc hdst) (by omega)
  simp only [Nat.zero_add, Nat.zero_le, true_implies, Nat.zero_mul, Nat.add_zero] at hzero hkept hframe
  rw [hstride] at hzero hframe
  refine ⟨complete ((s.setMem m).setRegs (s.regs.setOutLen (s.regs.imgHeight.toNat * s.regs.stride))),
    runCommand_ok (body := isolateBody ch) ?run, by rw [hstride]; rfl, hzero, fun y x k hy hx hk => ?kept, hframe⟩
  case run =>
    rw [isolateBody_checked hch hg hw hh hl hsrc hdst, Engine.bind_ok hrun]
    rfl
  case kept =>
    have hcol : 3 * x + k < s.regs.rowLen := by rw [Regs.rowLen]; omega
    have hmod : (3 * x + k) % 3 = k := by omega
    have hplace : s.regs.srcAddr.toNat + y * s.regs.rowLen + (3 * x + k) =
        s.regs.srcAddr.toNat + (y * s.regs.imgWidth.toNat + x) * 3 + k := by
      rw [Regs.rowLen]
      ring
    have h := hkept y (3 * x + k) hy hcol
    rw [hmod, hplace, hstride] at h
    exact h

end Sys2Proof.Machine
end

section
/-! The container assembler (R165 to R171): what a completed and a failed ASSEMBLE leave, and the statements it settles. -/

namespace Sys2Proof.Machine

theorem SameStream.dstAddr {s t : State} (h : SameStream s t) : t.regs.dstAddr = s.regs.dstAddr :=
  BitVec.eq_of_toNat_eq (congrArg Region.base h.dst)

theorem SameStream.dstLen {s t : State} (h : SameStream s t) : t.regs.dstLen = s.regs.dstLen :=
  BitVec.eq_of_toNat_eq (congrArg Region.len h.dst)

/-- R165: the length field of the new "IDAT" is AUX_LEN. -/
theorem newIdat_readN (c : CrcChoice) (m : Memory) (a : Nat) (w : Word) :
    newIdat c (m.readN a w.toNat) =
      be32bytes w ++ typeIDAT ++ m.readN a w.toNat ++ be32bytes (crc32 c (typeIDAT ++ m.readN a w.toNat)) := by
  rw [newIdat, Memory.readN_length, ofNat_toNat_word]

/-! ## From the walk to the emissions (R167) -/

/-- R166, R167: the walk has come from `s` to `t` and kept `cs`, and the emissions of `cs` may begin. -/
structure ReadyToEmit (s t : State) (cs : List KeptChunk) : Prop where
  same : SameStream s t
  srcHeld : t.platform.holdsAll t.regs.srcAddr.toNat t.regs.srcLen.toNat = true
  dstHeld : t.platform.holdsAll t.regs.dstAddr.toNat t.regs.dstLen.toNat = true
  apart : ∀ a, ¬ (t.regs.dst.contains a = true ∧ t.regs.src.contains a = true)
  inside : ∀ c ∈ cs, c.off + 12 + c.len ≤ t.regs.srcLen.toNat

theorem AssembleInput.srcHeld {s : State} {ks : List Chunk} (p : AssembleInput s ks) :
    s.platform.holdsAll s.regs.srcAddr.toNat s.regs.srcLen.toNat = true :=
  State.holdsAll_of_regions p.held (r := s.regs.src) (.inl (by simp [regionsOf])) (Nat.le_refl _) (Nat.le_refl _)

theorem AssembleInput.readyToEmit {s : State} {ks : List Chunk} (p : AssembleInput s ks) (hend : endsAtIend ks) :
    ∃ t, ReadyToEmit s t (keptChunks 8 ks) ∧ assembleBody s =
      (emitVariant s.regs.ctrl.ancReduced (keptChunks 8 ks) (s.mem.readN s.regs.auxAddr.toNat s.regs.auxLen.toNat) >>=
        setOutLen) t := by
  obtain ⟨t, -, same, hin, hbody⟩ := p.walks hend
  refine ⟨t, { same, srcHeld := ?_, dstHeld := ?_, apart := ?_, inside := ?_ }, hbody⟩
  · rw [same.platform, same.srcAddr, same.srcLen]
    exact p.srcHeld
  · rw [same.platform, same.dstAddr, same.dstLen]
    exact State.holdsAll_of_regions p.held (r := s.regs.dst) (.inr rfl) (Nat.le_refl _) (Nat.le_refl _)
  · rw [same.dst, same.src]
    exact p.legal.2.2 s.regs.dst rfl s.regs.src (by simp [regionsOf])
  · rwa [same.srcLen]

/-! ## Emissions that fit (R166, R168, R169) -/

theorem emit_first {s : State} (hd : s.platform.holdsAll s.regs.dstAddr.toNat s.regs.dstLen.toNat = true) {bs : List Byte}
    (hl : bs.length ≤ s.regs.dstLen.toNat) : ∃ t, emit 0 bs s = .ok bs.length t ∧ Emitted s t bs :=
  emit_appends (out := []) (Emitted.start s) hd hl

/-- R168: variant (a) emits SIG and then its chunks. -/
theorem variantA_emits {s t : State} {cs : List KeptChunk} (r : ReadyToEmit s t cs) {p out : List Byte}
    (hi : cs.any (fun c => c.typ == typeIDAT) = true)
    (ho : out = pngSignature ++ variantABytes s.mem s.regs.srcAddr.toNat (newIdat s.platform.crc p) false cs)
    (hl : out.length ≤ s.regs.dstLen.toNat) : ∃ u, variantA cs p t = .ok out.length u ∧ Emitted t u out := by
  rw [← r.same.mem, ← r.same.srcAddr, ← r.same.platform] at ho
  rw [← r.same.dstLen] at hl
  subst ho
  obtain ⟨v, hv, hsig⟩ := emit_first (bs := pngSignature) r.dstHeld (by rw [List.length_append] at hl; omega)
  rw [variantA, require_bind, if_pos hi, Engine.bind_ok hv]
  exact emitVariantA_emits r.srcHeld r.dstHeld r.apart rfl cs v pngSignature false r.inside hsig hl

/-- R169: variant (b) emits SIG, the first "IHDR", the new "IDAT" and the last chunk kept. -/
theorem variantB_emits {s t : State} {cs : List KeptChunk} (r : ReadyToEmit s t cs) {p out : List Byte} {ih ie : KeptChunk}
    (hih : cs.find? (fun c => c.typ == typeIHDR) = some ih) (hie : cs.getLast? = some ie)
    (ho : out = pngSignature ++ verbatimBytes s.mem s.regs.srcAddr.toNat ih ++ newIdat s.platform.crc p ++
      verbatimBytes s.mem s.regs.srcAddr.toNat ie)
    (hl : out.length ≤ s.regs.dstLen.toNat) : ∃ u, variantB cs p t = .ok out.length u ∧ Emitted t u out := by
  rw [← r.same.mem, ← r.same.srcAddr, ← r.same.platform] at ho
  rw [← r.same.dstLen] at hl
  subst ho
  have hl3 := Nat.le_trans (List.prefix_append _ _).length_le hl
  have hl2 := Nat.le_trans (List.prefix_append _ _).length_le hl3
  have hl1 := Nat.le_trans (List.prefix_append _ _).length_le hl2
  obtain ⟨t1, h1, e1⟩ := emit_first r.dstHeld hl1
  have hv1 := verbatim_original e1 r.srcHeld r.apart hl1 (r.inside ih (List.mem_of_find?_eq_some hih))
  obtain ⟨t2, h2, e2⟩ := emit_appends e1 r.dstHeld hl2
  obtain ⟨t3, h3, e3⟩ := emit_appends e2 r.dstHeld hl3
  have hv3 := verbatim_original e3 r.srcHeld r.apart hl3 (r.inside ie (List.mem_of_getLast? hie))
  rw [variantB, hih, hie]
  dsimp only
  rw [Engine.bind_ok h1, Engine.bind_ok hv1, Engine.bind_ok h2, Engine.get_bind, e2.platform, Engine.bind_ok h3,
    Engine.bind_ok hv3]
  exact emit_appends e3 r.dstHeld hl

/-- R166, R167: what ASSEMBLE has left when its emissions `out` have gone through. -/
theorem exec_assemble_emitted {s t u : State} {cs : List KeptChunk} {x : Engine Nat} {out : List Byte}
    (r : ReadyToEmit s t cs) (hbody : assembleBody s = (x >>= setOutLen) t) (hx : x t = .ok out.length u)
    (he : Emitted t u out) :
    ∃ v, exec .assemble s = .next v ∧ v.regs.status.done = true ∧ v.regs.outLen = BitVec.ofNat 32 out.length ∧
      v.mem.readN s.regs.dstAddr.toNat out.length = out ∧
      ∀ a, a < s.regs.dstAddr.toNat ∨ s.regs.dstAddr.toNat + out.length ≤ a → v.mem.read a = s.mem.read a := by
  have hok : assembleBody s = .ok () (u.setRegs (u.regs.setOutLen out.length)) := hbody.trans (Engine.bind_ok hx)
  rw [← r.same.dstAddr, ← r.same.mem]
  exact ⟨_, runCommand_ok (body := assembleBody) hok, rfl, rfl, he.at_, he.outside⟩

/-- Settles O52: the walk, and the emissions of variant (a). -/
theorem assembleReplacesTheImageData : Obligations.AssembleReplacesTheImageData := by
  intro s ks p new out hlegal hheld hvar hlen hchunks hgood hearly hend hsize hidat hp hnew ho hl
  obtain ⟨t, hready, hbody⟩ := (AssembleInput.mk hlegal hheld hlen hchunks hgood hearly hsize).readyToEmit hend
  rw [← hp, hvar] at hbody
  have hnew : new = newIdat s.platform.crc p := by rw [hnew, hp, newIdat_readN]; rfl
  rw [hnew] at ho
  obtain ⟨u, hu, he⟩ := variantA_emits hready (keptChunks_any_idat ks 8 hidat) ho hl
  exact exec_assemble_emitted hready hbody hu he

/-- Settles O53: the walk, and the emissions of variant (b). -/
theorem assembleReducedKeepsHeaderAndEnd : Obligations.AssembleReducedKeepsHeaderAndEnd := by
  intro s ks ih ie p new out hlegal hheld hvar hlen hchunks hgood hearly hend hsize hih hie hp hnew ho hl
  obtain ⟨t, hready, hbody⟩ := (AssembleInput.mk hlegal hheld hlen hchunks hgood hearly hsize).readyToEmit hend
  rw [← hp, hvar] at hbody
  have hnew : new = newIdat s.platform.crc p := by rw [hnew, hp, newIdat_readN]; rfl
  rw [hnew] at ho
  obtain ⟨u, hu, he⟩ := variantB_emits hready hih hie ho hl
  exact exec_assemble_emitted hready hbody hu he

/-! ## ASSEMBLE with an error (R170) -/

/-- R167, R170: an ASSEMBLE that raises has emitted nothing, or its emissions were spoiled. -/
theorem assembleBody_raises {s u : State} {c : ErrCode} {i : Word} (h : assembleBody s = .error (.raised c i) u) :
    SameStream s u ∨ ∃ t, SameStream s t ∧ Spoiled t c u := by
  unfold assembleBody at h
  obtain ⟨e, hreg, -⟩ | ⟨hreg, -⟩ := checkRegions_cases .assemble s
  · cases (Engine.bind_error hreg).symm.trans h
    exact .inl (SameStream.refl s)
  rw [Engine.bind_ok hreg, Engine.bind_apply, checkStream_apply] at h
  split_ifs at h
  case neg =>
    cases h
    exact .inl (SameStream.refl s)
  dsimp only at h
  rw [Engine.get_bind, Engine.bind_apply] at h
  cases hw : walkChunks 8 (walkFuel s.regs) s with
  | error e t =>
    rw [hw] at h
    cases h
    exact .inl (Engine.keeps_error (keeps_walkChunks _ _) hw)
  | ok cs t =>
    have hsame := Engine.keeps_ok (keeps_walkChunks _ _) hw
    rw [hw] at h
    dsimp only at h
    rw [memRead_bind] at h
    split at h
    case isFalse => cases h
    rw [Engine.bind_apply] at h
    split at h
    next => cases h
    next e v hv =>
      cases h
      obtain rfl | hspoiled := emitVariant_fails hv
      · exact .inl hsame
      · exact .inr ⟨t, hsame, hspoiled⟩

/-- Settles O54: a completed ASSEMBLE shows no ERROR, and one that raises is `assembleBody_raises`. -/
theorem failedAssembleLeavesNoSignature : Obligations.FailedAssembleLeavesNoSignature := by
  intro s t hexec herr
  obtain ⟨u, -, rfl⟩ | ⟨c, i, u, hu, rfl⟩ := runCommand_next (body := assembleBody) hexec
  · exact absurd herr Bool.false_ne_true
  obtain hsame | ⟨v, hsame, rfl, hregs, hzero⟩ := assembleBody_raises hu
  · exact ⟨hsame.outLen, .inl fun a => congrArg (Memory.read · a) hsame.mem⟩
  · refine ⟨?_, .inr ⟨rfl, ?_⟩⟩
    · show u.regs.outLen = s.regs.outLen
      rw [hregs, hsame.outLen]
    · rw [← hsame.dstAddr]
      exact hzero

/-! ## Streams that ASSEMBLE cannot use (R100, R102, R167 to R169) -/

theorem assembleBody_walk_raises {s u : State} {c : ErrCode} {i : Word} (hlegal : s.regionsLegal .assemble)
    (hlen : 8 ≤ s.regs.srcLen.toNat) (h : walkChunks 8 (walkFuel s.regs) s = .error (.raised c i) u) :
    assembleBody s = .error (.raised c i) u := by
  rw [assembleBody, Engine.bind_ok (checkRegions_ok hlegal), Engine.bind_ok ((checkStream_apply s).trans (if_pos hlen)),
    Engine.get_bind, Engine.bind_error h]

theorem assembleBody_short {s : State} (hlegal : s.regionsLegal .assemble) (hlen : s.regs.srcLen.toNat < 8) :
    assembleBody s = .error (.raised .badArgument 4) s := by
  rw [assembleBody, Engine.bind_ok (checkRegions_ok hlegal)]
  exact Engine.bind_error ((checkStream_apply s).trans (if_neg (by omega)))

theorem variantA_noIdat {cs : List KeptChunk} (h : ∀ c ∈ cs, c.typ ≠ typeIDAT) (p : List Byte) (s : State) :
    variantA cs p s = .error (.raised .noIdat 0) s := by
  have hnone : ¬ cs.any (fun c => c.typ == typeIDAT) = true := by simpa using h
  rw [variantA, require_bind, if_neg hnone]

theorem variantB_noHeader {cs : List KeptChunk} (h : ∀ c ∈ cs, c.typ ≠ typeIHDR) (p : List Byte) (s : State) :
    variantB cs p s = .error (.raised .malformedHeader 5) s := by
  have hnone : cs.find? (fun c => c.typ == typeIHDR) = none := by simpa using h
  rw [variantB, hnone]
  rfl

/-- R167: the walk comes past the chunks `ks`, none of which ends it, and what it raises behind them ASSEMBLE raises. -/
theorem AssembleInput.walk_past {s : State} {ks : List Chunk} (p : AssembleInput s ks) (hend : ¬ endsAtIend ks) :
    ∃ t, SameStream s t ∧
      t.regs.corruptCount = s.regs.corruptCount + BitVec.ofNat 32 (ks.filter (fun k => !k.good)).length ∧
      ∀ {c i u}, (∀ fuel, walkChunks (8 + chunksSize ks) (fuel + 1) t = .error (.raised c i) u) →
        assembleBody s = .error (.raised c i) u := by
  have hsize := p.size
  have hcount := chunksSize_ge ks
  obtain ⟨fuel, hfuel⟩ : ∃ fuel, walkFuel s.regs = fuel + 1 + ks.length :=
    ⟨walkFuel s.regs - (ks.length + 1), by unfold walkFuel; omega⟩
  obtain ⟨t, hsame, hcorrupt, hwalk⟩ := walkChunks_past ks s 8 (fuel + 1) p.srcHeld p.chunks p.good
    (noEnd_of_notEnding p.early hend) p.size
  refine ⟨t, hsame, hcorrupt, fun h => assembleBody_walk_raises p.legal p.len8 ?_⟩
  rw [hfuel, hwalk, Engine.bind_error (h fuel)]

theorem walkChunks_unread {off fuel : Nat} {s u : State} {e : Stop} (hoff : off ≠ s.regs.srcLen.toNat)
    (h : readChunk off s = .error e u) : walkChunks off (fuel + 1) s = .error e u := by
  rw [walkChunks, Engine.get_bind, if_neg hoff, Engine.bind_error h]

theorem walkChunks_strict {off fuel : Nat} {s u : State} {k : Chunk} (hoff : off ≠ s.regs.srcLen.toNat)
    (h : readChunk off s = .ok k u) (hbad : k.good = false) (hp : u.regs.ctrl.crcSkip = false) :
    walkChunks off (fuel + 1) s =
      .error (.raised .corruptedChunk (packType k.typ)) (u.setRegs (u.regs.recordMismatch k.typ)) := by
  rw [walkChunks, Engine.get_bind, if_neg hoff, Engine.bind_ok h, if_neg (by simp [hbad])]
  exact Engine.bind_error ((onMismatch_apply _ _).trans (if_neg (by simp [hp])))

/-- R167 to R169: a stream without "IEND", and a variant without its chunk, raise their errors over the bytes as they were. -/
theorem AssembleInput.verdict {s : State} {ks : List Chunk} (p : AssembleInput s ks) {verdict : Byte × Word}
    (h : (¬ endsAtIend ks ∧ 8 + chunksSize ks = s.regs.srcLen.toNat ∧ verdict = (2, s.regs.srcLen)) ∨
      (endsAtIend ks ∧ s.regs.ctrl.ancReduced = false ∧
        (∀ k ∈ ks, ¬ (k.good = true ∧ k.typ = typeIDAT)) ∧ verdict = (21, 0)) ∨
      (endsAtIend ks ∧ s.regs.ctrl.ancReduced = true ∧
        (∀ k ∈ ks, ¬ (k.good = true ∧ k.typ = typeIHDR)) ∧ verdict = (4, 5))) :
    ∃ c u, assembleBody s = .error (.raised c verdict.2) u ∧ c.number = verdict.1 ∧ u.mem = s.mem := by
  obtain ⟨hend, hlen, rfl⟩ | ⟨hend, hvar, hnone, rfl⟩ | ⟨hend, hvar, hnone, rfl⟩ := h
  · have hsize := p.size
    have hcount := chunksSize_ge ks
    obtain ⟨t, ht⟩ := (walkChunks_over ks s 8 (walkFuel s.regs) p.srcHeld p.chunks p.good p.early p.size
      (by unfold walkFuel; omega)).2 hend hlen
    exact ⟨.streamTruncated, t, assembleBody_walk_raises p.legal p.len8 ht, rfl,
      (Engine.keeps_error (keeps_walkChunks _ _) ht).mem⟩
  · obtain ⟨t, hready, hbody⟩ := p.readyToEmit hend
    rw [hvar] at hbody
    exact ⟨.noIdat, t, hbody.trans (Engine.bind_error (variantA_noIdat (keptChunks_typ ks typeIDAT 8 hnone) _ t)), rfl,
      hready.same.mem⟩
  · obtain ⟨t, hready, hbody⟩ := p.readyToEmit hend
    rw [hvar] at hbody
    exact ⟨.malformedHeader, t, hbody.trans (Engine.bind_error (variantB_noHeader (keptChunks_typ ks typeIHDR 8 hnone) _ t)), rfl,
      hready.same.mem⟩

/-- Settles O55: the stream's length, the three verdicts, and the chunk behind those that the walk has come past. -/
theorem assembleNeedsItsChunks : Obligations.AssembleNeedsItsChunks := by
  intro s ks hlegal hheld
  refine ⟨fun hshort => ?short, fun hlen hchunks hgood hearly hsize verdict hv => ?verdicts,
    fun hlen hchunks hgood hearly hend off k hoff hin hk => ?next⟩
  case short => exact runCommand_raised (body := assembleBody) (assembleBody_short hlegal hshort)
  case verdicts =>
    obtain ⟨c, u, hbody, hc, hm⟩ := (AssembleInput.mk hlegal hheld hlen hchunks hgood hearly hsize).verdict hv
    exact ⟨_, runCommand_raised (body := assembleBody) hbody, rfl, hc, rfl, hm⟩
  case next =>
    have p : AssembleInput s ks := ⟨hlegal, hheld, hlen, hchunks, hgood, hearly, by omega⟩
    obtain ⟨t, same, hcount, hraises⟩ := p.walk_past hend
    rw [← hoff] at hraises
    have hne : off ≠ t.regs.srcLen.toNat := by rw [same.srcLen]; omega
    have hkt : k = chunkAt t.platform.crc t.mem t.regs.srcAddr.toNat off := by
      rw [same.platform, same.mem, same.srcAddr]
      exact hk
    have hheldt : ∀ n, off + n ≤ s.regs.srcLen.toNat → t.platform.holdsAll (t.regs.srcAddr.toNat + off) n = true := by
      intro n hn
      rw [same.platform, same.srcAddr]
      exact holdsAll_sub p.srcHeld (by omega) (by omega)
    refine ⟨fun htrunc => ?truncated, fun hwhole hbad hstrict => ?strict⟩
    case truncated =>
      have hread : readChunk off t = .error (.raised .streamTruncated (BitVec.ofNat 32 off)) t :=
        readChunk_truncated hkt (by rw [same.srcLen]; omega) (fun h => hheldt 8 (by rw [same.srcLen] at h; omega))
      exact ⟨_, runCommand_raised (body := assembleBody) (hraises fun _ => walkChunks_unread hne hread), rfl, rfl, rfl, hcount,
        same.mem⟩
    case strict =>
      have hall : ks.filter (fun k => !k.good) = [] := by simpa using hgood.resolve_left (by simp [hstrict])
      have hpolicy : t.regs.ctrl.crcSkip = false := by rw [same.ctrl, hstrict]
      have hread := readChunk_ok hkt (by rw [same.srcLen]; omega) (hheldt _ (by omega))
      refine ⟨_, runCommand_raised (body := assembleBody) (hraises fun _ => walkChunks_strict hne hread hbad hpolicy), rfl, rfl,
        rfl, rfl, ?_, rfl, rfl, rfl, rfl, ?_, same.mem⟩
      · show t.regs.corruptCount + 1 = _
        rw [hcount, hall]
        simp
      · show storedCrcAt t.mem t.regs.srcAddr.toNat off = _
        rw [same.mem, same.srcAddr]

/-! ## CAPACITY (R166, R170, R181) -/

/-- R166: nothing has been emitted exactly when no piece has been. -/
theorem flatten_before_eq_nil_iff {q piece : List Byte} {qs before after : List (List Byte)} (hq : q ≠ [])
    (h : q :: qs = before ++ piece :: after) : before.flatten = [] ↔ before = [] := by
  obtain ⟨rfl, -⟩ | ⟨before', rfl, -⟩ := cons_split h
  · simp
  · simp [hq]

/-- Settles O60: the walk, and the emissions up to the first piece that does not fit. -/
theorem assembleCapacityKeepsWhatWasEmitted : Obligations.AssembleCapacityKeepsWhatWasEmitted := by
  intro s ks ih ie p new piece before after o dst hlegal hheld hlen hchunks hgood hearly hend hsize ha hb hp hnew hpieces
    ho hfit hover hdst
  subst o dst
  obtain ⟨t, r, hbody⟩ := (AssembleInput.mk hlegal hheld hlen hchunks hgood hearly hsize).readyToEmit hend
  have hnew : new = newIdat t.platform.crc p := by rw [hnew, hp, r.same.platform, newIdat_readN]; rfl
  rw [← hp, ← r.same.ctrl] at hbody
  have hp' : assemblePieces t (keptChunks 8 ks) ih ie new = before ++ piece :: after := by
    rw [assemblePieces, r.same.ctrl, r.same.mem, r.same.srcAddr]
    exact hpieces
  obtain ⟨u, hu, hover⟩ := emitVariant_overflows r.srcHeld r.dstHeld r.apart hnew r.inside
    (fun h => keptChunks_any_idat ks 8 (ha (by rw [← r.same.ctrl]; exact h))) (fun h => hb (by rw [← r.same.ctrl]; exact h)) hp'
    (by rw [r.same.dstLen]; exact hfit) (by rw [r.same.dstLen]; exact hover)
  have hnil := flatten_before_eq_nil_iff (by decide) hpieces
  refine ⟨_, runCommand_raised (body := assembleBody) (hbody.trans (Engine.bind_error hu)), rfl, rfl, rfl, ?_, fun h => ?_,
    fun h => ?_⟩
  · show u.regs.outLen = s.regs.outLen
    rw [hover.regs, r.same.outLen]
  · rw [← r.same.mem]
    exact hover.untouched (hnil.2 h)
  · rw [← r.same.mem, ← r.same.dstAddr]
    exact hover.spoiled fun hn => h (hnil.1 hn)

/-! ## The re-parse law (R171) -/

/-- R171: the stream of `u` is SIG and the bytes of the chunks `ks`, up to its end. -/
structure StreamOf (u : State) (ks : List Chunk) : Prop where
  length : u.regs.srcLen.toNat = 8 + chunksSize ks
  bytes : u.mem.readN u.regs.srcAddr.toNat (8 + chunksSize ks) = pngSignature ++ ks.flatMap (wire u.platform.crc)

theorem StreamOf.split {u : State} {ks : List Chunk} (h : StreamOf u ks) :
    u.mem.readN u.regs.srcAddr.toNat 8 = pngSignature ∧
      u.mem.readN (u.regs.srcAddr.toNat + 8) (chunksSize ks) = ks.flatMap (wire u.platform.crc) := by
  have hbytes := h.bytes
  rw [Memory.readN_append] at hbytes
  exact List.append_inj hbytes (Memory.readN_length _ _ _)

theorem StreamOf.chunksAt {u : State} {ks : List Chunk} (h : StreamOf u ks) (hw : ∀ k ∈ ks, WireChunk k) :
    chunksAt u.platform.crc u.mem u.regs.srcAddr.toNat 8 ks :=
  chunksAt_of_wire ks hw h.split.2

/-- R171: the output of a completed assembly, taken as the stream of `u`. -/
theorem Assembled.streamOf {s t u : State} {ks : List Chunk} (h : Assembled s t ks) (hplat : u.platform = t.platform)
    (hsrc : u.regs.srcAddr = t.regs.dstAddr) (hlen : u.regs.srcLen = t.regs.outLen)
    (hmem : ∀ a, u.regs.src.contains a = true → u.mem.read a = t.mem.read a) : StreamOf u ks := by
  have hl : u.regs.srcLen.toNat = 8 + chunksSize ks := by rw [hlen, h.outLen]
  have hd : u.regs.srcAddr.toNat = s.regs.dstAddr.toNat := by rw [hsrc]; exact congrArg Region.base h.dst
  refine ⟨hl, ?_⟩
  rw [hplat, h.platform, ← h.bytes, ← hd]
  refine Memory.readN_congr fun i hi => hmem _ ?_
  rw [Region.contains_iff]
  simp only [Regs.src]
  omega

/-- R103, R171: a stream that begins with SIG passes CHECK_SIG. -/
theorem StreamOf.exec_checkSig {u : State} {ks : List Chunk} (h : StreamOf u ks) (hl : u.regionsLegal .parseAll)
    (hh : u.holdsRegionsOf .parseAll) : exec .checkSig u = .next (complete u) := by
  have hfit : u.regs.srcAddr.toNat + u.regs.srcLen.toNat ≤ 2 ^ 32 := hl.1 u.regs.src (by simp [regionsOf])
  have hheld : u.platform.holdsRegion ⟨u.regs.srcAddr.toNat, min u.regs.srcLen.toNat 8⟩ := by
    intro a ha
    have hin : u.regs.src.contains a = true := by
      rw [Region.contains_iff] at ha ⊢
      simp only [Regs.src] at ha ⊢
      omega
    exact hh a (by simp [regionsOf, Regions.contains, hin])
  exact (checkSigComparesTheSignature u hfit hheld).1 (by rw [h.length]; omega) h.split.1

/-- R104: what PARSE_INIT leaves (`parseInitRestartsTheParser`). -/
def parserStart (u : State) : State := complete (u.setRegs u.regs.parseInit)

/-- Settles O56: what the assembly has emitted reads back as its chunks (`Assembled`), which PARSE_ALL collects (O37). -/
theorem assembledStreamsParseBack : Obligations.AssembledStreamsParseBack := by
  intro s t u hexec hdone hplat hsrc hlen hmem hlegal hheld haux
  obtain ⟨w, hbody, rfl⟩ | ⟨c, i, w, -, rfl⟩ := runCommand_next (body := assembleBody) hexec
  case inr => exact absurd hdone Bool.false_ne_true
  obtain ⟨ks, ha⟩ := assembleBody_ok hbody
  have hstream := ha.streamOf (u := u) hplat hsrc hlen hmem
  obtain ⟨hwires, hearly, hend, hpay⟩ := ha.stream
  have hpl : (payloadOf ks).length = s.regs.auxLen.toNat := by rw [hpay, Memory.readN_length]
  have hnone : ks.filter (fun k => !k.good) = [] := by simpa using fun k hk => (hwires k hk).good
  obtain ⟨x, hx, hxd, hoff, hidat, hbytes, -, -, hcorrupt, hiend, -⟩ := parseAllConcatenatesThePayload (parserStart u) ks
    (State.regionsLegal_congr rfl hlegal) hheld rfl rfl (hstream.chunksAt hwires) (.inr fun k hk => (hwires k hk).good) hearly
    hstream.length.ge (.inl hend) (by rw [hpl]; exact (Nat.zero_add _).trans_le haux)
  refine ⟨hstream.exec_checkSig hlegal hheld, parserStart u, x, parseInitRestartsTheParser u, rfl, hx, hxd, (hiend hend).1,
    ?_, ?_, ?_, ?_⟩
  · rw [hoff]
    exact (congrArg (BitVec.ofNat 32) hstream.length.symm).trans (ofNat_toNat_word _)
  · rw [hcorrupt, hnone]
    rfl
  · rw [hidat, hpl]
    exact (congrArg (BitVec.ofNat 32) (Nat.zero_add _)).trans (ofNat_toNat_word _)
  · rw [← hpay, ← hpl]
    exact hbytes

end Sys2Proof.Machine
end
